-- ==== Sys2Proof/Word.lean ====
section
/-!
DEFINITION. The word types of the block (00_scope.md R6, R7: a chip register, a chip register address, the
request word and the result word are 8 bits each; the frame identifier word is 32 bits; bit 0 is the least
significant bit).
-/

namespace Sys2Proof

/-- One byte: a chip register, the request word, the result word, a payload byte (R6, R7). -/
abbrev Byte := BitVec 8

/-- The 32-bit frame identifier word (R6, R90). -/
abbrev IdWord := BitVec 32

/-- The payload of a frame: eight bytes, DATA[0] first (R91). -/
abbrev Payload := Vector Byte 8

end Sys2Proof
end

