-- ==== Sys2Proof/Syntax.lean ====
section
/-!
DEFINITION. The operations of the block, one constructor per row of spec/opcode_table.json
(30_encoding.md R101), with their one operand form: the receive-buffer select B of R100.
-/

namespace Sys2Proof

/-- A receive buffer: `B = OPREQ[4]`, 0 = rx0, 1 = rx1 (R100). -/
inductive Buf where
  | rx0
  | rx1
  deriving DecidableEq, Repr

/-- Who issues an operation (column "issued by" of R101). -/
inductive Issuer where
  | client
  | dispatcher
  deriving DecidableEq, Repr

/-- The eleven operations of R101. -/
inductive Instr where
  /-- NOP, 42_dispatcher.md R209. -/
  | nop
  /-- ENCODE, 40_codec.md R130. -/
  | encode
  /-- DECODE, 40_codec.md R133. -/
  | decode
  /-- RXREAD b, 40_codec.md R134. -/
  | rxread (b : Buf)
  /-- DISPATCH, the event pass, 42_dispatcher.md R207. -/
  | dispatch
  /-- DISPATCH.TO, the timeout pass, 42_dispatcher.md R208. -/
  | dispatchTo
  /-- SNAPERR, 41_error_ops.md R160. -/
  | snaperr
  /-- CLASSIFY, 41_error_ops.md R161. -/
  | classify
  /-- CLROVR b, 41_error_ops.md R163. -/
  | clrovr (b : Buf)
  /-- RECOVER, 41_error_ops.md R164. -/
  | recover
  /-- BRESET, 42_dispatcher.md R210. -/
  | breset
  deriving DecidableEq, Repr

/-- The pseudo-instructions of R108: each stands for several client operations. -/
inductive Pseudo where
  /-- `errcheck`. -/
  | errcheck
  /-- `clrovr.all`. -/
  | clrovrAll
  deriving DecidableEq, Repr

end Sys2Proof
end

