-- ==== Sys2Proof/Config.lean ====
section
/-!
DEFINITION. What is fixed for one block or comes from outside it: the parameters of 00_scope.md R6, among them
the chip's layout (00_scope.md R2, 20_memory.md R69, 30_encoding.md R92 to R104), the data layouts of 30_encoding.md, the acts of
the environment agents (10_state.md R20), and the free values the spec leaves as draws (constants without a body).
-/

namespace Sys2Proof

/-- `RTR_SOURCE`: where DECODE reads the remote-request bit (R6, R133). -/
inductive RtrSource where
  | dlcByte
  | rxctrl
  deriving DecidableEq, Repr, Inhabited

/-- The chip's modes (R99). -/
inductive Mode where
  | normal
  | sleep
  | loopback
  | listenOnly
  | configuration
  deriving DecidableEq, Repr

/-- The chip's layout: the register addresses (R6, R69), the flag positions (R97), the positions of the EFLG bits
that the block reads or writes (R98), the mode codes and their fields (R99), the positions inside a buffer (R46, R47,
R92 to R96) and the command bytes (R104). Each address, bit position and command byte of the chip is a parameter
(R2, R6). A field of several bits is named by its lowest bit. -/
structure ChipLayout where
  /-- `ADDR_CANSTAT`, the mode-status register. -/
  canstat : Nat
  /-- `ADDR_CANCTRL`, the mode-request register. -/
  canctrl : Nat
  /-- `ADDR_TEC`, the transmit error counter. -/
  tec : Nat
  /-- `ADDR_REC`, the receive error counter. -/
  recCounter : Nat
  /-- `ADDR_CANINTE`, the interrupt-enable register. -/
  caninte : Nat
  /-- `ADDR_CANINTF`, the interrupt-flag register. -/
  canintf : Nat
  /-- `ADDR_EFLG`, the error-flag register. -/
  eflg : Nat
  /-- `RXB_BASE(0)`, the control register of receive buffer 0. -/
  rxb0 : Nat
  /-- `RXB_BASE(1)`. -/
  rxb1 : Nat
  /-- `TXB_BASE(0)`, the control register of transmit buffer 0. -/
  txb0 : Nat
  /-- `TXB_BASE(1)`. -/
  txb1 : Nat
  /-- `TXB_BASE(2)`. -/
  txb2 : Nat
  /-- The position of RX0 in CANINTF. -/
  rx0Bit : Fin 8
  /-- The position of RX1. -/
  rx1Bit : Fin 8
  /-- The position of TX0. -/
  tx0Bit : Fin 8
  /-- The position of TX1. -/
  tx1Bit : Fin 8
  /-- The position of TX2. -/
  tx2Bit : Fin 8
  /-- The position of ERR. -/
  errBit : Fin 8
  /-- The position of WAKE. -/
  wakeBit : Fin 8
  /-- The position of TXBO in EFLG. -/
  txboBit : Fin 8
  /-- The position of RX0OVR. -/
  ovr0Bit : Fin 8
  /-- The position of RX1OVR. -/
  ovr1Bit : Fin 8
  /-- The code of Normal mode in REQOP and OPMOD. -/
  normal : BitVec 3
  /-- The code of Sleep mode. -/
  sleep : BitVec 3
  /-- The code of Loopback mode. -/
  loopback : BitVec 3
  /-- The code of Listen-Only mode. -/
  listenOnly : BitVec 3
  /-- The code of Configuration mode. -/
  configuration : BitVec 3
  /-- The lowest bit of REQOP, 3 bits of CANCTRL (R44, R99). -/
  reqopLo : Fin 6
  /-- The lowest bit of OPMOD, 3 bits of CANSTAT (R44, R99). -/
  opmodLo : Fin 6
  /-- The position of TXREQ in TXBnCTRL (R47). -/
  txreqBit : Fin 8
  /-- The position of RXRTR in RXBnCTRL (R46, R92). -/
  rxrtrBit : Fin 8
  /-- The lowest bit of SID[2:0] in SIDL (R93). -/
  sidLo : Fin 6
  /-- The position of EXIDE in SIDL (R93). -/
  exideBit : Fin 8
  /-- The lowest bit of EID[17:16] in SIDL (R93). -/
  eidLo : Fin 7
  /-- The position of RTR in the DLC byte (R94). -/
  dlcRtrBit : Fin 8
  /-- The lowest bit of the length, 4 bits of the DLC byte (R94). -/
  dlcLo : Fin 5
  /-- The command byte of XRead (R104). -/
  readCmd : Byte
  /-- The command byte of XWrite. -/
  writeCmd : Byte
  /-- The command byte of XModify. -/
  modifyCmd : Byte
  /-- The command byte of XReset. -/
  resetCmd : Byte
  deriving DecidableEq, Repr, Inhabited

/-- `RXB_BASE(b)` (R6). -/
def ChipLayout.rxbBase (m : ChipLayout) : Buf → Nat
  | .rx0 => m.rxb0
  | .rx1 => m.rxb1

/-- `TXB_BASE(n)` (R6). -/
def ChipLayout.txbBase (m : ChipLayout) (n : Fin 3) : Nat :=
  match n.val with
  | 0 => m.txb0
  | 1 => m.txb1
  | _ => m.txb2

/-- The REQOP and OPMOD code of a mode (R99). -/
def ChipLayout.modeCode (m : ChipLayout) : Mode → BitVec 3
  | .normal => m.normal
  | .sleep => m.sleep
  | .loopback => m.loopback
  | .listenOnly => m.listenOnly
  | .configuration => m.configuration

/-- The defaults of R6, R46, R47, R69, R93, R94, R97 to R99 and R104 (notes/assumptions/2). -/
def mcp2515 : ChipLayout :=
  { canstat := 0x0E, canctrl := 0x0F, tec := 0x1C, recCounter := 0x1D, caninte := 0x2B, canintf := 0x2C
    eflg := 0x2D, rxb0 := 0x60, rxb1 := 0x70, txb0 := 0x30, txb1 := 0x40, txb2 := 0x50
    rx0Bit := 0, rx1Bit := 1, tx0Bit := 2, tx1Bit := 3, tx2Bit := 4, errBit := 5, wakeBit := 6
    txboBit := 5, ovr0Bit := 6, ovr1Bit := 7
    normal := 0b000, sleep := 0b001, loopback := 0b010, listenOnly := 0b011, configuration := 0b100
    reqopLo := 5, opmodLo := 5, txreqBit := 3, rxrtrBit := 3, sidLo := 5, exideBit := 3, eidLo := 0
    dlcRtrBit := 6, dlcLo := 0, readCmd := 0x03, writeCmd := 0x02, modifyCmd := 0x05, resetCmd := 0xC0 }

/-- The parameters of R6 that the spec leaves OPEN or gives only a default for. They stand in `State`
(field `par`), where no step changes them, so a claim about every state is a claim about every value of them
(notes/assumptions/1). A parameter that R6 requires to be at least 1 is held as its excess over 1. -/
structure Params where
  /-- `RTR_SOURCE`. -/
  rtrSource : RtrSource
  /-- `RX_RETRY_LIMIT`. -/
  rxRetryLimit : Nat
  /-- `NATIVE_BIT_MODIFY`. -/
  nativeBitModify : Bool
  /-- `XFER_ATTEMPTS` - 1. -/
  xferExtra : Nat
  /-- `EVQ_CAP` - 1. -/
  evqExtra : Nat
  /-- `RXQ_CAP` - 1. -/
  rxqExtra : Nat
  /-- `WAKE_TIMEOUT` - 1. -/
  wakeExtra : Nat
  /-- `MODE_POLL_LIMIT` - 1. -/
  pollExtra : Nat
  /-- `MODE_POLL_DELAY`. -/
  pollDelay : Nat
  /-- `BACKOFF_MIN` - 1. -/
  backoffMinExtra : Nat
  /-- The rises of `BACKOFF`: entry i is BACKOFF(i+1) - BACKOFF(i), with BACKOFF(0) read as BACKOFF_MIN. -/
  backoffRise : List Nat
  /-- `RECFAILS_MAX`. -/
  recfailsMax : Byte
  /-- The chip's layout. -/
  layout : ChipLayout
  deriving DecidableEq, Repr, Inhabited

/-- `XFER_ATTEMPTS` ≥ 1 (R6, R65). -/
def Params.xferAttempts (p : Params) : Nat := p.xferExtra + 1
/-- `EVQ_CAP` ≥ 1 (R6, R36). -/
def Params.evqCap (p : Params) : Nat := p.evqExtra + 1
/-- `RXQ_CAP` ≥ 1 (R6, R37). -/
def Params.rxqCap (p : Params) : Nat := p.rxqExtra + 1
/-- `WAKE_TIMEOUT` ≥ 1 (R6, R192). -/
def Params.wakeTimeout (p : Params) : Nat := p.wakeExtra + 1
/-- `MODE_POLL_LIMIT` ≥ 1 (R6, R165). -/
def Params.modePollLimit (p : Params) : Nat := p.pollExtra + 1
/-- `BACKOFF_MIN` ≥ 1 (R6). -/
def Params.backoffMin (p : Params) : Nat := p.backoffMinExtra + 1
/-- `BACKOFF(k)`: nondecreasing, at least BACKOFF_MIN (R6, R166). -/
def Params.backoff (p : Params) (k : Nat) : Nat := p.backoffMin + (p.backoffRise.take k).sum

/-- At least as many block steps as the longest operation or pass takes (R215): more than the transactions
of a pass, with two steps for each attempt of a non-native modify (R63). -/
def Params.stepBound (p : Params) : Nat := 8 * p.xferAttempts + 2 * p.modePollLimit + 64

namespace Config

/-- The chip implements addresses 0x00 to 0x7F (R60). -/
def addressLimit : Nat := 0x80

end Config

/-- A frame in the FIN and FOUT layout (R21, R22, R90, R91). -/
structure Frame where
  /-- The frame word: EXT bit 31, RTR bit 30, reserved bit 29, RAWID 28:0. -/
  id : IdWord
  /-- The data length. -/
  dlc : Byte
  /-- DATA[0..7]. -/
  data : Payload
  deriving DecidableEq, Repr

/-- A buffer image: 14 bytes at offsets 0 to 13 (R92). -/
structure Image where
  /-- Offset 0. -/
  ctrl : Byte
  /-- Offset 1. -/
  sidh : Byte
  /-- Offset 2 (R93). -/
  sidl : Byte
  /-- Offset 3. -/
  eid8 : Byte
  /-- Offset 4. -/
  eid0 : Byte
  /-- Offset 5 (R94). -/
  dlc : Byte
  /-- Offsets 6 to 13. -/
  data : Payload
  deriving DecidableEq, Repr

/-- A step of the chip agent (60_exceptions.md R264 (a) to (g), R265). -/
inductive ChipAct where
  /-- (a) set CANINTF bits to 1. -/
  | setFlags (m : Byte)
  /-- (b) load receive buffer b and set its flag; only while the flag is 0 (R265). -/
  | loadRx (b : Buf) (img : Image)
  /-- (b) write one byte of receive buffer b; only while its flag is 0 (R265: "While RXnIF = 0 the chip may
  write the buffer at any step"). -/
  | pokeRx (b : Buf) (j : Fin 14) (v : Byte)
  /-- (c) set RXbOVR when a frame arrives for a full buffer. -/
  | overflow (b : Buf)
  /-- (d) change TEC and REC to any values, and set or clear the EFLG bits that are no overflow bits (5:0). -/
  | counters (tec rec low : Byte)
  /-- (e) OPMOD takes REQOP's value. -/
  | enterMode
  /-- (f) clear TXBO (R168). -/
  | clearBusOff
  /-- (g) a send completes: clear TXREQ of transmit buffer n and set TXnIF (R266). -/
  | txDone (n : Fin 3)
  deriving DecidableEq, Repr

/-- A step of a client task (10_state.md R20, R21, R23, R26, R51; 20_memory.md R61, R72; R107 `wr`). `c` is the
client's identity. -/
inductive ClientAct where
  | wrFinId (v : IdWord)
  | wrFinDlc (v : Byte)
  | wrFinData (i : Fin 8) (v : Byte)
  | wrImg (j : Fin 14) (v : Byte)
  /-- A write to BSTAT, which is ignored (R51). -/
  | wrBstat (v : Byte)
  /-- A write of the request word (R26). -/
  | wrOpreq (c : Nat) (w : Byte)
  /-- Acquire LOCK (R39). -/
  | lock (c : Nat)
  /-- Release LOCK (R39, R266). -/
  | unlock (c : Nat)
  /-- One attempt of a direct transaction (R61), which only the owner of LOCK may issue (R72). -/
  | xread (c : Nat) (a : Byte)
  | xwrite (c : Nat) (a v : Byte)
  | xmodify (c : Nat) (a m v : Byte)
  /-- The write half of the client's XModify where the chip has no native one (R63). -/
  | xmodifyWrite (c : Nat)
  | xreset (c : Nat)
  deriving DecidableEq, Repr

/-- A step of an agent other than the dispatcher and the client port (R20). -/
inductive EnvAct where
  | chip (a : ChipAct)
  /-- The ISR's one step (R191). -/
  | isr
  /-- A spurious falling edge on the interrupt line (R191: "tolerate spurious or coalesced edges"). -/
  | glitch
  | client (a : ClientAct)
  /-- The receive consumer pops RXQ (R37). -/
  | consume
  /-- The clock agent advances NOW by n ticks (R40). -/
  | tick (n : Nat)
  deriving DecidableEq, Repr

/-- Which agent moves next. -/
inductive Act where
  /-- The client port takes steps (R20 agent 2). -/
  | port
  /-- The dispatcher takes steps (R20 agent 1). -/
  | dispatcher
  /-- An environment agent takes the step named. -/
  | env (e : EnvAct)
  deriving DecidableEq, Repr

/-- The transport agent's draw for one attempt of a transaction (R64): it succeeds, or it fails, and then a
write or modify has landed or not. -/
inductive XDraw where
  | ok
  | fail (landed : Bool)
  deriving DecidableEq, Repr

/-- What the environment does next: the order in which agents move, with the environment's acts, and the
transport's draws. -/
structure Draws where
  agenda : List Act
  xport : List XDraw
  deriving DecidableEq, Repr, Inhabited

namespace Config

/-- FREE VALUE (notes/assumptions/1): the OPEN parameters of R6. -/
opaque params : Params

/-- FREE VALUE (notes/assumptions/3): the chip register byte at an address that nothing has written since
power-on (`epoch` 0) or since the `epoch`-th chip reset (R46, R47, R280, R281: "any value"). -/
opaque unspecReg : (epoch : Nat) → (address : Nat) → Byte

/-- FREE VALUE (notes/assumptions/4): the agents' next acts and the transport's next draws, for the n-th
time the model asks (R10, R20, R64, R264). -/
opaque draws : Nat → Draws

/-- FREE VALUE (notes/assumptions/25): the byte A2 of RX_DECODE_FAIL for a retry count above 255, which no byte
holds (R105, R196). -/
opaque wideCount : Nat → Byte

/-- FREE VALUE (notes/assumptions/5): NOW at power-on, which the environment supplies (R40, R280). -/
opaque bootTick : Nat

end Config

end Sys2Proof
end

