-- ==== Sys2Proof/WellFormed.lean ====
section
/-!
DEFINITION. Which operation each issuer may issue (30_encoding.md R101, R102). Every operand of `Instr` is an
enumeration, so an operation has no ill-formed field: what can be ill-formed is an operation under an issuer. Also
which chip layouts are well-formed (00_scope.md R2, R6).
-/

namespace Sys2Proof

/-- Column "issued by" of R101. A client may issue every operation but the two passes (R102: OP 0x4 and 0x5
are reserved for the dispatcher). The dispatcher issues its two passes and, inside a pass, RXREAD, SNAPERR,
CLASSIFY, CLROVR and RECOVER. -/
def Instr.wellFormed (who : Issuer) : Instr → Bool
  | .nop => who == .client
  | .encode => who == .client
  | .decode => who == .client
  | .rxread _ => true
  | .dispatch => who == .dispatcher
  | .dispatchTo => who == .dispatcher
  | .snaperr => true
  | .classify => true
  | .clrovr _ => true
  | .recover => true
  | .breset => who == .client

/-! ## Layouts -/

/-- The single registers a layout names. -/
def ChipLayout.registers (m : ChipLayout) : List Nat :=
  [m.canstat, m.canctrl, m.tec, m.recCounter, m.caninte, m.canintf, m.eflg]

/-- The buffers' control registers. Each buffer is the 14 registers from there (R46, R47). -/
def ChipLayout.buffers (m : ChipLayout) : List Nat := [m.txb0, m.txb1, m.txb2, m.rxb0, m.rxb1]

/-- The bits of SIDL that a field has (R93). -/
def ChipLayout.sidlBits (m : ChipLayout) : List Nat :=
  [m.sidLo.val, m.sidLo.val + 1, m.sidLo.val + 2, m.exideBit.val, m.eidLo.val, m.eidLo.val + 1]

/-- The bits of the DLC byte that a field has (R94). -/
def ChipLayout.dlcBits (m : ChipLayout) : List Nat :=
  [m.dlcLo.val, m.dlcLo.val + 1, m.dlcLo.val + 2, m.dlcLo.val + 3, m.dlcRtrBit.val]

/-- A layout of a chip: the addresses exist and no two registers share one, no two flags share a bit, no two modes
share a code, no two fields of SIDL or of the DLC byte share a bit, no two commands share a byte
(notes/assumptions/2). -/
abbrev ChipLayout.Wf (m : ChipLayout) : Prop :=
  m.registers.Nodup ∧ (∀ a ∈ m.registers, a < Config.addressLimit) ∧
  (∀ b ∈ m.buffers, b + 14 ≤ Config.addressLimit ∧ ∀ a ∈ m.registers, a < b ∨ b + 14 ≤ a) ∧
  m.buffers.Pairwise (fun b c => b + 14 ≤ c ∨ c + 14 ≤ b) ∧
  [m.rx0Bit, m.rx1Bit, m.tx0Bit, m.tx1Bit, m.tx2Bit, m.errBit, m.wakeBit].Nodup ∧
  [m.txboBit, m.ovr0Bit, m.ovr1Bit].Nodup ∧
  [m.normal, m.sleep, m.loopback, m.listenOnly, m.configuration].Nodup ∧
  m.sidlBits.Nodup ∧ m.dlcBits.Nodup ∧ [m.readCmd, m.writeCmd, m.modifyCmd, m.resetCmd].Nodup

end Sys2Proof
end

