-- ==== Sys2Proof/Decode.lean ====
section
/-!
DEFINITION. The request word OPREQ (30_encoding.md R100 to R102): the decoder, total on every byte and
rejecting by name, the rule for who may issue what is decoded, and the encoder.
-/

namespace Sys2Proof

/-- Why a request word decodes to no operation (R102). -/
inductive DecodeError where
  /-- `OPREQ[7:5] ≠ 0`. -/
  | reservedBits
  /-- `OP` is 0xB to 0xF. -/
  | reservedOp
  /-- `B = 1` with an `OP` other than 0x3 or 0x8. -/
  | bufferBit
  deriving DecidableEq, Repr

/-- OP, bits 3:0 (R100). -/
def opField (w : Byte) : Nat := (w.extractLsb' 0 4).toNat

/-- B, bit 4 (R100). -/
def bField (w : Byte) : Bool := w.getLsbD 4

/-- RSV, bits 7:5 (R100). -/
def rsvField (w : Byte) : Nat := (w.extractLsb' 5 3).toNat

/-- The buffer index `b = OPREQ[4]` (R100). -/
def bufOfBit : Bool → Buf
  | false => .rx0
  | true => .rx1

/-- An operation that does not use B: B must be 0 (R101, R102). -/
def noBuffer (w : Byte) (i : Instr) : Except DecodeError Instr :=
  if bField w then .error .bufferBit else .ok i

/-- The decoder of R100 to R102. OP 0x4 and 0x5 decode to the passes: that a client may not issue them is the
check of `clientRequest`. -/
def decode (w : Byte) : Except DecodeError Instr :=
  if rsvField w ≠ 0 then .error .reservedBits
  else match opField w with
    | 0x0 => noBuffer w .nop
    | 0x1 => noBuffer w .encode
    | 0x2 => noBuffer w .decode
    | 0x3 => .ok (.rxread (bufOfBit (bField w)))
    | 0x4 => noBuffer w .dispatch
    | 0x5 => noBuffer w .dispatchTo
    | 0x6 => noBuffer w .snaperr
    | 0x7 => noBuffer w .classify
    | 0x8 => .ok (.clrovr (bufOfBit (bField w)))
    | 0x9 => noBuffer w .recover
    | 0xA => noBuffer w .breset
    | _ => .error .reservedOp

/-- The operation a client's write of `w` to OPREQ starts, `none` for an illegal encoding (R102): one that
decodes to no operation, or to an operation reserved for the dispatcher. -/
def clientRequest (w : Byte) : Option Instr :=
  match decode w with
  | .error _ => none
  | .ok i => if i.wellFormed .client then some i else none

/-- Bit 4 for a buffer (R100). -/
def bufBit : Buf → Byte
  | .rx0 => 0x00
  | .rx1 => 0x10

/-- The request word of an operation (R101; B = 1 for rx1, R107). -/
def encode : Instr → Byte
  | .nop => 0x00
  | .encode => 0x01
  | .decode => 0x02
  | .rxread b => 0x03 ||| bufBit b
  | .dispatch => 0x04
  | .dispatchTo => 0x05
  | .snaperr => 0x06
  | .classify => 0x07
  | .clrovr b => 0x08 ||| bufBit b
  | .recover => 0x09
  | .breset => 0x0A

/-- The assembler's name of a buffer (R107). -/
def Buf.asm : Buf → String
  | .rx0 => "rx0"
  | .rx1 => "rx1"

/-- The assembler line of an operation (R107). -/
def Instr.asm : Instr → String
  | .nop => "nop"
  | .encode => "encode"
  | .decode => "decode"
  | .rxread b => "rxread " ++ b.asm
  | .dispatch => "dispatch"
  | .dispatchTo => "dispatch.to"
  | .snaperr => "snaperr"
  | .classify => "classify"
  | .clrovr b => "clrovr " ++ b.asm
  | .recover => "recover"
  | .breset => "breset"

/-- A pseudo-instruction's expansion into separate client operations (R108). -/
def Pseudo.expand : Pseudo → List Instr
  | .errcheck => [.snaperr, .classify]
  | .clrovrAll => [.clrovr .rx0, .clrovr .rx1]

/-- What the decoder reads from a row's word numbered as spec/opcode_table.json numbers it: one byte, bit 0
its least significant (R100: one instruction length, 8 bits, and one format). -/
def decodeTableWord (nbits w : Nat) : Option Instr :=
  if nbits = 8 ∧ w < 256 then
    match decode (BitVec.ofNat 8 w) with
    | .ok i => some i
    | .error _ => none
  else none

end Sys2Proof
end

