-- ==== Sys2Proof/Machine/State.lean ====
section
/-!
DEFINITION. The state of the block and of everything it shares with its environment (10_state.md R20 to R55,
20_memory.md R60), as plain data, and the state after power-on reset (70_reset_and_hazards.md R280).
-/

namespace Sys2Proof.Machine

/-- The chip register space (R60): the registers that hold a known value, by address, strictly rising. A
register not listed has not been written since power-on or the last chip reset, and has no value here. -/
abbrev Memory := List Host.Cell

/-- DSTATE (R27). -/
inductive DState where
  | idle | acq | readf | rx0 | rx1 | txs | errs | recs | ovrs | wakes | clr | rel
  deriving DecidableEq, Repr

/-- The error snapshot (R31). -/
structure ESnap where
  eflg : Byte
  tec : Byte
  recv : Byte
  valid : Bool
  deriving DecidableEq, Repr

/-- ECLASS (R32). -/
inductive EClass where
  | active | passive | busOff | unknown
  deriving DecidableEq, Repr

/-- PKIND (R55). -/
inductive PassKind where
  | event | timeout
  deriving DecidableEq, Repr

/-- LOCK (R39). -/
inductive Lock where
  | free
  | dispatcher
  | client (c : Nat)
  deriving DecidableEq, Repr

/-- The KIND of an event-log record (R105); no other KIND value is ever emitted. -/
inductive RecordKind where
  | flagsRead | flagsReadFail | rxDelivered | rxDecodeFail | rxDropped | rxBackpressure | txComplete
  | errClassified | errSnapshotFail | recovery | recoveryDeferred | ovrCleared | ovrClearFail | wake
  | unknownFlags | flagsCleared | flagsClearFail | passStart | passEnd | breset
  deriving DecidableEq, Repr

/-- An event-log record (R105). -/
structure Record where
  kind : RecordKind
  a0 : Byte
  a1 : Byte
  a2 : Byte
  a3 : Byte
  deriving DecidableEq, Repr

/-- An outcome of an operation (60_exceptions.md R240), with its detail. -/
inductive OpResult where
  | ok
  | invalidLength
  | invalidIdentifier
  /-- The 1-based index of the failed transaction within the operation. -/
  | transportFailure (k : Nat)
  | modeTimeout
  | recoveryFailed
  | backoffPending
  | noSnapshot
  | illegalOp
  deriving DecidableEq, Repr

/-- An operation that takes LOCK when a client issues it (42_dispatcher.md R211). -/
inductive LockOp where
  | rxread (b : Buf)
  | snaperr
  | classify
  | clrovr (b : Buf)
  | recover
  deriving DecidableEq, Repr

/-- Progress of one XModify. A native modify is one transaction (R62). A non-native one is a read and then a
write of what was read (R63), between which other agents may step. `left` counts attempts left (R65). -/
inductive ModStage where
  | start (left : Nat)
  | write (left : Nat) (read : Byte)
  deriving DecidableEq, Repr

/-- Progress of a multi-transaction operation: which transaction comes next, with the operation's local
variables (40_codec.md R134, 41_error_ops.md R160, R163 to R165, 42_dispatcher.md R205). -/
inductive Prog where
  /-- RXREAD: header byte `j + 1` is read next. -/
  | rxHeader (b : Buf) (j : Fin 5)
  /-- RXREAD: CTRL is read next; `n` is the data length read. -/
  | rxCtrl (b : Buf) (n : Fin 9)
  /-- RXREAD: data byte `i` is read next. -/
  | rxData (b : Buf) (n : Fin 9) (i : Fin 8)
  | snapEflg
  | snapTec (e : Byte)
  | snapRec (e t : Byte)
  /-- A pass's CLASSIFY, once its snapshot is good: a step with no transaction (00_scope.md R10, R199). -/
  | classify
  /-- CLROVR: the modify of EFLG. -/
  | ovrClear (b : Buf) (m : ModStage)
  /-- RECOVER: the modify of CANCTRL. -/
  | recModify (m : ModStage)
  /-- RECOVER: the `p`-th poll of CANSTAT comes next. -/
  | recPoll (p : Nat)
  /-- RECOVER: the wait after the `p`-th poll, made at tick `t`. -/
  | recWait (p t : Nat)
  /-- RECOVER: the post-transition read of EFLG, after `p` polls. -/
  | recEflg (p : Nat)
  /-- A pass's final clear: the modify of CANINTF. -/
  | flagClear (m : ModStage)
  deriving DecidableEq, Repr

/-- What the client port is doing while BUSY (42_dispatcher.md R211). -/
inductive PortState where
  /-- The operation has started and is held until LOCK is FREE (R39). -/
  | acquire (op : LockOp)
  /-- BRESET, held until DSTATE = IDLE and LOCK = FREE (R210). -/
  | resetWait
  /-- The operation owns LOCK and has this far come. -/
  | run (p : Prog)
  deriving DecidableEq, Repr

/-- A client's write of OPREQ that the port has not started yet (R26). -/
structure Request where
  client : Nat
  word : Byte
  deriving DecidableEq, Repr

/-- A client's XModify without a native one, between its two halves (R63). -/
structure HalfModify where
  client : Nat
  address : Byte
  /-- What the write half writes: the byte read, with the bits under the mask replaced. -/
  value : Byte
  deriving DecidableEq, Repr

/-- A transaction primitive of the Register Interface (20_memory.md R61), with its address. -/
inductive BusOp where
  | read (a : Nat)
  | write (a : Nat) (v : Byte)
  | modify (a : Nat) (m v : Byte)
  | reset
  deriving DecidableEq, Repr

/-- One transaction, with the value LOCK had when it was issued. -/
structure BusEntry where
  owner : Lock
  op : BusOp
  deriving DecidableEq, Repr

/-- Why the machine stops. None is an outcome of the hardware: each is a meaning given to an act the spec's
agent contracts exclude (60_exceptions.md R251). No operation of the block raises one. All are safe. -/
inductive Fault where
  /-- A client issues a chip transaction, or releases LOCK, without owning LOCK (R72, R251). Safe. -/
  | notLockOwner
  /-- A client transaction to an address the chip does not implement (R60, R251). Safe. -/
  | noSuchAddress
  /-- A chip step outside the contract of R264 and R265: a write to a receive buffer whose flag is set, or an
  overflow of a buffer that is not full. Safe. -/
  | chipContract
  /-- A client breaks a duty of R266: it writes a receive buffer, or it releases LOCK under its own
  operation that is still running. Or it acts on LOCK or the chip before its own XModify is complete, which
  returns only then (R61, R63). Safe. -/
  | clientDuty
  deriving DecidableEq, Repr

/-- Why the model has no meaning for an instruction. -/
inductive Refusal where
  /-- Raised by an arm of `exec` whose instruction has no meaning yet. Safe. -/
  | notModelled (mnemonic : String)
  deriving DecidableEq, Repr

/-- The state. Fields from `bus` on are the model's own. -/
structure State where
  /-- FIN (R21). -/
  fin : Frame
  /-- FOUT (R22). -/
  fout : Frame
  /-- IMG (R23). -/
  img : Image
  /-- ELEN (R24). -/
  elen : Byte
  /-- RESULT (R25). -/
  result : Byte
  /-- OPREQ (R26). -/
  opreq : Byte
  /-- DSTATE (R27). -/
  dstate : DState
  /-- FLAGS (R28). -/
  flags : Byte
  /-- HMASK (R29). -/
  hmask : Byte
  /-- RXRETRY[0] (R30). -/
  rxretry0 : Nat
  /-- RXRETRY[1] (R30). -/
  rxretry1 : Nat
  /-- ESNAP (R31). -/
  esnap : ESnap
  /-- ECLASS (R32). -/
  eclass : EClass
  /-- RECPEND (R33). -/
  recpend : Bool
  /-- RECFAILS (R34). -/
  recfails : Byte
  /-- RECNEXT (R35). -/
  recnext : Nat
  /-- EVQ, the number of tokens: a token carries no data (R36). -/
  evq : Nat
  /-- RXQ, oldest first (R37). -/
  rxq : List Frame
  /-- EVLOG, oldest first (R38). -/
  evlog : List Record
  /-- LOCK (R39). -/
  lock : Lock
  /-- NOW (R40). -/
  now : Nat
  /-- IDLE_SINCE (R40). -/
  idleSince : Nat
  /-- DIMG (R52). -/
  dimg : Image
  /-- DFOUT (R53). -/
  dfout : Frame
  /-- ERROK (R54). -/
  errok : Bool
  /-- PKIND (R55). -/
  pkind : PassKind
  /-- The client port: `none` is idle, BUSY = 0 (R51, R211). -/
  port : Option PortState
  /-- The client whose request the port took last: the `c` of LOCK = CLIENT(c) (R39). -/
  client : Nat
  /-- Writes of OPREQ the port has not started yet, oldest first (R26). -/
  held : List Request
  /-- The clients' modifies whose read half is done and whose write half is not (R63). -/
  halves : List HalfModify
  /-- The dispatcher's progress within a multi-transaction operation of its state (R190). -/
  dprog : Option Prog
  /-- The chip registers (R41 to R47, R60). -/
  chip : Memory
  /-- Chip resets so far: it numbers the unspecified register contents (R280, R281). -/
  epoch : Nat
  /-- Falling edges of INT that the ISR has not taken yet (R48, R191). -/
  edges : Nat
  /-- MODEL: the transactions issued so far, oldest first (R61). -/
  bus : List BusEntry
  /-- MODEL: the parameters of R6; no step changes them. -/
  par : Params
  /-- MODEL: the agents' coming acts. -/
  agenda : List Act
  /-- MODEL: the transport's coming draws; an attempt beyond the list succeeds. -/
  xport : List XDraw
  /-- MODEL: how often `Config.draws` has been asked. -/
  drawn : Nat
  deriving DecidableEq, Repr

/-- The outcome of one block step inside an operation. -/
inductive OpOut where
  /-- The operation goes on. -/
  | running (p : Prog) (s : State)
  /-- The operation has ended. -/
  | done (r : OpResult) (s : State)
  /-- The operation cannot step until the clock advances (R165). -/
  | waiting
  deriving DecidableEq, Repr

/-- The outcome of one block step inside an XModify. -/
inductive ModOut where
  | more (m : ModStage) (s : State)
  | done (ok : Bool) (s : State)
  deriving DecidableEq, Repr

/-- A frame with every field zero. -/
def zeroFrame : Frame := { id := 0, dlc := 0, data := #v[0, 0, 0, 0, 0, 0, 0, 0] }

/-- An image with every byte zero. -/
def zeroImage : Image :=
  { ctrl := 0, sidh := 0, sidl := 0, eid8 := 0, eid0 := 0, dlc := 0, data := #v[0, 0, 0, 0, 0, 0, 0, 0] }

/-- The parameters at reset: the spec's defaults where R6 gives one, free otherwise. -/
def resetParams : Params :=
  { Config.params with
    rtrSource := .dlcByte, rxRetryLimit := 1, nativeBitModify := true, recfailsMax := 255, layout := mcp2515 }

/-- The state after power-on reset (R280). The chip is not reset by it: its registers are unspecified. -/
def State.reset : State :=
  { fin := zeroFrame, fout := zeroFrame, img := zeroImage, elen := 0, result := 0x00, opreq := 0x00
    dstate := .idle, flags := 0x00, hmask := 0x00, rxretry0 := 0, rxretry1 := 0
    esnap := { eflg := 0, tec := 0, recv := 0, valid := false }, eclass := .unknown
    recpend := false, recfails := 0, recnext := 0
    evq := 0, rxq := [], evlog := [], lock := .free
    now := Config.bootTick, idleSince := Config.bootTick
    dimg := zeroImage, dfout := zeroFrame, errok := false, pkind := .event
    port := none, client := 0, held := [], halves := [], dprog := none
    chip := [], epoch := 0, edges := 0
    bus := [], par := resetParams, agenda := [], xport := [], drawn := 0 }

end Sys2Proof.Machine
end

