-- ==== Sys2Proof/Machine/Operands.lean ====
section
/-!
DEFINITION. The one operand form, the buffer select B (30_encoding.md R100, R109), and what it selects: masks,
register addresses, image and frame copies. Also placed fields, and the bytes of a buffer image by offset (R92).
-/

namespace Sys2Proof

/-- Byte `j` of an image (R92). -/
def Image.byte (img : Image) (j : Fin 14) : Byte :=
  match j.val with
  | 0 => img.ctrl
  | 1 => img.sidh
  | 2 => img.sidl
  | 3 => img.eid8
  | 4 => img.eid0
  | 5 => img.dlc
  | k + 6 => img.data.toArray.getD k 0

/-- The image with byte `j` replaced (R92). -/
def Image.setByte (img : Image) (j : Fin 14) (v : Byte) : Image :=
  match j.val with
  | 0 => { img with ctrl := v }
  | 1 => { img with sidh := v }
  | 2 => { img with sidl := v }
  | 3 => { img with eid8 := v }
  | 4 => { img with eid0 := v }
  | 5 => { img with dlc := v }
  | k + 6 => { img with data := img.data.setIfInBounds k v }

end Sys2Proof

namespace Sys2Proof.Machine

/-- The buffer index as a byte, as event-log records carry it (R105). -/
def bufIndex : Buf → Byte
  | .rx0 => 0
  | .rx1 => 1

/-- The byte with only bit p set (R7). -/
def bitMask (p : Fin 8) : Byte := 1#8 <<< p.val

/-- Field `v` at bit `lo` of a word of width `w` (R7): the concatenations of R94 to R96 are the `|||` of their
placed fields. -/
def place {n : Nat} (w lo : Nat) (v : BitVec n) : BitVec w := v.setWidth w <<< lo

/-- The position of the receive flag of buffer b in CANINTF (R97). -/
def rxBit (m : ChipLayout) : Buf → Fin 8
  | .rx0 => m.rx0Bit
  | .rx1 => m.rx1Bit

/-- The position of the overflow bit of buffer b in EFLG (R98). -/
def ovrBit (m : ChipLayout) : Buf → Fin 8
  | .rx0 => m.ovr0Bit
  | .rx1 => m.ovr1Bit

/-- `RXF(b)`, the receive flag in CANINTF (R97). -/
def rxFlag (m : ChipLayout) (b : Buf) : Byte := bitMask (rxBit m b)

/-- `OVR(b)`, the overflow bit in EFLG (R98). -/
def ovrMask (m : ChipLayout) (b : Buf) : Byte := bitMask (ovrBit m b)

/-- The address of header byte `j + 1` of receive buffer b: SIDH, SIDL, EID8, EID0, DLC (R46, R134). -/
def headerAddr (m : ChipLayout) (b : Buf) (j : Fin 5) : Nat := m.rxbBase b + (j.val + 1)

/-- The address of data byte i of receive buffer b (R46, R134). -/
def dataAddr (m : ChipLayout) (b : Buf) (i : Fin 8) : Nat := m.rxbBase b + 6 + i.val

/-- The image register an RXREAD fills: IMG for a client, DIMG inside a pass (R134). -/
def State.image (who : Issuer) (s : State) : Image :=
  match who with
  | .client => s.img
  | .dispatcher => s.dimg

/-- Writes the image register an RXREAD fills. -/
def State.setImage (who : Issuer) (img : Image) (s : State) : State :=
  match who with
  | .client => { s with img := img }
  | .dispatcher => { s with dimg := img }

/-- Writes the frame register an RXREAD fills: FOUT for a client, DFOUT inside a pass (R134). -/
def State.setFrame (who : Issuer) (f : Frame) (s : State) : State :=
  match who with
  | .client => { s with fout := f }
  | .dispatcher => { s with dfout := f }

/-- RXRETRY[b] (R30). -/
def State.rxretry (b : Buf) (s : State) : Nat :=
  match b with
  | .rx0 => s.rxretry0
  | .rx1 => s.rxretry1

/-- Writes RXRETRY[b]. -/
def State.setRxretry (b : Buf) (n : Nat) (s : State) : State :=
  match b with
  | .rx0 => { s with rxretry0 := n }
  | .rx1 => { s with rxretry1 := n }

end Sys2Proof.Machine
end

