-- ==== Sys2Proof/Machine/Flags.lean ====
section
/-!
DEFINITION. Every flag, code and status computation: the CANINTF and EFLG masks (30_encoding.md R97, R98), the
classification (41_error_ops.md R162), the interrupt line (10_state.md R48), the outcome and record codes
(60_exceptions.md R240, 30_encoding.md R103, R105), BSTAT (10_state.md R51), and the write rules of the chip's
partly read-only registers.
-/

namespace Sys2Proof.Machine

/-- The completion flag of transmit buffer n (R97). -/
def txFlag (m : ChipLayout) (n : Fin 3) : Byte :=
  bitMask (match n.val with | 0 => m.tx0Bit | 1 => m.tx1Bit | _ => m.tx2Bit)
/-- `TXF_ALL`: TX0, TX1, TX2 (R97). -/
def txfAll (m : ChipLayout) : Byte := bitMask m.tx0Bit ||| bitMask m.tx1Bit ||| bitMask m.tx2Bit
/-- `ERRF` (R97). -/
def errf (m : ChipLayout) : Byte := bitMask m.errBit
/-- `WAKEF` (R97). -/
def wakef (m : ChipLayout) : Byte := bitMask m.wakeBit
/-- `KNOWNF`, the source's seven flags (R97). -/
def knownf (m : ChipLayout) : Byte := rxFlag m .rx0 ||| rxFlag m .rx1 ||| txfAll m ||| errf m ||| wakef m
/-- `UNKF`, the bit of CANINTF that is none of the seven, MERR (R97). -/
def unkf (m : ChipLayout) : Byte := ~~~knownf m
/-- `TXBO`, the bus-off flag of EFLG (R98). -/
def txbo (m : ChipLayout) : Byte := bitMask m.txboBit
/-- `OVR_ALL`: both overflow bits of EFLG (R98). -/
def ovrAll (m : ChipLayout) : Byte := ovrMask m .rx0 ||| ovrMask m .rx1

/-- The receive flag of buffer b in a CANINTF value (R97). -/
def rxFlagSet (m : ChipLayout) (b : Buf) (f : Byte) : Bool := f.getLsbD (rxBit m b).val

/-- ERR in a CANINTF value (R97). -/
def errSet (m : ChipLayout) (f : Byte) : Bool := f.getLsbD m.errBit.val

/-- WAKE in a CANINTF value (R97). -/
def wakeSet (m : ChipLayout) (f : Byte) : Bool := f.getLsbD m.wakeBit.val

/-- The overflow bit of buffer b in an EFLG value (R98). -/
def ovrSet (m : ChipLayout) (b : Buf) (e : Byte) : Bool := e.getLsbD (ovrBit m b).val

/-- TXBO in an EFLG value (R98). -/
def txboSet (m : ChipLayout) (e : Byte) : Bool := e.getLsbD m.txboBit.val

/-- The classification function (R162): the bus-off flag alone gives BusOff, else either counter at 128 or
above gives Passive. -/
def classifyErr (m : ChipLayout) (e tec rec : Byte) : EClass :=
  if txboSet m e then .busOff
  else if 128 ≤ tec.toNat ∨ 128 ≤ rec.toNat then .passive
  else .active

/-- Whether the interrupt line is asserted (low): some flag is set and enabled (R48). -/
def intAsserted (canintf caninte : Byte) : Bool := canintf &&& caninte != 0

/-- The mask of the mode-request field REQOP in CANCTRL: 0xE0 by default (R44, R165). -/
def reqopMask (m : ChipLayout) : Byte := place 8 m.reqopLo.val 0b111#3

/-- The mask of the mode-status field OPMOD in CANSTAT: 0xE0 by default (R44). -/
def opmodMask (m : ChipLayout) : Byte := place 8 m.opmodLo.val 0b111#3

/-- The value of a mode in REQOP (R44, R99). -/
def reqopField (m : ChipLayout) (k : Mode) : Byte := place 8 m.reqopLo.val (m.modeCode k)

/-- The value of a mode in OPMOD (R44, R99). -/
def opmodField (m : ChipLayout) (k : Mode) : Byte := place 8 m.opmodLo.val (m.modeCode k)

/-- Whether a CANSTAT value reports Normal mode: OPMOD has its code (R99, R165). -/
def modeNormal (m : ChipLayout) (canstat : Byte) : Bool := canstat.extractLsb' m.opmodLo.val 3 == m.modeCode .normal

/-- The value a modify gives a register that holds `old` (R62). -/
def modified (old m v : Byte) : Byte := (old &&& ~~~m) ||| (v &&& m)

/-- What a chip register that holds `old` holds after a write of `v`. Only EFLG's overflow bits are writable, and
only to clear them (R42, R62). Only the chip writes TEC, REC and CANSTAT, so a write leaves them (R43, R44,
notes/assumptions/9). -/
def written (m : ChipLayout) (a : Nat) (old v : Byte) : Byte :=
  if a = m.eflg then (old &&& ~~~ovrAll m) ||| (old &&& v &&& ovrAll m)
  else if a = m.tec ∨ a = m.recCounter ∨ a = m.canstat then old
  else v

/-- CODE (R240). -/
def OpResult.code : OpResult → Byte
  | .ok => 0x0
  | .invalidLength => 0x1
  | .invalidIdentifier => 0x1
  | .transportFailure _ => 0x2
  | .modeTimeout => 0x3
  | .recoveryFailed => 0x4
  | .backoffPending => 0x5
  | .noSnapshot => 0x6
  | .illegalOp => 0xF

/-- DETAIL (R103): 1 for Length, 2 for Identifier, the failed transaction's index saturating at 15. -/
def OpResult.detail : OpResult → Byte
  | .invalidLength => 1
  | .invalidIdentifier => 2
  | .transportFailure k => BitVec.ofNat 8 (min k 15)
  | _ => 0

/-- The RESULT byte and the code byte of a record: `DETAIL<<4 | CODE` (R103, R105). -/
def OpResult.byte (r : OpResult) : Byte := (r.detail <<< 4) ||| r.code

/-- The code of a DSTATE (R27). -/
def DState.code : DState → BitVec 4
  | .idle => 0
  | .acq => 1
  | .readf => 2
  | .rx0 => 3
  | .rx1 => 4
  | .txs => 5
  | .errs => 6
  | .recs => 7
  | .ovrs => 8
  | .wakes => 9
  | .clr => 10
  | .rel => 11

/-- The code of ECLASS (R32). -/
def EClass.code : EClass → BitVec 2
  | .active => 0
  | .passive => 1
  | .busOff => 2
  | .unknown => 3

/-- PKIND as a byte (R55, R105). -/
def PassKind.code : PassKind → Byte
  | .event => 0
  | .timeout => 1

/-- The KIND byte of a record (R105). -/
def RecordKind.code : RecordKind → Byte
  | .flagsRead => 0x01
  | .flagsReadFail => 0x02
  | .rxDelivered => 0x03
  | .rxDecodeFail => 0x04
  | .rxDropped => 0x05
  | .rxBackpressure => 0x06
  | .txComplete => 0x07
  | .errClassified => 0x08
  | .errSnapshotFail => 0x09
  | .recovery => 0x0A
  | .recoveryDeferred => 0x0B
  | .ovrCleared => 0x0C
  | .ovrClearFail => 0x0D
  | .wake => 0x0E
  | .unknownFlags => 0x0F
  | .flagsCleared => 0x10
  | .flagsClearFail => 0x11
  | .passStart => 0x12
  | .passEnd => 0x13
  | .breset => 0x14

/-- The five bytes of a record (R105). -/
def Record.bytes (r : Record) : List Byte := [r.kind.code, r.a0, r.a1, r.a2, r.a3]

/-- BUSY: a client-port operation runs (R51, R211). -/
def State.busy (s : State) : Bool := s.port.isSome

/-- BSTAT (R51). -/
def State.bstat (s : State) : Byte :=
  0#3 ++ BitVec.ofBool s.esnap.valid ++ BitVec.ofBool s.recpend ++ s.eclass.code ++ BitVec.ofBool s.busy

/-- RECFAILS after one more failure, saturating: `min(RECFAILS + 1, RECFAILS_MAX)` (R34, R164). -/
def recfailsNext (max n : Byte) : Byte := BitVec.ofNat 8 (min (n.toNat + 1) max.toNat)

/-- A retry count as the byte A2 of RX_DECODE_FAIL (R105). For a count that no byte holds the spec states none: a
free value (notes/assumptions/25). -/
def countByte (n : Nat) : Byte := if n < 256 then BitVec.ofNat 8 n else Config.wideCount n

end Sys2Proof.Machine
end

