-- ==== Sys2Proof/Machine/Ops.lean ====
section
/-!
DEFINITION. The named operations over the chip register space, the transactions, the log, and what raising an
outcome does. There is no trap mechanism (60_exceptions.md R249): `State.raise` is the one shared operation
that ends a client-port operation, and there is no return from it (R250).
-/

namespace Sys2Proof.Machine

/-! ## Memory -/

/-- The value listed for an address; `none` where nothing is listed. -/
def Memory.read : Memory → Nat → Option Byte
  | [], _ => none
  | c :: r, a => if c.1 = a then some c.2 else Memory.read r a

/-- Writes one byte, keeping the addresses strictly rising. -/
def Memory.write : Memory → Nat → Byte → Memory
  | [], a, v => [(a, v)]
  | c :: r, a, v =>
    if a < c.1 then (a, v) :: c :: r
    else if a = c.1 then (a, v) :: r
    else c :: Memory.write r a v

/-- Writes several bytes. -/
def Memory.writeAll (m : Memory) (cells : List Host.Cell) : Memory :=
  cells.foldl (fun n c => Memory.write n c.1 c.2) m

/-- The canonical form: addresses strictly rising, all of them implemented by the chip (R60). No entry can
equal what an unlisted address reads as, because that is no value (notes/assumptions/3). -/
def Memory.wf (m : Memory) : Bool :=
  decide (m.Pairwise fun x y => x.1 < y.1) && m.all fun c => decide (c.1 < Config.addressLimit)

/-! ## Chip registers -/

/-- The byte a chip register holds: the listed one, or a free value where nothing defined it (R280, R281). -/
def State.chipByte (s : State) (a : Nat) : Byte :=
  (Memory.read s.chip a).getD (Config.unspecReg s.epoch a)

/-- Whether INT is asserted (R48). -/
def State.intLow (s : State) : Bool :=
  intAsserted (s.chipByte s.par.layout.canintf) (s.chipByte s.par.layout.caninte)

/-- Replaces the chip registers. INT going from deasserted to asserted is one falling edge (R48, R287). -/
def State.setChip (s : State) (m : Memory) : State :=
  { s with
    chip := m
    edges := if !s.intLow && { s with chip := m }.intLow then s.edges + 1 else s.edges }

/-- Sets one chip register to a value, whoever may write it. -/
def State.putByte (s : State) (a : Nat) (v : Byte) : State := s.setChip (Memory.write s.chip a v)

/-- A write transaction's effect on the chip (R42 to R44, R62). -/
def State.storeReg (s : State) (a : Nat) (v : Byte) : State :=
  s.putByte a (written s.par.layout a (s.chipByte a) v)

/-- A native modify's effect on the chip (R62), at every address: which registers the chip's bit-modify command
applies to beside CANINTF, EFLG and CANCTRL, R104 does not say (notes/assumptions/26). -/
def State.modifyReg (s : State) (a : Nat) (m v : Byte) : State :=
  s.storeReg a (modified (s.chipByte a) m v)

/-- The registers that a chip reset gives a value (R281): CANCTRL's bits outside REQOP are those of 0x87, and
TXBnCTRL's bits other than TXREQ are unspecified. -/
def resetRegisters (m : ChipLayout) (epoch : Nat) : List Host.Cell :=
  [(m.canstat, opmodField m .configuration),
   (m.canctrl, (0x07 &&& ~~~reqopMask m) ||| reqopField m .configuration), (m.tec, 0x00),
   (m.recCounter, 0x00), (m.caninte, 0x00), (m.canintf, 0x00), (m.eflg, 0x00),
   (m.txb0, Config.unspecReg epoch m.txb0 &&& ~~~bitMask m.txreqBit), (m.txb1, Config.unspecReg epoch m.txb1 &&& ~~~bitMask m.txreqBit),
   (m.txb2, Config.unspecReg epoch m.txb2 &&& ~~~bitMask m.txreqBit)]

/-- The chip's hard reset (R281): every register not named there is unspecified anew. -/
def State.resetChip (s : State) : State :=
  { s with chip := Memory.writeAll [] (resetRegisters s.par.layout (s.epoch + 1)), epoch := s.epoch + 1 }

/-! ## Transactions -/

/-- What the transport makes of a transaction: whether it succeeded, whether a write of it landed (in any
attempt), and the draws left. -/
structure XferTry where
  ok : Bool
  landed : Bool
  rest : List XDraw
  deriving DecidableEq, Repr

/-- Up to `n` attempts, stopping at the first `ok` (R65). A failed attempt's write lands or not (R64). -/
def tryXfer : Nat → List XDraw → XferTry
  | 0, ds => { ok := false, landed := false, rest := ds }
  | _ + 1, [] => { ok := true, landed := true, rest := [] }
  | _ + 1, .ok :: r => { ok := true, landed := true, rest := r }
  | n + 1, .fail l :: r =>
    let t := tryXfer n r
    { t with landed := l || t.landed }

/-- The bytes a transaction sends on the serial transport (R104, notes/assumptions/2). -/
def BusOp.wire (m : ChipLayout) : BusOp → List Byte
  | .read a => [m.readCmd, BitVec.ofNat 8 a]
  | .write a v => [m.writeCmd, BitVec.ofNat 8 a, v]
  | .modify a k v => [m.modifyCmd, BitVec.ofNat 8 a, k, v]
  | .reset => [m.resetCmd]

/-- Records a transaction issued. -/
def State.logBus (s : State) (op : BusOp) : State := { s with bus := s.bus ++ [⟨s.lock, op⟩] }

/-- `XFER(XRead(a))` with `n` attempts (R61, R64, R65): a failed read returns no value, and a read has no side
effect (R67). -/
def State.xferRead (n : Nat) (a : Nat) (s : State) : Option Byte × State :=
  let t := tryXfer n s.xport
  (if t.ok then some (s.chipByte a) else none, { s.logBus (.read a) with xport := t.rest })

/-- A native `XFER(XModify(a, m, v))` with `n` attempts (R62, R64, R65). -/
def State.xferModify (n : Nat) (a : Nat) (m v : Byte) (s : State) : Bool × State :=
  let t := tryXfer n s.xport
  let u := { s.logBus (.modify a m v) with xport := t.rest }
  (t.ok, if t.landed then u.modifyReg a m v else u)

/-- `XFER(XWrite(a, v))` with `n` attempts (R61, R64, R65). -/
def State.xferWrite (n : Nat) (a : Nat) (v : Byte) (s : State) : Bool × State :=
  let t := tryXfer n s.xport
  let u := { s.logBus (.write a v) with xport := t.rest }
  (t.ok, if t.landed then u.storeReg a v else u)

/-- A block's plain read, with all its attempts. -/
def State.blockRead (a : Nat) (s : State) : Option Byte × State := s.xferRead s.par.xferAttempts a

/-- One step of an `XFER(XModify(a, m, v))` the block issues. Native (R62): one step, all attempts. Not native
(R63): a read step, then a write step of what was read; an attempt that fails in either half is over, and the
next one reads again (R65, notes/assumptions/11). -/
def State.modStep (a : Nat) (m v : Byte) (st : ModStage) (s : State) : ModOut :=
  if s.par.nativeBitModify then
    match s.xferModify s.par.xferAttempts a m v with
    | (ok, t) => .done ok t
  else
    match st with
    | .start 0 => .done false s
    | .start (n + 1) =>
      match s.xferRead 1 a with
      | (some byte, t) => .more (.write n byte) t
      | (none, t) => if n = 0 then .done false t else .more (.start n) t
    | .write n byte =>
      match s.xferWrite 1 a (modified byte m v) with
      | (true, t) => .done true t
      | (false, t) => if n = 0 then .done false t else .more (.start n) t

/-- The first stage of a modify. -/
def State.modStart (s : State) : ModStage := .start s.par.xferAttempts

/-! ## Log and outcomes -/

/-- `emit` (R38, R105). -/
def State.emit (k : RecordKind) (a0 a1 a2 a3 : Byte) (s : State) : State :=
  { s with evlog := s.evlog ++ [⟨k, a0, a1, a2, a3⟩] }

/-- Marks flags handled (R29). -/
def State.handle (m : Byte) (s : State) : State := { s with hmask := s.hmask ||| m }

/-- What ending a client-port operation does, in one step (R211, R249): LOCK is released if the operation had
it, RESULT is written, BUSY returns to 0. Raising an outcome and succeeding do the same. -/
def State.raise (r : OpResult) (s : State) : State :=
  { s with lock := .free, port := none, result := r.byte }

end Sys2Proof.Machine
end

