-- ==== Sys2Proof/Machine/Codec.lean ====
section
/-!
DEFINITION. The frame codec (40_codec.md): frame validity, the two conversions between a frame and a buffer
image, and the steps of RXREAD.
-/

namespace Sys2Proof

/-! ## Frames -/

/-- `id_ok` (R131). -/
def idOk (id : IdWord) : Bool :=
  !id.getLsbD 29 && (id.getLsbD 31 || id.extractLsb' 11 18 == 0)

/-- A valid frame (R131). -/
def Frame.valid (f : Frame) : Bool := decide (f.dlc.toNat ≤ 8) && idOk f.id

/-- The payload with every byte from index n on zero (R132). -/
def keepFirst (n : Nat) (d : Payload) : Payload :=
  Vector.ofFn fun i : Fin 8 => if i.val < n then d[i] else 0

/-- `canon(f)` (R132). -/
def Frame.canon (f : Frame) : Frame := { f with data := keepFirst f.dlc.toNat f.data }

/-- `f ≈ g` (R132). -/
def Frame.equiv (f g : Frame) : Prop :=
  f.id = g.id ∧ f.dlc = g.dlc ∧ ∀ i : Fin 8, i.val < f.dlc.toNat → f.data[i] = g.data[i]

end Sys2Proof

namespace Sys2Proof.Machine

/-! ## ENCODE -/

/-- The image ENCODE writes for a valid frame (R130; identifier packing R95, R96; DLC byte R94). -/
def encodeImage (m : ChipLayout) (f : Frame) : Image :=
  let id := f.id
  let rtr : BitVec 1 := id.extractLsb' 30 1
  let ext := id.getLsbD 31
  { ctrl := place 8 m.rxrtrBit.val rtr
    sidh := if ext then id.extractLsb' 21 8 else id.extractLsb' 3 8
    sidl := if ext then
        place 8 m.sidLo.val (id.extractLsb' 18 3) ||| bitMask m.exideBit ||| place 8 m.eidLo.val (id.extractLsb' 16 2)
      else place 8 m.sidLo.val (id.extractLsb' 0 3)
    eid8 := if ext then id.extractLsb' 8 8 else 0x00
    eid0 := if ext then id.extractLsb' 0 8 else 0x00
    dlc := place 8 m.dlcRtrBit.val rtr ||| place 8 m.dlcLo.val (f.dlc.extractLsb' 0 4)
    data := keepFirst f.dlc.toNat f.data }

/-- ENCODE's effect (R130): Length is reported before Identifier (R255). -/
def encodeOp (s : State) : State :=
  if 8 < s.fin.dlc.toNat then { s with result := OpResult.invalidLength.byte }
  else if idOk s.fin.id = false then { s with result := OpResult.invalidIdentifier.byte }
  else
    { s with
      img := encodeImage s.par.layout s.fin
      elen := 5 + s.fin.dlc
      result := OpResult.ok.byte }

/-- The bytes a send path writes to a transmit buffer, at its offsets 1 to ELEN: `IMG[1..ELEN]` (R138). -/
def State.transmitBytes (s : State) : List Byte :=
  ((List.finRange 14).map s.img.byte).tail.take s.elen.toNat

/-! ## DECODE -/

/-- The length nibble of a DLC byte (R94). -/
def dlcNibble (m : ChipLayout) (d : Byte) : Nat := (d.extractLsb' m.dlcLo.val 4).toNat

/-- The remote-request bit, read where RTR_SOURCE says (R94, R133). -/
def rtrBit (m : ChipLayout) (src : RtrSource) (img : Image) : BitVec 1 :=
  match src with
  | .dlcByte => img.dlc.extractLsb' m.dlcRtrBit.val 1
  | .rxctrl => img.ctrl.extractLsb' m.rxrtrBit.val 1

/-- The frame word without its RTR bit (R95, R96 inverses, R133). -/
def decodeId (m : ChipLayout) (img : Image) : IdWord :=
  if img.sidl.getLsbD m.exideBit.val then
    0x80000000 ||| place 32 21 img.sidh ||| place 32 18 (img.sidl.extractLsb' m.sidLo.val 3) |||
      place 32 16 (img.sidl.extractLsb' m.eidLo.val 2) ||| place 32 8 img.eid8 ||| place 32 0 img.eid0
  else place 32 3 img.sidh ||| place 32 0 (img.sidl.extractLsb' m.sidLo.val 3)

/-- DECODE's computation from its EXIDE test onward (R133), for data length n. -/
def decodeImage (m : ChipLayout) (src : RtrSource) (img : Image) (n : Nat) : Frame :=
  { id := decodeId m img ||| place 32 30 (rtrBit m src img)
    dlc := BitVec.ofNat 8 n
    data := keepFirst n img.data }

/-- DECODE's effect (R133). -/
def decodeOp (s : State) : State :=
  let n := dlcNibble s.par.layout s.img.dlc
  if 8 < n then { s with result := OpResult.invalidLength.byte }
  else
    { s with
      fout := decodeImage s.par.layout s.par.rtrSource s.img n
      result := OpResult.ok.byte }

/-! ## RXREAD -/

/-- The end of RXREAD: DECODE's computation on the image read (R134). -/
def rxFinish (who : Issuer) (n : Fin 9) (s : State) : OpOut :=
  .done .ok (s.setFrame who (decodeImage s.par.layout s.par.rtrSource (s.image who) n.val))

/-- RXREAD before data byte `i`: read it if it is one of the first n, else finish (R134, R135). -/
def rxNext (who : Issuer) (b : Buf) (n : Fin 9) (i : Nat) (s : State) : OpOut :=
  if h : i < 8 then
    if i < n.val then .running (.rxData b n ⟨i, h⟩) s else rxFinish who n s
  else rxFinish who n s

/-- RXREAD once the header is read (R134): a length nibble above 8 is refused before any other read. -/
def rxHeaderDone (who : Issuer) (b : Buf) (s : State) : OpOut :=
  let n := dlcNibble s.par.layout (s.image who).dlc
  if h : n < 9 then
    match s.par.rtrSource with
    | .rxctrl => .running (.rxCtrl b ⟨n, h⟩) s
    | .dlcByte => rxNext who b ⟨n, h⟩ 0 s
  else .done .invalidLength s

/-- The index of the read of data byte `i` within RXREAD (R134, R242). -/
def rxDataIndex (src : RtrSource) (i : Nat) : Nat :=
  match src with
  | .dlcByte => 6 + i
  | .rxctrl => 7 + i

/-- Stores a byte read into the image register, at offset `j`. -/
def State.storeImage (who : Issuer) (j : Fin 14) (v : Byte) (s : State) : State :=
  s.setImage who ((s.image who).setByte j v)

/-- RXREAD's step that reads header byte `j + 1` (R134). -/
def rxHeaderStep (who : Issuer) (b : Buf) (j : Fin 5) (s : State) : OpOut :=
  match s.blockRead (headerAddr s.par.layout b j) with
  | (none, t) => .done (.transportFailure (j.val + 1)) t
  | (some v, t) =>
    let u := t.storeImage who ⟨j.val + 1, by omega⟩ v
    if h : j.val + 1 < 5 then .running (.rxHeader b ⟨j.val + 1, h⟩) u
    else rxHeaderDone who b u

/-- RXREAD's step that reads CTRL, only when RTR_SOURCE = RXCTRL (R134, R135). -/
def rxCtrlStep (who : Issuer) (b : Buf) (n : Fin 9) (s : State) : OpOut :=
  match s.blockRead (s.par.layout.rxbBase b) with
  | (none, t) => .done (.transportFailure 6) t
  | (some v, t) => rxNext who b n 0 (t.storeImage who 0 v)

/-- RXREAD's step that reads data byte `i` (R134). -/
def rxDataStep (who : Issuer) (b : Buf) (n : Fin 9) (i : Fin 8) (s : State) : OpOut :=
  match s.blockRead (dataAddr s.par.layout b i) with
  | (none, t) => .done (.transportFailure (rxDataIndex s.par.rtrSource i.val)) t
  | (some v, t) =>
    rxNext who b n (i.val + 1) (t.storeImage who ⟨i.val + 6, by omega⟩ v)

/-- RXREAD's beginning, before its first transaction (R134). -/
def rxStart (b : Buf) (s : State) : OpOut := .running (.rxHeader b 0) s

end Sys2Proof.Machine
end

