-- ==== Sys2Proof/Machine/ErrorOps.lean ====
section
/-!
DEFINITION. The error-state operations (41_error_ops.md): SNAPERR, CLASSIFY, CLROVR and RECOVER, step by step,
and the one step function of every multi-transaction operation.
-/

namespace Sys2Proof.Machine

/-! ## SNAPERR (R160) -/

/-- SNAPERR's beginning: `ESNAP.VALID <- 0`. -/
def snapStart (s : State) : OpOut :=
  .running .snapEflg { s with esnap := { s.esnap with valid := false } }

/-- The read of EFLG. -/
def snapEflgStep (s : State) : OpOut :=
  match s.blockRead s.par.layout.eflg with
  | (none, t) => .done (.transportFailure 1) t
  | (some e, t) => .running (.snapTec e) t

/-- The read of TEC. -/
def snapTecStep (e : Byte) (s : State) : OpOut :=
  match s.blockRead s.par.layout.tec with
  | (none, t) => .done (.transportFailure 2) t
  | (some c, t) => .running (.snapRec e c) t

/-- The read of REC, and the snapshot's completion. -/
def snapRecStep (e c : Byte) (s : State) : OpOut :=
  match s.blockRead s.par.layout.recCounter with
  | (none, t) => .done (.transportFailure 3) t
  | (some r, t) => .done .ok { t with esnap := { eflg := e, tec := c, recv := r, valid := true } }

/-! ## CLASSIFY (R161, R167) -/

/-- The recovery-latch update (R167). -/
def latchUpdate (k : EClass) (s : State) : State :=
  match k with
  | .busOff => { s with eclass := k, recpend := true }
  | .active => { s with eclass := k, recpend := false, recfails := 0 }
  | .passive => { s with eclass := k, recpend := false, recfails := 0 }
  | .unknown => { s with eclass := k, recpend := false, recfails := 0 }

/-- CLASSIFY's one step (R161). -/
def classifyOp (s : State) : OpOut :=
  if s.esnap.valid then
    .done .ok (latchUpdate (classifyErr s.par.layout s.esnap.eflg s.esnap.tec s.esnap.recv) s)
  else .done .noSnapshot s

/-! ## CLROVR (R163) -/

/-- CLROVR's beginning. -/
def ovrStart (b : Buf) (s : State) : OpOut := .running (.ovrClear b s.modStart) s

/-- A step of CLROVR's one modify. -/
def ovrClearStep (b : Buf) (m : ModStage) (s : State) : OpOut :=
  match s.modStep s.par.layout.eflg (ovrMask s.par.layout b) 0x00 m with
  | .more m' t => .running (.ovrClear b m') t
  | .done true t => .done .ok t
  | .done false t => .done (.transportFailure 1) t

/-! ## RECOVER (R164, R165) -/

/-- RECOVER's beginning: the backoff gate (R164, R166). -/
def recStart (s : State) : OpOut :=
  if s.recfails ≠ 0 ∧ s.now < s.recnext then .done .backoffPending s
  else .running (.recModify s.modStart) s

/-- A failed recovery attempt (R164). -/
def recFail (r : OpResult) (s : State) : OpOut :=
  let n := recfailsNext s.par.recfailsMax s.recfails
  .done r { s with recfails := n, recnext := s.now + s.par.backoff n.toNat }

/-- A successful recovery attempt (R164). -/
def recOk (s : State) : OpOut :=
  .done .ok { s with recpend := false, recfails := 0, eclass := .unknown }

/-- A step of the modify that requests Normal mode (R165). -/
def recModifyStep (m : ModStage) (s : State) : OpOut :=
  match s.modStep s.par.layout.canctrl (reqopMask s.par.layout) (reqopField s.par.layout .normal) m with
  | .more m' t => .running (.recModify m') t
  | .done true t => .running (.recPoll 1) t
  | .done false t => recFail (.transportFailure 1) t

/-- The `p`-th poll of CANSTAT (R165). Its transaction index is p + 1 (R242). -/
def recPollStep (p : Nat) (s : State) : OpOut :=
  match s.blockRead s.par.layout.canstat with
  | (none, t) => recFail (.transportFailure (p + 1)) t
  | (some v, t) =>
    if modeNormal s.par.layout v then .running (.recEflg p) t
    else if p < s.par.modePollLimit then .running (.recWait p t.now) t
    else recFail .modeTimeout t

/-- The wait after the `p`-th poll, made at tick `at_`, and the next poll once it is over (R165). LOCK stays
held (R295). -/
def recWaitStep (p at_ : Nat) (s : State) : OpOut :=
  if at_ + s.par.pollDelay ≤ s.now then recPollStep (p + 1) s else .waiting

/-- The post-transition read of EFLG (R164). Its transaction index is p + 2 (R242). -/
def recEflgStep (p : Nat) (s : State) : OpOut :=
  match s.blockRead s.par.layout.eflg with
  | (none, t) => recFail (.transportFailure (p + 2)) t
  | (some e, t) => if txboSet s.par.layout e then recFail .recoveryFailed t else recOk t

/-! ## The final clear of a pass (R205) -/

/-- A step of the modify of CANINTF with the handled mask. -/
def flagClearStep (m : ModStage) (s : State) : OpOut :=
  match s.modStep s.par.layout.canintf s.hmask 0x00 m with
  | .more m' t => .running (.flagClear m') t
  | .done true t => .done .ok t
  | .done false t => .done (.transportFailure 1) t

/-! ## Every operation -/

/-- The beginning of a LOCK-taking operation: what it does before its first transaction. -/
def opStart (op : LockOp) (s : State) : OpOut :=
  match op with
  | .rxread b => rxStart b s
  | .snaperr => snapStart s
  | .classify => classifyOp s
  | .clrovr b => ovrStart b s
  | .recover => recStart s

/-- One step of an operation in progress: one transaction, with its retries, or CLASSIFY's pure computation (R10,
R190). -/
def opStep (who : Issuer) (p : Prog) (s : State) : OpOut :=
  match p with
  | .rxHeader b j => rxHeaderStep who b j s
  | .rxCtrl b n => rxCtrlStep who b n s
  | .rxData b n i => rxDataStep who b n i s
  | .snapEflg => snapEflgStep s
  | .snapTec e => snapTecStep e s
  | .snapRec e c => snapRecStep e c s
  | .classify => classifyOp s
  | .ovrClear b m => ovrClearStep b m s
  | .recModify m => recModifyStep m s
  | .recPoll p => recPollStep p s
  | .recWait p t => recWaitStep p t s
  | .recEflg p => recEflgStep p s
  | .flagClear m => flagClearStep m s

end Sys2Proof.Machine
end

