-- ==== Sys2Proof/Machine/Environment.lean ====
section
/-!
DEFINITION. The acts of the environment agents (60_exceptions.md R264 to R266, 42_dispatcher.md R191): the chip,
the ISR, the clients, the receive consumer, the clock. An act outside an agent's contract is a model fault
(R251).
-/

namespace Sys2Proof.Machine

/-! ## The chip (R264, R265) -/

/-- Whether RXbIF is set in the chip. -/
def State.rxFull (b : Buf) (s : State) : Bool := rxFlagSet s.par.layout b (s.chipByte s.par.layout.canintf)

/-- The 14 bytes of an image as the registers of receive buffer b (R46). -/
def imageCells (m : ChipLayout) (b : Buf) (img : Image) : List Host.Cell :=
  (List.finRange 14).map fun j => (m.rxbBase b + j.val, img.byte j)

/-- Sets bits of a chip register. -/
def State.setBits (s : State) (a : Nat) (m : Byte) : State := s.putByte a (s.chipByte a ||| m)

/-- Clears bits of a chip register. -/
def State.clearBits (s : State) (a : Nat) (m : Byte) : State := s.putByte a (s.chipByte a &&& ~~~m)

/-- One act of the chip. -/
def chipStep (a : ChipAct) (s : State) : Except Fault State :=
  match a with
  | .setFlags m => .ok (s.setBits s.par.layout.canintf m)
  | .loadRx b img =>
    if s.rxFull b then .error .chipContract
    else .ok ((s.setChip (Memory.writeAll s.chip (imageCells s.par.layout b img))).setBits s.par.layout.canintf
      (rxFlag s.par.layout b))
  | .pokeRx b j v =>
    if s.rxFull b then .error .chipContract else .ok (s.putByte (s.par.layout.rxbBase b + j.val) v)
  | .overflow b =>
    if s.rxFull b then .ok (s.setBits s.par.layout.eflg (ovrMask s.par.layout b)) else .error .chipContract
  | .counters t r low =>
    .ok (((s.putByte s.par.layout.tec t).putByte s.par.layout.recCounter r).putByte s.par.layout.eflg
      ((s.chipByte s.par.layout.eflg &&& ovrAll s.par.layout) ||| (low &&& ~~~ovrAll s.par.layout)))
  | .enterMode =>
    .ok (s.putByte s.par.layout.canstat
      ((s.chipByte s.par.layout.canstat &&& ~~~opmodMask s.par.layout) |||
        place 8 s.par.layout.opmodLo.val ((s.chipByte s.par.layout.canctrl).extractLsb' s.par.layout.reqopLo.val 3)))
  | .clearBusOff => .ok (s.clearBits s.par.layout.eflg (txbo s.par.layout))
  | .txDone n =>
    .ok ((s.clearBits (s.par.layout.txbBase n) (bitMask s.par.layout.txreqBit)).setBits s.par.layout.canintf (txFlag s.par.layout n))

/-! ## The ISR (R191, R257) -/

/-- The ISR's one step on a falling edge: push a token if EVQ has room. -/
def isrStep (s : State) : State :=
  if s.edges = 0 then s
  else
    { s with
      edges := s.edges - 1
      evq := if s.evq < s.par.evqCap then s.evq + 1 else s.evq }

/-! ## Clients (R266) -/

/-- Whether an address belongs to a receive buffer (R46). -/
def inReceiveBuffer (m : ChipLayout) (a : Nat) : Bool :=
  decide ((m.rxb0 ≤ a ∧ a ≤ m.rxb0 + 13) ∨ (m.rxb1 ≤ a ∧ a ≤ m.rxb1 + 13))

/-- Whether the port runs an operation that owns LOCK. -/
def State.portRuns (s : State) : Bool :=
  match s.port with
  | some (.run _) => true
  | _ => false

/-- Whether client c has a modify between its two halves (R63). -/
def State.halfDone (c : Nat) (s : State) : Bool := s.halves.any fun h => h.client == c

/-- A client's act on the chip: only under LOCK (R72), and not before its own XModify is complete (R61, R71). -/
def clientAccess (c : Nat) (s : State) (t : State) : Except Fault State :=
  if s.lock ≠ .client c then .error .notLockOwner
  else if s.halfDone c then .error .clientDuty
  else .ok t

/-- A client's direct transaction (R61): only to an address the chip implements. -/
def clientTransaction (c : Nat) (a : Byte) (s : State) (t : State) : Except Fault State :=
  if s.lock = .client c ∧ Config.addressLimit ≤ a.toNat then .error .noSuchAddress
  else clientAccess c s t

/-- A client's write or modify: it does not write a receive buffer (R266). -/
def clientWrite (c : Nat) (a : Byte) (s : State) (t : State) : Except Fault State :=
  if s.lock = .client c ∧ inReceiveBuffer s.par.layout a.toNat then .error .clientDuty
  else clientTransaction c a s t

/-- The one step of a client's native XModify (R62), at every address: a choice where R104 does not say which registers
it applies to (notes/assumptions/26). Or the read half of one that is not native (R63, notes/assumptions/13): if the
read fails, nothing is written and the modify is over. -/
def clientModify (c : Nat) (a m v : Byte) (s : State) : State :=
  if s.par.nativeBitModify then (s.xferModify 1 a.toNat m v).2
  else
    match s.xferRead 1 a.toNat with
    | (some byte, t) => { t with halves := t.halves ++ [⟨c, a, modified byte m v⟩] }
    | (none, t) => t

/-- The write half of client c's XModify (R63), if it has one to do. DESIGN CHOICE (notes/assumptions/13): where c began
the modify while its own port operation held LOCK, that operation's end frees LOCK with the half still to do, and R63,
R71 and R72 do not say what becomes of it. Here the half is a fault while c does not own LOCK, and takes effect once c
owns it again through a later port operation, whatever other agents, a pass among them, did in between. -/
def clientModifyWrite (c : Nat) (s : State) : Except Fault State :=
  match s.halves.find? fun h => h.client == c with
  | none => .ok s
  | some h =>
    if s.lock ≠ .client c then .error .notLockOwner
    else
      .ok { (s.xferWrite 1 h.address.toNat h.value).2 with halves := s.halves.filter fun k => k.client != c }

/-- A client's write of OPREQ: OPREQ reads as the word from then on, and the request is held until the port starts
it (R26). -/
def writeOpreq (c : Nat) (w : Byte) (s : State) : State := { s with opreq := w, held := s.held ++ [⟨c, w⟩] }

/-- A client's XReset (R61, R64, R281). -/
def clientReset (s : State) : State :=
  let t := tryXfer 1 s.xport
  let u := { s.logBus .reset with xport := t.rest }
  if t.landed then u.resetChip else u

/-- One act of a client. -/
def clientStep (a : ClientAct) (s : State) : Except Fault State :=
  match a with
  | .wrFinId v => .ok { s with fin := { s.fin with id := v } }
  | .wrFinDlc v => .ok { s with fin := { s.fin with dlc := v } }
  | .wrFinData i v => .ok { s with fin := { s.fin with data := s.fin.data.set i.val v } }
  | .wrImg j v => .ok { s with img := s.img.setByte j v }
  | .wrBstat _ => .ok s
  | .wrOpreq c w => .ok (writeOpreq c w s)
  | .lock c =>
    if s.halfDone c then .error .clientDuty
    else .ok (if s.lock = .free then { s with lock := .client c } else s)
  | .unlock c =>
    if s.lock ≠ .client c then .error .notLockOwner
    else if s.portRuns ∨ s.halfDone c then .error .clientDuty
    else .ok { s with lock := .free }
  | .xread c a => clientTransaction c a s (s.xferRead 1 a.toNat).2
  | .xwrite c a v => clientWrite c a s (s.xferWrite 1 a.toNat v).2
  | .xmodify c a m v => clientWrite c a s (clientModify c a m v s)
  | .xmodifyWrite c => clientModifyWrite c s
  | .xreset c => clientAccess c s (clientReset s)

/-! ## Every environment agent -/

/-- One act of an environment agent. -/
def envStep (e : EnvAct) (s : State) : Except Fault State :=
  match e with
  | .chip a => chipStep a s
  | .isr => .ok (isrStep s)
  | .glitch => .ok { s with edges := s.edges + 1 }
  | .client a => clientStep a s
  | .consume => .ok { s with rxq := s.rxq.tail }
  | .tick n => .ok { s with now := s.now + n }

/-- The environment's acts between two block steps of an operation of `who` (R10, R190): acts are taken from
the agenda until it gives `who` the next step, or is empty. The answer is whether `who` goes on. It does not
when the agenda gives the other block agent its turn, and before an act that would be a fault: the operation
then stands where it is, and that turn or act comes first in a later step. -/
def settle (who : Issuer) : List Act → State → Bool × State
  | [], s => (true, { s with agenda := [] })
  | .env e :: r, s =>
    match envStep e s with
    | .ok t => settle who r t
    | .error _ => (false, { s with agenda := .env e :: r })
  | .port :: r, s =>
    match who with
    | .client => (true, { s with agenda := r })
    | .dispatcher => (false, { s with agenda := .port :: r })
  | .dispatcher :: r, s =>
    match who with
    | .dispatcher => (true, { s with agenda := r })
    | .client => (false, { s with agenda := .dispatcher :: r })

/-- The environment's acts that come next are drawn (notes/assumptions/4). -/
def redraw (s : State) : State :=
  { s with
    agenda := (Config.draws s.drawn).agenda
    xport := s.xport ++ (Config.draws s.drawn).xport
    drawn := s.drawn + 1 }

end Sys2Proof.Machine
end

