-- ==== Sys2Proof/Machine/ClientPort.lean ====
section
/-!
DEFINITION. The client port (42_dispatcher.md R209 to R211, 10_state.md R26): taking a request, its admission,
its steps, and the meanings of the nine operations a client issues.
-/

namespace Sys2Proof.Machine

/-! ## Steps of the port -/

/-- Puts an operation's next step, or its end, into the port. -/
def portAfter (o : OpOut) : Option State :=
  match o with
  | .running p t => some { t with port := some (.run p) }
  | .done r t => some (t.raise r)
  | .waiting => none

/-- BRESET's one step (R210, R282): every block register of R21 to R35 and R51 to R55 takes its reset value. -/
def blockReset (s : State) : State :=
  { s with
    fin := zeroFrame, fout := zeroFrame, img := zeroImage, elen := 0, opreq := 0x00
    dstate := .idle, flags := 0x00, hmask := 0x00, rxretry0 := 0, rxretry1 := 0
    esnap := { eflg := 0, tec := 0, recv := 0, valid := false }, eclass := .unknown
    recpend := false, recfails := 0, recnext := 0
    dimg := zeroImage, dfout := zeroFrame, errok := false, pkind := .event
    idleSince := s.now
    evlog := s.evlog ++ [⟨.breset, 0, 0, 0, 0⟩]
    port := none
    result := OpResult.ok.byte }

/-- One step of the client port. `none`: it has no step, because nothing runs, LOCK is not FREE (R39), BRESET
is held (R210), or the operation waits for the clock (R165). Acquiring LOCK and an operation's beginning are
one step, and each transaction is one. -/
def portStep (s : State) : Option State :=
  match s.port with
  | none => none
  | some (.acquire op) =>
    if s.lock = .free then portAfter (opStart op { s with lock := .client s.client }) else none
  | some .resetWait =>
    if s.dstate = .idle ∧ s.lock = .free then some (blockReset s) else none
  | some (.run p) => portAfter (opStep .client p s)

/-- The port's operation runs until it ends, is held, or the agenda gives the dispatcher a turn; the
environment acts between its steps as the agenda says (R10). -/
def runPort : Nat → State → State
  | 0, s => s
  | n + 1, s =>
    match portStep s with
    | none => s
    | some t =>
      if t.port.isNone then t
      else
        match settle .client t.agenda t with
        | (true, u) => runPort n u
        | (false, u) => u

/-- An operation that takes no LOCK: one step (R10, R211). If the port is busy the request is held (R26). -/
def portNow (i : Instr) (op : State → State) (s : State) : State :=
  if s.busy then writeOpreq s.client (encode i) s else op s

/-- An operation that starts in the port state `st` and runs (R211). If the port is busy the request is held
(R26). -/
def portRun (i : Instr) (st : PortState) (s : State) : State :=
  if s.busy then writeOpreq s.client (encode i) s
  else runPort s.par.stepBound { s with port := some st }

/-! ## Requests -/

/-- Takes the oldest held write of OPREQ. OPREQ itself reads as the last word written (R26). -/
def takeRequest (r : Request) (rest : List Request) (s : State) : State :=
  { s with held := rest, client := r.client }

/-- An illegal write sets RESULT and changes nothing else (R102, R247). -/
def rejectRequest (s : State) : State := { s with result := OpResult.illegalOp.byte }

/-! ## Meanings -/

/-- NOP (R209). -/
def execNop (s : State) : Host.Outcome State Fault Refusal :=
  .next (portNow .nop (fun t => { t with result := OpResult.ok.byte }) s)

/-- ENCODE (R130). -/
def execEncode (s : State) : Host.Outcome State Fault Refusal :=
  .next (portNow .encode encodeOp s)

/-- DECODE (R133). -/
def execDecode (s : State) : Host.Outcome State Fault Refusal :=
  .next (portNow .decode decodeOp s)

/-- RXREAD b, issued by a client (R134). -/
def execRxread (b : Buf) (s : State) : Host.Outcome State Fault Refusal :=
  .next (portRun (.rxread b) (.acquire (.rxread b)) s)

/-- SNAPERR, issued by a client (R160). -/
def execSnaperr (s : State) : Host.Outcome State Fault Refusal :=
  .next (portRun .snaperr (.acquire .snaperr) s)

/-- CLASSIFY, issued by a client (R161). -/
def execClassify (s : State) : Host.Outcome State Fault Refusal :=
  .next (portRun .classify (.acquire .classify) s)

/-- CLROVR b, issued by a client (R163). -/
def execClrovr (b : Buf) (s : State) : Host.Outcome State Fault Refusal :=
  .next (portRun (.clrovr b) (.acquire (.clrovr b)) s)

/-- RECOVER, issued by a client (R164). -/
def execRecover (s : State) : Host.Outcome State Fault Refusal :=
  .next (portRun .recover (.acquire .recover) s)

/-- BRESET (R210). -/
def execBreset (s : State) : Host.Outcome State Fault Refusal :=
  .next (portRun .breset .resetWait s)

end Sys2Proof.Machine
end

