-- ==== Sys2Proof/Machine/Dispatcher.lean ====
section
/-!
DEFINITION. The interrupt dispatcher (42_dispatcher.md R190 to R208): one step per edge or transaction, and the
two passes.
-/

namespace Sys2Proof.Machine

/-! ## Inner operations -/

/-- One step of an operation the dispatcher runs inside a pass: its beginning and first transaction, or the
next transaction (R190, R248). -/
def innerStep (op : LockOp) (s : State) : OpOut :=
  match s.dprog with
  | some p => opStep .dispatcher p s
  | none =>
    match opStart op s with
    | .running p t => opStep .dispatcher p t
    | o => o

/-- After an inner step: the state stays while the operation runs, and `fin` follows its end. -/
def innerAfter (fin : OpResult → State → State) (o : OpOut) : Option State :=
  match o with
  | .running p t => some { t with dprog := some p }
  | .done r t => some (fin r { t with dprog := none })
  | .waiting => none

/-! ## The states of a pass -/

/-- IDLE, first branch: an event pass starts (R192). -/
def startEvent (s : State) : State :=
  { s with evq := s.evq - 1, pkind := .event, dstate := .acq }

/-- IDLE, second branch: a timeout pass starts (R192). -/
def startTimeout (s : State) : State := { s with pkind := .timeout, dstate := .acq }

/-- The timeout guard (R192). -/
def timedOut (s : State) : Bool := decide (s.idleSince + s.par.wakeTimeout ≤ s.now)

/-- IDLE (R192). -/
def idleStep (s : State) : Option State :=
  if 0 < s.evq then some (startEvent s)
  else if timedOut s then some (startTimeout s)
  else none

/-- ACQ (R193). -/
def acqStep (s : State) : Option State :=
  if s.lock = .free then
    some ({ s with lock := .dispatcher, hmask := 0x00, errok := false, dstate := .readf }.emit
      .passStart s.pkind.code 0 0 0)
  else none

/-- READF (R194). -/
def readfStep (s : State) : State :=
  match s.blockRead s.par.layout.canintf with
  | (none, t) => { t with dstate := .rel }.emit .flagsReadFail 0 0 0 0
  | (some f, t) => { t with flags := f, dstate := .rx0 }.emit .flagsRead f 0 0 0

/-- The state after RXb (R195). -/
def afterRx : Buf → DState
  | .rx0 => .rx1
  | .rx1 => .txs

/-- Hand-off of a decoded frame (R197). -/
def rxDeliver (b : Buf) (s : State) : State :=
  if s.rxq.length < s.par.rxqCap then
    (({ s with rxq := s.rxq ++ [s.dfout] }.handle (rxFlag s.par.layout b)).setRxretry b 0).emit
      .rxDelivered (bufIndex b) s.dfout.dlc 0 0
  else s.emit .rxBackpressure (bufIndex b) 0 0 0

/-- A failed decode: retry in the next pass, or drop (R196). A count above 255 is recorded as a free value
(notes/assumptions/25). -/
def rxFailed (b : Buf) (r : OpResult) (s : State) : State :=
  if s.rxretry b < s.par.rxRetryLimit then
    (s.setRxretry b (s.rxretry b + 1)).emit
      .rxDecodeFail (bufIndex b) r.byte (countByte (s.rxretry b + 1)) 0
  else ((s.handle (rxFlag s.par.layout b)).setRxretry b 0).emit .rxDropped (bufIndex b) r.byte 0 0

/-- The end of RXREAD inside a pass (R195). -/
def rxEnd (b : Buf) (r : OpResult) (s : State) : State :=
  let t := { s with dstate := afterRx b }
  match r with
  | .ok => rxDeliver b t
  | r => rxFailed b r t

/-- RX0 and RX1 (R195). -/
def rxStep (b : Buf) (s : State) : Option State :=
  if rxFlagSet s.par.layout b s.flags then innerAfter (rxEnd b) (innerStep (.rxread b) s)
  else some { s.setRxretry b 0 with dstate := afterRx b }

/-- TXS (R198). -/
def txsStep (s : State) : State :=
  let t := s.flags &&& txfAll s.par.layout
  let u := { s.handle t with dstate := .errs }
  if t ≠ 0 then u.emit .txComplete t 0 0 0 else u

/-- The end of ERRS: what CLASSIFY found is recorded, or what failed (R199). -/
def errEnd (r : OpResult) (s : State) : State :=
  let t := { s with dstate := .recs }
  match r with
  | .ok =>
    { t.emit .errClassified (t.eclass.code.setWidth 8) t.esnap.eflg t.esnap.tec t.esnap.recv with errok := true }
  | r => t.emit .errSnapshotFail r.byte 0 0 0

/-- The end of SNAPERR inside a pass (R199): after a good snapshot the pass stays in ERRS, and CLASSIFY is its next
step, one of its own (R10, R190). -/
def snapEnd (r : OpResult) (s : State) : State :=
  match r with
  | .ok => { s with dprog := some .classify }
  | r => errEnd r s

/-- ERRS (R199). -/
def errsStep (s : State) : Option State :=
  if errSet s.par.layout s.flags then
    match s.dprog with
    | some .classify => innerAfter errEnd (opStep .dispatcher .classify s)
    | _ => innerAfter snapEnd (innerStep .snaperr s)
  else some { s with dstate := .recs }

/-- The end of RECOVER inside a pass (R200). -/
def recEnd (r : OpResult) (s : State) : State :=
  let t := { s with dstate := .ovrs }
  match r with
  | .backoffPending => t.emit .recoveryDeferred t.recfails 0 0 0
  | r => t.emit .recovery r.byte t.recfails 0 0

/-- RECS (R200). A recovery that has begun goes on whatever RECPEND is. -/
def recsStep (s : State) : Option State :=
  if s.recpend ∨ s.dprog.isSome then innerAfter recEnd (innerStep .recover s)
  else some { s with dstate := .ovrs }

/-- The end of OVRS: ERR is handled if the snapshot and every overflow clear succeeded (R202). -/
def ovrsEnd (s : State) : State :=
  let t := { s with dstate := .wakes }
  if errSet t.par.layout t.flags && t.errok then t.handle (errf t.par.layout) else t

/-- OVRS from buffer 1 on: its clear begins, or the state ends (R201). -/
def ovrsSecond (s : State) : State :=
  if ovrSet s.par.layout .rx1 s.esnap.eflg then { s with dprog := some (.ovrClear .rx1 s.modStart) } else ovrsEnd s

/-- The end of one CLROVR inside a pass (R201). -/
def ovrEnd (b : Buf) (r : OpResult) (s : State) : State :=
  let t :=
    match r with
    | .ok => s.emit .ovrCleared (ovrMask s.par.layout b) 0 0 0
    | _ => { s.emit .ovrClearFail (ovrMask s.par.layout b) 0 0 0 with errok := false }
  match b with
  | .rx0 => ovrsSecond t
  | .rx1 => ovrsEnd t

/-- The buffer whose overflow bit an operation in progress clears. -/
def progBuf : Prog → Buf
  | .ovrClear b _ => b
  | _ => .rx1

/-- OVRS (R201): one bit per transaction, taken from the snapshot, buffer 0 then 1. -/
def ovrsStep (s : State) : Option State :=
  match s.dprog with
  | some p => innerAfter (ovrEnd (progBuf p)) (opStep .dispatcher p s)
  | none =>
    if errSet s.par.layout s.flags && s.errok then
      if ovrSet s.par.layout .rx0 s.esnap.eflg then innerAfter (ovrEnd .rx0) (innerStep (.clrovr .rx0) s)
      else if ovrSet s.par.layout .rx1 s.esnap.eflg then innerAfter (ovrEnd .rx1) (innerStep (.clrovr .rx1) s)
      else some (ovrsEnd s)
    else some (ovrsEnd s)

/-- WAKES (R203, R204): WAKE is recorded and handled, MERR is recorded only. -/
def wakesStep (s : State) : State :=
  let t := { s with dstate := .clr }
  let u := if wakeSet t.par.layout t.flags then (t.handle (wakef t.par.layout)).emit .wake 0 0 0 0 else t
  if u.flags &&& unkf u.par.layout ≠ 0 then u.emit .unknownFlags (u.flags &&& unkf u.par.layout) 0 0 0 else u

/-- The end of the final clear (R205). -/
def clrEnd (r : OpResult) (s : State) : State :=
  let t := { s with dstate := .rel }
  match r with
  | .ok => t.emit .flagsCleared t.hmask 0 0 0
  | _ => t.emit .flagsClearFail t.hmask 0 0 0

/-- CLR (R205): the pass's one write to CANINTF, and none when nothing was handled. -/
def clrStep (s : State) : Option State :=
  match s.dprog with
  | some p => innerAfter clrEnd (opStep .dispatcher p s)
  | none =>
    if s.hmask ≠ 0x00 then innerAfter clrEnd (flagClearStep s.modStart s)
    else some { s with dstate := .rel }

/-- REL (R206). -/
def relStep (s : State) : State :=
  { s.emit .passEnd s.hmask 0 0 0 with lock := .free, idleSince := s.now, dstate := .idle }

/-- One step of the dispatcher (R190). `none`: it has no step, because nothing starts a pass (R192), LOCK is not
FREE (R193), or a recovery waits for the clock (R165). -/
def dispStep (s : State) : Option State :=
  match s.dstate with
  | .idle => idleStep s
  | .acq => acqStep s
  | .readf => some (readfStep s)
  | .rx0 => rxStep .rx0 s
  | .rx1 => rxStep .rx1 s
  | .txs => some (txsStep s)
  | .errs => errsStep s
  | .recs => recsStep s
  | .ovrs => ovrsStep s
  | .wakes => some (wakesStep s)
  | .clr => clrStep s
  | .rel => some (relStep s)

/-! ## The passes -/

/-- The pass runs until it is back in IDLE, is held, or the agenda gives the client port a turn; the
environment acts between its steps as the agenda says (R10, R190). -/
def runPass : Nat → State → State
  | 0, s => s
  | n + 1, s =>
    match dispStep s with
    | none => s
    | some t =>
      if t.dstate = .idle then t
      else
        match settle .dispatcher t.agenda t with
        | (true, u) => runPass n u
        | (false, u) => u

/-- DISPATCH, the event pass (R207): R192's first branch. Elsewhere the dispatcher has no such step (R192,
R212). -/
def execDispatch (s : State) : Host.Outcome State Fault Refusal :=
  .next (if s.dstate = .idle ∧ 0 < s.evq then runPass s.par.stepBound s else s)

/-- DISPATCH.TO, the timeout pass (R208): R192's second branch. Elsewhere the dispatcher has no such step
(R192, R212). -/
def execDispatchTo (s : State) : Host.Outcome State Fault Refusal :=
  .next (if s.dstate = .idle ∧ s.evq = 0 ∧ timedOut s then runPass s.par.stepBound s else s)

end Sys2Proof.Machine
end

