-- ==== Sys2Proof/Machine/Dispatch.lean ====
section
/-! DEFINITION. Which meaning each operation has: one arm per constructor of Instr. -/

namespace Sys2Proof.Machine

def exec (i : Instr) (s : State) : Host.Outcome State Fault Refusal :=
  match i with
  | .nop => Sys2Proof.Machine.execNop s
  | .encode => Sys2Proof.Machine.execEncode s
  | .decode => Sys2Proof.Machine.execDecode s
  | .rxread b => Sys2Proof.Machine.execRxread b s
  | .dispatch => Sys2Proof.Machine.execDispatch s
  | .dispatchTo => Sys2Proof.Machine.execDispatchTo s
  | .snaperr => Sys2Proof.Machine.execSnaperr s
  | .classify => Sys2Proof.Machine.execClassify s
  | .clrovr b => Sys2Proof.Machine.execClrovr b s
  | .recover => Sys2Proof.Machine.execRecover s
  | .breset => Sys2Proof.Machine.execBreset s

end Sys2Proof.Machine
end

