-- ==== Sys2Proof/Machine/Step.lean ====
section
/-!
DEFINITION. One step of the machine: the agent whose turn it is moves (00_scope.md R10). The client port takes
the oldest request and runs it, or goes on with its operation; the dispatcher starts a pass or goes on with
one; an environment agent takes its one act.
-/

namespace Sys2Proof.Machine

/-- The client port's turn (R211): an operation in progress goes on; else the oldest request is taken, and
started if it is legal (R102). -/
def portTurn (s : State) : Host.Outcome State Fault Refusal :=
  if s.busy then .next (runPort s.par.stepBound s)
  else
    match s.held with
    | [] => .next s
    | r :: rest =>
      match clientRequest r.word with
      | none => .next (rejectRequest (takeRequest r rest s))
      | some i => exec i (takeRequest r rest s)

/-- The dispatcher's turn (R192): from IDLE an event pass if there is a token, else a timeout pass if it is
due; elsewhere the pass goes on. -/
def dispatcherTurn (s : State) : Host.Outcome State Fault Refusal :=
  if s.dstate = .idle then
    if 0 < s.evq then exec .dispatch s else exec .dispatchTo s
  else .next (runPass s.par.stepBound s)

/-- One step. Where the agenda is empty, the environment's acts that come next are drawn. -/
def step (s : State) : Host.Outcome State Fault Refusal :=
  match s.agenda with
  | [] => .next (redraw s)
  | .port :: r => portTurn { s with agenda := r }
  | .dispatcher :: r => dispatcherTurn { s with agenda := r }
  | .env e :: r =>
    match envStep e { s with agenda := r } with
    | .ok t => .next t
    | .error f => .fault f

/-- `s` with a request where the step takes its next one (notes/assumptions/6). A client operation is the
oldest write of OPREQ, at an idle port whose turn it is. OP 0x4 and 0x5 are the dispatcher's: it stands in
IDLE, it is its turn, and there is a token (DISPATCH, R192), or none and the timeout is due (DISPATCH.TO). -/
def State.withFetchWord (s : State) (_nbits w : Nat) : State :=
  match decode (BitVec.ofNat 8 w) with
  | .ok .dispatch =>
    { s with
      agenda := .dispatcher :: s.agenda, dstate := .idle, dprog := none, evq := s.evq + 1 }
  | .ok .dispatchTo =>
    { s with
      agenda := .dispatcher :: s.agenda, dstate := .idle, dprog := none, evq := 0
      now := s.idleSince + s.par.wakeTimeout }
  | _ =>
    { s with
      agenda := .port :: s.agenda, port := none, opreq := BitVec.ofNat 8 w
      held := ⟨s.client, BitVec.ofNat 8 w⟩ :: s.held }

end Sys2Proof.Machine
end

