-- ==== Sys2Proof/Safety.lean ====
section
/-!
DEFINITION. The terms claims use: the launch premise and the end of a run (70_reset_and_hazards.md R284, R300),
the invariants that every step keeps, groups of registers for frames, the register a receive buffer holds as an
image, and the edges and transactions the rules admit.
-/

namespace Sys2Proof.Machine

/-! ## Runs -/

/-- Every block register at its R280 value, NOW and IDLE_SINCE equal, the queues and the log empty, LOCK FREE, no
operation in progress and none requested. -/
abbrev State.blockAtReset (s : State) : Prop :=
  s.fin = zeroFrame ∧ s.fout = zeroFrame ∧ s.img = zeroImage ∧ s.elen = 0 ∧ s.result = 0x00 ∧ s.opreq = 0x00 ∧
  s.dstate = .idle ∧ s.flags = 0x00 ∧ s.hmask = 0x00 ∧ s.rxretry0 = 0 ∧ s.rxretry1 = 0 ∧
  s.esnap = { eflg := 0, tec := 0, recv := 0, valid := false } ∧ s.eclass = .unknown ∧
  s.recpend = false ∧ s.recfails = 0 ∧ s.recnext = 0 ∧
  s.evq = 0 ∧ s.rxq = [] ∧ s.evlog = [] ∧ s.lock = .free ∧ s.idleSince = s.now ∧
  s.dimg = zeroImage ∧ s.dfout = zeroFrame ∧ s.errok = false ∧ s.pkind = .event ∧ s.port = none ∧
  s.dprog = none ∧ s.held = [] ∧ s.halves = []

/-- `CANINTE_BOOT`, which enables the source's seven flags and not MERR: 0x7F in the default layout (R283). -/
def caninteBoot (m : ChipLayout) : Byte := knownf m

/-- The launch premise `booted` (R284). Receive and transmit buffer bytes are any value. -/
abbrev State.booted (s : State) : Prop :=
  s.blockAtReset ∧ modeNormal s.par.layout (s.chipByte s.par.layout.canstat) = true ∧
  s.chipByte s.par.layout.caninte = caninteBoot s.par.layout ∧ s.chipByte s.par.layout.canintf = 0x00 ∧
  s.chipByte s.par.layout.eflg = 0x00 ∧ s.chipByte s.par.layout.tec = 0x00 ∧
  s.chipByte s.par.layout.recCounter = 0x00

/-- A run is at rest (R300). -/
abbrev State.atRest (s : State) : Prop :=
  s.dstate = .idle ∧ s.lock = .free ∧ s.busy = false ∧ s.evq = 0

/-- No agent but the one that runs moves, and no transaction fails, as long as the operation that runs next. -/
abbrev State.quiet (s : State) : Prop := s.agenda = [] ∧ s.xport = []

/-- The port can start an operation and LOCK is FREE. -/
abbrev State.portReady (s : State) : Prop := s.port = none ∧ s.lock = .free

/-- A pass of kind k starts at the dispatcher's next step, and finds LOCK FREE (R192, R193). -/
abbrev State.passReady (k : PassKind) (s : State) : Prop :=
  s.dstate = .idle ∧ s.dprog = none ∧ s.lock = .free ∧ (k = .event → 0 < s.evq) ∧
  (k = .timeout → s.evq = 0 ∧ s.idleSince + s.par.wakeTimeout ≤ s.now)

/-- The operation of a pass kind (R207, R208). -/
def passInstr : PassKind → Instr
  | .event => .dispatch
  | .timeout => .dispatchTo

/-- The operation a LOCK-taking request stands for (R211). -/
def LockOp.instr : LockOp → Instr
  | .rxread b => .rxread b
  | .snaperr => .snaperr
  | .classify => .classify
  | .clrovr b => .clrovr b
  | .recover => .recover

/-! ## Invariants -/

/-- The layout is one of a chip (R6). -/
abbrev State.layoutInv (s : State) : Prop := s.par.layout.Wf

/-- The chip registers are in canonical form (R60). -/
abbrev State.memInv (s : State) : Prop := Memory.wf s.chip = true

/-- Whether the dispatcher is between ACQ and REL (R193, R206). -/
def DState.inPass : DState → Bool
  | .idle => false
  | .acq => false
  | _ => true

/-- A client's modify between its halves is of a register the chip has (R60, R63). -/
abbrev State.halvesInv (s : State) : Prop := ∀ h ∈ s.halves, h.address.toNat < Config.addressLimit

/-- LOCK has one owner and it is the one at work (R39, R72): the dispatcher owns it exactly from ACQ's end to
REL, and a client operation that runs owns it for its client. -/
abbrev State.lockInv (s : State) : Prop :=
  (s.lock = .dispatcher ↔ s.dstate.inPass = true) ∧ (s.portRuns = true → s.lock = .client s.client)

/-- Which operation of the dispatcher may be in progress in a state (R190). -/
def progFits : DState → Prog → Bool
  | .rx0, .rxHeader b _ => b == .rx0
  | .rx0, .rxCtrl b _ => b == .rx0
  | .rx0, .rxData b _ _ => b == .rx0
  | .rx1, .rxHeader b _ => b == .rx1
  | .rx1, .rxCtrl b _ => b == .rx1
  | .rx1, .rxData b _ _ => b == .rx1
  | .errs, .snapTec _ => true
  | .errs, .snapRec _ _ => true
  | .errs, .classify => true
  | .recs, .recModify _ => true
  | .recs, .recPoll _ => true
  | .recs, .recWait _ _ => true
  | .recs, .recEflg _ => true
  | .ovrs, .ovrClear _ _ => true
  | .clr, .flagClear _ => true
  | _, _ => false

/-- An operation in progress belongs to the dispatcher's state, which has seen the flag it serves (R190, R195,
R199, R201, R205), a pass's CLASSIFY has a good snapshot (R199), and the port never runs a pass's final clear or its
CLASSIFY. -/
def State.progInv (s : State) : Prop :=
  (∀ p, s.dprog = some p →
    progFits s.dstate p = true ∧
    (s.dstate = .rx0 → rxFlagSet s.par.layout .rx0 s.flags = true) ∧
    (s.dstate = .rx1 → rxFlagSet s.par.layout .rx1 s.flags = true) ∧
    (s.dstate = .errs → errSet s.par.layout s.flags = true) ∧
    (s.dstate = .ovrs → errSet s.par.layout s.flags = true) ∧
    (p = .classify → s.esnap.valid = true)) ∧
  (∀ m, s.port ≠ some (.run (.flagClear m))) ∧ s.port ≠ some (.run .classify)

/-- Whether OVRS is behind the pass, where ERR is marked handled (R202). -/
def DState.errDone : DState → Bool
  | .wakes => true
  | .clr => true
  | .rel => true
  | .idle => true
  | .acq => true
  | _ => false

/-- HMASK holds only flags that FLAGS holds, and never MERR (R213 (b)); READF starts with it empty (R193); ERR is in it
only once OVRS is over, after a good snapshot and overflow clears that all succeeded (R202, R213 (d)). -/
abbrev State.maskInv (s : State) : Prop :=
  s.hmask &&& ~~~(s.flags &&& knownf s.par.layout) = 0 ∧ (s.dstate = .readf → s.hmask = 0) ∧
  (errSet s.par.layout s.hmask = true → s.errok = true ∧ s.dstate.errDone = true)

/-- Queues and counters keep their capacities (R30, R36, R37). -/
abbrev State.queueInv (s : State) : Prop :=
  s.evq ≤ s.par.evqCap ∧ s.rxq.length ≤ s.par.rxqCap ∧
  s.rxretry0 ≤ s.par.rxRetryLimit ∧ s.rxretry1 ≤ s.par.rxRetryLimit

/-- A frame the block decoded: valid and canonical (R131 to R133). -/
abbrev Frame.decoded (f : Frame) : Prop := f.valid = true ∧ f.canon = f

/-- FOUT, DFOUT and every frame handed off are valid canonical frames (R22, R197). -/
abbrev State.frameInv (s : State) : Prop :=
  Frame.decoded s.fout ∧ Frame.decoded s.dfout ∧ ∀ f ∈ s.rxq, Frame.decoded f

/-- RECPEND is set exactly while the last classification is BusOff (R33, R164, R167). -/
abbrev State.latchInv (s : State) : Prop := s.recpend = true ↔ s.eclass = .busOff

/-- IDLE_SINCE is no later than NOW (R40). -/
abbrev State.timeInv (s : State) : Prop := s.idleSince ≤ s.now

/-- ELEN is its reset value or 5 to 13 (R24). -/
abbrev State.elenInv (s : State) : Prop := s.elen = 0 ∨ (5 ≤ s.elen.toNat ∧ s.elen.toNat ≤ 13)

/-- Every invariant of the machine. -/
structure State.Inv (s : State) : Prop where
  layout : s.layoutInv
  mem : s.memInv
  halves : s.halvesInv
  lock : s.lockInv
  prog : s.progInv
  mask : s.maskInv
  queue : s.queueInv
  frame : s.frameInv
  latch : s.latchInv
  time : s.timeInv
  elen : s.elenInv

/-! ## Groups of registers, for frames -/

/-- The client port's registers are unchanged (R263). -/
abbrev State.sameClient (s t : State) : Prop :=
  t.fin = s.fin ∧ t.fout = s.fout ∧ t.img = s.img ∧ t.elen = s.elen ∧ t.result = s.result ∧ t.opreq = s.opreq

/-- The dispatcher's private registers are unchanged (R263). -/
abbrev State.samePass (s t : State) : Prop :=
  t.dstate = s.dstate ∧ t.flags = s.flags ∧ t.hmask = s.hmask ∧ t.rxretry0 = s.rxretry0 ∧
  t.rxretry1 = s.rxretry1 ∧ t.errok = s.errok ∧ t.pkind = s.pkind ∧ t.dimg = s.dimg ∧ t.dfout = s.dfout ∧
  t.idleSince = s.idleSince ∧ t.dprog = s.dprog

/-- The shared error registers are unchanged (R263). -/
abbrev State.sameErr (s t : State) : Prop :=
  t.esnap = s.esnap ∧ t.eclass = s.eclass ∧ t.recpend = s.recpend ∧ t.recfails = s.recfails ∧
  t.recnext = s.recnext

/-- The queues and the log are unchanged. -/
abbrev State.sameQueues (s t : State) : Prop := t.evq = s.evq ∧ t.rxq = s.rxq ∧ t.evlog = s.evlog

/-- Every byte of the chip register space reads as before, and INT has made no new edge. -/
def State.sameChip (s t : State) : Prop :=
  (∀ a, t.chipByte a = s.chipByte a) ∧ t.epoch = s.epoch ∧ t.edges = s.edges

/-! ## Receive buffers -/

/-- What receive buffer b holds, as an image (R46, R92). -/
def State.rxImage (b : Buf) (s : State) : Image :=
  let base := s.par.layout.rxbBase b
  { ctrl := s.chipByte base
    sidh := s.chipByte (base + 1)
    sidl := s.chipByte (base + 2)
    eid8 := s.chipByte (base + 3)
    eid0 := s.chipByte (base + 4)
    dlc := s.chipByte (base + 5)
    data := Vector.ofFn fun i : Fin 8 => s.chipByte (base + 6 + i.val) }

/-- What RXREAD leaves in the image register that held `old`, from a buffer that holds `img` with data length
n: the header, CTRL only under RXCTRL, and the first n data bytes (R134). -/
def rxImageAfter (src : RtrSource) (old img : Image) (n : Nat) : Image :=
  { ctrl := if src = .rxctrl then img.ctrl else old.ctrl
    sidh := img.sidh
    sidl := img.sidl
    eid8 := img.eid8
    eid0 := img.eid0
    dlc := img.dlc
    data := Vector.ofFn fun i : Fin 8 => if i.val < n then img.data[i] else old.data[i] }

/-- The addresses RXREAD reads, in order (R135). -/
def rxAddresses (m : ChipLayout) (src : RtrSource) (b : Buf) (n : Nat) : List Nat :=
  let base := m.rxbBase b
  [base + 1, base + 2, base + 3, base + 4, base + 5] ++ (if src = .rxctrl then [base] else []) ++
    (List.range n).map fun i => base + 6 + i

/-- Reads of these addresses, as bus entries of an owner. -/
def readsBy (o : Lock) (as : List Nat) : List BusEntry := as.map fun a => ⟨o, .read a⟩

/-- An undisturbed modify of a register that holds `old`, under mask `m` with value `v`, as bus entries of an owner:
one transaction, or without a native modify a read and a write (R62, R63). -/
def modifyBy (native : Bool) (o : Lock) (a : Nat) (m v old : Byte) : List BusEntry :=
  if native then [⟨o, .modify a m v⟩] else [⟨o, .read a⟩, ⟨o, .write a ((old &&& ~~~m) ||| (v &&& m))⟩]

/-! ## The dispatcher's edges and the block's transactions -/

/-- The edges of R190. -/
def edge : DState → DState → Bool
  | .idle, .acq => true
  | .acq, .readf => true
  | .readf, .rx0 => true
  | .readf, .rel => true
  | .rx0, .rx1 => true
  | .rx1, .txs => true
  | .txs, .errs => true
  | .errs, .recs => true
  | .recs, .ovrs => true
  | .ovrs, .wakes => true
  | .wakes, .clr => true
  | .clr, .rel => true
  | .rel, .idle => true
  | _, _ => false

/-- The states that run a multi-transaction operation and stay while it runs (R190). CLR is among them because
its modify is two transactions where the chip has no native one (R63). -/
def DState.mayStay : DState → Bool
  | .rx0 => true
  | .rx1 => true
  | .errs => true
  | .recs => true
  | .ovrs => true
  | .clr => true
  | _ => false

/-- The block's address set (R60). -/
def blockAddress (m : ChipLayout) (a : Nat) : Bool :=
  a == m.canintf || a == m.eflg || a == m.tec || a == m.recCounter || a == m.canctrl || a == m.canstat ||
    inReceiveBuffer m a

/-- A transaction the block may issue (R60, R61, R69): a read of its address set; a modify of CANINTF with value
0x00, of EFLG under a mask within OVR_ALL with value 0x00, or of CANCTRL under REQOP's mask with Normal mode's code.
Without a native modify (R63) the write half stands in its place. -/
def blockTransaction (l : ChipLayout) (native : Bool) : BusOp → Bool
  | .read a => blockAddress l a
  | .modify a m v =>
    native &&
      ((a == l.canintf && v == 0) || (a == l.eflg && m &&& ~~~ovrAll l == 0 && v == 0) ||
        (a == l.canctrl && m == reqopMask l && v == reqopField l .normal))
  | .write a _ => !native && (a == l.canintf || a == l.eflg || a == l.canctrl)
  | .reset => false

end Sys2Proof.Machine
end

