-- ==== Sys2Proof/Certificates/Slice0/Obligations.lean ====
section
/-!
DEFINITION. The statements for the provers. Each docstring names the rule of spec/ a statement rests on. The
parameters of R6 stand in the state, so "every state" includes every value of them, and the transport's draws
and the agents' acts are lists of the state, so it includes every behaviour of the environment. That an operation
nobody disturbs runs to its end in one `exec` is the model's own convention (notes/assumptions/7).

The chip's layout is one of the parameters. A statement that holds only of layouts whose registers, bits and codes are
distinct has the premise `layoutInv`. A statement that spells out addresses and masks as numbers, as the rules do,
says so with the premise that the layout is the default one, `mcp2515` (R2, R6, R69, R92 to R99).
-/

open Sys2Proof Sys2Proof.Machine

/-! ## Requests -/

/-- The request words of R100, R101 and R107: every operation's word decodes to it, and a word that decodes to an
operation is its word, so no two words decode to one operation. -/
def Obligations.RequestWordRoundTrip : Prop :=
  (∀ i : Instr, decode (encode i) = .ok i) ∧ ∀ (w : Byte) (i : Instr), decode w = .ok i → encode i = w

/-- R21, R23, R26, R51, R107 (`wr`): a client's write of FIN or IMG changes the named field or byte and nothing else;
its write of OPREQ makes OPREQ read as the word and starts nothing before the port's turn, the request being held; its
write of BSTAT is ignored. Three clauses are the model's choice: that a write of FIN or IMG takes effect at once, also
while an operation runs (notes/assumptions/24), that OPREQ reads as the word from the write on, and that a new request
comes after those already held (notes/assumptions/8). -/
def Obligations.ClientWritesRegisters : Prop :=
  ∀ (s : State) (l : List Act),
    (∀ v, s.agenda = .env (.client (.wrFinId v)) :: l →
      step s = .next { s with agenda := l, fin := ⟨v, s.fin.dlc, s.fin.data⟩ }) ∧
    (∀ v, s.agenda = .env (.client (.wrFinDlc v)) :: l →
      step s = .next { s with agenda := l, fin := ⟨s.fin.id, v, s.fin.data⟩ }) ∧
    (∀ (i : Fin 8) v, s.agenda = .env (.client (.wrFinData i v)) :: l →
      ∃ d : Payload, step s = .next { s with agenda := l, fin := ⟨s.fin.id, s.fin.dlc, d⟩ } ∧
        ∀ k : Fin 8, d[k] = if k = i then v else s.fin.data[k]) ∧
    (∀ (j : Fin 14) v, s.agenda = .env (.client (.wrImg j v)) :: l →
      ∃ img : Image, step s = .next { s with agenda := l, img := img } ∧
        ∀ k : Fin 14, img.byte k = if k = j then v else s.img.byte k) ∧
    (∀ c w, s.agenda = .env (.client (.wrOpreq c w)) :: l →
      step s = .next { s with agenda := l, opreq := w, held := s.held ++ [⟨c, w⟩] }) ∧
    (∀ v, s.agenda = .env (.client (.wrBstat v)) :: l → step s = .next { s with agenda := l })

/-- Words written out from R100 and R101 (vectors V52 to V58). -/
def Obligations.RequestWordsOfTable : Prop :=
  decode 0b00000000 = .ok .nop ∧ decode 0b00000001 = .ok .encode ∧ decode 0b00000010 = .ok .decode ∧
  decode 0b00000011 = .ok (.rxread .rx0) ∧ decode 0b00010011 = .ok (.rxread .rx1) ∧
  decode 0b00000100 = .ok .dispatch ∧ decode 0b00000101 = .ok .dispatchTo ∧
  decode 0b00000110 = .ok .snaperr ∧ decode 0b00000111 = .ok .classify ∧
  decode 0b00001000 = .ok (.clrovr .rx0) ∧ decode 0b00011000 = .ok (.clrovr .rx1) ∧
  decode 0b00001001 = .ok .recover ∧ decode 0b00001010 = .ok .breset ∧
  decode 0b00001011 = .error .reservedOp ∧ decode 0b00010001 = .error .bufferBit ∧
  decode 0b00100001 = .error .reservedBits

/-- R102, R247: the port's step on an illegal write of OPREQ (bits 7:5 not 0, OP 0xB to 0xF, OP 0x4 or 0x5, or
B = 1 with an OP other than 0x3 and 0x8) sets RESULT to 0x0F. Nothing else changes but that the write is no
longer held, its client is recorded (notes/assumptions/12), and the agents' agenda moves on. That of several held
writes the oldest is taken is the model's choice (notes/assumptions/8). -/
def Obligations.IllegalRequestSetsResultOnly : Prop :=
  ∀ (s : State) (l : List Act) (r : Request) (rest : List Request),
    s.agenda = .port :: l → s.port = none → s.held = r :: rest →
    (r.word.extractLsb' 5 3 ≠ 0 ∨ 0xB ≤ (r.word.extractLsb' 0 4).toNat ∨
      r.word.extractLsb' 0 4 = 0x4 ∨ r.word.extractLsb' 0 4 = 0x5 ∨
      (r.word.getLsbD 4 = true ∧ r.word.extractLsb' 0 4 ≠ 0x3 ∧ r.word.extractLsb' 0 4 ≠ 0x8)) →
    step s =
      .next { s with agenda := l, held := rest, client := r.client, result := 0x0F }

/-- A step runs the decoded operation: at the port's turn, with the port idle and a request word that decodes
to an operation a client may issue, the step is `exec` of it at the state in which the request is no longer held
(R102, R211). That of several held requests the oldest runs is the model's choice: R26 says only that a write is held
until the running operation ends (notes/assumptions/8).

With the port busy the operation goes on (R75): one that waits to begin, for LOCK or for IDLE, is tried again, so that
the owner's release lifts the hold (R39); one that has begun takes its next block step, and none while it has none. How
far one turn runs is the model's choice: to the operation's end, with the environment's acts in between, unless the
agenda gives the dispatcher its turn (notes/assumptions/7). -/
def Obligations.PortStepRunsRequest : Prop :=
  ∀ (s u : State) (l : List Act), s.agenda = .port :: l → u = { s with agenda := l } →
    (∀ (r : Request) (rest : List Request) (i : Instr), s.port = none → s.held = r :: rest →
      decode r.word = .ok i → i.wellFormed .client = true →
      step s = exec i { u with held := rest, client := r.client }) ∧
    (∀ op : LockOp, s.port = some (.acquire op) → step s = exec op.instr { u with port := none }) ∧
    (s.port = some .resetWait → step s = exec .breset { u with port := none }) ∧
    (s.port ≠ none →
      (portStep u = none → step s = .next u) ∧
      ∀ t : State, portStep u = some t →
        (t.port = none → step s = .next t) ∧
        (t.port ≠ none →
          step s = .next (match settle .client l t with
            | (true, v) => runPort (s.par.stepBound - 1) v
            | (false, v) => v)))

/-- A step runs the dispatcher's operation: at the dispatcher's turn in IDLE, the step is `exec` of DISPATCH if
EVQ holds a token, `exec` of DISPATCH.TO if it holds none and the idle timeout is due, and no step of the dispatcher
if neither holds (R192, R207, R208; that waiting changes nothing but the agents' agenda, notes/assumptions/22).

Outside IDLE the pass goes on (R75): it takes its next block step, and none while it has none, being held for LOCK
(R193) or waiting for the clock (R165). How far one turn runs is the model's choice: to the end of the pass, with the
environment's acts in between, unless the agenda gives the port its turn (notes/assumptions/7). -/
def Obligations.DispatcherStepRunsPass : Prop :=
  ∀ (s u : State) (l : List Act), s.agenda = .dispatcher :: l → u = { s with agenda := l } →
    (s.dstate = .idle →
      step s =
        if 0 < s.evq then exec .dispatch u
        else if s.idleSince + s.par.wakeTimeout ≤ s.now then exec .dispatchTo u
        else .next u) ∧
    (s.dstate ≠ .idle →
      (dispStep u = none → step s = .next u) ∧
      ∀ t : State, dispStep u = some t →
        (t.dstate = .idle → step s = .next t) ∧
        (t.dstate ≠ .idle →
          step s = .next (match settle .dispatcher l t with
            | (true, v) => runPass (s.par.stepBound - 1) v
            | (false, v) => v)))

/-- R26: a request that comes while an operation runs is held until it ends, and OPREQ reads as its word. Requests are
held in order: the model's choice (notes/assumptions/8). -/
def Obligations.BusyPortHoldsRequest : Prop :=
  ∀ (s : State) (i : Instr), s.port ≠ none → i.wellFormed .client = true →
    exec i s = .next { s with opreq := encode i, held := s.held ++ [⟨s.client, encode i⟩] }

/-- R39, R75, R193, R211, R256: LOCK is taken only when it is FREE, whoever holds it. A client's operation that takes
LOCK, started while LOCK is not FREE, is held: it is BUSY and has no other effect, and it has no step as long as LOCK is
not FREE. A pass in ACQ has no step either, and with LOCK FREE it takes LOCK, empties HMASK and ERROK and records
PASS_START. A client's own lock act takes LOCK only when it is FREE; that it does nothing otherwise, to be tried again,
and its premise that the client has no modify half done, are the model's choice (notes/assumptions/12). -/
def Obligations.LockTakenHoldsOperation : Prop :=
  ∀ s : State,
    (∀ op : LockOp, s.port = none → s.lock ≠ .free →
      exec op.instr s = .next { s with port := some (.acquire op) }) ∧
    (∀ op : LockOp, s.port = some (.acquire op) → s.lock ≠ .free → portStep s = none) ∧
    (s.dstate = .acq → s.lock ≠ .free → dispStep s = none) ∧
    (s.dstate = .acq → s.lock = .free →
      dispStep s =
        some { s with
          lock := .dispatcher, hmask := 0x00, errok := false, dstate := .readf
          evlog := s.evlog ++ [⟨.passStart, s.pkind.code, 0, 0, 0⟩] }) ∧
    ∀ (c : Nat) (l : List Act), s.agenda = .env (.client (.lock c)) :: l → (∀ h ∈ s.halves, h.client ≠ c) →
      step s = .next { s with agenda := l, lock := if s.lock = .free then .client c else s.lock }

/-! ## Reset -/

/-- R280: the block's registers at power-on, BSTAT among them, and the chip's registers, which power-on leaves
unspecified: each is a free value. R2, R6, R46, R47, R69, R93, R94, R97 to R99, R104: the parameters that have a
default have it, the default layout's addresses, positions, codes and command bytes among them, and its masks are the
rules' numbers. -/
def Obligations.PowerOnReset : Prop :=
  State.reset.blockAtReset ∧ State.reset.bstat = 0x06 ∧ State.reset.atRest ∧
  (∀ a, State.reset.chipByte a = Config.unspecReg 0 a) ∧
  State.reset.par.rtrSource = .dlcByte ∧ State.reset.par.rxRetryLimit = 1 ∧
  State.reset.par.nativeBitModify = true ∧ State.reset.par.recfailsMax = 255 ∧
  State.reset.par.layout =
    { canstat := 0x0E, canctrl := 0x0F, tec := 0x1C, recCounter := 0x1D, caninte := 0x2B, canintf := 0x2C
      eflg := 0x2D, rxb0 := 0x60, rxb1 := 0x70, txb0 := 0x30, txb1 := 0x40, txb2 := 0x50
      rx0Bit := 0, rx1Bit := 1, tx0Bit := 2, tx1Bit := 3, tx2Bit := 4, errBit := 5, wakeBit := 6
      txboBit := 5, ovr0Bit := 6, ovr1Bit := 7
      normal := 0b000, sleep := 0b001, loopback := 0b010, listenOnly := 0b011, configuration := 0b100
      reqopLo := 5, opmodLo := 5, txreqBit := 3, rxrtrBit := 3, sidLo := 5, exideBit := 3, eidLo := 0
      dlcRtrBit := 6, dlcLo := 0, readCmd := 0x03, writeCmd := 0x02, modifyCmd := 0x05, resetCmd := 0xC0 } ∧
  rxFlag State.reset.par.layout .rx0 = 0x01 ∧ rxFlag State.reset.par.layout .rx1 = 0x02 ∧
  txfAll State.reset.par.layout = 0x1C ∧ errf State.reset.par.layout = 0x20 ∧ wakef State.reset.par.layout = 0x40 ∧
  knownf State.reset.par.layout = 0x7F ∧ unkf State.reset.par.layout = 0x80 ∧
  ovrMask State.reset.par.layout .rx0 = 0x40 ∧ ovrMask State.reset.par.layout .rx1 = 0x80 ∧
  txbo State.reset.par.layout = 0x20 ∧ reqopMask State.reset.par.layout = 0xE0 ∧
  reqopField State.reset.par.layout .normal = 0x00

/-! ## NOP -/

/-- R209: NOP, request word 0x00, sets RESULT to OK and changes nothing else; it takes no LOCK. -/
def Obligations.NopSetsResult : Prop :=
  decode 0x00 = .ok .nop ∧ encode .nop = 0x00 ∧
  ∀ s : State, s.port = none → exec .nop s = .next { s with result := 0x00 }

/-! ## ENCODE and DECODE -/

/-- R130, R92 to R96: ENCODE of a valid frame writes the image byte by byte, each field where the layout has it and 0 in
every bit that no field has, ELEN and RESULT, and nothing else. -/
def Obligations.EncodeWritesImage : Prop :=
  ∀ (s : State) (m : ChipLayout), s.port = none → s.par.layout = m → m.Wf → s.fin.dlc.toNat ≤ 8 →
    s.fin.id.getLsbD 29 = false → (s.fin.id.getLsbD 31 = true ∨ s.fin.id.extractLsb' 11 18 = 0) →
    ∃ img : Image,
      exec .encode s = .next { s with img := img, elen := 5 + s.fin.dlc, result := 0x00 } ∧
      (∀ i, img.ctrl.getLsbD i = (decide (i = m.rxrtrBit.val) && s.fin.id.getLsbD 30)) ∧
      img.sidl.getLsbD m.exideBit.val = s.fin.id.getLsbD 31 ∧
      (s.fin.id.getLsbD 31 = true →
        img.sidh ++ img.sidl.extractLsb' m.sidLo.val 3 ++ img.sidl.extractLsb' m.eidLo.val 2 ++ img.eid8 ++ img.eid0 =
          s.fin.id.extractLsb' 0 29) ∧
      (s.fin.id.getLsbD 31 = false →
        img.sidh ++ img.sidl.extractLsb' m.sidLo.val 3 = s.fin.id.extractLsb' 0 11 ∧
        img.sidl.extractLsb' m.eidLo.val 2 = 0 ∧ img.eid8 = 0x00 ∧ img.eid0 = 0x00) ∧
      (∀ i, i ∉ m.sidlBits → img.sidl.getLsbD i = false) ∧
      img.dlc.extractLsb' m.dlcLo.val 4 = s.fin.dlc.extractLsb' 0 4 ∧
      img.dlc.getLsbD m.dlcRtrBit.val = s.fin.id.getLsbD 30 ∧
      (∀ i, i ∉ m.dlcBits → img.dlc.getLsbD i = false) ∧
      ∀ i : Fin 8, img.data[i] = if i.val < s.fin.dlc.toNat then s.fin.data[i] else 0x00

/-- R130, R255: ENCODE refuses a length above 8 with 0x11, and then a malformed identifier with 0x21; IMG and
ELEN stay. -/
def Obligations.EncodeRefusesInvalidFrame : Prop :=
  ∀ s : State, s.port = none →
    (8 < s.fin.dlc.toNat → exec .encode s = .next { s with result := 0x11 }) ∧
    (s.fin.dlc.toNat ≤ 8 →
      (s.fin.id.getLsbD 29 = true ∨ (s.fin.id.getLsbD 31 = false ∧ s.fin.id.extractLsb' 11 18 ≠ 0)) →
      exec .encode s = .next { s with result := 0x21 })

/-- R133: DECODE of an image with a length nibble of 0 to 8 writes FOUT field by field and RESULT, and nothing
else. -/
def Obligations.DecodeWritesFrame : Prop :=
  ∀ (s : State) (m : ChipLayout) (n : Nat), s.port = none → s.par.layout = m →
    n = (s.img.dlc.extractLsb' m.dlcLo.val 4).toNat → n ≤ 8 →
    ∃ f : Frame,
      exec .decode s = .next { s with fout := f, result := 0x00 } ∧
      f.id.getLsbD 31 = s.img.sidl.getLsbD m.exideBit.val ∧
      f.id.getLsbD 30 =
        (if s.par.rtrSource = .dlcByte then s.img.dlc.getLsbD m.dlcRtrBit.val
        else s.img.ctrl.getLsbD m.rxrtrBit.val) ∧
      f.id.getLsbD 29 = false ∧
      (s.img.sidl.getLsbD m.exideBit.val = true →
        s.img.sidh ++ s.img.sidl.extractLsb' m.sidLo.val 3 ++ s.img.sidl.extractLsb' m.eidLo.val 2 ++ s.img.eid8 ++
          s.img.eid0 = f.id.extractLsb' 0 29) ∧
      (s.img.sidl.getLsbD m.exideBit.val = false →
        s.img.sidh ++ s.img.sidl.extractLsb' m.sidLo.val 3 = f.id.extractLsb' 0 11 ∧
        f.id.extractLsb' 11 18 = 0) ∧
      f.dlc.toNat = n ∧
      ∀ i : Fin 8, f.data[i] = if i.val < n then s.img.data[i] else 0x00

/-- R133: a length nibble of 9 to 15 is InvalidFrame(Length), never clamped; FOUT stays. -/
def Obligations.DecodeRefusesLength : Prop :=
  ∀ s : State, s.port = none → 8 < (s.img.dlc.extractLsb' s.par.layout.dlcLo.val 4).toNat →
    exec .decode s = .next { s with result := 0x11 }

/-- R136: ENCODE of a valid frame, and then DECODE in any state with the same image and layout, under either
RTR_SOURCE, give the canonical frame, and so an equivalent one. -/
def Obligations.CodecRoundTrip : Prop :=
  ∀ s t u : State, s.port = none → s.layoutInv → s.fin.valid = true → exec .encode s = .next t →
    u.port = none → u.img = t.img → u.par.layout = s.par.layout →
    ∃ v : State, exec .decode u = .next v ∧ v.result = 0x00 ∧
      v.fout = s.fin.canon ∧ Frame.equiv v.fout s.fin

/-- R137 (c): for any image that DECODE accepts, decoding it, encoding the resulting frame and decoding again
gives the same FOUT. -/
def Obligations.DecodeEncodeDecodeStable : Prop :=
  ∀ s t : State, s.port = none → s.layoutInv → exec .decode s = .next t → t.result = 0x00 →
    ∃ u v : State, exec .encode { t with fin := t.fout } = .next u ∧ u.result = 0x00 ∧
      exec .decode u = .next v ∧ v.result = 0x00 ∧ v.fout = t.fout

/-- R106, R133: DECODE ignores every bit of SIDL and of the DLC byte that it has no field in (SIDL[4], SIDL[2], DLC[7],
DLC[5:4] by default), the remote bit that RTR_SOURCE does not select, the rest of CTRL, the extended bits of a
standard image, and data bytes from the length on. -/
def Obligations.DecodeIgnoresReservedBits : Prop :=
  ∀ (s t : State) (m : ChipLayout), s.port = none → t.port = none → s.par = t.par → s.par.layout = m →
    s.fout = t.fout → s.img.sidh = t.img.sidh →
    s.img.sidl.extractLsb' m.sidLo.val 3 = t.img.sidl.extractLsb' m.sidLo.val 3 →
    s.img.sidl.getLsbD m.exideBit.val = t.img.sidl.getLsbD m.exideBit.val →
    (s.img.sidl.getLsbD m.exideBit.val = true →
      s.img.sidl.extractLsb' m.eidLo.val 2 = t.img.sidl.extractLsb' m.eidLo.val 2 ∧ s.img.eid8 = t.img.eid8 ∧
      s.img.eid0 = t.img.eid0) →
    s.img.dlc.extractLsb' m.dlcLo.val 4 = t.img.dlc.extractLsb' m.dlcLo.val 4 →
    (s.par.rtrSource = .dlcByte → s.img.dlc.getLsbD m.dlcRtrBit.val = t.img.dlc.getLsbD m.dlcRtrBit.val) →
    (s.par.rtrSource = .rxctrl → s.img.ctrl.getLsbD m.rxrtrBit.val = t.img.ctrl.getLsbD m.rxrtrBit.val) →
    (∀ i : Fin 8, i.val < (s.img.dlc.extractLsb' m.dlcLo.val 4).toNat → s.img.data[i] = t.img.data[i]) →
    ∃ u v : State, exec .decode s = .next u ∧ exec .decode t = .next v ∧
      u.fout = v.fout ∧ u.result = v.result

/-! ## RXREAD -/

/-- R134, R135: RXREAD by a client, undisturbed, of a buffer with a length nibble of 0 to 8: the transactions in
order, the bytes it fills IMG with, FOUT, RESULT; LOCK is FREE again and nothing else changes. -/
def Obligations.RxreadDecodesBuffer : Prop :=
  ∀ (s : State) (b : Buf) (n : Nat), s.portReady → s.quiet →
    n = ((s.rxImage b).dlc.extractLsb' s.par.layout.dlcLo.val 4).toNat → n ≤ 8 →
    exec (.rxread b) s =
      .next { s with
        img := rxImageAfter s.par.rtrSource s.img (s.rxImage b) n
        fout := decodeImage s.par.layout s.par.rtrSource (s.rxImage b) n
        result := 0x00
        bus := s.bus ++ readsBy (.client s.client) (rxAddresses s.par.layout s.par.rtrSource b n) }

/-- R134: RXREAD by a client, undisturbed, of a buffer with a length nibble above 8: the five header reads, no
CTRL and no data read, RESULT 0x11, FOUT unchanged. -/
def Obligations.RxreadRefusesLength : Prop :=
  ∀ (s : State) (b : Buf), s.portReady → s.quiet →
    8 < ((s.rxImage b).dlc.extractLsb' s.par.layout.dlcLo.val 4).toNat →
    exec (.rxread b) s =
      .next { s with
        img := rxImageAfter .dlcByte s.img (s.rxImage b) 0
        result := 0x11
        bus := s.bus ++ readsBy (.client s.client) (rxAddresses s.par.layout .dlcByte b 0) }

/-- R134, R135, R242: RXREAD by a client whose transaction number k+1 fails on all its attempts, those before it having
succeeded: RESULT holds the transaction's index, IMG keeps the bytes already read, FOUT stays. The transactions
after the header exist only if the length nibble is 0 to 8. -/
def Obligations.RxreadTransportFailure : Prop :=
  ∀ (s : State) (b : Buf) (n k : Nat) (ls : List Bool) (rest : List XDraw), s.portReady →
    s.agenda = [] → ls.length = s.par.xferAttempts →
    n = ((s.rxImage b).dlc.extractLsb' s.par.layout.dlcLo.val 4).toNat →
    k < (rxAddresses s.par.layout s.par.rtrSource b n).length → (5 ≤ k → n ≤ 8) →
    s.xport = List.replicate k XDraw.ok ++ ls.map XDraw.fail ++ rest →
    ∃ t : State, exec (.rxread b) s = .next t ∧
      t = { s with
            img := t.img
            result := BitVec.ofNat 8 ((k + 1) * 16 + 2)
            xport := rest
            bus := s.bus ++
              readsBy (.client s.client) ((rxAddresses s.par.layout s.par.rtrSource b n).take (k + 1)) } ∧
      ∀ j : Fin 14, t.img.byte j =
        if s.par.layout.rxbBase b + j.val ∈ (rxAddresses s.par.layout s.par.rtrSource b n).take k then
          s.chipByte (s.par.layout.rxbBase b + j.val)
        else s.img.byte j

/-- R22, R25, R248, R263: whatever the environment does meanwhile, an operation a client issues through the port
leaves the dispatcher's private registers and the log alone; RXREAD and CLROVR also leave the error
registers. -/
def Obligations.ClientOperationFrame : Prop :=
  ∀ (s t : State) (op : LockOp), exec op.instr s = .next t →
    s.samePass t ∧ t.evlog = s.evlog ∧ t.par = s.par ∧
    (∀ b, op = .rxread b → s.sameErr t) ∧ (∀ b, op = .clrovr b → s.sameErr t)

/-! ## SNAPERR and CLASSIFY -/

/-- R160: SNAPERR by a client, undisturbed: the three reads in order, ESNAP and RESULT; nothing else
changes. -/
def Obligations.SnaperrTakesSnapshot : Prop :=
  ∀ s : State, s.portReady → s.quiet →
    exec .snaperr s =
      .next { s with
        esnap :=
          { eflg := s.chipByte s.par.layout.eflg, tec := s.chipByte s.par.layout.tec
            recv := s.chipByte s.par.layout.recCounter, valid := true }
        result := 0x00
        bus := s.bus ++ readsBy (.client s.client) [s.par.layout.eflg, s.par.layout.tec, s.par.layout.recCounter] }

/-- R160, R255: SNAPERR by a client whose read number k+1 fails on all its attempts: RESULT holds its index, VALID
is 0, and the other fields of ESNAP keep their values. -/
def Obligations.SnaperrTransportFailure : Prop :=
  ∀ (s : State) (k : Fin 3) (ls : List Bool) (rest : List XDraw), s.portReady →
    s.agenda = [] → ls.length = s.par.xferAttempts →
    s.xport = List.replicate k.val XDraw.ok ++ ls.map XDraw.fail ++ rest →
    exec .snaperr s =
      .next { s with
        esnap := { s.esnap with valid := false }
        result := BitVec.ofNat 8 ((k.val + 1) * 16 + 2)
        xport := rest
        bus := s.bus ++ readsBy (.client s.client)
          ([s.par.layout.eflg, s.par.layout.tec, s.par.layout.recCounter].take (k.val + 1)) }

/-- R161, R162, R167: CLASSIFY of a valid snapshot, whatever the environment: BusOff by the bus-off flag alone, else
Passive by either counter at 128 or above, else Active; the recovery latch follows. -/
def Obligations.ClassifySnapshot : Prop :=
  ∀ s : State, s.portReady → s.esnap.valid = true →
    exec .classify s =
      .next
        (if s.esnap.eflg.getLsbD s.par.layout.txboBit.val = true then
          { s with eclass := .busOff, recpend := true, result := 0x00 }
        else if 128 ≤ s.esnap.tec.toNat ∨ 128 ≤ s.esnap.recv.toNat then
          { s with eclass := .passive, recpend := false, recfails := 0, result := 0x00 }
        else { s with eclass := .active, recpend := false, recfails := 0, result := 0x00 })

/-- R161, R246: CLASSIFY without a snapshot is NoSnapshot, and nothing but RESULT changes. -/
def Obligations.ClassifyWithoutSnapshot : Prop :=
  ∀ s : State, s.portReady → s.esnap.valid = false → exec .classify s = .next { s with result := 0x06 }

/-! ## CLROVR -/

/-- R163, R62, R63: CLROVR by a client, undisturbed, with a native modify or without: exactly the named buffer's
overflow bit of EFLG is cleared; every other chip byte and every other register stays. -/
def Obligations.ClrovrClearsOneBit : Prop :=
  ∀ (s : State) (b : Buf), s.portReady → s.quiet → s.layoutInv →
    ∃ t : State, exec (.clrovr b) s = .next t ∧
      t = { s with
            chip := t.chip
            result := 0x00
            bus := s.bus ++ modifyBy s.par.nativeBitModify (.client s.client) s.par.layout.eflg
              (ovrMask s.par.layout b) 0x00 (s.chipByte s.par.layout.eflg) } ∧
      ∀ a, t.chipByte a =
        if a = s.par.layout.eflg then s.chipByte s.par.layout.eflg &&& ~~~ovrMask s.par.layout b
        else s.chipByte a

/-- R163, R64, R65: CLROVR by a client whose modify fails on all its attempts: RESULT is 0x12, and the bit has been
cleared or not, as the transport's draws say. -/
def Obligations.ClrovrTransportFailure : Prop :=
  ∀ (s : State) (b : Buf) (ls : List Bool) (rest : List XDraw), s.portReady → s.agenda = [] →
    s.layoutInv → s.par.nativeBitModify = true → ls.length = s.par.xferAttempts →
    s.xport = ls.map XDraw.fail ++ rest →
    ∃ t : State, exec (.clrovr b) s = .next t ∧
      t = { s with
            chip := t.chip
            result := 0x12
            xport := rest
            bus := s.bus ++
              [⟨.client s.client, .modify s.par.layout.eflg (ovrMask s.par.layout b) 0x00⟩] } ∧
      ∀ a, t.chipByte a =
        if a = s.par.layout.eflg ∧ true ∈ ls then s.chipByte s.par.layout.eflg &&& ~~~ovrMask s.par.layout b
        else s.chipByte a

/-! ## RECOVER -/

/-- R164, R246: RECOVER before RECNEXT after a failed attempt is BackoffPending: nothing but RESULT changes and no
transaction is issued, whatever the environment. -/
def Obligations.RecoverBackoffPending : Prop :=
  ∀ s : State, s.portReady → s.recfails ≠ 0 → s.now < s.recnext →
    exec .recover s = .next { s with result := 0x05 }

/-- R164, R165: RECOVER by a client, undisturbed, past its backoff, when the first poll reads Normal mode: the mode
request, the poll, the read of EFLG. If TXBO reads 0 the attempt has succeeded and the latch is cleared; if it reads 1
it is RecoveryFailed, RECFAILS goes up, saturating at RECFAILS_MAX, and RECNEXT is BACKOFF(RECFAILS) from now. -/
def Obligations.RecoverAtFirstPoll : Prop :=
  ∀ s : State, s.portReady → s.quiet → s.layoutInv →
    (s.recfails = 0 ∨ s.recnext ≤ s.now) →
    (s.chipByte s.par.layout.canstat).extractLsb' s.par.layout.opmodLo.val 3 = s.par.layout.normal →
    ∃ t : State, exec .recover s = .next t ∧
      t = (if (s.chipByte s.par.layout.eflg).getLsbD s.par.layout.txboBit.val = false then
            { s with
              chip := t.chip, bus := t.bus
              recpend := false, recfails := 0, eclass := .unknown, result := 0x00 }
          else
            { s with
              chip := t.chip, bus := t.bus
              recfails := BitVec.ofNat 8 (min (s.recfails.toNat + 1) s.par.recfailsMax.toNat)
              recnext := s.now + s.par.backoff (min (s.recfails.toNat + 1) s.par.recfailsMax.toNat)
              result := 0x04 }) ∧
      t.bus = s.bus ++ modifyBy s.par.nativeBitModify (.client s.client) s.par.layout.canctrl
          (reqopMask s.par.layout) (reqopField s.par.layout .normal) (s.chipByte s.par.layout.canctrl) ++
        readsBy (.client s.client) [s.par.layout.canstat, s.par.layout.eflg] ∧
      ∀ a, t.chipByte a =
        if a = s.par.layout.canctrl then
          (s.chipByte s.par.layout.canctrl &&& ~~~reqopMask s.par.layout) ||| reqopField s.par.layout .normal
        else s.chipByte a

/-- R165, R244: RECOVER by a client, undisturbed, past its backoff, with no delay between polls, when the mode never
reads Normal: MODE_POLL_LIMIT polls, then ModeTimeout, counted as a failed attempt. -/
def Obligations.RecoverModeTimeout : Prop :=
  ∀ s : State, s.portReady → s.quiet → s.layoutInv → s.par.nativeBitModify = true → s.par.pollDelay = 0 →
    (s.recfails = 0 ∨ s.recnext ≤ s.now) →
    (s.chipByte s.par.layout.canstat).extractLsb' s.par.layout.opmodLo.val 3 ≠ s.par.layout.normal →
    ∃ t : State, exec .recover s = .next t ∧
      t = { s with
            chip := t.chip
            bus := s.bus ++ [⟨.client s.client, .modify s.par.layout.canctrl (reqopMask s.par.layout)
                (reqopField s.par.layout .normal)⟩] ++
              readsBy (.client s.client) (List.replicate s.par.modePollLimit s.par.layout.canstat)
            recfails := BitVec.ofNat 8 (min (s.recfails.toNat + 1) s.par.recfailsMax.toNat)
            recnext := s.now + s.par.backoff (min (s.recfails.toNat + 1) s.par.recfailsMax.toNat)
            result := 0x03 } ∧
      ∀ a, t.chipByte a =
        if a = s.par.layout.canctrl then
          (s.chipByte s.par.layout.canctrl &&& ~~~reqopMask s.par.layout) ||| reqopField s.par.layout .normal
        else s.chipByte a

/-- R164, R242: RECOVER by a client, with a native modify, past its backoff, whose transaction number k+1 fails on all
its attempts, those before it having succeeded and the first poll reading Normal mode: 1 is the mode request, 2
the poll, 3 the read of EFLG. RESULT holds the index and the attempt counts as failed. -/
def Obligations.RecoverTransportFailure : Prop :=
  ∀ (s : State) (k : Fin 3) (ls : List Bool) (rest : List XDraw), s.portReady → s.agenda = [] →
    s.layoutInv → s.par.nativeBitModify = true → ls.length = s.par.xferAttempts →
    s.xport = List.replicate k.val XDraw.ok ++ ls.map XDraw.fail ++ rest →
    (s.recfails = 0 ∨ s.recnext ≤ s.now) →
    (s.chipByte s.par.layout.canstat).extractLsb' s.par.layout.opmodLo.val 3 = s.par.layout.normal →
    ∃ t : State, exec .recover s = .next t ∧
      t = { s with
            chip := t.chip
            xport := rest
            bus := s.bus ++
              (⟨.client s.client, .modify s.par.layout.canctrl (reqopMask s.par.layout)
                (reqopField s.par.layout .normal)⟩ ::
                readsBy (.client s.client) [s.par.layout.canstat, s.par.layout.eflg]).take (k.val + 1)
            recfails := BitVec.ofNat 8 (min (s.recfails.toNat + 1) s.par.recfailsMax.toNat)
            recnext := s.now + s.par.backoff (min (s.recfails.toNat + 1) s.par.recfailsMax.toNat)
            result := BitVec.ofNat 8 ((k.val + 1) * 16 + 2) } ∧
      ∀ a, t.chipByte a =
        if a = s.par.layout.canctrl ∧ (0 < k.val ∨ true ∈ ls) then
          (s.chipByte s.par.layout.canctrl &&& ~~~reqopMask s.par.layout) ||| reqopField s.par.layout .normal
        else s.chipByte a

/-- R165, R295: between two polls the operation waits for the clock, and has no step, until MODE_POLL_DELAY ticks have
passed; LOCK stays held. -/
def Obligations.RecoverWaitsForClock : Prop :=
  ∀ (s : State) (p c : Nat), s.port = some (.run (.recWait p c)) →
    (s.now < c + s.par.pollDelay → portStep s = none) ∧
    (c + s.par.pollDelay ≤ s.now → ∃ t : State, portStep s = some t ∧
      t.bus = s.bus ++ [⟨s.lock, .read s.par.layout.canstat⟩])

/-- R6, R166: BACKOFF is nondecreasing and at least BACKOFF_MIN, which is at least 1. -/
def Obligations.BackoffNondecreasing : Prop :=
  ∀ (p : Params) (j k : Nat), j ≤ k → p.backoff j ≤ p.backoff k ∧ p.backoffMin ≤ p.backoff j ∧ 1 ≤ p.backoffMin

/-! ## BRESET -/

/-- R210, R282: BRESET at DSTATE = IDLE with LOCK FREE gives every block register its power-on value; EVQ, RXQ, LOCK,
NOW and the chip stay, IDLE_SINCE is NOW, the log gains the BRESET record. The model's choice: held requests, waiting
edges and the recorded client stay (notes/assumptions/23). -/
def Obligations.BresetResetsBlock : Prop :=
  ∀ s : State, s.portReady → s.dstate = .idle →
    exec .breset s =
      .next { State.reset with
        evq := s.evq, rxq := s.rxq, evlog := s.evlog ++ [⟨.breset, 0, 0, 0, 0⟩]
        now := s.now, idleSince := s.now
        client := s.client, held := s.held, halves := s.halves, dprog := s.dprog
        chip := s.chip, epoch := s.epoch, edges := s.edges
        bus := s.bus, par := s.par, agenda := s.agenda, xport := s.xport, drawn := s.drawn }

/-- R210: BRESET is held while DSTATE is not IDLE or LOCK is not FREE. -/
def Obligations.BresetHeld : Prop :=
  ∀ s : State, s.port = none → (s.dstate ≠ .idle ∨ s.lock ≠ .free) →
    exec .breset s = .next { s with port := some .resetWait }

/-! ## Passes -/

/-- R192 to R194, R198, R203 to R208, R213: an undisturbed pass of either kind that reads a CANINTF with neither a
receive flag nor ERR, with no recovery pending, with a native modify or without. Every TX flag and WAKE is handled,
MERR is recorded and stays; CANINTF loses exactly the handled bits, in one modify, or none if nothing was handled.
Every other register and chip byte is as before. -/
def Obligations.PassHandlesTxAndWake : Prop :=
  ∀ (s : State) (k : PassKind) (f : Byte), s.passReady k → s.quiet → s.par.layout = mcp2515 →
    s.recpend = false → f = s.chipByte 0x2C → f &&& 0x23 = 0 →
    ∃ t : State, exec (passInstr k) s = .next t ∧
      t = { s with
            evq := s.evq - 1, pkind := k, flags := f, hmask := f &&& 0x5C, errok := false
            rxretry0 := 0, rxretry1 := 0, idleSince := s.now, chip := t.chip
            evlog := s.evlog ++ [⟨.passStart, k.code, 0, 0, 0⟩, ⟨.flagsRead, f, 0, 0, 0⟩] ++
              (if f &&& 0x1C = 0 then [] else [⟨.txComplete, f &&& 0x1C, 0, 0, 0⟩]) ++
              (if f.getLsbD 6 then [⟨.wake, 0, 0, 0, 0⟩] else []) ++
              (if f.getLsbD 7 then [⟨.unknownFlags, 0x80, 0, 0, 0⟩] else []) ++
              (if f &&& 0x5C = 0 then [] else [⟨.flagsCleared, f &&& 0x5C, 0, 0, 0⟩]) ++
              [⟨.passEnd, f &&& 0x5C, 0, 0, 0⟩]
            bus := s.bus ++ [⟨.dispatcher, .read 0x2C⟩] ++
              (if f &&& 0x5C = 0 then []
              else modifyBy s.par.nativeBitModify .dispatcher 0x2C (f &&& 0x5C) 0x00 f) } ∧
      ∀ a, t.chipByte a = if a = 0x2C then f &&& 0xA3 else s.chipByte a

/-- R194: a pass of either kind whose read of CANINTF fails on all its attempts handles nothing, clears nothing and
runs no recovery step: it records the failure and ends. -/
def Obligations.PassFlagReadFailure : Prop :=
  ∀ (s : State) (k : PassKind) (ls : List Bool) (rest : List XDraw), s.passReady k → s.agenda = [] →
    ls.length = s.par.xferAttempts → s.xport = ls.map XDraw.fail ++ rest →
    exec (passInstr k) s =
      .next { s with
        evq := s.evq - 1, pkind := k, hmask := 0, errok := false, idleSince := s.now, xport := rest
        evlog := s.evlog ++ [⟨.passStart, k.code, 0, 0, 0⟩, ⟨.flagsReadFail, 0, 0, 0, 0⟩,
          ⟨.passEnd, 0, 0, 0, 0⟩]
        bus := s.bus ++ [⟨.dispatcher, .read s.par.layout.canintf⟩] }

/-- R195, R197, R205: an undisturbed pass that finds the receive flag of buffer b alone, on a buffer with a length
nibble of 0 to 8, with room in RXQ and no recovery pending (RECPEND = 0), with a native modify or without: the decoded
frame is handed off, its flag is cleared at the end, and the client's registers stay. -/
def Obligations.PassDeliversFrame : Prop :=
  ∀ (s : State) (k : PassKind) (b : Buf) (n : Nat), s.passReady k → s.quiet → s.par.layout = mcp2515 →
    s.recpend = false → s.chipByte 0x2C = (match b with | .rx0 => 0x01 | .rx1 => 0x02) →
    n = ((s.rxImage b).dlc.extractLsb' 0 4).toNat → n ≤ 8 → s.rxq.length < s.par.rxqCap →
    ∃ t : State, exec (passInstr k) s = .next t ∧
      t = { s with
            evq := s.evq - 1, pkind := k, flags := s.chipByte 0x2C, hmask := s.chipByte 0x2C, errok := false
            rxretry0 := 0, rxretry1 := 0, idleSince := s.now, chip := t.chip
            dimg := rxImageAfter s.par.rtrSource s.dimg (s.rxImage b) n
            dfout := decodeImage s.par.layout s.par.rtrSource (s.rxImage b) n
            rxq := s.rxq ++ [decodeImage s.par.layout s.par.rtrSource (s.rxImage b) n]
            evlog := s.evlog ++ [⟨.passStart, k.code, 0, 0, 0⟩, ⟨.flagsRead, s.chipByte 0x2C, 0, 0, 0⟩,
              ⟨.rxDelivered, bufIndex b, BitVec.ofNat 8 n, 0, 0⟩, ⟨.flagsCleared, s.chipByte 0x2C, 0, 0, 0⟩,
              ⟨.passEnd, s.chipByte 0x2C, 0, 0, 0⟩]
            bus := s.bus ++ readsBy .dispatcher (0x2C :: rxAddresses s.par.layout s.par.rtrSource b n) ++
              modifyBy s.par.nativeBitModify .dispatcher 0x2C (s.chipByte 0x2C) 0x00 (s.chipByte 0x2C) } ∧
      ∀ a, t.chipByte a = if a = 0x2C then 0x00 else s.chipByte a

/-- R197: the same pass, again with no recovery pending (RECPEND = 0), but with RXQ full: the frame stays in the chip
with its flag set, nothing is cleared, and the buffer's retry count stays. -/
def Obligations.PassBackpressure : Prop :=
  ∀ (s : State) (k : PassKind) (b : Buf) (n : Nat), s.passReady k → s.quiet → s.par.layout = mcp2515 →
    s.recpend = false → s.chipByte 0x2C = (match b with | .rx0 => 0x01 | .rx1 => 0x02) →
    n = ((s.rxImage b).dlc.extractLsb' 0 4).toNat → n ≤ 8 → s.par.rxqCap ≤ s.rxq.length →
    exec (passInstr k) s =
      .next { s with
        evq := s.evq - 1, pkind := k, flags := s.chipByte 0x2C, hmask := 0, errok := false
        rxretry0 := (if b = .rx0 then s.rxretry0 else 0), rxretry1 := (if b = .rx1 then s.rxretry1 else 0)
        idleSince := s.now
        dimg := rxImageAfter s.par.rtrSource s.dimg (s.rxImage b) n
        dfout := decodeImage s.par.layout s.par.rtrSource (s.rxImage b) n
        evlog := s.evlog ++ [⟨.passStart, k.code, 0, 0, 0⟩, ⟨.flagsRead, s.chipByte 0x2C, 0, 0, 0⟩,
          ⟨.rxBackpressure, bufIndex b, 0, 0, 0⟩, ⟨.passEnd, 0, 0, 0, 0⟩]
        bus := s.bus ++ readsBy .dispatcher (0x2C :: rxAddresses s.par.layout s.par.rtrSource b n) }

/-- R196: a pass whose RXREAD of a flagged buffer fails: by a length nibble above 8 (`c` = 0x11), or by a read number
j+1 that fails on all its attempts (`c` the code byte of TransportFailure(j+1)); reads after the header exist only if
the length nibble is 0 to 8. The flag is the only one set, every other transaction succeeds, no other agent moves and
no recovery is pending (RECPEND = 0); the modify is native or not. Below the retry limit the flag stays set and the
count goes up; at the limit the frame is dropped, observably, and the flag is cleared. A count above 255 in the record
is a free value (notes/assumptions/25). -/
def Obligations.PassRetriesThenDrops : Prop :=
  ∀ (s : State) (k : PassKind) (b : Buf) (n : Nat) (c : Byte), s.passReady k → s.agenda = [] →
    s.par.layout = mcp2515 → s.recpend = false →
    s.chipByte 0x2C = (match b with | .rx0 => 0x01 | .rx1 => 0x02) →
    n = ((s.rxImage b).dlc.extractLsb' 0 4).toNat →
    ((s.xport = [] ∧ 8 < n ∧ c = 0x11) ∨
      ∃ (j : Nat) (ls : List Bool), j < (rxAddresses s.par.layout s.par.rtrSource b n).length ∧ (5 ≤ j → n ≤ 8) ∧
        ls.length = s.par.xferAttempts ∧ s.xport = List.replicate (j + 1) XDraw.ok ++ ls.map XDraw.fail ∧
        c = BitVec.ofNat 8 ((j + 1) * 16 + 2)) →
    ∃ t : State, exec (passInstr k) s = .next t ∧ t.dstate = .idle ∧ t.lock = .free ∧ t.rxq = s.rxq ∧
      t.dfout = s.dfout ∧ s.sameClient t ∧
      (s.rxretry b < s.par.rxRetryLimit →
        t.hmask = 0 ∧ t.rxretry b = s.rxretry b + 1 ∧ (∀ a, t.chipByte a = s.chipByte a) ∧
        t.evlog = s.evlog ++ [⟨.passStart, k.code, 0, 0, 0⟩, ⟨.flagsRead, s.chipByte 0x2C, 0, 0, 0⟩,
          ⟨.rxDecodeFail, bufIndex b, c,
            if s.rxretry b < 255 then BitVec.ofNat 8 (s.rxretry b + 1) else Config.wideCount (s.rxretry b + 1), 0⟩,
          ⟨.passEnd, 0, 0, 0, 0⟩]) ∧
      (s.par.rxRetryLimit ≤ s.rxretry b →
        t.hmask = s.chipByte 0x2C ∧ t.rxretry b = 0 ∧
        (∀ a, t.chipByte a = if a = 0x2C then 0x00 else s.chipByte a) ∧
        t.evlog = s.evlog ++ [⟨.passStart, k.code, 0, 0, 0⟩, ⟨.flagsRead, s.chipByte 0x2C, 0, 0, 0⟩,
          ⟨.rxDropped, bufIndex b, c, 0, 0⟩, ⟨.flagsCleared, s.chipByte 0x2C, 0, 0, 0⟩,
          ⟨.passEnd, s.chipByte 0x2C, 0, 0, 0⟩])

/-- R199, R201, R202: an undisturbed pass that finds ERR alone while the chip is not in bus-off, with a native modify
or without: snapshot, classification, each overflow bit of the snapshot cleared by its own modify, then ERR cleared.
And the failing halves: a read of the snapshot that fails on all its attempts is recorded and ERROK stays as it is (0
since ACQ); an overflow clear that fails, with a native modify, is recorded, ERROK becomes 0 and ERR is not marked
handled. -/
def Obligations.PassHandlesErr : Prop :=
  (∀ (s : State) (k : PassKind) (e : Byte), s.passReady k → s.quiet → s.par.layout = mcp2515 →
    s.chipByte 0x2C = 0x20 → e = s.chipByte 0x2D → e.getLsbD 5 = false →
    ∃ t : State, exec (passInstr k) s = .next t ∧
      t = { s with
            evq := s.evq - 1, pkind := k, flags := 0x20, hmask := 0x20, errok := true
            rxretry0 := 0, rxretry1 := 0, idleSince := s.now, chip := t.chip
            esnap := { eflg := e, tec := s.chipByte 0x1C, recv := s.chipByte 0x1D, valid := true }
            eclass := t.eclass, recpend := false, recfails := 0
            evlog := s.evlog ++ [⟨.passStart, k.code, 0, 0, 0⟩, ⟨.flagsRead, 0x20, 0, 0, 0⟩,
                ⟨.errClassified, t.eclass.code.setWidth 8, e, s.chipByte 0x1C, s.chipByte 0x1D⟩] ++
              (if e.getLsbD 6 then [⟨.ovrCleared, 0x40, 0, 0, 0⟩] else []) ++
              (if e.getLsbD 7 then [⟨.ovrCleared, 0x80, 0, 0, 0⟩] else []) ++
              [⟨.flagsCleared, 0x20, 0, 0, 0⟩, ⟨.passEnd, 0x20, 0, 0, 0⟩]
            bus := s.bus ++ readsBy .dispatcher [0x2C, 0x2D, 0x1C, 0x1D] ++
              (if e.getLsbD 6 then modifyBy s.par.nativeBitModify .dispatcher 0x2D 0x40 0x00 e else []) ++
              (if e.getLsbD 7 then modifyBy s.par.nativeBitModify .dispatcher 0x2D 0x80 0x00 (e &&& 0xBF) else []) ++
              modifyBy s.par.nativeBitModify .dispatcher 0x2C 0x20 0x00 0x20 } ∧
      t.eclass = (if 128 ≤ (s.chipByte 0x1C).toNat ∨ 128 ≤ (s.chipByte 0x1D).toNat then .passive
        else .active) ∧
      ∀ a, t.chipByte a = if a = 0x2C then 0x00 else if a = 0x2D then e &&& 0x3F else s.chipByte a) ∧
  (∀ (s : State) (k : Fin 3) (e c : Byte) (ls : List Bool) (rest : List XDraw), s.dstate = .errs →
    s.flags.getLsbD s.par.layout.errBit.val = true →
    s.dprog = (match k.val with | 0 => none | 1 => some (.snapTec e) | _ => some (.snapRec e c)) →
    ls.length = s.par.xferAttempts → s.xport = ls.map XDraw.fail ++ rest →
    dispStep s =
      some { s with
        dstate := .recs, dprog := none, xport := rest
        esnap := { s.esnap with valid := if k.val = 0 then false else s.esnap.valid }
        bus := s.bus ++ readsBy s.lock
          (([s.par.layout.eflg, s.par.layout.tec, s.par.layout.recCounter].drop k.val).take 1)
        evlog := s.evlog ++ [⟨.errSnapshotFail, BitVec.ofNat 8 ((k.val + 1) * 16 + 2), 0, 0, 0⟩] }) ∧
  ∀ (s : State) (b : Buf) (ls : List Bool) (rest : List XDraw), s.dstate = .ovrs →
    s.flags.getLsbD s.par.layout.errBit.val = true → s.layoutInv → s.par.nativeBitModify = true →
    ls.length = s.par.xferAttempts → s.xport = ls.map XDraw.fail ++ rest →
    ((∃ m, s.dprog = some (.ovrClear b m)) ∨
      (s.dprog = none ∧ s.errok = true ∧ ovrSet s.par.layout b s.esnap.eflg = true ∧
        (b = .rx1 → ovrSet s.par.layout .rx0 s.esnap.eflg = false))) →
    ∃ t : State, dispStep s = some t ∧
      t = { s with
            dstate := (if b = .rx0 ∧ ovrSet s.par.layout .rx1 s.esnap.eflg = true then .ovrs else .wakes)
            dprog := (if b = .rx0 ∧ ovrSet s.par.layout .rx1 s.esnap.eflg = true then
              some (.ovrClear .rx1 (.start s.par.xferAttempts)) else none)
            errok := false, chip := t.chip, xport := rest
            bus := s.bus ++ [⟨s.lock, .modify s.par.layout.eflg (ovrMask s.par.layout b) 0x00⟩]
            evlog := s.evlog ++ [⟨.ovrClearFail, ovrMask s.par.layout b, 0, 0, 0⟩] } ∧
      ∀ a, t.chipByte a =
        if a = s.par.layout.eflg ∧ true ∈ ls then s.chipByte s.par.layout.eflg &&& ~~~ovrMask s.par.layout b
        else s.chipByte a

/-- R199 to R202, R164, R293: the same pass while the chip is in bus-off, no overflow bit is set, no backoff is due,
and the first poll reads Normal mode: the classification is BusOff, the recovery attempt is made and fails, the latch
stays, and ERR is handled and cleared all the same. And the same step in a pass that finds no flag at all, with the
latch set by an earlier pass: the attempt is made, and with TXBO 0 it succeeds and clears the latch. -/
def Obligations.PassAttemptsRecovery : Prop :=
  (∀ (s : State) (k : PassKind) (e n : Byte), s.passReady k → s.quiet → s.par.layout = mcp2515 →
    s.chipByte 0x2C = 0x20 → e = s.chipByte 0x2D → e.getLsbD 5 = true → e.extractLsb' 6 2 = 0 →
    (s.recfails = 0 ∨ s.recnext ≤ s.now) → (s.chipByte 0x0E).extractLsb' 5 3 = 0 →
    n = BitVec.ofNat 8 (min (s.recfails.toNat + 1) s.par.recfailsMax.toNat) →
    ∃ t : State, exec (passInstr k) s = .next t ∧
      t = { s with
            evq := s.evq - 1, pkind := k, flags := 0x20, hmask := 0x20, errok := true
            rxretry0 := 0, rxretry1 := 0, idleSince := s.now, chip := t.chip
            esnap := { eflg := e, tec := s.chipByte 0x1C, recv := s.chipByte 0x1D, valid := true }
            eclass := .busOff, recpend := true
            recfails := n, recnext := s.now + s.par.backoff n.toNat
            evlog := s.evlog ++ [⟨.passStart, k.code, 0, 0, 0⟩, ⟨.flagsRead, 0x20, 0, 0, 0⟩,
              ⟨.errClassified, 2, e, s.chipByte 0x1C, s.chipByte 0x1D⟩, ⟨.recovery, 0x04, n, 0, 0⟩,
              ⟨.flagsCleared, 0x20, 0, 0, 0⟩, ⟨.passEnd, 0x20, 0, 0, 0⟩]
            bus := s.bus ++ readsBy .dispatcher [0x2C, 0x2D, 0x1C, 0x1D] ++
              modifyBy s.par.nativeBitModify .dispatcher 0x0F 0xE0 0x00 (s.chipByte 0x0F) ++
              readsBy .dispatcher [0x0E, 0x2D] ++
              modifyBy s.par.nativeBitModify .dispatcher 0x2C 0x20 0x00 0x20 } ∧
      ∀ a, t.chipByte a =
        if a = 0x2C then 0x00 else if a = 0x0F then s.chipByte 0x0F &&& 0x1F else s.chipByte a) ∧
  ∀ (s : State) (k : PassKind) (e n : Byte), s.passReady k → s.quiet → s.par.layout = mcp2515 →
    s.chipByte 0x2C = 0x00 → s.recpend = true → e = s.chipByte 0x2D →
    (s.recfails = 0 ∨ s.recnext ≤ s.now) → (s.chipByte 0x0E).extractLsb' 5 3 = 0 →
    n = BitVec.ofNat 8 (min (s.recfails.toNat + 1) s.par.recfailsMax.toNat) →
    ∃ t : State, exec (passInstr k) s = .next t ∧
      t = { s with
            evq := s.evq - 1, pkind := k, flags := 0x00, hmask := 0x00, errok := false
            rxretry0 := 0, rxretry1 := 0, idleSince := s.now, chip := t.chip
            eclass := (if e.getLsbD 5 then s.eclass else .unknown)
            recpend := e.getLsbD 5, recfails := (if e.getLsbD 5 then n else 0)
            recnext := (if e.getLsbD 5 then s.now + s.par.backoff n.toNat else s.recnext)
            evlog := s.evlog ++ [⟨.passStart, k.code, 0, 0, 0⟩, ⟨.flagsRead, 0x00, 0, 0, 0⟩,
              ⟨.recovery, if e.getLsbD 5 then 0x04 else 0x00, if e.getLsbD 5 then n else 0, 0, 0⟩,
              ⟨.passEnd, 0x00, 0, 0, 0⟩]
            bus := s.bus ++ readsBy .dispatcher [0x2C] ++
              modifyBy s.par.nativeBitModify .dispatcher 0x0F 0xE0 0x00 (s.chipByte 0x0F) ++
              readsBy .dispatcher [0x0E, 0x2D] } ∧
      ∀ a, t.chipByte a = if a = 0x0F then s.chipByte 0x0F &&& 0x1F else s.chipByte a

/-- R214 (for a failure of RX0's decode by its length nibble, with the chip not in bus-off and no overflow bit set, in
an undisturbed event pass with RX_RETRY_LIMIT = 1, with a native modify or without): with FLAGS = 0x21 and RXRETRY[0] =
0, after one pass RX0 is still set and ERR is cleared. -/
def Obligations.FlagClearDiscipline : Prop :=
  ∀ s : State, s.passReady .event → s.quiet → s.par.layout = mcp2515 →
    s.par.rxRetryLimit = 1 → s.chipByte 0x2C = 0x21 → s.rxretry0 = 0 →
    8 < ((s.rxImage .rx0).dlc.extractLsb' 0 4).toNat →
    (s.chipByte 0x2D).extractLsb' 5 3 = 0 →
    ∃ t : State, exec .dispatch s = .next t ∧ t.dstate = .idle ∧ t.lock = .free ∧ t.flags = 0x21 ∧
      t.hmask = 0x20 ∧ t.rxretry0 = 1 ∧
      ∀ a, t.chipByte a = if a = 0x2C then 0x01 else s.chipByte a

/-- R200: the recovery step of a pass before RECNEXT records the deferral and issues no transaction. -/
def Obligations.PassDefersRecovery : Prop :=
  ∀ s : State, s.dstate = .recs → s.dprog = none → s.recpend = true → s.recfails ≠ 0 → s.now < s.recnext →
    dispStep s =
      some { s with
        dstate := .ovrs, evlog := s.evlog ++ [⟨.recoveryDeferred, s.recfails, 0, 0, 0⟩] }

/-- R205, R64: a final clear, with a native modify, that fails on all its attempts is recorded, and the pass goes on to
its end; the handled bits of CANINTF are all cleared or none. -/
def Obligations.FinalClearFails : Prop :=
  ∀ (s : State) (ls : List Bool) (rest : List XDraw), s.dstate = .clr → s.dprog = none → s.layoutInv →
    s.par.nativeBitModify = true → s.hmask ≠ 0 → ls.length = s.par.xferAttempts →
    s.xport = ls.map XDraw.fail ++ rest →
    ∃ t : State, dispStep s = some t ∧
      t = { s with
            dstate := .rel, chip := t.chip, xport := rest
            evlog := s.evlog ++ [⟨.flagsClearFail, s.hmask, 0, 0, 0⟩]
            bus := s.bus ++ [⟨s.lock, .modify s.par.layout.canintf s.hmask 0x00⟩] } ∧
      ∀ a, t.chipByte a =
        if a = s.par.layout.canintf ∧ true ∈ ls then s.chipByte s.par.layout.canintf &&& ~~~s.hmask
        else s.chipByte a

/-- R206, R207, R208, R213, R215: a pass of either kind, with no other agent moving and `MODE_POLL_DELAY` = 0,
whatever the transport does and whatever the chip holds, ends in IDLE with LOCK FREE; it has used one token, handled
only flags it read, put PASS_START first and PASS_END last into the log, left the client's registers alone, and
issued at most the transactions of R215 (counted for a native modify). -/
def Obligations.PassEnds : Prop :=
  ∀ (s : State) (k : PassKind), s.passReady k → s.agenda = [] → s.par.pollDelay = 0 →
    ∃ (t : State) (mid : List Record) (tail : List BusEntry), exec (passInstr k) s = .next t ∧
      t.dstate = .idle ∧ t.dprog = none ∧ t.lock = .free ∧ t.evq = s.evq - 1 ∧ t.pkind = k ∧
      t.idleSince = s.now ∧ t.now = s.now ∧ t.hmask &&& ~~~(t.flags &&& knownf s.par.layout) = 0 ∧
      t.evlog = s.evlog ++ [⟨.passStart, k.code, 0, 0, 0⟩] ++ mid ++ [⟨.passEnd, t.hmask, 0, 0, 0⟩] ∧
      s.sameClient t ∧ t.par = s.par ∧ t.bus = s.bus ++ tail ∧
      (s.par.nativeBitModify = true → tail.length ≤ 1 + 2 * 14 + 3 + (1 + s.par.modePollLimit + 1) + 2 + 1)

/-! ## The whole machine -/

/-- The state after reset meets every invariant. -/
def Obligations.ResetMeetsInvariants : Prop := State.reset.Inv

/-- Every step keeps every invariant: the chip registers' canonical form, clients' half-done modifies of registers the
chip has, one owner of LOCK, the operation in progress fits the dispatcher's state and a pass's CLASSIFY has a good
snapshot, HMASK within FLAGS and the known flags, ERR in HMASK only with ERROK and past OVRS, the capacities, decoded
frames valid and canonical, RECPEND with BusOff, IDLE_SINCE no later than NOW, ELEN's range; and the layout stays one
of a chip. -/
def Obligations.StepKeepsInvariants : Prop := ∀ s t : State, s.Inv → step s = .next t → t.Inv

/-- R38, R9, R6: no step removes a log record, turns NOW back, or changes a parameter. -/
def Obligations.LogAppendOnlyClockForward : Prop :=
  ∀ s t : State, step s = .next t →
    s.evlog <+: t.evlog ∧ s.now ≤ t.now ∧ t.par = s.par ∧ s.bus <+: t.bus

/-- R190: the dispatcher moves only along the table's edges, or stays in a state that runs a multi-transaction operation
while that operation is in progress. -/
def Obligations.DispatcherEdges : Prop :=
  ∀ s t : State, dispStep s = some t →
    edge s.dstate t.dstate = true ∨ (t.dstate = s.dstate ∧ s.dstate.mayStay = true ∧ t.dprog ≠ none)

/-- R22, R25, R211, R248: no step of a pass writes a client register, RESULT among them, the port or NOW. -/
def Obligations.PassLeavesClientRegisters : Prop :=
  ∀ s t : State, dispStep s = some t →
    s.sameClient t ∧ t.port = s.port ∧ t.client = s.client ∧ t.held = s.held ∧ t.now = s.now

/-- R10, R60, R61, R72: a step of the block issues at most one transaction, it is one of the set the block may issue,
and the block owns LOCK when it issues it. -/
def Obligations.BlockTransactionsOnly : Prop :=
  ∀ s t : State, s.lockInv →
    (dispStep s = some t → t.bus = s.bus ∨ ∃ op,
      t.bus = s.bus ++ [⟨.dispatcher, op⟩] ∧ blockTransaction s.par.layout s.par.nativeBitModify op = true) ∧
    (portStep s = some t → t.bus = s.bus ∨ ∃ op,
      t.bus = s.bus ++ [⟨.client s.client, op⟩] ∧ blockTransaction s.par.layout s.par.nativeBitModify op = true)

/-- R67, R205, R213, R289: with a native modify the only step of the block that changes CANINTF is the dispatcher's in
CLR, which clears within HMASK. -/
def Obligations.FlagsClearedOnlyAtClr : Prop :=
  ∀ s t : State, s.par.nativeBitModify = true → s.progInv → s.layoutInv →
    (dispStep s = some t → t.chipByte s.par.layout.canintf = s.chipByte s.par.layout.canintf ∨
      (s.dstate = .clr ∧ t.chipByte s.par.layout.canintf = s.chipByte s.par.layout.canintf &&& ~~~s.hmask)) ∧
    (portStep s = some t → t.chipByte s.par.layout.canintf = s.chipByte s.par.layout.canintf)

/-- R207 ("No chip bit is ever set to 1"): with a native modify, and Normal mode's code 0 as in the default layout, no
step of the block sets a chip bit. -/
def Obligations.BlockNeverSetsChipBit : Prop :=
  ∀ s t : State, s.par.nativeBitModify = true → s.par.layout.normal = 0 →
    (dispStep s = some t ∨ portStep s = some t) → ∀ a, t.chipByte a &&& ~~~s.chipByte a = 0

/-- R63, R286: without a native modify, the write half of the final clear gives CANINTF what the read half read less the
mask: a flag the chip set in between is lost. -/
def Obligations.NonNativeClearLosesFlag : Prop :=
  ∀ (s : State) (n : Nat) (read : Byte), s.layoutInv → s.par.nativeBitModify = false → s.xport = [] →
    s.dstate = .clr → s.dprog = some (.flagClear (.write n read)) →
    ∃ t : State, dispStep s = some t ∧ t.dstate = .rel ∧ t.chipByte s.par.layout.canintf = read &&& ~~~s.hmask

/-! ## The environment -/

/-- R191: the ISR's one step pushes a token if EVQ has room and does nothing else; it issues no transaction. -/
def Obligations.IsrPushesToken : Prop :=
  ∀ (s : State) (l : List Act), s.agenda = .env .isr :: l → 0 < s.edges →
    step s =
      .next { s with
        agenda := l, edges := s.edges - 1
        evq := if s.evq < s.par.evqCap then s.evq + 1 else s.evq }

/-- R48, R287: the chip setting flags makes one falling edge exactly when INT goes from deasserted to asserted; flags
are set, never cleared. -/
def Obligations.FlagSetEdge : Prop :=
  ∀ (s : State) (l : List Act) (m : Byte), s.agenda = .env (.chip (.setFlags m)) :: l →
    ∃ t : State, step s = .next t ∧ t.chipByte s.par.layout.canintf = s.chipByte s.par.layout.canintf ||| m ∧
      (∀ a, a ≠ s.par.layout.canintf → t.chipByte a = s.chipByte a) ∧
      t.edges = s.edges +
        (if s.chipByte s.par.layout.canintf &&& s.chipByte s.par.layout.caninte = 0 ∧
          t.chipByte s.par.layout.canintf &&& t.chipByte s.par.layout.caninte ≠ 0 then 1 else 0)

/-- R72, R251: a transaction by a client that does not own LOCK is a fault. -/
def Obligations.TransactionNeedsLock : Prop :=
  ∀ (s : State) (l : List Act) (c : Nat) (a m v : Byte), s.lock ≠ .client c →
    (s.agenda = .env (.client (.xread c a)) :: l → step s = .fault .notLockOwner) ∧
    (s.agenda = .env (.client (.xwrite c a v)) :: l → step s = .fault .notLockOwner) ∧
    (s.agenda = .env (.client (.xmodify c a m v)) :: l → step s = .fault .notLockOwner) ∧
    (s.agenda = .env (.client (.xreset c)) :: l → step s = .fault .notLockOwner)

/-- R265, R251: while RXbIF is set no act of the chip changes receive buffer b or clears the flag; a load or a write of
the buffer is then a fault; while the flag is clear the load writes the buffer and then sets the flag. -/
def Obligations.FlaggedBufferStable : Prop :=
  ∀ (s : State) (l : List Act) (b : Buf) (img : Image) (j : Fin 14) (v : Byte),
    (s.rxFull b = true →
      (s.agenda = .env (.chip (.loadRx b img)) :: l → step s = .fault .chipContract) ∧
      (s.agenda = .env (.chip (.pokeRx b j v)) :: l → step s = .fault .chipContract)) ∧
    (s.layoutInv → s.rxFull b = true → ∀ (a : ChipAct) (t : State),
      s.agenda = .env (.chip a) :: l → step s = .next t → t.rxImage b = s.rxImage b ∧ t.rxFull b = true) ∧
    (s.layoutInv → s.rxFull b = false → s.agenda = .env (.chip (.loadRx b img)) :: l →
      ∃ t : State, step s = .next t ∧ t.rxFull b = true ∧ t.rxImage b = img ∧
        ∀ b', b' ≠ b → t.rxImage b' = s.rxImage b' ∧ t.rxFull b' = s.rxFull b')

/-- R281: after a successful XReset by the owner of LOCK the chip, in the default layout, holds the reset values,
TXREQ is 0, the receive buffers are unspecified anew, and INT is deasserted; no block register changes (R282). R281
calls only the buffer bytes other than control unspecified; that a receive buffer's control byte, RXBnCTRL, is so too is
the model's reading of R46, whose "contents after reset are unspecified" it takes of all 14 registers
(notes/assumptions/21). -/
def Obligations.ChipResetValues : Prop :=
  ∀ (s : State) (l : List Act) (c : Nat), s.agenda = .env (.client (.xreset c)) :: l → s.lock = .client c →
    s.halves = [] → s.par.layout = mcp2515 → s.xport = [] →
    ∃ t : State, step s = .next t ∧ t.chipByte 0x0E = 0x80 ∧ t.chipByte 0x0F = 0x87 ∧ t.chipByte 0x2B = 0x00 ∧
      t.chipByte 0x2C = 0x00 ∧ t.chipByte 0x2D = 0x00 ∧ t.chipByte 0x1C = 0x00 ∧ t.chipByte 0x1D = 0x00 ∧
      (∀ n : Fin 3, (t.chipByte (s.par.layout.txbBase n)).getLsbD 3 = false) ∧
      (∀ (b : Buf) (j : Fin 14), t.chipByte (s.par.layout.rxbBase b + j.val) =
        Config.unspecReg (s.epoch + 1) (s.par.layout.rxbBase b + j.val)) ∧
      t.intLow = false ∧ s.sameClient t ∧ s.samePass t ∧ s.sameErr t ∧ s.sameQueues t ∧ t.lock = s.lock
end

