-- ==== Sys2Proof/Laws/Layout.lean ====
section
/-!
SUPPORT. What a layout gives: the default layout's addresses and masks, the distinctness of a well-formed one's
registers, flags and error bits, and the bits of a mask.
-/

namespace Sys2Proof.Machine

/-! ## Masks -/

/-- A bit of a mask of one bit. -/
@[simp] theorem bitMask_getLsbD (p : Fin 8) (i : Nat) : (bitMask p).getLsbD i = decide (i = p.val) := by
  by_cases h : i < 8
  · obtain ⟨k, rfl⟩ : ∃ k : Fin 8, i = k.val := ⟨⟨i, h⟩, rfl⟩
    revert p k; decide
  · rw [BitVec.getLsbD_of_ge _ _ (by omega)]
    have := p.isLt
    simp; omega

/-- A field that does not hold a mask's bit reads 0 in it. -/
theorem extract_bitMask_of_disjoint (p : Fin 8) (a k : Nat) (h : a + k ≤ p.val ∨ p.val < a) :
    (bitMask p).extractLsb' a k = 0 := by
  ext i hi
  simp [BitVec.getElem_extractLsb']
  omega

/-- A mask of one bit meets a byte in nothing exactly if the byte has that bit clear. -/
theorem and_bitMask_eq_zero (f : Byte) (p : Fin 8) : f &&& bitMask p = 0 ↔ f.getLsbD p.val = false := by
  revert f p; decide

/-! ## The default layout -/

theorem mcp2515_wf : mcp2515.Wf := by decide

@[simp] theorem rxFlag_mcp2515 (b : Buf) : rxFlag mcp2515 b = match b with | .rx0 => 0x01 | .rx1 => 0x02 := by
  cases b <;> rfl
@[simp] theorem ovrMask_mcp2515 (b : Buf) : ovrMask mcp2515 b = match b with | .rx0 => 0x40 | .rx1 => 0x80 := by
  cases b <;> rfl
@[simp] theorem txfAll_mcp2515 : txfAll mcp2515 = 0x1C := rfl
@[simp] theorem errf_mcp2515 : errf mcp2515 = 0x20 := rfl
@[simp] theorem wakef_mcp2515 : wakef mcp2515 = 0x40 := rfl
@[simp] theorem knownf_mcp2515 : knownf mcp2515 = 0x7F := rfl
@[simp] theorem unkf_mcp2515 : unkf mcp2515 = 0x80 := rfl
@[simp] theorem txbo_mcp2515 : txbo mcp2515 = 0x20 := rfl
@[simp] theorem ovrAll_mcp2515 : ovrAll mcp2515 = 0xC0 := rfl
@[simp] theorem reqopMask_mcp2515 : reqopMask mcp2515 = 0xE0 := rfl
@[simp] theorem opmodMask_mcp2515 : opmodMask mcp2515 = 0xE0 := rfl
@[simp] theorem reqopField_normal_mcp2515 : reqopField mcp2515 .normal = 0x00 := rfl
@[simp] theorem reqopField_configuration_mcp2515 : reqopField mcp2515 .configuration = 0x80 := rfl
@[simp] theorem opmodField_configuration_mcp2515 : opmodField mcp2515 .configuration = 0x80 := rfl

/-! ## Well-formed layouts -/

/-- The single registers of a well-formed layout are seven. -/
theorem wf_registers {m : ChipLayout} (h : m.Wf) :
    (m.canstat ≠ m.canctrl ∧ m.canstat ≠ m.tec ∧ m.canstat ≠ m.recCounter ∧ m.canstat ≠ m.caninte ∧
      m.canstat ≠ m.canintf ∧ m.canstat ≠ m.eflg) ∧
    (m.canctrl ≠ m.tec ∧ m.canctrl ≠ m.recCounter ∧ m.canctrl ≠ m.caninte ∧ m.canctrl ≠ m.canintf ∧
      m.canctrl ≠ m.eflg) ∧
    (m.tec ≠ m.recCounter ∧ m.tec ≠ m.caninte ∧ m.tec ≠ m.canintf ∧ m.tec ≠ m.eflg) ∧
    (m.recCounter ≠ m.caninte ∧ m.recCounter ≠ m.canintf ∧ m.recCounter ≠ m.eflg) ∧
    (m.caninte ≠ m.canintf ∧ m.caninte ≠ m.eflg) ∧ m.canintf ≠ m.eflg := by
  simpa [ChipLayout.registers] using h.1

/-- Every register a well-formed layout names exists. -/
theorem wf_bounds {m : ChipLayout} (h : m.Wf) :
    (m.canstat < 0x80 ∧ m.canctrl < 0x80 ∧ m.tec < 0x80 ∧ m.recCounter < 0x80 ∧ m.caninte < 0x80 ∧
      m.canintf < 0x80 ∧ m.eflg < 0x80) ∧
    m.txb0 + 14 ≤ 0x80 ∧ m.txb1 + 14 ≤ 0x80 ∧ m.txb2 + 14 ≤ 0x80 ∧ m.rxb0 + 14 ≤ 0x80 ∧ m.rxb1 + 14 ≤ 0x80 := by
  obtain ⟨-, hr, hb, -⟩ := h
  simp only [ChipLayout.registers, List.mem_cons, List.not_mem_nil, or_false, forall_eq_or_imp, forall_eq,
    Config.addressLimit] at hr
  simp only [ChipLayout.buffers, List.mem_cons, List.not_mem_nil, or_false, forall_eq_or_imp, forall_eq,
    Config.addressLimit] at hb
  exact ⟨hr, hb.1.1, hb.2.1.1, hb.2.2.1.1, hb.2.2.2.1.1, hb.2.2.2.2.1⟩

/-- No register of a receive buffer is one of the single registers. -/
theorem wf_rxBuffer {m : ChipLayout} (h : m.Wf) (b : Buf) {j : Nat} (hj : j < 14) {a : Nat} (ha : a ∈ m.registers) :
    m.rxbBase b + j ≠ a := by
  have hb : m.rxbBase b ∈ m.buffers := by cases b <;> simp [ChipLayout.buffers, ChipLayout.rxbBase]
  rcases (h.2.2.1 _ hb).2 a ha with h | h <;> omega

/-- ERR shares its bit with no flag that a pass handles elsewhere. -/
theorem wf_errBit {m : ChipLayout} (h : m.Wf) :
    m.errBit ≠ m.rx0Bit ∧ m.errBit ≠ m.rx1Bit ∧ m.errBit ≠ m.tx0Bit ∧ m.errBit ≠ m.tx1Bit ∧ m.errBit ≠ m.tx2Bit ∧
      m.errBit ≠ m.wakeBit := by
  have := h.2.2.2.2.1
  simp only [List.nodup_cons, List.mem_cons, List.not_mem_nil, or_false, not_or] at this
  obtain ⟨⟨-, -, -, -, a, -⟩, ⟨-, -, -, b, -⟩, ⟨-, -, c, -⟩, ⟨-, d, -⟩, ⟨e, -⟩, f, -⟩ := this
  exact ⟨Ne.symm a, Ne.symm b, Ne.symm c, Ne.symm d, Ne.symm e, f⟩

/-- The fields of SIDL in a well-formed layout share no bit. -/
theorem wf_sidl {m : ChipLayout} (h : m.Wf) :
    (m.exideBit.val < m.sidLo.val ∨ m.sidLo.val + 3 ≤ m.exideBit.val) ∧
    (m.exideBit.val < m.eidLo.val ∨ m.eidLo.val + 2 ≤ m.exideBit.val) ∧
    (m.eidLo.val + 2 ≤ m.sidLo.val ∨ m.sidLo.val + 3 ≤ m.eidLo.val) := by
  have := h.2.2.2.2.2.2.2.1
  simp only [ChipLayout.sidlBits, List.nodup_cons, List.mem_cons, List.not_mem_nil, or_false, not_or, List.nodup_nil,
    and_true, not_false_eq_true] at this
  omega

/-- The fields of the DLC byte in a well-formed layout share no bit. -/
theorem wf_dlc {m : ChipLayout} (h : m.Wf) :
    m.dlcRtrBit.val < m.dlcLo.val ∨ m.dlcLo.val + 4 ≤ m.dlcRtrBit.val := by
  have := h.2.2.2.2.2.2.2.2.1
  simp only [ChipLayout.dlcBits, List.nodup_cons, List.mem_cons, List.not_mem_nil, or_false, not_or, List.nodup_nil,
    and_true, not_false_eq_true] at this
  omega

end Sys2Proof.Machine
end

