-- ==== Sys2Proof/Laws/Codec.lean ====
section
/-!
SUPPORT. The bits of a placed field, the bytes of a payload cut to its length, and the fields of the image that
ENCODE writes.
-/

namespace Sys2Proof

/-- Byte `i` of a payload cut to `n` bytes (R132). -/
@[simp] theorem keepFirst_getElem (n : Nat) (d : Payload) (i : Nat) (h : i < 8) :
    (keepFirst n d)[i] = if i < n then d[i] else 0 := by
  simp [keepFirst]

/-- Cutting twice to the same length cuts once. -/
@[simp] theorem keepFirst_keepFirst (n : Nat) (d : Payload) : keepFirst n (keepFirst n d) = keepFirst n d := by
  ext i h
  simp only [keepFirst_getElem]
  split <;> rfl

end Sys2Proof

namespace Sys2Proof.Machine

/-- A bit of a placed field. -/
@[simp] theorem place_getLsbD {n : Nat} (w lo : Nat) (v : BitVec n) (i : Nat) :
    (place w lo v).getLsbD i = (decide (i < w) && decide (lo ≤ i) && v.getLsbD (i - lo)) := by
  by_cases h : i < w <;> by_cases g : lo ≤ i <;> simp [place, h, g]

@[simp] theorem place_getElem {n : Nat} (w lo : Nat) (v : BitVec n) (i : Nat) (h : i < w) :
    (place w lo v)[i] = (decide (lo ≤ i) && v.getLsbD (i - lo)) := by
  rw [← BitVec.getLsbD_eq_getElem, place_getLsbD]; simp [h]

/-- A placed field reads back. -/
theorem extract_place {n : Nat} (w lo : Nat) (v : BitVec n) (h : lo + n ≤ w) :
    (place w lo v).extractLsb' lo n = v := by
  ext i hi
  simp [BitVec.getElem_extractLsb', show lo + i < w by omega, BitVec.getLsbD_eq_getElem hi]

/-- A placed field reads 0 in a field beside it. -/
theorem extract_place_of_disjoint {n : Nat} (w lo : Nat) (v : BitVec n) (a k : Nat) (h : a + k ≤ lo ∨ lo + n ≤ a) :
    (place w lo v).extractLsb' a k = 0 := by
  ext i hi
  simp [BitVec.getElem_extractLsb']
  intros
  exact BitVec.getLsbD_of_ge _ _ (by omega)

/-- Each field of the image ENCODE writes reads as the frame's, in a well-formed layout (R93 to R96, R130). -/
theorem encodeImage_fields {m : ChipLayout} (h : m.Wf) (f : Frame) :
    (encodeImage m f).sidl.extractLsb' m.sidLo.val 3 =
      (if f.id.getLsbD 31 then f.id.extractLsb' 18 3 else f.id.extractLsb' 0 3) ∧
    (encodeImage m f).sidl.getLsbD m.exideBit.val = f.id.getLsbD 31 ∧
    (encodeImage m f).sidl.extractLsb' m.eidLo.val 2 = (if f.id.getLsbD 31 then f.id.extractLsb' 16 2 else 0) ∧
    (encodeImage m f).dlc.extractLsb' m.dlcLo.val 4 = f.dlc.extractLsb' 0 4 ∧
    (encodeImage m f).dlc.extractLsb' m.dlcRtrBit.val 1 = f.id.extractLsb' 30 1 ∧
    (encodeImage m f).ctrl.extractLsb' m.rxrtrBit.val 1 = f.id.extractLsb' 30 1 := by
  obtain ⟨h1, h2, h3⟩ := wf_sidl h
  have h4 := wf_dlc h
  have e : ∀ {k : Nat} (x y : Byte) (a : Nat), (x ||| y).extractLsb' a k = x.extractLsb' a k ||| y.extractLsb' a k :=
    fun x y a => BitVec.extractLsb'_or
  refine ⟨?_, ?_, ?_, ?_, ?_, ?_⟩ <;> simp only [encodeImage]
  · split
    · rw [e, e, extract_place _ _ _ (by omega), extract_bitMask_of_disjoint _ _ _ (by omega),
        extract_place_of_disjoint _ _ _ _ _ (by omega)]
      simp
    · rw [extract_place _ _ _ (by omega)]
  · split <;> simp_all
    omega
  · split
    · rw [e, e, extract_place_of_disjoint _ _ _ _ _ (by omega), extract_bitMask_of_disjoint _ _ _ (by omega),
        extract_place _ _ _ (by omega)]
      simp
    · rw [extract_place_of_disjoint _ _ _ _ _ (by omega)]
  · rw [e, extract_place_of_disjoint _ _ _ _ _ (by omega), extract_place _ _ _ (by omega)]
    simp
  · rw [e, extract_place _ _ _ (by omega), extract_place_of_disjoint _ _ _ _ _ (by omega)]
    simp
  · rw [extract_place _ _ _ (by omega)]

end Sys2Proof.Machine
end

