-- ==== Sys2Proof/Laws/Memory.lean ====
section
/-!
SUPPORT. The laws of the chip register space: a read after a write, and that every write keeps the canonical
form.
-/

namespace Sys2Proof.Machine

theorem Memory.read_write_same (m : Memory) (a : Nat) (v : Byte) : (Memory.write m a v).read a = some v := by
  induction m with
  | nil => simp [Memory.write, Memory.read]
  | cons c r ih =>
    rw [Memory.write]
    split
    · simp [Memory.read]
    · split
      · simp [Memory.read]
      · next h => simp [Memory.read, Ne.symm h, ih]

theorem Memory.read_write_other (m : Memory) {a b : Nat} (h : a ≠ b) (v : Byte) :
    (Memory.write m a v).read b = m.read b := by
  induction m with
  | nil => simp [Memory.write, Memory.read, h]
  | cons c r ih =>
    rw [Memory.write]
    split
    · simp [Memory.read, h]
    · split
      · next h' => subst h'; simp [Memory.read, h]
      · simp only [Memory.read, ih]

/-- Every address of a written memory is the address written or was listed before. -/
theorem Memory.mem_write {m : Memory} {a : Nat} {v : Byte} {c : Host.Cell} (h : c ∈ Memory.write m a v) :
    c = (a, v) ∨ c ∈ m := by
  induction m with
  | nil => simpa [Memory.write] using h
  | cons d r ih =>
    rw [Memory.write] at h
    split at h
    · simpa using h
    · split at h
      · rcases List.mem_cons.mp h with h | h
        · exact .inl h
        · exact .inr (List.mem_cons_of_mem _ h)
      · rcases List.mem_cons.mp h with h | h
        · exact .inr (h ▸ List.mem_cons_self)
        · rcases ih h with h | h
          · exact .inl h
          · exact .inr (List.mem_cons_of_mem _ h)

theorem Memory.pairwise_write {m : Memory} (h : m.Pairwise fun x y => x.1 < y.1) (a : Nat) (v : Byte) :
    (Memory.write m a v).Pairwise fun x y => x.1 < y.1 := by
  induction m with
  | nil => simp [Memory.write]
  | cons c r ih =>
    obtain ⟨hc, hr⟩ := List.pairwise_cons.mp h
    rw [Memory.write]
    split
    · next hlt =>
      refine List.pairwise_cons.mpr ⟨fun d hd => ?_, h⟩
      rcases List.mem_cons.mp hd with rfl | hd
      · exact hlt
      · exact lt_trans hlt (hc d hd)
    · split
      · next heq => exact List.pairwise_cons.mpr ⟨fun d hd => heq ▸ hc d hd, hr⟩
      · refine List.pairwise_cons.mpr ⟨fun d hd => ?_, ih hr⟩
        rcases Memory.mem_write hd with rfl | hd
        · simp only; omega
        · exact hc d hd

theorem Memory.wf_iff (m : Memory) :
    m.wf = true ↔ (m.Pairwise fun x y => x.1 < y.1) ∧ ∀ c ∈ m, c.1 < Config.addressLimit := by
  simp [Memory.wf]

/-- A write to an implemented address keeps the canonical form. -/
theorem Memory.wf_write {m : Memory} (h : m.wf = true) {a : Nat} (ha : a < Config.addressLimit) (v : Byte) :
    (Memory.write m a v).wf = true := by
  obtain ⟨hp, hl⟩ := (Memory.wf_iff m).mp h
  refine (Memory.wf_iff _).mpr ⟨Memory.pairwise_write hp a v, fun c hc => ?_⟩
  rcases Memory.mem_write hc with rfl | hc
  · exact ha
  · exact hl c hc

theorem Memory.wf_writeAll {m : Memory} (h : m.wf = true) {cells : List Host.Cell}
    (hc : ∀ c ∈ cells, c.1 < Config.addressLimit) : (Memory.writeAll m cells).wf = true := by
  induction cells generalizing m with
  | nil => exact h
  | cons d r ih =>
    exact ih (Memory.wf_write h (hc d List.mem_cons_self) d.2) fun c hr => hc c (List.mem_cons_of_mem _ hr)

end Sys2Proof.Machine
end

