-- ==== Sys2Proof/Laws/State.lean ====
section
/-!
SUPPORT. The small lemmas of the state updates: what each named update leaves of each field.
-/

namespace Sys2Proof.Machine

/-! ## setChip -/

@[simp] theorem State.setChip_fin (s : State) (m : Memory) : (s.setChip m).fin = s.fin := rfl
@[simp] theorem State.setChip_fout (s : State) (m : Memory) : (s.setChip m).fout = s.fout := rfl
@[simp] theorem State.setChip_img (s : State) (m : Memory) : (s.setChip m).img = s.img := rfl
@[simp] theorem State.setChip_elen (s : State) (m : Memory) : (s.setChip m).elen = s.elen := rfl
@[simp] theorem State.setChip_result (s : State) (m : Memory) : (s.setChip m).result = s.result := rfl
@[simp] theorem State.setChip_opreq (s : State) (m : Memory) : (s.setChip m).opreq = s.opreq := rfl
@[simp] theorem State.setChip_dstate (s : State) (m : Memory) : (s.setChip m).dstate = s.dstate := rfl
@[simp] theorem State.setChip_flags (s : State) (m : Memory) : (s.setChip m).flags = s.flags := rfl
@[simp] theorem State.setChip_hmask (s : State) (m : Memory) : (s.setChip m).hmask = s.hmask := rfl
@[simp] theorem State.setChip_rxretry0 (s : State) (m : Memory) : (s.setChip m).rxretry0 = s.rxretry0 := rfl
@[simp] theorem State.setChip_rxretry1 (s : State) (m : Memory) : (s.setChip m).rxretry1 = s.rxretry1 := rfl
@[simp] theorem State.setChip_esnap (s : State) (m : Memory) : (s.setChip m).esnap = s.esnap := rfl
@[simp] theorem State.setChip_eclass (s : State) (m : Memory) : (s.setChip m).eclass = s.eclass := rfl
@[simp] theorem State.setChip_recpend (s : State) (m : Memory) : (s.setChip m).recpend = s.recpend := rfl
@[simp] theorem State.setChip_recfails (s : State) (m : Memory) : (s.setChip m).recfails = s.recfails := rfl
@[simp] theorem State.setChip_recnext (s : State) (m : Memory) : (s.setChip m).recnext = s.recnext := rfl
@[simp] theorem State.setChip_evq (s : State) (m : Memory) : (s.setChip m).evq = s.evq := rfl
@[simp] theorem State.setChip_rxq (s : State) (m : Memory) : (s.setChip m).rxq = s.rxq := rfl
@[simp] theorem State.setChip_evlog (s : State) (m : Memory) : (s.setChip m).evlog = s.evlog := rfl
@[simp] theorem State.setChip_lock (s : State) (m : Memory) : (s.setChip m).lock = s.lock := rfl
@[simp] theorem State.setChip_now (s : State) (m : Memory) : (s.setChip m).now = s.now := rfl
@[simp] theorem State.setChip_idleSince (s : State) (m : Memory) : (s.setChip m).idleSince = s.idleSince := rfl
@[simp] theorem State.setChip_dimg (s : State) (m : Memory) : (s.setChip m).dimg = s.dimg := rfl
@[simp] theorem State.setChip_dfout (s : State) (m : Memory) : (s.setChip m).dfout = s.dfout := rfl
@[simp] theorem State.setChip_errok (s : State) (m : Memory) : (s.setChip m).errok = s.errok := rfl
@[simp] theorem State.setChip_pkind (s : State) (m : Memory) : (s.setChip m).pkind = s.pkind := rfl
@[simp] theorem State.setChip_port (s : State) (m : Memory) : (s.setChip m).port = s.port := rfl
@[simp] theorem State.setChip_client (s : State) (m : Memory) : (s.setChip m).client = s.client := rfl
@[simp] theorem State.setChip_held (s : State) (m : Memory) : (s.setChip m).held = s.held := rfl
@[simp] theorem State.setChip_halves (s : State) (m : Memory) : (s.setChip m).halves = s.halves := rfl
@[simp] theorem State.setChip_dprog (s : State) (m : Memory) : (s.setChip m).dprog = s.dprog := rfl
@[simp] theorem State.setChip_chip (s : State) (m : Memory) : (s.setChip m).chip = m := rfl
@[simp] theorem State.setChip_epoch (s : State) (m : Memory) : (s.setChip m).epoch = s.epoch := rfl
@[simp] theorem State.setChip_bus (s : State) (m : Memory) : (s.setChip m).bus = s.bus := rfl
@[simp] theorem State.setChip_par (s : State) (m : Memory) : (s.setChip m).par = s.par := rfl
@[simp] theorem State.setChip_agenda (s : State) (m : Memory) : (s.setChip m).agenda = s.agenda := rfl
@[simp] theorem State.setChip_xport (s : State) (m : Memory) : (s.setChip m).xport = s.xport := rfl
@[simp] theorem State.setChip_drawn (s : State) (m : Memory) : (s.setChip m).drawn = s.drawn := rfl

/-! ## putByte -/

@[simp] theorem State.putByte_fin (s : State) (a : Nat) (v : Byte) : (s.putByte a v).fin = s.fin := rfl
@[simp] theorem State.putByte_fout (s : State) (a : Nat) (v : Byte) : (s.putByte a v).fout = s.fout := rfl
@[simp] theorem State.putByte_img (s : State) (a : Nat) (v : Byte) : (s.putByte a v).img = s.img := rfl
@[simp] theorem State.putByte_elen (s : State) (a : Nat) (v : Byte) : (s.putByte a v).elen = s.elen := rfl
@[simp] theorem State.putByte_result (s : State) (a : Nat) (v : Byte) : (s.putByte a v).result = s.result := rfl
@[simp] theorem State.putByte_opreq (s : State) (a : Nat) (v : Byte) : (s.putByte a v).opreq = s.opreq := rfl
@[simp] theorem State.putByte_dstate (s : State) (a : Nat) (v : Byte) : (s.putByte a v).dstate = s.dstate := rfl
@[simp] theorem State.putByte_flags (s : State) (a : Nat) (v : Byte) : (s.putByte a v).flags = s.flags := rfl
@[simp] theorem State.putByte_hmask (s : State) (a : Nat) (v : Byte) : (s.putByte a v).hmask = s.hmask := rfl
@[simp] theorem State.putByte_rxretry0 (s : State) (a : Nat) (v : Byte) : (s.putByte a v).rxretry0 = s.rxretry0 := rfl
@[simp] theorem State.putByte_rxretry1 (s : State) (a : Nat) (v : Byte) : (s.putByte a v).rxretry1 = s.rxretry1 := rfl
@[simp] theorem State.putByte_esnap (s : State) (a : Nat) (v : Byte) : (s.putByte a v).esnap = s.esnap := rfl
@[simp] theorem State.putByte_eclass (s : State) (a : Nat) (v : Byte) : (s.putByte a v).eclass = s.eclass := rfl
@[simp] theorem State.putByte_recpend (s : State) (a : Nat) (v : Byte) : (s.putByte a v).recpend = s.recpend := rfl
@[simp] theorem State.putByte_recfails (s : State) (a : Nat) (v : Byte) : (s.putByte a v).recfails = s.recfails := rfl
@[simp] theorem State.putByte_recnext (s : State) (a : Nat) (v : Byte) : (s.putByte a v).recnext = s.recnext := rfl
@[simp] theorem State.putByte_evq (s : State) (a : Nat) (v : Byte) : (s.putByte a v).evq = s.evq := rfl
@[simp] theorem State.putByte_rxq (s : State) (a : Nat) (v : Byte) : (s.putByte a v).rxq = s.rxq := rfl
@[simp] theorem State.putByte_evlog (s : State) (a : Nat) (v : Byte) : (s.putByte a v).evlog = s.evlog := rfl
@[simp] theorem State.putByte_lock (s : State) (a : Nat) (v : Byte) : (s.putByte a v).lock = s.lock := rfl
@[simp] theorem State.putByte_now (s : State) (a : Nat) (v : Byte) : (s.putByte a v).now = s.now := rfl
@[simp] theorem State.putByte_idleSince (s : State) (a : Nat) (v : Byte) : (s.putByte a v).idleSince = s.idleSince := rfl
@[simp] theorem State.putByte_dimg (s : State) (a : Nat) (v : Byte) : (s.putByte a v).dimg = s.dimg := rfl
@[simp] theorem State.putByte_dfout (s : State) (a : Nat) (v : Byte) : (s.putByte a v).dfout = s.dfout := rfl
@[simp] theorem State.putByte_errok (s : State) (a : Nat) (v : Byte) : (s.putByte a v).errok = s.errok := rfl
@[simp] theorem State.putByte_pkind (s : State) (a : Nat) (v : Byte) : (s.putByte a v).pkind = s.pkind := rfl
@[simp] theorem State.putByte_port (s : State) (a : Nat) (v : Byte) : (s.putByte a v).port = s.port := rfl
@[simp] theorem State.putByte_client (s : State) (a : Nat) (v : Byte) : (s.putByte a v).client = s.client := rfl
@[simp] theorem State.putByte_held (s : State) (a : Nat) (v : Byte) : (s.putByte a v).held = s.held := rfl
@[simp] theorem State.putByte_halves (s : State) (a : Nat) (v : Byte) : (s.putByte a v).halves = s.halves := rfl
@[simp] theorem State.putByte_dprog (s : State) (a : Nat) (v : Byte) : (s.putByte a v).dprog = s.dprog := rfl
@[simp] theorem State.putByte_chip (s : State) (a : Nat) (v : Byte) : (s.putByte a v).chip = Memory.write s.chip a v := rfl
@[simp] theorem State.putByte_epoch (s : State) (a : Nat) (v : Byte) : (s.putByte a v).epoch = s.epoch := rfl
@[simp] theorem State.putByte_bus (s : State) (a : Nat) (v : Byte) : (s.putByte a v).bus = s.bus := rfl
@[simp] theorem State.putByte_par (s : State) (a : Nat) (v : Byte) : (s.putByte a v).par = s.par := rfl
@[simp] theorem State.putByte_agenda (s : State) (a : Nat) (v : Byte) : (s.putByte a v).agenda = s.agenda := rfl
@[simp] theorem State.putByte_xport (s : State) (a : Nat) (v : Byte) : (s.putByte a v).xport = s.xport := rfl
@[simp] theorem State.putByte_drawn (s : State) (a : Nat) (v : Byte) : (s.putByte a v).drawn = s.drawn := rfl

/-! ## storeReg -/

@[simp] theorem State.storeReg_fin (s : State) (a : Nat) (v : Byte) : (s.storeReg a v).fin = s.fin := rfl
@[simp] theorem State.storeReg_fout (s : State) (a : Nat) (v : Byte) : (s.storeReg a v).fout = s.fout := rfl
@[simp] theorem State.storeReg_img (s : State) (a : Nat) (v : Byte) : (s.storeReg a v).img = s.img := rfl
@[simp] theorem State.storeReg_elen (s : State) (a : Nat) (v : Byte) : (s.storeReg a v).elen = s.elen := rfl
@[simp] theorem State.storeReg_result (s : State) (a : Nat) (v : Byte) : (s.storeReg a v).result = s.result := rfl
@[simp] theorem State.storeReg_opreq (s : State) (a : Nat) (v : Byte) : (s.storeReg a v).opreq = s.opreq := rfl
@[simp] theorem State.storeReg_dstate (s : State) (a : Nat) (v : Byte) : (s.storeReg a v).dstate = s.dstate := rfl
@[simp] theorem State.storeReg_flags (s : State) (a : Nat) (v : Byte) : (s.storeReg a v).flags = s.flags := rfl
@[simp] theorem State.storeReg_hmask (s : State) (a : Nat) (v : Byte) : (s.storeReg a v).hmask = s.hmask := rfl
@[simp] theorem State.storeReg_rxretry0 (s : State) (a : Nat) (v : Byte) : (s.storeReg a v).rxretry0 = s.rxretry0 := rfl
@[simp] theorem State.storeReg_rxretry1 (s : State) (a : Nat) (v : Byte) : (s.storeReg a v).rxretry1 = s.rxretry1 := rfl
@[simp] theorem State.storeReg_esnap (s : State) (a : Nat) (v : Byte) : (s.storeReg a v).esnap = s.esnap := rfl
@[simp] theorem State.storeReg_eclass (s : State) (a : Nat) (v : Byte) : (s.storeReg a v).eclass = s.eclass := rfl
@[simp] theorem State.storeReg_recpend (s : State) (a : Nat) (v : Byte) : (s.storeReg a v).recpend = s.recpend := rfl
@[simp] theorem State.storeReg_recfails (s : State) (a : Nat) (v : Byte) : (s.storeReg a v).recfails = s.recfails := rfl
@[simp] theorem State.storeReg_recnext (s : State) (a : Nat) (v : Byte) : (s.storeReg a v).recnext = s.recnext := rfl
@[simp] theorem State.storeReg_evq (s : State) (a : Nat) (v : Byte) : (s.storeReg a v).evq = s.evq := rfl
@[simp] theorem State.storeReg_rxq (s : State) (a : Nat) (v : Byte) : (s.storeReg a v).rxq = s.rxq := rfl
@[simp] theorem State.storeReg_evlog (s : State) (a : Nat) (v : Byte) : (s.storeReg a v).evlog = s.evlog := rfl
@[simp] theorem State.storeReg_lock (s : State) (a : Nat) (v : Byte) : (s.storeReg a v).lock = s.lock := rfl
@[simp] theorem State.storeReg_now (s : State) (a : Nat) (v : Byte) : (s.storeReg a v).now = s.now := rfl
@[simp] theorem State.storeReg_idleSince (s : State) (a : Nat) (v : Byte) : (s.storeReg a v).idleSince = s.idleSince := rfl
@[simp] theorem State.storeReg_dimg (s : State) (a : Nat) (v : Byte) : (s.storeReg a v).dimg = s.dimg := rfl
@[simp] theorem State.storeReg_dfout (s : State) (a : Nat) (v : Byte) : (s.storeReg a v).dfout = s.dfout := rfl
@[simp] theorem State.storeReg_errok (s : State) (a : Nat) (v : Byte) : (s.storeReg a v).errok = s.errok := rfl
@[simp] theorem State.storeReg_pkind (s : State) (a : Nat) (v : Byte) : (s.storeReg a v).pkind = s.pkind := rfl
@[simp] theorem State.storeReg_port (s : State) (a : Nat) (v : Byte) : (s.storeReg a v).port = s.port := rfl
@[simp] theorem State.storeReg_client (s : State) (a : Nat) (v : Byte) : (s.storeReg a v).client = s.client := rfl
@[simp] theorem State.storeReg_held (s : State) (a : Nat) (v : Byte) : (s.storeReg a v).held = s.held := rfl
@[simp] theorem State.storeReg_halves (s : State) (a : Nat) (v : Byte) : (s.storeReg a v).halves = s.halves := rfl
@[simp] theorem State.storeReg_dprog (s : State) (a : Nat) (v : Byte) : (s.storeReg a v).dprog = s.dprog := rfl
@[simp] theorem State.storeReg_chip (s : State) (a : Nat) (v : Byte) : (s.storeReg a v).chip = Memory.write s.chip a (written s.par.layout a (s.chipByte a) v) := rfl
@[simp] theorem State.storeReg_epoch (s : State) (a : Nat) (v : Byte) : (s.storeReg a v).epoch = s.epoch := rfl
@[simp] theorem State.storeReg_bus (s : State) (a : Nat) (v : Byte) : (s.storeReg a v).bus = s.bus := rfl
@[simp] theorem State.storeReg_par (s : State) (a : Nat) (v : Byte) : (s.storeReg a v).par = s.par := rfl
@[simp] theorem State.storeReg_agenda (s : State) (a : Nat) (v : Byte) : (s.storeReg a v).agenda = s.agenda := rfl
@[simp] theorem State.storeReg_xport (s : State) (a : Nat) (v : Byte) : (s.storeReg a v).xport = s.xport := rfl
@[simp] theorem State.storeReg_drawn (s : State) (a : Nat) (v : Byte) : (s.storeReg a v).drawn = s.drawn := rfl

/-! ## modifyReg -/

@[simp] theorem State.modifyReg_fin (s : State) (a : Nat) (m v : Byte) : (s.modifyReg a m v).fin = s.fin := rfl
@[simp] theorem State.modifyReg_fout (s : State) (a : Nat) (m v : Byte) : (s.modifyReg a m v).fout = s.fout := rfl
@[simp] theorem State.modifyReg_img (s : State) (a : Nat) (m v : Byte) : (s.modifyReg a m v).img = s.img := rfl
@[simp] theorem State.modifyReg_elen (s : State) (a : Nat) (m v : Byte) : (s.modifyReg a m v).elen = s.elen := rfl
@[simp] theorem State.modifyReg_result (s : State) (a : Nat) (m v : Byte) : (s.modifyReg a m v).result = s.result := rfl
@[simp] theorem State.modifyReg_opreq (s : State) (a : Nat) (m v : Byte) : (s.modifyReg a m v).opreq = s.opreq := rfl
@[simp] theorem State.modifyReg_dstate (s : State) (a : Nat) (m v : Byte) : (s.modifyReg a m v).dstate = s.dstate := rfl
@[simp] theorem State.modifyReg_flags (s : State) (a : Nat) (m v : Byte) : (s.modifyReg a m v).flags = s.flags := rfl
@[simp] theorem State.modifyReg_hmask (s : State) (a : Nat) (m v : Byte) : (s.modifyReg a m v).hmask = s.hmask := rfl
@[simp] theorem State.modifyReg_rxretry0 (s : State) (a : Nat) (m v : Byte) : (s.modifyReg a m v).rxretry0 = s.rxretry0 := rfl
@[simp] theorem State.modifyReg_rxretry1 (s : State) (a : Nat) (m v : Byte) : (s.modifyReg a m v).rxretry1 = s.rxretry1 := rfl
@[simp] theorem State.modifyReg_esnap (s : State) (a : Nat) (m v : Byte) : (s.modifyReg a m v).esnap = s.esnap := rfl
@[simp] theorem State.modifyReg_eclass (s : State) (a : Nat) (m v : Byte) : (s.modifyReg a m v).eclass = s.eclass := rfl
@[simp] theorem State.modifyReg_recpend (s : State) (a : Nat) (m v : Byte) : (s.modifyReg a m v).recpend = s.recpend := rfl
@[simp] theorem State.modifyReg_recfails (s : State) (a : Nat) (m v : Byte) : (s.modifyReg a m v).recfails = s.recfails := rfl
@[simp] theorem State.modifyReg_recnext (s : State) (a : Nat) (m v : Byte) : (s.modifyReg a m v).recnext = s.recnext := rfl
@[simp] theorem State.modifyReg_evq (s : State) (a : Nat) (m v : Byte) : (s.modifyReg a m v).evq = s.evq := rfl
@[simp] theorem State.modifyReg_rxq (s : State) (a : Nat) (m v : Byte) : (s.modifyReg a m v).rxq = s.rxq := rfl
@[simp] theorem State.modifyReg_evlog (s : State) (a : Nat) (m v : Byte) : (s.modifyReg a m v).evlog = s.evlog := rfl
@[simp] theorem State.modifyReg_lock (s : State) (a : Nat) (m v : Byte) : (s.modifyReg a m v).lock = s.lock := rfl
@[simp] theorem State.modifyReg_now (s : State) (a : Nat) (m v : Byte) : (s.modifyReg a m v).now = s.now := rfl
@[simp] theorem State.modifyReg_idleSince (s : State) (a : Nat) (m v : Byte) : (s.modifyReg a m v).idleSince = s.idleSince := rfl
@[simp] theorem State.modifyReg_dimg (s : State) (a : Nat) (m v : Byte) : (s.modifyReg a m v).dimg = s.dimg := rfl
@[simp] theorem State.modifyReg_dfout (s : State) (a : Nat) (m v : Byte) : (s.modifyReg a m v).dfout = s.dfout := rfl
@[simp] theorem State.modifyReg_errok (s : State) (a : Nat) (m v : Byte) : (s.modifyReg a m v).errok = s.errok := rfl
@[simp] theorem State.modifyReg_pkind (s : State) (a : Nat) (m v : Byte) : (s.modifyReg a m v).pkind = s.pkind := rfl
@[simp] theorem State.modifyReg_port (s : State) (a : Nat) (m v : Byte) : (s.modifyReg a m v).port = s.port := rfl
@[simp] theorem State.modifyReg_client (s : State) (a : Nat) (m v : Byte) : (s.modifyReg a m v).client = s.client := rfl
@[simp] theorem State.modifyReg_held (s : State) (a : Nat) (m v : Byte) : (s.modifyReg a m v).held = s.held := rfl
@[simp] theorem State.modifyReg_halves (s : State) (a : Nat) (m v : Byte) : (s.modifyReg a m v).halves = s.halves := rfl
@[simp] theorem State.modifyReg_dprog (s : State) (a : Nat) (m v : Byte) : (s.modifyReg a m v).dprog = s.dprog := rfl
@[simp] theorem State.modifyReg_epoch (s : State) (a : Nat) (m v : Byte) : (s.modifyReg a m v).epoch = s.epoch := rfl
@[simp] theorem State.modifyReg_bus (s : State) (a : Nat) (m v : Byte) : (s.modifyReg a m v).bus = s.bus := rfl
@[simp] theorem State.modifyReg_par (s : State) (a : Nat) (m v : Byte) : (s.modifyReg a m v).par = s.par := rfl
@[simp] theorem State.modifyReg_agenda (s : State) (a : Nat) (m v : Byte) : (s.modifyReg a m v).agenda = s.agenda := rfl
@[simp] theorem State.modifyReg_xport (s : State) (a : Nat) (m v : Byte) : (s.modifyReg a m v).xport = s.xport := rfl
@[simp] theorem State.modifyReg_drawn (s : State) (a : Nat) (m v : Byte) : (s.modifyReg a m v).drawn = s.drawn := rfl

/-! ## logBus -/

@[simp] theorem State.logBus_fin (s : State) (op : BusOp) : (s.logBus op).fin = s.fin := rfl
@[simp] theorem State.logBus_fout (s : State) (op : BusOp) : (s.logBus op).fout = s.fout := rfl
@[simp] theorem State.logBus_img (s : State) (op : BusOp) : (s.logBus op).img = s.img := rfl
@[simp] theorem State.logBus_elen (s : State) (op : BusOp) : (s.logBus op).elen = s.elen := rfl
@[simp] theorem State.logBus_result (s : State) (op : BusOp) : (s.logBus op).result = s.result := rfl
@[simp] theorem State.logBus_opreq (s : State) (op : BusOp) : (s.logBus op).opreq = s.opreq := rfl
@[simp] theorem State.logBus_dstate (s : State) (op : BusOp) : (s.logBus op).dstate = s.dstate := rfl
@[simp] theorem State.logBus_flags (s : State) (op : BusOp) : (s.logBus op).flags = s.flags := rfl
@[simp] theorem State.logBus_hmask (s : State) (op : BusOp) : (s.logBus op).hmask = s.hmask := rfl
@[simp] theorem State.logBus_rxretry0 (s : State) (op : BusOp) : (s.logBus op).rxretry0 = s.rxretry0 := rfl
@[simp] theorem State.logBus_rxretry1 (s : State) (op : BusOp) : (s.logBus op).rxretry1 = s.rxretry1 := rfl
@[simp] theorem State.logBus_esnap (s : State) (op : BusOp) : (s.logBus op).esnap = s.esnap := rfl
@[simp] theorem State.logBus_eclass (s : State) (op : BusOp) : (s.logBus op).eclass = s.eclass := rfl
@[simp] theorem State.logBus_recpend (s : State) (op : BusOp) : (s.logBus op).recpend = s.recpend := rfl
@[simp] theorem State.logBus_recfails (s : State) (op : BusOp) : (s.logBus op).recfails = s.recfails := rfl
@[simp] theorem State.logBus_recnext (s : State) (op : BusOp) : (s.logBus op).recnext = s.recnext := rfl
@[simp] theorem State.logBus_evq (s : State) (op : BusOp) : (s.logBus op).evq = s.evq := rfl
@[simp] theorem State.logBus_rxq (s : State) (op : BusOp) : (s.logBus op).rxq = s.rxq := rfl
@[simp] theorem State.logBus_evlog (s : State) (op : BusOp) : (s.logBus op).evlog = s.evlog := rfl
@[simp] theorem State.logBus_lock (s : State) (op : BusOp) : (s.logBus op).lock = s.lock := rfl
@[simp] theorem State.logBus_now (s : State) (op : BusOp) : (s.logBus op).now = s.now := rfl
@[simp] theorem State.logBus_idleSince (s : State) (op : BusOp) : (s.logBus op).idleSince = s.idleSince := rfl
@[simp] theorem State.logBus_dimg (s : State) (op : BusOp) : (s.logBus op).dimg = s.dimg := rfl
@[simp] theorem State.logBus_dfout (s : State) (op : BusOp) : (s.logBus op).dfout = s.dfout := rfl
@[simp] theorem State.logBus_errok (s : State) (op : BusOp) : (s.logBus op).errok = s.errok := rfl
@[simp] theorem State.logBus_pkind (s : State) (op : BusOp) : (s.logBus op).pkind = s.pkind := rfl
@[simp] theorem State.logBus_port (s : State) (op : BusOp) : (s.logBus op).port = s.port := rfl
@[simp] theorem State.logBus_client (s : State) (op : BusOp) : (s.logBus op).client = s.client := rfl
@[simp] theorem State.logBus_held (s : State) (op : BusOp) : (s.logBus op).held = s.held := rfl
@[simp] theorem State.logBus_halves (s : State) (op : BusOp) : (s.logBus op).halves = s.halves := rfl
@[simp] theorem State.logBus_dprog (s : State) (op : BusOp) : (s.logBus op).dprog = s.dprog := rfl
@[simp] theorem State.logBus_chip (s : State) (op : BusOp) : (s.logBus op).chip = s.chip := rfl
@[simp] theorem State.logBus_epoch (s : State) (op : BusOp) : (s.logBus op).epoch = s.epoch := rfl
@[simp] theorem State.logBus_edges (s : State) (op : BusOp) : (s.logBus op).edges = s.edges := rfl
@[simp] theorem State.logBus_bus (s : State) (op : BusOp) : (s.logBus op).bus = s.bus ++ [⟨s.lock, op⟩] := rfl
@[simp] theorem State.logBus_par (s : State) (op : BusOp) : (s.logBus op).par = s.par := rfl
@[simp] theorem State.logBus_agenda (s : State) (op : BusOp) : (s.logBus op).agenda = s.agenda := rfl
@[simp] theorem State.logBus_xport (s : State) (op : BusOp) : (s.logBus op).xport = s.xport := rfl
@[simp] theorem State.logBus_drawn (s : State) (op : BusOp) : (s.logBus op).drawn = s.drawn := rfl

/-! ## emit -/

@[simp] theorem State.emit_fin (s : State) (k : RecordKind) (a b c d : Byte) : (s.emit k a b c d).fin = s.fin := rfl
@[simp] theorem State.emit_fout (s : State) (k : RecordKind) (a b c d : Byte) : (s.emit k a b c d).fout = s.fout := rfl
@[simp] theorem State.emit_img (s : State) (k : RecordKind) (a b c d : Byte) : (s.emit k a b c d).img = s.img := rfl
@[simp] theorem State.emit_elen (s : State) (k : RecordKind) (a b c d : Byte) : (s.emit k a b c d).elen = s.elen := rfl
@[simp] theorem State.emit_result (s : State) (k : RecordKind) (a b c d : Byte) : (s.emit k a b c d).result = s.result := rfl
@[simp] theorem State.emit_opreq (s : State) (k : RecordKind) (a b c d : Byte) : (s.emit k a b c d).opreq = s.opreq := rfl
@[simp] theorem State.emit_dstate (s : State) (k : RecordKind) (a b c d : Byte) : (s.emit k a b c d).dstate = s.dstate := rfl
@[simp] theorem State.emit_flags (s : State) (k : RecordKind) (a b c d : Byte) : (s.emit k a b c d).flags = s.flags := rfl
@[simp] theorem State.emit_hmask (s : State) (k : RecordKind) (a b c d : Byte) : (s.emit k a b c d).hmask = s.hmask := rfl
@[simp] theorem State.emit_rxretry0 (s : State) (k : RecordKind) (a b c d : Byte) : (s.emit k a b c d).rxretry0 = s.rxretry0 := rfl
@[simp] theorem State.emit_rxretry1 (s : State) (k : RecordKind) (a b c d : Byte) : (s.emit k a b c d).rxretry1 = s.rxretry1 := rfl
@[simp] theorem State.emit_esnap (s : State) (k : RecordKind) (a b c d : Byte) : (s.emit k a b c d).esnap = s.esnap := rfl
@[simp] theorem State.emit_eclass (s : State) (k : RecordKind) (a b c d : Byte) : (s.emit k a b c d).eclass = s.eclass := rfl
@[simp] theorem State.emit_recpend (s : State) (k : RecordKind) (a b c d : Byte) : (s.emit k a b c d).recpend = s.recpend := rfl
@[simp] theorem State.emit_recfails (s : State) (k : RecordKind) (a b c d : Byte) : (s.emit k a b c d).recfails = s.recfails := rfl
@[simp] theorem State.emit_recnext (s : State) (k : RecordKind) (a b c d : Byte) : (s.emit k a b c d).recnext = s.recnext := rfl
@[simp] theorem State.emit_evq (s : State) (k : RecordKind) (a b c d : Byte) : (s.emit k a b c d).evq = s.evq := rfl
@[simp] theorem State.emit_rxq (s : State) (k : RecordKind) (a b c d : Byte) : (s.emit k a b c d).rxq = s.rxq := rfl
@[simp] theorem State.emit_evlog (s : State) (k : RecordKind) (a b c d : Byte) : (s.emit k a b c d).evlog = s.evlog ++ [⟨k, a, b, c, d⟩] := rfl
@[simp] theorem State.emit_lock (s : State) (k : RecordKind) (a b c d : Byte) : (s.emit k a b c d).lock = s.lock := rfl
@[simp] theorem State.emit_now (s : State) (k : RecordKind) (a b c d : Byte) : (s.emit k a b c d).now = s.now := rfl
@[simp] theorem State.emit_idleSince (s : State) (k : RecordKind) (a b c d : Byte) : (s.emit k a b c d).idleSince = s.idleSince := rfl
@[simp] theorem State.emit_dimg (s : State) (k : RecordKind) (a b c d : Byte) : (s.emit k a b c d).dimg = s.dimg := rfl
@[simp] theorem State.emit_dfout (s : State) (k : RecordKind) (a b c d : Byte) : (s.emit k a b c d).dfout = s.dfout := rfl
@[simp] theorem State.emit_errok (s : State) (k : RecordKind) (a b c d : Byte) : (s.emit k a b c d).errok = s.errok := rfl
@[simp] theorem State.emit_pkind (s : State) (k : RecordKind) (a b c d : Byte) : (s.emit k a b c d).pkind = s.pkind := rfl
@[simp] theorem State.emit_port (s : State) (k : RecordKind) (a b c d : Byte) : (s.emit k a b c d).port = s.port := rfl
@[simp] theorem State.emit_client (s : State) (k : RecordKind) (a b c d : Byte) : (s.emit k a b c d).client = s.client := rfl
@[simp] theorem State.emit_held (s : State) (k : RecordKind) (a b c d : Byte) : (s.emit k a b c d).held = s.held := rfl
@[simp] theorem State.emit_halves (s : State) (k : RecordKind) (a b c d : Byte) : (s.emit k a b c d).halves = s.halves := rfl
@[simp] theorem State.emit_dprog (s : State) (k : RecordKind) (a b c d : Byte) : (s.emit k a b c d).dprog = s.dprog := rfl
@[simp] theorem State.emit_chip (s : State) (k : RecordKind) (a b c d : Byte) : (s.emit k a b c d).chip = s.chip := rfl
@[simp] theorem State.emit_epoch (s : State) (k : RecordKind) (a b c d : Byte) : (s.emit k a b c d).epoch = s.epoch := rfl
@[simp] theorem State.emit_edges (s : State) (k : RecordKind) (a b c d : Byte) : (s.emit k a b c d).edges = s.edges := rfl
@[simp] theorem State.emit_bus (s : State) (k : RecordKind) (a b c d : Byte) : (s.emit k a b c d).bus = s.bus := rfl
@[simp] theorem State.emit_par (s : State) (k : RecordKind) (a b c d : Byte) : (s.emit k a b c d).par = s.par := rfl
@[simp] theorem State.emit_agenda (s : State) (k : RecordKind) (a b c d : Byte) : (s.emit k a b c d).agenda = s.agenda := rfl
@[simp] theorem State.emit_xport (s : State) (k : RecordKind) (a b c d : Byte) : (s.emit k a b c d).xport = s.xport := rfl
@[simp] theorem State.emit_drawn (s : State) (k : RecordKind) (a b c d : Byte) : (s.emit k a b c d).drawn = s.drawn := rfl

/-! ## handle -/

@[simp] theorem State.handle_fin (s : State) (m : Byte) : (s.handle m).fin = s.fin := rfl
@[simp] theorem State.handle_fout (s : State) (m : Byte) : (s.handle m).fout = s.fout := rfl
@[simp] theorem State.handle_img (s : State) (m : Byte) : (s.handle m).img = s.img := rfl
@[simp] theorem State.handle_elen (s : State) (m : Byte) : (s.handle m).elen = s.elen := rfl
@[simp] theorem State.handle_result (s : State) (m : Byte) : (s.handle m).result = s.result := rfl
@[simp] theorem State.handle_opreq (s : State) (m : Byte) : (s.handle m).opreq = s.opreq := rfl
@[simp] theorem State.handle_dstate (s : State) (m : Byte) : (s.handle m).dstate = s.dstate := rfl
@[simp] theorem State.handle_flags (s : State) (m : Byte) : (s.handle m).flags = s.flags := rfl
@[simp] theorem State.handle_hmask (s : State) (m : Byte) : (s.handle m).hmask = s.hmask ||| m := rfl
@[simp] theorem State.handle_rxretry0 (s : State) (m : Byte) : (s.handle m).rxretry0 = s.rxretry0 := rfl
@[simp] theorem State.handle_rxretry1 (s : State) (m : Byte) : (s.handle m).rxretry1 = s.rxretry1 := rfl
@[simp] theorem State.handle_esnap (s : State) (m : Byte) : (s.handle m).esnap = s.esnap := rfl
@[simp] theorem State.handle_eclass (s : State) (m : Byte) : (s.handle m).eclass = s.eclass := rfl
@[simp] theorem State.handle_recpend (s : State) (m : Byte) : (s.handle m).recpend = s.recpend := rfl
@[simp] theorem State.handle_recfails (s : State) (m : Byte) : (s.handle m).recfails = s.recfails := rfl
@[simp] theorem State.handle_recnext (s : State) (m : Byte) : (s.handle m).recnext = s.recnext := rfl
@[simp] theorem State.handle_evq (s : State) (m : Byte) : (s.handle m).evq = s.evq := rfl
@[simp] theorem State.handle_rxq (s : State) (m : Byte) : (s.handle m).rxq = s.rxq := rfl
@[simp] theorem State.handle_evlog (s : State) (m : Byte) : (s.handle m).evlog = s.evlog := rfl
@[simp] theorem State.handle_lock (s : State) (m : Byte) : (s.handle m).lock = s.lock := rfl
@[simp] theorem State.handle_now (s : State) (m : Byte) : (s.handle m).now = s.now := rfl
@[simp] theorem State.handle_idleSince (s : State) (m : Byte) : (s.handle m).idleSince = s.idleSince := rfl
@[simp] theorem State.handle_dimg (s : State) (m : Byte) : (s.handle m).dimg = s.dimg := rfl
@[simp] theorem State.handle_dfout (s : State) (m : Byte) : (s.handle m).dfout = s.dfout := rfl
@[simp] theorem State.handle_errok (s : State) (m : Byte) : (s.handle m).errok = s.errok := rfl
@[simp] theorem State.handle_pkind (s : State) (m : Byte) : (s.handle m).pkind = s.pkind := rfl
@[simp] theorem State.handle_port (s : State) (m : Byte) : (s.handle m).port = s.port := rfl
@[simp] theorem State.handle_client (s : State) (m : Byte) : (s.handle m).client = s.client := rfl
@[simp] theorem State.handle_held (s : State) (m : Byte) : (s.handle m).held = s.held := rfl
@[simp] theorem State.handle_halves (s : State) (m : Byte) : (s.handle m).halves = s.halves := rfl
@[simp] theorem State.handle_dprog (s : State) (m : Byte) : (s.handle m).dprog = s.dprog := rfl
@[simp] theorem State.handle_chip (s : State) (m : Byte) : (s.handle m).chip = s.chip := rfl
@[simp] theorem State.handle_epoch (s : State) (m : Byte) : (s.handle m).epoch = s.epoch := rfl
@[simp] theorem State.handle_edges (s : State) (m : Byte) : (s.handle m).edges = s.edges := rfl
@[simp] theorem State.handle_bus (s : State) (m : Byte) : (s.handle m).bus = s.bus := rfl
@[simp] theorem State.handle_par (s : State) (m : Byte) : (s.handle m).par = s.par := rfl
@[simp] theorem State.handle_agenda (s : State) (m : Byte) : (s.handle m).agenda = s.agenda := rfl
@[simp] theorem State.handle_xport (s : State) (m : Byte) : (s.handle m).xport = s.xport := rfl
@[simp] theorem State.handle_drawn (s : State) (m : Byte) : (s.handle m).drawn = s.drawn := rfl

/-! ## raise -/

@[simp] theorem State.raise_fin (s : State) (r : OpResult) : (s.raise r).fin = s.fin := rfl
@[simp] theorem State.raise_fout (s : State) (r : OpResult) : (s.raise r).fout = s.fout := rfl
@[simp] theorem State.raise_img (s : State) (r : OpResult) : (s.raise r).img = s.img := rfl
@[simp] theorem State.raise_elen (s : State) (r : OpResult) : (s.raise r).elen = s.elen := rfl
@[simp] theorem State.raise_result (s : State) (r : OpResult) : (s.raise r).result = r.byte := rfl
@[simp] theorem State.raise_opreq (s : State) (r : OpResult) : (s.raise r).opreq = s.opreq := rfl
@[simp] theorem State.raise_dstate (s : State) (r : OpResult) : (s.raise r).dstate = s.dstate := rfl
@[simp] theorem State.raise_flags (s : State) (r : OpResult) : (s.raise r).flags = s.flags := rfl
@[simp] theorem State.raise_hmask (s : State) (r : OpResult) : (s.raise r).hmask = s.hmask := rfl
@[simp] theorem State.raise_rxretry0 (s : State) (r : OpResult) : (s.raise r).rxretry0 = s.rxretry0 := rfl
@[simp] theorem State.raise_rxretry1 (s : State) (r : OpResult) : (s.raise r).rxretry1 = s.rxretry1 := rfl
@[simp] theorem State.raise_esnap (s : State) (r : OpResult) : (s.raise r).esnap = s.esnap := rfl
@[simp] theorem State.raise_eclass (s : State) (r : OpResult) : (s.raise r).eclass = s.eclass := rfl
@[simp] theorem State.raise_recpend (s : State) (r : OpResult) : (s.raise r).recpend = s.recpend := rfl
@[simp] theorem State.raise_recfails (s : State) (r : OpResult) : (s.raise r).recfails = s.recfails := rfl
@[simp] theorem State.raise_recnext (s : State) (r : OpResult) : (s.raise r).recnext = s.recnext := rfl
@[simp] theorem State.raise_evq (s : State) (r : OpResult) : (s.raise r).evq = s.evq := rfl
@[simp] theorem State.raise_rxq (s : State) (r : OpResult) : (s.raise r).rxq = s.rxq := rfl
@[simp] theorem State.raise_evlog (s : State) (r : OpResult) : (s.raise r).evlog = s.evlog := rfl
@[simp] theorem State.raise_lock (s : State) (r : OpResult) : (s.raise r).lock = .free := rfl
@[simp] theorem State.raise_now (s : State) (r : OpResult) : (s.raise r).now = s.now := rfl
@[simp] theorem State.raise_idleSince (s : State) (r : OpResult) : (s.raise r).idleSince = s.idleSince := rfl
@[simp] theorem State.raise_dimg (s : State) (r : OpResult) : (s.raise r).dimg = s.dimg := rfl
@[simp] theorem State.raise_dfout (s : State) (r : OpResult) : (s.raise r).dfout = s.dfout := rfl
@[simp] theorem State.raise_errok (s : State) (r : OpResult) : (s.raise r).errok = s.errok := rfl
@[simp] theorem State.raise_pkind (s : State) (r : OpResult) : (s.raise r).pkind = s.pkind := rfl
@[simp] theorem State.raise_port (s : State) (r : OpResult) : (s.raise r).port = none := rfl
@[simp] theorem State.raise_client (s : State) (r : OpResult) : (s.raise r).client = s.client := rfl
@[simp] theorem State.raise_held (s : State) (r : OpResult) : (s.raise r).held = s.held := rfl
@[simp] theorem State.raise_halves (s : State) (r : OpResult) : (s.raise r).halves = s.halves := rfl
@[simp] theorem State.raise_dprog (s : State) (r : OpResult) : (s.raise r).dprog = s.dprog := rfl
@[simp] theorem State.raise_chip (s : State) (r : OpResult) : (s.raise r).chip = s.chip := rfl
@[simp] theorem State.raise_epoch (s : State) (r : OpResult) : (s.raise r).epoch = s.epoch := rfl
@[simp] theorem State.raise_edges (s : State) (r : OpResult) : (s.raise r).edges = s.edges := rfl
@[simp] theorem State.raise_bus (s : State) (r : OpResult) : (s.raise r).bus = s.bus := rfl
@[simp] theorem State.raise_par (s : State) (r : OpResult) : (s.raise r).par = s.par := rfl
@[simp] theorem State.raise_agenda (s : State) (r : OpResult) : (s.raise r).agenda = s.agenda := rfl
@[simp] theorem State.raise_xport (s : State) (r : OpResult) : (s.raise r).xport = s.xport := rfl
@[simp] theorem State.raise_drawn (s : State) (r : OpResult) : (s.raise r).drawn = s.drawn := rfl

/-! ## setImage -/

@[simp] theorem State.setImage_fin (s : State) (who : Issuer) (i : Image) : (s.setImage who i).fin = s.fin := by cases who <;> rfl
@[simp] theorem State.setImage_fout (s : State) (who : Issuer) (i : Image) : (s.setImage who i).fout = s.fout := by cases who <;> rfl
@[simp] theorem State.setImage_elen (s : State) (who : Issuer) (i : Image) : (s.setImage who i).elen = s.elen := by cases who <;> rfl
@[simp] theorem State.setImage_result (s : State) (who : Issuer) (i : Image) : (s.setImage who i).result = s.result := by cases who <;> rfl
@[simp] theorem State.setImage_opreq (s : State) (who : Issuer) (i : Image) : (s.setImage who i).opreq = s.opreq := by cases who <;> rfl
@[simp] theorem State.setImage_dstate (s : State) (who : Issuer) (i : Image) : (s.setImage who i).dstate = s.dstate := by cases who <;> rfl
@[simp] theorem State.setImage_flags (s : State) (who : Issuer) (i : Image) : (s.setImage who i).flags = s.flags := by cases who <;> rfl
@[simp] theorem State.setImage_hmask (s : State) (who : Issuer) (i : Image) : (s.setImage who i).hmask = s.hmask := by cases who <;> rfl
@[simp] theorem State.setImage_rxretry0 (s : State) (who : Issuer) (i : Image) : (s.setImage who i).rxretry0 = s.rxretry0 := by cases who <;> rfl
@[simp] theorem State.setImage_rxretry1 (s : State) (who : Issuer) (i : Image) : (s.setImage who i).rxretry1 = s.rxretry1 := by cases who <;> rfl
@[simp] theorem State.setImage_esnap (s : State) (who : Issuer) (i : Image) : (s.setImage who i).esnap = s.esnap := by cases who <;> rfl
@[simp] theorem State.setImage_eclass (s : State) (who : Issuer) (i : Image) : (s.setImage who i).eclass = s.eclass := by cases who <;> rfl
@[simp] theorem State.setImage_recpend (s : State) (who : Issuer) (i : Image) : (s.setImage who i).recpend = s.recpend := by cases who <;> rfl
@[simp] theorem State.setImage_recfails (s : State) (who : Issuer) (i : Image) : (s.setImage who i).recfails = s.recfails := by cases who <;> rfl
@[simp] theorem State.setImage_recnext (s : State) (who : Issuer) (i : Image) : (s.setImage who i).recnext = s.recnext := by cases who <;> rfl
@[simp] theorem State.setImage_evq (s : State) (who : Issuer) (i : Image) : (s.setImage who i).evq = s.evq := by cases who <;> rfl
@[simp] theorem State.setImage_rxq (s : State) (who : Issuer) (i : Image) : (s.setImage who i).rxq = s.rxq := by cases who <;> rfl
@[simp] theorem State.setImage_evlog (s : State) (who : Issuer) (i : Image) : (s.setImage who i).evlog = s.evlog := by cases who <;> rfl
@[simp] theorem State.setImage_lock (s : State) (who : Issuer) (i : Image) : (s.setImage who i).lock = s.lock := by cases who <;> rfl
@[simp] theorem State.setImage_now (s : State) (who : Issuer) (i : Image) : (s.setImage who i).now = s.now := by cases who <;> rfl
@[simp] theorem State.setImage_idleSince (s : State) (who : Issuer) (i : Image) : (s.setImage who i).idleSince = s.idleSince := by cases who <;> rfl
@[simp] theorem State.setImage_dfout (s : State) (who : Issuer) (i : Image) : (s.setImage who i).dfout = s.dfout := by cases who <;> rfl
@[simp] theorem State.setImage_errok (s : State) (who : Issuer) (i : Image) : (s.setImage who i).errok = s.errok := by cases who <;> rfl
@[simp] theorem State.setImage_pkind (s : State) (who : Issuer) (i : Image) : (s.setImage who i).pkind = s.pkind := by cases who <;> rfl
@[simp] theorem State.setImage_port (s : State) (who : Issuer) (i : Image) : (s.setImage who i).port = s.port := by cases who <;> rfl
@[simp] theorem State.setImage_client (s : State) (who : Issuer) (i : Image) : (s.setImage who i).client = s.client := by cases who <;> rfl
@[simp] theorem State.setImage_held (s : State) (who : Issuer) (i : Image) : (s.setImage who i).held = s.held := by cases who <;> rfl
@[simp] theorem State.setImage_halves (s : State) (who : Issuer) (i : Image) : (s.setImage who i).halves = s.halves := by cases who <;> rfl
@[simp] theorem State.setImage_dprog (s : State) (who : Issuer) (i : Image) : (s.setImage who i).dprog = s.dprog := by cases who <;> rfl
@[simp] theorem State.setImage_chip (s : State) (who : Issuer) (i : Image) : (s.setImage who i).chip = s.chip := by cases who <;> rfl
@[simp] theorem State.setImage_epoch (s : State) (who : Issuer) (i : Image) : (s.setImage who i).epoch = s.epoch := by cases who <;> rfl
@[simp] theorem State.setImage_edges (s : State) (who : Issuer) (i : Image) : (s.setImage who i).edges = s.edges := by cases who <;> rfl
@[simp] theorem State.setImage_bus (s : State) (who : Issuer) (i : Image) : (s.setImage who i).bus = s.bus := by cases who <;> rfl
@[simp] theorem State.setImage_par (s : State) (who : Issuer) (i : Image) : (s.setImage who i).par = s.par := by cases who <;> rfl
@[simp] theorem State.setImage_agenda (s : State) (who : Issuer) (i : Image) : (s.setImage who i).agenda = s.agenda := by cases who <;> rfl
@[simp] theorem State.setImage_xport (s : State) (who : Issuer) (i : Image) : (s.setImage who i).xport = s.xport := by cases who <;> rfl
@[simp] theorem State.setImage_drawn (s : State) (who : Issuer) (i : Image) : (s.setImage who i).drawn = s.drawn := by cases who <;> rfl

/-! ## setFrame -/

@[simp] theorem State.setFrame_fin (s : State) (who : Issuer) (f : Frame) : (s.setFrame who f).fin = s.fin := by cases who <;> rfl
@[simp] theorem State.setFrame_img (s : State) (who : Issuer) (f : Frame) : (s.setFrame who f).img = s.img := by cases who <;> rfl
@[simp] theorem State.setFrame_elen (s : State) (who : Issuer) (f : Frame) : (s.setFrame who f).elen = s.elen := by cases who <;> rfl
@[simp] theorem State.setFrame_result (s : State) (who : Issuer) (f : Frame) : (s.setFrame who f).result = s.result := by cases who <;> rfl
@[simp] theorem State.setFrame_opreq (s : State) (who : Issuer) (f : Frame) : (s.setFrame who f).opreq = s.opreq := by cases who <;> rfl
@[simp] theorem State.setFrame_dstate (s : State) (who : Issuer) (f : Frame) : (s.setFrame who f).dstate = s.dstate := by cases who <;> rfl
@[simp] theorem State.setFrame_flags (s : State) (who : Issuer) (f : Frame) : (s.setFrame who f).flags = s.flags := by cases who <;> rfl
@[simp] theorem State.setFrame_hmask (s : State) (who : Issuer) (f : Frame) : (s.setFrame who f).hmask = s.hmask := by cases who <;> rfl
@[simp] theorem State.setFrame_rxretry0 (s : State) (who : Issuer) (f : Frame) : (s.setFrame who f).rxretry0 = s.rxretry0 := by cases who <;> rfl
@[simp] theorem State.setFrame_rxretry1 (s : State) (who : Issuer) (f : Frame) : (s.setFrame who f).rxretry1 = s.rxretry1 := by cases who <;> rfl
@[simp] theorem State.setFrame_esnap (s : State) (who : Issuer) (f : Frame) : (s.setFrame who f).esnap = s.esnap := by cases who <;> rfl
@[simp] theorem State.setFrame_eclass (s : State) (who : Issuer) (f : Frame) : (s.setFrame who f).eclass = s.eclass := by cases who <;> rfl
@[simp] theorem State.setFrame_recpend (s : State) (who : Issuer) (f : Frame) : (s.setFrame who f).recpend = s.recpend := by cases who <;> rfl
@[simp] theorem State.setFrame_recfails (s : State) (who : Issuer) (f : Frame) : (s.setFrame who f).recfails = s.recfails := by cases who <;> rfl
@[simp] theorem State.setFrame_recnext (s : State) (who : Issuer) (f : Frame) : (s.setFrame who f).recnext = s.recnext := by cases who <;> rfl
@[simp] theorem State.setFrame_evq (s : State) (who : Issuer) (f : Frame) : (s.setFrame who f).evq = s.evq := by cases who <;> rfl
@[simp] theorem State.setFrame_rxq (s : State) (who : Issuer) (f : Frame) : (s.setFrame who f).rxq = s.rxq := by cases who <;> rfl
@[simp] theorem State.setFrame_evlog (s : State) (who : Issuer) (f : Frame) : (s.setFrame who f).evlog = s.evlog := by cases who <;> rfl
@[simp] theorem State.setFrame_lock (s : State) (who : Issuer) (f : Frame) : (s.setFrame who f).lock = s.lock := by cases who <;> rfl
@[simp] theorem State.setFrame_now (s : State) (who : Issuer) (f : Frame) : (s.setFrame who f).now = s.now := by cases who <;> rfl
@[simp] theorem State.setFrame_idleSince (s : State) (who : Issuer) (f : Frame) : (s.setFrame who f).idleSince = s.idleSince := by cases who <;> rfl
@[simp] theorem State.setFrame_dimg (s : State) (who : Issuer) (f : Frame) : (s.setFrame who f).dimg = s.dimg := by cases who <;> rfl
@[simp] theorem State.setFrame_errok (s : State) (who : Issuer) (f : Frame) : (s.setFrame who f).errok = s.errok := by cases who <;> rfl
@[simp] theorem State.setFrame_pkind (s : State) (who : Issuer) (f : Frame) : (s.setFrame who f).pkind = s.pkind := by cases who <;> rfl
@[simp] theorem State.setFrame_port (s : State) (who : Issuer) (f : Frame) : (s.setFrame who f).port = s.port := by cases who <;> rfl
@[simp] theorem State.setFrame_client (s : State) (who : Issuer) (f : Frame) : (s.setFrame who f).client = s.client := by cases who <;> rfl
@[simp] theorem State.setFrame_held (s : State) (who : Issuer) (f : Frame) : (s.setFrame who f).held = s.held := by cases who <;> rfl
@[simp] theorem State.setFrame_halves (s : State) (who : Issuer) (f : Frame) : (s.setFrame who f).halves = s.halves := by cases who <;> rfl
@[simp] theorem State.setFrame_dprog (s : State) (who : Issuer) (f : Frame) : (s.setFrame who f).dprog = s.dprog := by cases who <;> rfl
@[simp] theorem State.setFrame_chip (s : State) (who : Issuer) (f : Frame) : (s.setFrame who f).chip = s.chip := by cases who <;> rfl
@[simp] theorem State.setFrame_epoch (s : State) (who : Issuer) (f : Frame) : (s.setFrame who f).epoch = s.epoch := by cases who <;> rfl
@[simp] theorem State.setFrame_edges (s : State) (who : Issuer) (f : Frame) : (s.setFrame who f).edges = s.edges := by cases who <;> rfl
@[simp] theorem State.setFrame_bus (s : State) (who : Issuer) (f : Frame) : (s.setFrame who f).bus = s.bus := by cases who <;> rfl
@[simp] theorem State.setFrame_par (s : State) (who : Issuer) (f : Frame) : (s.setFrame who f).par = s.par := by cases who <;> rfl
@[simp] theorem State.setFrame_agenda (s : State) (who : Issuer) (f : Frame) : (s.setFrame who f).agenda = s.agenda := by cases who <;> rfl
@[simp] theorem State.setFrame_xport (s : State) (who : Issuer) (f : Frame) : (s.setFrame who f).xport = s.xport := by cases who <;> rfl
@[simp] theorem State.setFrame_drawn (s : State) (who : Issuer) (f : Frame) : (s.setFrame who f).drawn = s.drawn := by cases who <;> rfl

/-! ## storeImage -/

@[simp] theorem State.storeImage_fin (s : State) (who : Issuer) (j : Fin 14) (v : Byte) : (s.storeImage who j v).fin = s.fin := by cases who <;> rfl
@[simp] theorem State.storeImage_fout (s : State) (who : Issuer) (j : Fin 14) (v : Byte) : (s.storeImage who j v).fout = s.fout := by cases who <;> rfl
@[simp] theorem State.storeImage_elen (s : State) (who : Issuer) (j : Fin 14) (v : Byte) : (s.storeImage who j v).elen = s.elen := by cases who <;> rfl
@[simp] theorem State.storeImage_result (s : State) (who : Issuer) (j : Fin 14) (v : Byte) : (s.storeImage who j v).result = s.result := by cases who <;> rfl
@[simp] theorem State.storeImage_opreq (s : State) (who : Issuer) (j : Fin 14) (v : Byte) : (s.storeImage who j v).opreq = s.opreq := by cases who <;> rfl
@[simp] theorem State.storeImage_dstate (s : State) (who : Issuer) (j : Fin 14) (v : Byte) : (s.storeImage who j v).dstate = s.dstate := by cases who <;> rfl
@[simp] theorem State.storeImage_flags (s : State) (who : Issuer) (j : Fin 14) (v : Byte) : (s.storeImage who j v).flags = s.flags := by cases who <;> rfl
@[simp] theorem State.storeImage_hmask (s : State) (who : Issuer) (j : Fin 14) (v : Byte) : (s.storeImage who j v).hmask = s.hmask := by cases who <;> rfl
@[simp] theorem State.storeImage_rxretry0 (s : State) (who : Issuer) (j : Fin 14) (v : Byte) : (s.storeImage who j v).rxretry0 = s.rxretry0 := by cases who <;> rfl
@[simp] theorem State.storeImage_rxretry1 (s : State) (who : Issuer) (j : Fin 14) (v : Byte) : (s.storeImage who j v).rxretry1 = s.rxretry1 := by cases who <;> rfl
@[simp] theorem State.storeImage_esnap (s : State) (who : Issuer) (j : Fin 14) (v : Byte) : (s.storeImage who j v).esnap = s.esnap := by cases who <;> rfl
@[simp] theorem State.storeImage_eclass (s : State) (who : Issuer) (j : Fin 14) (v : Byte) : (s.storeImage who j v).eclass = s.eclass := by cases who <;> rfl
@[simp] theorem State.storeImage_recpend (s : State) (who : Issuer) (j : Fin 14) (v : Byte) : (s.storeImage who j v).recpend = s.recpend := by cases who <;> rfl
@[simp] theorem State.storeImage_recfails (s : State) (who : Issuer) (j : Fin 14) (v : Byte) : (s.storeImage who j v).recfails = s.recfails := by cases who <;> rfl
@[simp] theorem State.storeImage_recnext (s : State) (who : Issuer) (j : Fin 14) (v : Byte) : (s.storeImage who j v).recnext = s.recnext := by cases who <;> rfl
@[simp] theorem State.storeImage_evq (s : State) (who : Issuer) (j : Fin 14) (v : Byte) : (s.storeImage who j v).evq = s.evq := by cases who <;> rfl
@[simp] theorem State.storeImage_rxq (s : State) (who : Issuer) (j : Fin 14) (v : Byte) : (s.storeImage who j v).rxq = s.rxq := by cases who <;> rfl
@[simp] theorem State.storeImage_evlog (s : State) (who : Issuer) (j : Fin 14) (v : Byte) : (s.storeImage who j v).evlog = s.evlog := by cases who <;> rfl
@[simp] theorem State.storeImage_lock (s : State) (who : Issuer) (j : Fin 14) (v : Byte) : (s.storeImage who j v).lock = s.lock := by cases who <;> rfl
@[simp] theorem State.storeImage_now (s : State) (who : Issuer) (j : Fin 14) (v : Byte) : (s.storeImage who j v).now = s.now := by cases who <;> rfl
@[simp] theorem State.storeImage_idleSince (s : State) (who : Issuer) (j : Fin 14) (v : Byte) : (s.storeImage who j v).idleSince = s.idleSince := by cases who <;> rfl
@[simp] theorem State.storeImage_dfout (s : State) (who : Issuer) (j : Fin 14) (v : Byte) : (s.storeImage who j v).dfout = s.dfout := by cases who <;> rfl
@[simp] theorem State.storeImage_errok (s : State) (who : Issuer) (j : Fin 14) (v : Byte) : (s.storeImage who j v).errok = s.errok := by cases who <;> rfl
@[simp] theorem State.storeImage_pkind (s : State) (who : Issuer) (j : Fin 14) (v : Byte) : (s.storeImage who j v).pkind = s.pkind := by cases who <;> rfl
@[simp] theorem State.storeImage_port (s : State) (who : Issuer) (j : Fin 14) (v : Byte) : (s.storeImage who j v).port = s.port := by cases who <;> rfl
@[simp] theorem State.storeImage_client (s : State) (who : Issuer) (j : Fin 14) (v : Byte) : (s.storeImage who j v).client = s.client := by cases who <;> rfl
@[simp] theorem State.storeImage_held (s : State) (who : Issuer) (j : Fin 14) (v : Byte) : (s.storeImage who j v).held = s.held := by cases who <;> rfl
@[simp] theorem State.storeImage_halves (s : State) (who : Issuer) (j : Fin 14) (v : Byte) : (s.storeImage who j v).halves = s.halves := by cases who <;> rfl
@[simp] theorem State.storeImage_dprog (s : State) (who : Issuer) (j : Fin 14) (v : Byte) : (s.storeImage who j v).dprog = s.dprog := by cases who <;> rfl
@[simp] theorem State.storeImage_chip (s : State) (who : Issuer) (j : Fin 14) (v : Byte) : (s.storeImage who j v).chip = s.chip := by cases who <;> rfl
@[simp] theorem State.storeImage_epoch (s : State) (who : Issuer) (j : Fin 14) (v : Byte) : (s.storeImage who j v).epoch = s.epoch := by cases who <;> rfl
@[simp] theorem State.storeImage_edges (s : State) (who : Issuer) (j : Fin 14) (v : Byte) : (s.storeImage who j v).edges = s.edges := by cases who <;> rfl
@[simp] theorem State.storeImage_bus (s : State) (who : Issuer) (j : Fin 14) (v : Byte) : (s.storeImage who j v).bus = s.bus := by cases who <;> rfl
@[simp] theorem State.storeImage_par (s : State) (who : Issuer) (j : Fin 14) (v : Byte) : (s.storeImage who j v).par = s.par := by cases who <;> rfl
@[simp] theorem State.storeImage_agenda (s : State) (who : Issuer) (j : Fin 14) (v : Byte) : (s.storeImage who j v).agenda = s.agenda := by cases who <;> rfl
@[simp] theorem State.storeImage_xport (s : State) (who : Issuer) (j : Fin 14) (v : Byte) : (s.storeImage who j v).xport = s.xport := by cases who <;> rfl
@[simp] theorem State.storeImage_drawn (s : State) (who : Issuer) (j : Fin 14) (v : Byte) : (s.storeImage who j v).drawn = s.drawn := by cases who <;> rfl

/-! ## setRxretry -/

@[simp] theorem State.setRxretry_fin (s : State) (b : Buf) (n : Nat) : (s.setRxretry b n).fin = s.fin := by cases b <;> rfl
@[simp] theorem State.setRxretry_fout (s : State) (b : Buf) (n : Nat) : (s.setRxretry b n).fout = s.fout := by cases b <;> rfl
@[simp] theorem State.setRxretry_img (s : State) (b : Buf) (n : Nat) : (s.setRxretry b n).img = s.img := by cases b <;> rfl
@[simp] theorem State.setRxretry_elen (s : State) (b : Buf) (n : Nat) : (s.setRxretry b n).elen = s.elen := by cases b <;> rfl
@[simp] theorem State.setRxretry_result (s : State) (b : Buf) (n : Nat) : (s.setRxretry b n).result = s.result := by cases b <;> rfl
@[simp] theorem State.setRxretry_opreq (s : State) (b : Buf) (n : Nat) : (s.setRxretry b n).opreq = s.opreq := by cases b <;> rfl
@[simp] theorem State.setRxretry_dstate (s : State) (b : Buf) (n : Nat) : (s.setRxretry b n).dstate = s.dstate := by cases b <;> rfl
@[simp] theorem State.setRxretry_flags (s : State) (b : Buf) (n : Nat) : (s.setRxretry b n).flags = s.flags := by cases b <;> rfl
@[simp] theorem State.setRxretry_hmask (s : State) (b : Buf) (n : Nat) : (s.setRxretry b n).hmask = s.hmask := by cases b <;> rfl
@[simp] theorem State.setRxretry_esnap (s : State) (b : Buf) (n : Nat) : (s.setRxretry b n).esnap = s.esnap := by cases b <;> rfl
@[simp] theorem State.setRxretry_eclass (s : State) (b : Buf) (n : Nat) : (s.setRxretry b n).eclass = s.eclass := by cases b <;> rfl
@[simp] theorem State.setRxretry_recpend (s : State) (b : Buf) (n : Nat) : (s.setRxretry b n).recpend = s.recpend := by cases b <;> rfl
@[simp] theorem State.setRxretry_recfails (s : State) (b : Buf) (n : Nat) : (s.setRxretry b n).recfails = s.recfails := by cases b <;> rfl
@[simp] theorem State.setRxretry_recnext (s : State) (b : Buf) (n : Nat) : (s.setRxretry b n).recnext = s.recnext := by cases b <;> rfl
@[simp] theorem State.setRxretry_evq (s : State) (b : Buf) (n : Nat) : (s.setRxretry b n).evq = s.evq := by cases b <;> rfl
@[simp] theorem State.setRxretry_rxq (s : State) (b : Buf) (n : Nat) : (s.setRxretry b n).rxq = s.rxq := by cases b <;> rfl
@[simp] theorem State.setRxretry_evlog (s : State) (b : Buf) (n : Nat) : (s.setRxretry b n).evlog = s.evlog := by cases b <;> rfl
@[simp] theorem State.setRxretry_lock (s : State) (b : Buf) (n : Nat) : (s.setRxretry b n).lock = s.lock := by cases b <;> rfl
@[simp] theorem State.setRxretry_now (s : State) (b : Buf) (n : Nat) : (s.setRxretry b n).now = s.now := by cases b <;> rfl
@[simp] theorem State.setRxretry_idleSince (s : State) (b : Buf) (n : Nat) : (s.setRxretry b n).idleSince = s.idleSince := by cases b <;> rfl
@[simp] theorem State.setRxretry_dimg (s : State) (b : Buf) (n : Nat) : (s.setRxretry b n).dimg = s.dimg := by cases b <;> rfl
@[simp] theorem State.setRxretry_dfout (s : State) (b : Buf) (n : Nat) : (s.setRxretry b n).dfout = s.dfout := by cases b <;> rfl
@[simp] theorem State.setRxretry_errok (s : State) (b : Buf) (n : Nat) : (s.setRxretry b n).errok = s.errok := by cases b <;> rfl
@[simp] theorem State.setRxretry_pkind (s : State) (b : Buf) (n : Nat) : (s.setRxretry b n).pkind = s.pkind := by cases b <;> rfl
@[simp] theorem State.setRxretry_port (s : State) (b : Buf) (n : Nat) : (s.setRxretry b n).port = s.port := by cases b <;> rfl
@[simp] theorem State.setRxretry_client (s : State) (b : Buf) (n : Nat) : (s.setRxretry b n).client = s.client := by cases b <;> rfl
@[simp] theorem State.setRxretry_held (s : State) (b : Buf) (n : Nat) : (s.setRxretry b n).held = s.held := by cases b <;> rfl
@[simp] theorem State.setRxretry_halves (s : State) (b : Buf) (n : Nat) : (s.setRxretry b n).halves = s.halves := by cases b <;> rfl
@[simp] theorem State.setRxretry_dprog (s : State) (b : Buf) (n : Nat) : (s.setRxretry b n).dprog = s.dprog := by cases b <;> rfl
@[simp] theorem State.setRxretry_chip (s : State) (b : Buf) (n : Nat) : (s.setRxretry b n).chip = s.chip := by cases b <;> rfl
@[simp] theorem State.setRxretry_epoch (s : State) (b : Buf) (n : Nat) : (s.setRxretry b n).epoch = s.epoch := by cases b <;> rfl
@[simp] theorem State.setRxretry_edges (s : State) (b : Buf) (n : Nat) : (s.setRxretry b n).edges = s.edges := by cases b <;> rfl
@[simp] theorem State.setRxretry_bus (s : State) (b : Buf) (n : Nat) : (s.setRxretry b n).bus = s.bus := by cases b <;> rfl
@[simp] theorem State.setRxretry_par (s : State) (b : Buf) (n : Nat) : (s.setRxretry b n).par = s.par := by cases b <;> rfl
@[simp] theorem State.setRxretry_agenda (s : State) (b : Buf) (n : Nat) : (s.setRxretry b n).agenda = s.agenda := by cases b <;> rfl
@[simp] theorem State.setRxretry_xport (s : State) (b : Buf) (n : Nat) : (s.setRxretry b n).xport = s.xport := by cases b <;> rfl
@[simp] theorem State.setRxretry_drawn (s : State) (b : Buf) (n : Nat) : (s.setRxretry b n).drawn = s.drawn := by cases b <;> rfl

/-! ## writeOpreq -/

@[simp] theorem writeOpreq_fin (c : Nat) (w : Byte) (s : State) : (writeOpreq c w s).fin = s.fin := rfl
@[simp] theorem writeOpreq_fout (c : Nat) (w : Byte) (s : State) : (writeOpreq c w s).fout = s.fout := rfl
@[simp] theorem writeOpreq_img (c : Nat) (w : Byte) (s : State) : (writeOpreq c w s).img = s.img := rfl
@[simp] theorem writeOpreq_elen (c : Nat) (w : Byte) (s : State) : (writeOpreq c w s).elen = s.elen := rfl
@[simp] theorem writeOpreq_result (c : Nat) (w : Byte) (s : State) : (writeOpreq c w s).result = s.result := rfl
@[simp] theorem writeOpreq_opreq (c : Nat) (w : Byte) (s : State) : (writeOpreq c w s).opreq = w := rfl
@[simp] theorem writeOpreq_dstate (c : Nat) (w : Byte) (s : State) : (writeOpreq c w s).dstate = s.dstate := rfl
@[simp] theorem writeOpreq_flags (c : Nat) (w : Byte) (s : State) : (writeOpreq c w s).flags = s.flags := rfl
@[simp] theorem writeOpreq_hmask (c : Nat) (w : Byte) (s : State) : (writeOpreq c w s).hmask = s.hmask := rfl
@[simp] theorem writeOpreq_rxretry0 (c : Nat) (w : Byte) (s : State) : (writeOpreq c w s).rxretry0 = s.rxretry0 := rfl
@[simp] theorem writeOpreq_rxretry1 (c : Nat) (w : Byte) (s : State) : (writeOpreq c w s).rxretry1 = s.rxretry1 := rfl
@[simp] theorem writeOpreq_esnap (c : Nat) (w : Byte) (s : State) : (writeOpreq c w s).esnap = s.esnap := rfl
@[simp] theorem writeOpreq_eclass (c : Nat) (w : Byte) (s : State) : (writeOpreq c w s).eclass = s.eclass := rfl
@[simp] theorem writeOpreq_recpend (c : Nat) (w : Byte) (s : State) : (writeOpreq c w s).recpend = s.recpend := rfl
@[simp] theorem writeOpreq_recfails (c : Nat) (w : Byte) (s : State) : (writeOpreq c w s).recfails = s.recfails := rfl
@[simp] theorem writeOpreq_recnext (c : Nat) (w : Byte) (s : State) : (writeOpreq c w s).recnext = s.recnext := rfl
@[simp] theorem writeOpreq_evq (c : Nat) (w : Byte) (s : State) : (writeOpreq c w s).evq = s.evq := rfl
@[simp] theorem writeOpreq_rxq (c : Nat) (w : Byte) (s : State) : (writeOpreq c w s).rxq = s.rxq := rfl
@[simp] theorem writeOpreq_evlog (c : Nat) (w : Byte) (s : State) : (writeOpreq c w s).evlog = s.evlog := rfl
@[simp] theorem writeOpreq_lock (c : Nat) (w : Byte) (s : State) : (writeOpreq c w s).lock = s.lock := rfl
@[simp] theorem writeOpreq_now (c : Nat) (w : Byte) (s : State) : (writeOpreq c w s).now = s.now := rfl
@[simp] theorem writeOpreq_idleSince (c : Nat) (w : Byte) (s : State) : (writeOpreq c w s).idleSince = s.idleSince := rfl
@[simp] theorem writeOpreq_dimg (c : Nat) (w : Byte) (s : State) : (writeOpreq c w s).dimg = s.dimg := rfl
@[simp] theorem writeOpreq_dfout (c : Nat) (w : Byte) (s : State) : (writeOpreq c w s).dfout = s.dfout := rfl
@[simp] theorem writeOpreq_errok (c : Nat) (w : Byte) (s : State) : (writeOpreq c w s).errok = s.errok := rfl
@[simp] theorem writeOpreq_pkind (c : Nat) (w : Byte) (s : State) : (writeOpreq c w s).pkind = s.pkind := rfl
@[simp] theorem writeOpreq_port (c : Nat) (w : Byte) (s : State) : (writeOpreq c w s).port = s.port := rfl
@[simp] theorem writeOpreq_client (c : Nat) (w : Byte) (s : State) : (writeOpreq c w s).client = s.client := rfl
@[simp] theorem writeOpreq_held (c : Nat) (w : Byte) (s : State) : (writeOpreq c w s).held = s.held ++ [⟨c, w⟩] := rfl
@[simp] theorem writeOpreq_halves (c : Nat) (w : Byte) (s : State) : (writeOpreq c w s).halves = s.halves := rfl
@[simp] theorem writeOpreq_dprog (c : Nat) (w : Byte) (s : State) : (writeOpreq c w s).dprog = s.dprog := rfl
@[simp] theorem writeOpreq_chip (c : Nat) (w : Byte) (s : State) : (writeOpreq c w s).chip = s.chip := rfl
@[simp] theorem writeOpreq_epoch (c : Nat) (w : Byte) (s : State) : (writeOpreq c w s).epoch = s.epoch := rfl
@[simp] theorem writeOpreq_edges (c : Nat) (w : Byte) (s : State) : (writeOpreq c w s).edges = s.edges := rfl
@[simp] theorem writeOpreq_bus (c : Nat) (w : Byte) (s : State) : (writeOpreq c w s).bus = s.bus := rfl
@[simp] theorem writeOpreq_par (c : Nat) (w : Byte) (s : State) : (writeOpreq c w s).par = s.par := rfl
@[simp] theorem writeOpreq_agenda (c : Nat) (w : Byte) (s : State) : (writeOpreq c w s).agenda = s.agenda := rfl
@[simp] theorem writeOpreq_xport (c : Nat) (w : Byte) (s : State) : (writeOpreq c w s).xport = s.xport := rfl
@[simp] theorem writeOpreq_drawn (c : Nat) (w : Byte) (s : State) : (writeOpreq c w s).drawn = s.drawn := rfl

/-! ## Copies of the client's and the dispatcher's registers -/

@[simp] theorem State.setImage_of_client (s : State) (i : Image) : s.setImage .client i = { s with img := i } := rfl
@[simp] theorem State.setImage_of_dispatcher (s : State) (i : Image) :
    s.setImage .dispatcher i = { s with dimg := i } := rfl
@[simp] theorem State.setFrame_of_client (s : State) (f : Frame) : s.setFrame .client f = { s with fout := f } := rfl
@[simp] theorem State.setFrame_of_dispatcher (s : State) (f : Frame) :
    s.setFrame .dispatcher f = { s with dfout := f } := rfl
@[simp] theorem State.image_of_client (s : State) : s.image .client = s.img := rfl
@[simp] theorem State.image_of_dispatcher (s : State) : s.image .dispatcher = s.dimg := rfl
@[simp] theorem State.image_setImage (s : State) (who : Issuer) (i : Image) : (s.setImage who i).image who = i := by
  cases who <;> rfl
@[simp] theorem State.image_storeImage (s : State) (who : Issuer) (j : Fin 14) (v : Byte) :
    (s.storeImage who j v).image who = (s.image who).setByte j v := by cases who <;> rfl

/-! ## Chip bytes do not depend on the block's registers -/

/-- A chip byte is decided by the chip registers and the epoch alone. -/
theorem State.chipByte_congr {s t : State} (hc : t.chip = s.chip) (he : t.epoch = s.epoch) (a : Nat) :
    t.chipByte a = s.chipByte a := by
  simp only [State.chipByte, hc, he]

@[simp] theorem State.chipByte_logBus (s : State) (op : BusOp) (a : Nat) :
    (s.logBus op).chipByte a = s.chipByte a := rfl
@[simp] theorem State.chipByte_emit (s : State) (k : RecordKind) (x y z u : Byte) (a : Nat) :
    (s.emit k x y z u).chipByte a = s.chipByte a := rfl
@[simp] theorem State.chipByte_storeImage (s : State) (who : Issuer) (j : Fin 14) (v : Byte) (a : Nat) :
    (s.storeImage who j v).chipByte a = s.chipByte a := by cases who <;> rfl

end Sys2Proof.Machine
end

