-- ==== Sys2Proof/Laws/Ops.lean ====
section
/-!
SUPPORT. What the shared operations over the chip registers and the transport can do, said once.
-/

namespace Sys2Proof.Machine

/-! ## Chip registers -/

theorem State.chipByte_setChip (s : State) (m : Memory) (a : Nat) :
    (s.setChip m).chipByte a = (m.read a).getD (Config.unspecReg s.epoch a) := rfl

@[simp] theorem State.chipByte_putByte_same (s : State) (a : Nat) (v : Byte) :
    (s.putByte a v).chipByte a = v := by
  simp [State.putByte, State.chipByte_setChip, Memory.read_write_same]

theorem State.chipByte_putByte_other (s : State) {a b : Nat} (h : a ≠ b) (v : Byte) :
    (s.putByte a v).chipByte b = s.chipByte b := by
  simp [State.putByte, Memory.read_write_other _ h, State.chipByte]

/-- A write transaction changes one register, as the register's write rule says. -/
theorem State.chipByte_storeReg (s : State) (a : Nat) (v : Byte) (b : Nat) :
    (s.storeReg a v).chipByte b = if b = a then written s.par.layout a (s.chipByte a) v else s.chipByte b := by
  unfold State.storeReg
  split
  · next h => subst h; simp
  · next h => exact State.chipByte_putByte_other s (Ne.symm h) _

/-- A modify changes one register, within its mask (R62). -/
theorem State.chipByte_modifyReg (s : State) (a : Nat) (m v : Byte) (b : Nat) :
    (s.modifyReg a m v).chipByte b =
      if b = a then written s.par.layout a (s.chipByte a) (modified (s.chipByte a) m v) else s.chipByte b :=
  State.chipByte_storeReg s a _ b

/-- A write of anything to a register that is not partly read-only is stored whole. -/
theorem written_plain {m : ChipLayout} {a : Nat} (h1 : a ≠ m.eflg) (h2 : a ≠ m.tec) (h3 : a ≠ m.recCounter)
    (h4 : a ≠ m.canstat) (old v : Byte) : written m a old v = v := by
  simp [written, h1, h2, h3, h4]

/-- The registers a chip reset defines are in canonical form. -/
theorem wf_resetRegisters {m : ChipLayout} (h : m.Wf) (epoch : Nat) :
    Memory.wf (Memory.writeAll [] (resetRegisters m epoch)) = true := by
  obtain ⟨-, hr, hb, -⟩ := h
  simp only [ChipLayout.registers, List.mem_cons, List.not_mem_nil, or_false, forall_eq_or_imp,
    forall_eq] at hr
  simp only [ChipLayout.buffers, List.mem_cons, List.not_mem_nil, or_false, forall_eq_or_imp, forall_eq] at hb
  refine Memory.wf_writeAll rfl ?_
  simp only [resetRegisters, List.mem_cons, List.not_mem_nil, or_false, forall_eq_or_imp, forall_eq]
  omega

/-! ## The transport -/

/-- With no draws left, the first attempt succeeds. -/
@[simp] theorem tryXfer_nil (n : Nat) : tryXfer (n + 1) [] = { ok := true, landed := true, rest := [] } := rfl

@[simp] theorem tryXfer_ok (n : Nat) (r : List XDraw) :
    tryXfer (n + 1) (.ok :: r) = { ok := true, landed := true, rest := r } := rfl

/-- A transaction whose every attempt fails, fails, and uses up its draws (R65). -/
theorem tryXfer_fails (ls : List Bool) (r : List XDraw) :
    tryXfer ls.length (ls.map XDraw.fail ++ r) = { ok := false, landed := ls.any id, rest := r } := by
  induction ls with
  | nil => rfl
  | cons l ls ih => simp [tryXfer, ih]

/-- A transaction that succeeds has landed. -/
theorem tryXfer_landed {n : Nat} {ds : List XDraw} (h : (tryXfer n ds).ok = true) :
    (tryXfer n ds).landed = true := by
  induction n generalizing ds with
  | zero => simp [tryXfer] at h
  | succ n ih =>
    match ds with
    | [] => rfl
    | .ok :: _ => rfl
    | .fail l :: r =>
      simp only [tryXfer] at h ⊢
      simp [ih h]

/-! ## Transactions -/

/-- A read leaves everything but the bus record and the draws, and a value it returns is the register's. -/
theorem State.xferRead_spec {s t : State} {n a : Nat} {r : Option Byte} (h : s.xferRead n a = (r, t)) :
    (r = none ∨ r = some (s.chipByte a)) ∧
      t = { s with bus := s.bus ++ [⟨s.lock, .read a⟩], xport := (tryXfer n s.xport).rest } := by
  simp only [State.xferRead, Prod.mk.injEq] at h
  obtain ⟨rfl, rfl⟩ := h
  refine ⟨?_, rfl⟩
  split <;> simp

theorem State.blockRead_spec {s t : State} {a : Nat} {r : Option Byte} (h : s.blockRead a = (r, t)) :
    (r = none ∨ r = some (s.chipByte a)) ∧
      t = { s with
            bus := s.bus ++ [⟨s.lock, .read a⟩]
            xport := (tryXfer s.par.xferAttempts s.xport).rest } :=
  State.xferRead_spec h

/-- With no draws left a block's read succeeds. -/
theorem State.blockRead_quiet (s : State) (a : Nat) (h : s.xport = []) :
    s.blockRead a = (some (s.chipByte a), { s with bus := s.bus ++ [⟨s.lock, .read a⟩], xport := [] }) := by
  simp [State.blockRead, State.xferRead, Params.xferAttempts, h, State.logBus]

/-- With every attempt failing a block's read returns no value. -/
theorem State.blockRead_fails (s : State) (a : Nat) {ls : List Bool} {r : List XDraw}
    (hl : ls.length = s.par.xferAttempts) (h : s.xport = ls.map XDraw.fail ++ r) :
    s.blockRead a = (none, { s with bus := s.bus ++ [⟨s.lock, .read a⟩], xport := r }) := by
  simp [State.blockRead, State.xferRead, h, ← hl, tryXfer_fails, State.logBus]

/-- What the state after a step of a modify can be: the bus record and the draws have moved, and the register
of address `a` is either as before, or has been modified (R62), or has been written with what an earlier read
gives (R63). -/
theorem State.modStep_spec {s t : State} {a : Nat} {m v : Byte} {st : ModStage}
    (h : (∃ st', s.modStep a m v st = .more st' t) ∨ ∃ ok, s.modStep a m v st = .done ok t) :
    ∃ bus xport,
      (s.par.nativeBitModify = true →
        bus = s.bus ++ [⟨s.lock, .modify a m v⟩] ∧
        (t = { s with bus := bus, xport := xport } ∨
          t = State.modifyReg { s with bus := bus, xport := xport } a m v)) ∧
      (s.par.nativeBitModify = false →
        (bus = s.bus ∨ bus = s.bus ++ [⟨s.lock, .read a⟩] ∨ ∃ w, bus = s.bus ++ [⟨s.lock, .write a w⟩]) ∧
        (t = { s with bus := bus, xport := xport } ∨
          ∃ n byte, st = .write n byte ∧
            t = State.storeReg { s with bus := bus, xport := xport } a (modified byte m v))) := by
  unfold State.modStep at h
  cases hn : s.par.nativeBitModify
  · simp only [hn, Bool.false_eq_true, if_false] at h
    match st with
    | .start 0 =>
      refine ⟨s.bus, s.xport, by simp, fun _ => ⟨.inl rfl, .inl ?_⟩⟩
      rcases h with ⟨_, h⟩ | ⟨_, h⟩
      · cases h
      · cases h; rfl
    | .start (n + 1) =>
      have key : t = (s.xferRead 1 a).2 := by
        simp only at h
        rcases hr : s.xferRead 1 a with ⟨_ | byte, u⟩ <;> simp only [hr] at h
        · split at h
          · rcases h with ⟨_, h⟩ | ⟨_, h⟩
            · cases h
            · cases h; rfl
          · rcases h with ⟨_, h⟩ | ⟨_, h⟩
            · cases h; rfl
            · cases h
        · rcases h with ⟨_, h⟩ | ⟨_, h⟩
          · cases h; rfl
          · cases h
      exact ⟨_, _, by simp, fun _ => ⟨.inr (.inl rfl), .inl key⟩⟩
    | .write n byte =>
      have key : t = (s.xferWrite 1 a (modified byte m v)).2 := by
        simp only at h
        rcases hr : s.xferWrite 1 a (modified byte m v) with ⟨_ | _, u⟩ <;> simp only [hr] at h
        · split at h
          · rcases h with ⟨_, h⟩ | ⟨_, h⟩
            · cases h
            · cases h; rfl
          · rcases h with ⟨_, h⟩ | ⟨_, h⟩
            · cases h; rfl
            · cases h
        · rcases h with ⟨_, h⟩ | ⟨_, h⟩
          · cases h
          · cases h; rfl
      refine ⟨s.bus ++ [⟨s.lock, .write a (modified byte m v)⟩], (tryXfer 1 s.xport).rest, by simp,
        fun _ => ⟨.inr (.inr ⟨_, rfl⟩), ?_⟩⟩
      simp only [State.xferWrite] at key
      split at key
      · exact .inr ⟨n, byte, rfl, key⟩
      · exact .inl key
  · simp only [hn, if_true] at h
    have key : t = (s.xferModify s.par.xferAttempts a m v).2 := by
      rcases h with ⟨_, h⟩ | ⟨_, h⟩
      · cases h
      · cases h; rfl
    refine ⟨s.bus ++ [⟨s.lock, .modify a m v⟩], (tryXfer s.par.xferAttempts s.xport).rest,
      fun _ => ⟨rfl, ?_⟩, by simp⟩
    simp only [State.xferModify] at key
    split at key
    · exact .inr key
    · exact .inl key

/-- With no draws left a native modify succeeds in one step. -/
theorem State.modStep_quiet (s : State) (a : Nat) (m v : Byte) (st : ModStage)
    (hn : s.par.nativeBitModify = true) (h : s.xport = []) :
    s.modStep a m v st =
      .done true (State.modifyReg { s with bus := s.bus ++ [⟨s.lock, .modify a m v⟩], xport := [] } a m v) := by
  simp [State.modStep, hn, State.xferModify, Params.xferAttempts, h, State.logBus]

/-- With every attempt failing a native modify fails; it has landed if an attempt's write has. -/
theorem State.modStep_fails (s : State) (a : Nat) (m v : Byte) (st : ModStage)
    (hn : s.par.nativeBitModify = true) {ls : List Bool} {r : List XDraw}
    (hl : ls.length = s.par.xferAttempts) (h : s.xport = ls.map XDraw.fail ++ r) :
    s.modStep a m v st =
      .done false
        (if ls.any id then
          State.modifyReg { s with bus := s.bus ++ [⟨s.lock, .modify a m v⟩], xport := r } a m v
        else { s with bus := s.bus ++ [⟨s.lock, .modify a m v⟩], xport := r }) := by
  simp [State.modStep, hn, State.xferModify, h, ← hl, tryXfer_fails, State.logBus]

/-- Without a native modify and with no draws left, the read half succeeds. -/
theorem State.modStep_read_quiet (s : State) (a : Nat) (m v : Byte) (n : Nat)
    (hn : s.par.nativeBitModify = false) (h : s.xport = []) :
    s.modStep a m v (.start (n + 1)) =
      .more (.write n (s.chipByte a)) { s with bus := s.bus ++ [⟨s.lock, .read a⟩], xport := [] } := by
  simp [State.modStep, hn, State.xferRead, h, State.logBus]

/-- Without a native modify and with no draws left, the write half succeeds. -/
theorem State.modStep_write_quiet (s : State) (a : Nat) (m v : Byte) (n : Nat) (byte : Byte)
    (hn : s.par.nativeBitModify = false) (h : s.xport = []) :
    s.modStep a m v (.write n byte) =
      .done true
        (State.storeReg { s with bus := s.bus ++ [⟨s.lock, .write a (modified byte m v)⟩], xport := [] } a
          (modified byte m v)) := by
  simp [State.modStep, hn, State.xferWrite, h, State.logBus]

end Sys2Proof.Machine
end

