-- ==== Sys2Proof/Laws/Frames.lean ====
section
/-!
SUPPORT. What one step of a multi-transaction operation leaves unchanged, said once for every operation.
-/

namespace Sys2Proof.Machine

/-- The state an operation's step leads to. -/
def OpOut.state : OpOut → Option State
  | .running _ t => some t
  | .done _ t => some t
  | .waiting => none

/-- What a step of an operation of `who` leaves unchanged. What it may change is the rest: the image and frame
registers of `who`, the error registers, the chip registers, the bus record and the draws. -/
structure OpFrame (who : Issuer) (s t : State) : Prop where
  fin : t.fin = s.fin
  elen : t.elen = s.elen
  result : t.result = s.result
  opreq : t.opreq = s.opreq
  dstate : t.dstate = s.dstate
  flags : t.flags = s.flags
  hmask : t.hmask = s.hmask
  rxretry0 : t.rxretry0 = s.rxretry0
  rxretry1 : t.rxretry1 = s.rxretry1
  evq : t.evq = s.evq
  rxq : t.rxq = s.rxq
  evlog : t.evlog = s.evlog
  lock : t.lock = s.lock
  now : t.now = s.now
  idleSince : t.idleSince = s.idleSince
  errok : t.errok = s.errok
  pkind : t.pkind = s.pkind
  port : t.port = s.port
  client : t.client = s.client
  held : t.held = s.held
  halves : t.halves = s.halves
  dprog : t.dprog = s.dprog
  epoch : t.epoch = s.epoch
  par : t.par = s.par
  agenda : t.agenda = s.agenda
  drawn : t.drawn = s.drawn
  other : match who with
    | .client => t.dimg = s.dimg ∧ t.dfout = s.dfout
    | .dispatcher => t.img = s.img ∧ t.fout = s.fout

theorem OpFrame.refl (who : Issuer) (s : State) : OpFrame who s s := by
  constructor <;> first | rfl | (cases who <;> exact ⟨rfl, rfl⟩)

theorem OpFrame.trans {who : Issuer} {s t u : State} (h : OpFrame who s t) (k : OpFrame who t u) :
    OpFrame who s u := by
  constructor
  case other => cases who <;> exact ⟨k.other.1.trans h.other.1, k.other.2.trans h.other.2⟩
  all_goals first
    | exact k.fin.trans h.fin | exact k.elen.trans h.elen | exact k.result.trans h.result
    | exact k.opreq.trans h.opreq | exact k.dstate.trans h.dstate | exact k.flags.trans h.flags
    | exact k.hmask.trans h.hmask | exact k.rxretry0.trans h.rxretry0 | exact k.rxretry1.trans h.rxretry1
    | exact k.evq.trans h.evq | exact k.rxq.trans h.rxq | exact k.evlog.trans h.evlog
    | exact k.lock.trans h.lock | exact k.now.trans h.now | exact k.idleSince.trans h.idleSince
    | exact k.errok.trans h.errok | exact k.pkind.trans h.pkind | exact k.port.trans h.port
    | exact k.client.trans h.client | exact k.held.trans h.held | exact k.halves.trans h.halves
    | exact k.dprog.trans h.dprog
    | exact k.epoch.trans h.epoch | exact k.par.trans h.par | exact k.agenda.trans h.agenda
    | exact k.drawn.trans h.drawn

/-- An update of the registers a step may change keeps the frame. -/
theorem OpFrame.of_update (who : Issuer) (s : State) (esnap : ESnap) (eclass : EClass) (recpend : Bool)
    (recfails : Byte) (recnext : Nat) (chip : Memory) (edges : Nat) (bus : List BusEntry)
    (xport : List XDraw) :
    OpFrame who s
      { s with
        esnap := esnap, eclass := eclass, recpend := recpend, recfails := recfails, recnext := recnext
        chip := chip, edges := edges, bus := bus, xport := xport } := by
  constructor <;> first | rfl | (cases who <;> exact ⟨rfl, rfl⟩)

theorem OpFrame.setImage (who : Issuer) (s : State) (i : Image) : OpFrame who s (s.setImage who i) := by
  cases who <;> (constructor <;> first | rfl | exact ⟨rfl, rfl⟩)

theorem OpFrame.setFrame (who : Issuer) (s : State) (f : Frame) : OpFrame who s (s.setFrame who f) := by
  cases who <;> (constructor <;> first | rfl | exact ⟨rfl, rfl⟩)

theorem OpFrame.storeImage (who : Issuer) (s : State) (j : Fin 14) (v : Byte) :
    OpFrame who s (s.storeImage who j v) := OpFrame.setImage who s _

theorem OpFrame.blockRead (who : Issuer) {s t : State} {a : Nat} {r : Option Byte}
    (h : s.blockRead a = (r, t)) : OpFrame who s t := by
  rw [(State.blockRead_spec h).2]
  exact OpFrame.of_update who s s.esnap s.eclass s.recpend s.recfails s.recnext s.chip s.edges _ _

theorem OpFrame.storeReg (who : Issuer) (s : State) (bus : List BusEntry) (x : List XDraw) (a : Nat)
    (v : Byte) : OpFrame who s (State.storeReg { s with bus := bus, xport := x } a v) :=
  OpFrame.of_update who s s.esnap s.eclass s.recpend s.recfails s.recnext _ _ bus x

theorem OpFrame.modStep (who : Issuer) {s t : State} {a : Nat} {m v : Byte} {st : ModStage}
    (h : (∃ st', s.modStep a m v st = .more st' t) ∨ ∃ ok, s.modStep a m v st = .done ok t) :
    OpFrame who s t := by
  obtain ⟨bus, x, hn, hm⟩ := State.modStep_spec h
  have base : OpFrame who s { s with bus := bus, xport := x } :=
    OpFrame.of_update who s s.esnap s.eclass s.recpend s.recfails s.recnext s.chip s.edges bus x
  cases hp : s.par.nativeBitModify
  · rcases (hm hp).2 with rfl | ⟨_, _, _, rfl⟩
    · exact base
    · exact OpFrame.storeReg who s bus x a _
  · rcases (hn hp).2 with rfl | rfl
    · exact base
    · exact OpFrame.storeReg who s bus x a _

theorem OpFrame.rxFinish {who : Issuer} {n : Fin 9} {s t : State}
    (h : (rxFinish who n s).state = some t) : OpFrame who s t := by
  cases h; exact OpFrame.setFrame who s _

theorem OpFrame.rxNext {who : Issuer} {b : Buf} {n : Fin 9} {i : Nat} {s t : State}
    (h : (rxNext who b n i s).state = some t) : OpFrame who s t := by
  unfold Machine.rxNext at h
  split at h
  · split at h
    · cases h; exact OpFrame.refl who s
    · exact OpFrame.rxFinish h
  · exact OpFrame.rxFinish h

theorem OpFrame.rxHeaderDone {who : Issuer} {b : Buf} {s t : State}
    (h : (rxHeaderDone who b s).state = some t) : OpFrame who s t := by
  unfold Machine.rxHeaderDone at h
  dsimp only at h
  split at h
  · split at h
    · cases h; exact OpFrame.refl who s
    · exact OpFrame.rxNext h
  · cases h; exact OpFrame.refl who s

theorem OpFrame.recFail {who : Issuer} {r : OpResult} {s t : State} (h : (recFail r s).state = some t) :
    OpFrame who s t := by
  cases h
  exact OpFrame.of_update who s s.esnap s.eclass s.recpend _ _ s.chip s.edges s.bus s.xport

theorem OpFrame.recPollStep {who : Issuer} {p : Nat} {s t : State}
    (h : (recPollStep p s).state = some t) : OpFrame who s t := by
  unfold Machine.recPollStep at h
  rcases hr : s.blockRead s.par.layout.canstat with ⟨_ | v, u⟩ <;> rw [hr] at h <;> dsimp only at h
  · exact (OpFrame.blockRead who hr).trans (OpFrame.recFail h)
  · split at h
    · cases h; exact OpFrame.blockRead who hr
    · split at h
      · cases h; exact OpFrame.blockRead who hr
      · exact (OpFrame.blockRead who hr).trans (OpFrame.recFail h)

theorem OpFrame.classifyOp {who : Issuer} {s t : State} (h : (classifyOp s).state = some t) : OpFrame who s t := by
  unfold Machine.classifyOp at h
  split at h
  · cases h
    generalize classifyErr s.par.layout s.esnap.eflg s.esnap.tec s.esnap.recv = k
    cases k <;> exact OpFrame.of_update who s s.esnap _ _ _ s.recnext s.chip s.edges s.bus s.xport
  · cases h; exact OpFrame.refl who s

/-- What one step of any operation leaves unchanged. -/
theorem opStep_frame {who : Issuer} {p : Prog} {s t : State} (h : (opStep who p s).state = some t) :
    OpFrame who s t := by
  cases p with
  | rxHeader b j =>
    simp only [opStep, rxHeaderStep] at h
    rcases hr : s.blockRead (headerAddr s.par.layout b j) with ⟨_ | v, u⟩ <;> rw [hr] at h <;> dsimp only at h
    · cases h; exact OpFrame.blockRead who hr
    · have hu := (OpFrame.blockRead who hr).trans (OpFrame.storeImage who u ⟨j.val + 1, by omega⟩ v)
      split at h
      · cases h; exact hu
      · exact hu.trans (OpFrame.rxHeaderDone h)
  | rxCtrl b n =>
    simp only [opStep, rxCtrlStep] at h
    rcases hr : s.blockRead (s.par.layout.rxbBase b) with ⟨_ | v, u⟩ <;> rw [hr] at h <;> dsimp only at h
    · cases h; exact OpFrame.blockRead who hr
    · exact ((OpFrame.blockRead who hr).trans (OpFrame.storeImage who u 0 v)).trans (OpFrame.rxNext h)
  | rxData b n i =>
    simp only [opStep, rxDataStep] at h
    rcases hr : s.blockRead (dataAddr s.par.layout b i) with ⟨_ | v, u⟩ <;> rw [hr] at h <;> dsimp only at h
    · cases h; exact OpFrame.blockRead who hr
    · exact ((OpFrame.blockRead who hr).trans (OpFrame.storeImage who u ⟨i.val + 6, by omega⟩ v)).trans
        (OpFrame.rxNext h)
  | snapEflg =>
    simp only [opStep, snapEflgStep] at h
    rcases hr : s.blockRead s.par.layout.eflg with ⟨_ | v, u⟩ <;> rw [hr] at h <;> cases h <;>
      exact OpFrame.blockRead who hr
  | snapTec e =>
    simp only [opStep, snapTecStep] at h
    rcases hr : s.blockRead s.par.layout.tec with ⟨_ | v, u⟩ <;> rw [hr] at h <;> cases h <;>
      exact OpFrame.blockRead who hr
  | snapRec e c =>
    simp only [opStep, snapRecStep] at h
    rcases hr : s.blockRead s.par.layout.recCounter with ⟨_ | v, u⟩ <;> rw [hr] at h <;> cases h
    · exact OpFrame.blockRead who hr
    · exact (OpFrame.blockRead who hr).trans
        (OpFrame.of_update who u _ u.eclass u.recpend u.recfails u.recnext u.chip u.edges u.bus u.xport)
  | classify => exact OpFrame.classifyOp h
  | ovrClear b m =>
    simp only [opStep, ovrClearStep] at h
    rcases hr : s.modStep s.par.layout.eflg (ovrMask s.par.layout b) 0x00 m with ⟨m', u⟩ | ⟨_ | _, u⟩ <;> rw [hr] at h <;> cases h
    · exact OpFrame.modStep who (.inl ⟨_, hr⟩)
    all_goals exact OpFrame.modStep who (.inr ⟨_, hr⟩)
  | recModify m =>
    simp only [opStep, recModifyStep] at h
    rcases hr : s.modStep s.par.layout.canctrl (reqopMask s.par.layout) (reqopField s.par.layout .normal) m with ⟨m', u⟩ | ⟨_ | _, u⟩ <;> rw [hr] at h <;> dsimp only at h
    · cases h; exact OpFrame.modStep who (.inl ⟨_, hr⟩)
    · exact (OpFrame.modStep who (.inr ⟨_, hr⟩)).trans (OpFrame.recFail h)
    · cases h; exact OpFrame.modStep who (.inr ⟨_, hr⟩)
  | recPoll p => exact OpFrame.recPollStep h
  | recWait p c =>
    simp only [opStep, recWaitStep] at h
    split at h
    · exact OpFrame.recPollStep h
    · cases h
  | recEflg p =>
    simp only [opStep, recEflgStep] at h
    rcases hr : s.blockRead s.par.layout.eflg with ⟨_ | v, u⟩ <;> rw [hr] at h <;> dsimp only at h
    · exact (OpFrame.blockRead who hr).trans (OpFrame.recFail h)
    · split at h
      · exact (OpFrame.blockRead who hr).trans (OpFrame.recFail h)
      · cases h
        exact (OpFrame.blockRead who hr).trans
          (OpFrame.of_update who u u.esnap _ _ _ u.recnext u.chip u.edges u.bus u.xport)
  | flagClear m =>
    simp only [opStep, flagClearStep] at h
    rcases hr : s.modStep s.par.layout.canintf s.hmask 0x00 m with ⟨m', u⟩ | ⟨_ | _, u⟩ <;> rw [hr] at h <;> cases h
    · exact OpFrame.modStep who (.inl ⟨_, hr⟩)
    all_goals exact OpFrame.modStep who (.inr ⟨_, hr⟩)

/-- What the beginning of an operation leaves unchanged. -/
theorem opStart_frame {who : Issuer} {op : LockOp} {s t : State} (h : (opStart op s).state = some t) :
    OpFrame who s t := by
  cases op with
  | rxread b => cases h; exact OpFrame.refl who s
  | snaperr =>
    cases h
    exact OpFrame.of_update who s _ s.eclass s.recpend s.recfails s.recnext s.chip s.edges s.bus s.xport
  | classify => exact OpFrame.classifyOp h
  | clrovr b => cases h; exact OpFrame.refl who s
  | recover =>
    simp only [opStart, recStart] at h
    split at h <;> cases h <;> exact OpFrame.refl who s

/-- What one inner step of a pass leaves unchanged. -/
theorem innerStep_frame {op : LockOp} {s t : State} (h : (innerStep op s).state = some t) :
    OpFrame .dispatcher s t := by
  unfold innerStep at h
  split at h
  · exact opStep_frame h
  · rcases ho : opStart op s with ⟨p, u⟩ | ⟨r, u⟩ | _ <;> rw [ho] at h <;> dsimp only at h
    · exact (opStart_frame (by rw [ho]; rfl)).trans (opStep_frame h)
    · exact opStart_frame (by rw [ho]; exact h)
    · cases h

/-- What a state of a pass can do after an inner step. -/
theorem innerAfter_cases {fin : OpResult → State → State} {o : OpOut} {t : State}
    (h : innerAfter fin o = some t) :
    (∃ p u, o = .running p u ∧ t = { u with dprog := some p }) ∨
      ∃ r u, o = .done r u ∧ t = fin r { u with dprog := none } := by
  rcases o with ⟨p, u⟩ | ⟨r, u⟩ | _ <;> cases h
  · exact .inl ⟨p, u, rfl, rfl⟩
  · exact .inr ⟨r, u, rfl, rfl⟩

/-- What the port can do after a step of its operation. -/
theorem portAfter_cases {o : OpOut} {t : State} (h : portAfter o = some t) :
    (∃ p u, o = .running p u ∧ t = { u with port := some (.run p) }) ∨
      ∃ r u, o = .done r u ∧ t = u.raise r := by
  rcases o with ⟨p, u⟩ | ⟨r, u⟩ | _ <;> cases h
  · exact .inl ⟨p, u, rfl, rfl⟩
  · exact .inr ⟨r, u, rfl, rfl⟩

end Sys2Proof.Machine
end

