-- ==== Sys2Proof/Laws/PerInstr.lean ====
section
/-!
SUPPORT. Statements for all instructions, one lemma per constructor. Family `TableRow`: an instruction's request
word agrees with its row of spec/opcode_table.json.
-/

namespace Sys2Proof.Laws.TableRow

/-- The mask of an instruction's row of spec/opcode_table.json. -/
def mask : Instr → Byte
  | .rxread _ => 0xEF
  | .clrovr _ => 0xEF
  | .nop => 0xFF
  | .encode => 0xFF
  | .decode => 0xFF
  | .dispatch => 0xFF
  | .dispatchTo => 0xFF
  | .snaperr => 0xFF
  | .classify => 0xFF
  | .recover => 0xFF
  | .breset => 0xFF

/-- The match value of an instruction's row of spec/opcode_table.json. -/
def value : Instr → Byte
  | .nop => 0x00
  | .encode => 0x01
  | .decode => 0x02
  | .rxread _ => 0x03
  | .dispatch => 0x04
  | .dispatchTo => 0x05
  | .snaperr => 0x06
  | .classify => 0x07
  | .clrovr _ => 0x08
  | .recover => 0x09
  | .breset => 0x0A

/-- The request word of `i` has its row's fixed bits, and a word with them that decodes, decodes to an
instruction of the same row. -/
def Statement (i : Instr) : Prop :=
  encode i &&& mask i = value i ∧
    ∀ w j, w &&& mask i = value i → decode w = .ok j → value j = value i

/-- The second half of a row's statement is a check of every byte. -/
theorem row_checked {m v : Byte}
    (h : ∀ w : Byte, w &&& m = v → (decode w).toOption.all (fun j => decide (value j = v)) = true) (w : Byte)
    (j : Instr) (hw : w &&& m = v) (hd : decode w = .ok j) : value j = v := by
  have := h w hw
  rw [hd] at this
  simpa [Except.toOption] using this

theorem nop : Statement .nop := ⟨by decide, row_checked (by decide)⟩
theorem encode : Statement .encode := ⟨by decide, row_checked (by decide)⟩
theorem decode : Statement .decode := ⟨by decide, row_checked (by decide)⟩
theorem rxread (b : Buf) : Statement (.rxread b) := by cases b <;> exact ⟨by decide, row_checked (by decide)⟩
theorem dispatch : Statement .dispatch := ⟨by decide, row_checked (by decide)⟩
theorem dispatchTo : Statement .dispatchTo := ⟨by decide, row_checked (by decide)⟩
theorem snaperr : Statement .snaperr := ⟨by decide, row_checked (by decide)⟩
theorem classify : Statement .classify := ⟨by decide, row_checked (by decide)⟩
theorem clrovr (b : Buf) : Statement (.clrovr b) := by cases b <;> exact ⟨by decide, row_checked (by decide)⟩
theorem recover : Statement .recover := ⟨by decide, row_checked (by decide)⟩
theorem breset : Statement .breset := ⟨by decide, row_checked (by decide)⟩

end Sys2Proof.Laws.TableRow
end

