-- ==== Sys2Proof/Laws/Step.lean ====
section
/-!
SUPPORT. How a property of the state is carried through a step: it is enough that every single block step and
every act of an environment agent keeps it. Also how an operation runs when no other agent moves.
-/

namespace Sys2Proof.Machine

/-! ## Between two block steps -/

/-- The environment's acts between two block steps keep what every one of them keeps. -/
theorem settle_keeps {P : State → Prop} (agenda : ∀ s l, P s → P { s with agenda := l })
    (env : ∀ e s t, P s → envStep e s = .ok t → P t) (who : Issuer) (l : List Act) (s : State) (h : P s) :
    P (settle who l s).2 := by
  induction l generalizing s with
  | nil => exact agenda s [] h
  | cons a r ih =>
    cases a with
    | port => cases who <;> exact agenda s _ h
    | dispatcher => cases who <;> exact agenda s _ h
    | env e =>
      rw [settle]
      split
      · next t ht => exact ih t (env e s t h ht)
      · exact agenda s _ h

/-- With an empty agenda nothing happens between two block steps. -/
@[simp] theorem settle_nil (who : Issuer) (s : State) : settle who [] s = (true, { s with agenda := [] }) := rfl

/-! ## Runs of block steps -/

theorem runPort_keeps {P : State → Prop} (agenda : ∀ s l, P s → P { s with agenda := l })
    (env : ∀ e s t, P s → envStep e s = .ok t → P t) (port : ∀ s t, P s → portStep s = some t → P t)
    (n : Nat) (s : State) (h : P s) : P (runPort n s) := by
  induction n generalizing s with
  | zero => exact h
  | succ n ih =>
    rw [runPort]
    split
    · exact h
    · next t ht =>
      have hk := port s t h ht
      split
      · exact hk
      · have hs := settle_keeps agenda env .client t.agenda t hk
        split
        · next u hu => rw [hu] at hs; exact ih u hs
        · next u hu => rw [hu] at hs; exact hs

theorem runPass_keeps {P : State → Prop} (agenda : ∀ s l, P s → P { s with agenda := l })
    (env : ∀ e s t, P s → envStep e s = .ok t → P t) (disp : ∀ s t, P s → dispStep s = some t → P t)
    (n : Nat) (s : State) (h : P s) : P (runPass n s) := by
  induction n generalizing s with
  | zero => exact h
  | succ n ih =>
    rw [runPass]
    split
    · exact h
    · next t ht =>
      have hk := disp s t h ht
      split
      · exact hk
      · have hs := settle_keeps agenda env .dispatcher t.agenda t hk
        split
        · next u hu => rw [hu] at hs; exact ih u hs
        · next u hu => rw [hu] at hs; exact hs

/-! ## One step -/

/-- A property that every kind of small step keeps is kept by the machine's step. -/
theorem step_keeps {P : State → Prop}
    (agenda : ∀ s l, P s → P { s with agenda := l })
    (env : ∀ e s t, P s → envStep e s = .ok t → P t)
    (port : ∀ s t, P s → portStep s = some t → P t)
    (disp : ∀ s t, P s → dispStep s = some t → P t)
    (draw : ∀ s, P s → P (redraw s))
    (take : ∀ s r rest, P s → s.port = none → P (takeRequest r rest s))
    (hold : ∀ s c w, P s → P (writeOpreq c w s))
    (nop : ∀ s r, P s → P { s with result := r })
    (enc : ∀ s, P s → P (encodeOp s))
    (dec : ∀ s, P s → P (decodeOp s))
    (start : ∀ s st, P s → s.port = none → (∀ p, st ≠ .run p) → P { s with port := some st })
    {s t : State} (h : P s) (hs : step s = .next t) : P t := by
  have run : ∀ i st u, P u → (∀ p, st ≠ .run p) → P (portRun i st u) := by
    intro i st u hu hst
    unfold portRun
    split
    · exact hold u _ _ hu
    · next hb =>
      exact runPort_keeps agenda env port _ _ (start u st hu (by simpa [State.busy] using hb) hst)
  have now : ∀ i (op : State → State) u, P u → (P u → P (op u)) → P (portNow i op u) := by
    intro i op u hu hop
    unfold portNow
    split
    · exact hold u _ _ hu
    · exact hop hu
  have ex : ∀ i u v, P u → exec i u = .next v → P v := by
    intro i u v hu hv
    cases i <;> cases hv
    · exact now _ _ u hu (nop u _)
    · exact now _ _ u hu (enc u)
    · exact now _ _ u hu (dec u)
    · exact run _ _ u hu (by simp)
    · split
      · exact runPass_keeps agenda env disp _ u hu
      · exact hu
    · split
      · exact runPass_keeps agenda env disp _ u hu
      · exact hu
    · exact run _ _ u hu (by simp)
    · exact run _ _ u hu (by simp)
    · exact run _ _ u hu (by simp)
    · exact run _ _ u hu (by simp)
    · exact run _ _ u hu (by simp)
  unfold step at hs
  split at hs
  · cases hs; exact draw s h
  · next r _ =>
    have h' := agenda s r h
    unfold portTurn at hs
    split at hs
    · cases hs; exact runPort_keeps agenda env port _ _ h'
    · next hb =>
      split at hs
      · cases hs; exact h'
      · next q rest _ =>
        have ht := take _ q rest h' (by simpa [State.busy] using hb)
        split at hs
        · cases hs; exact nop _ _ ht
        · exact ex _ _ _ ht hs
  · next r _ =>
    have h' := agenda s r h
    unfold dispatcherTurn at hs
    split at hs
    · split at hs
      · exact ex _ _ _ h' hs
      · exact ex _ _ _ h' hs
    · cases hs; exact runPass_keeps agenda env disp _ _ h'
  · next e r _ =>
    have h' := agenda s r h
    split at hs
    · next u hu => cases hs; exact env e _ _ h' hu
    · cases hs

/-! ## Undisturbed runs -/

/-- One step of a port operation with an empty agenda. -/
theorem runPort_succ {n : Nat} {s t : State} (ht : portStep s = some t) (ha : t.agenda = []) :
    runPort (n + 1) s = if t.port.isNone then t else runPort n t := by
  have hu : ({ t with agenda := [] } : State) = t := by rw [← ha]
  simp [runPort, ht, ha, hu]

/-- One step of a pass with an empty agenda. -/
theorem runPass_succ {n : Nat} {s t : State} (ht : dispStep s = some t) (ha : t.agenda = []) :
    runPass (n + 1) s = if t.dstate = .idle then t else runPass n t := by
  have hu : ({ t with agenda := [] } : State) = t := by rw [← ha]
  simp [runPass, ht, ha, hu]

/-- `Params.stepBound` as the successor form a run unfolds by. -/
theorem stepBound_eq (p : Params) : ∃ k, p.stepBound = k + 72 :=
  ⟨8 * p.xferExtra + 2 * p.modePollLimit, by simp only [Params.stepBound, Params.xferAttempts]; omega⟩

end Sys2Proof.Machine
end

