-- ==== Sys2Proof/Laws/Runs.lean ====
section
/-!
SUPPORT. An operation's run to its end, said once for the client port and for a pass: how the steps of an
operation in progress become the steps of the port or of the dispatcher when no other agent moves, and what an
undisturbed RXREAD does. Also that a block step leaves the agenda alone.
-/

namespace Sys2Proof.Machine

/-! ## An operation does not depend on where its progress is kept -/

/-- Applies an update to the state an operation's step leads to. -/
def OpOut.map (f : State → State) : OpOut → OpOut
  | .running p t => .running p (f t)
  | .done r t => .done r (f t)
  | .waiting => .waiting

/-- The state with the port's and the dispatcher's progress replaced. -/
def State.withProgress (q : Option PortState) (d : Option Prog) (s : State) : State :=
  { s with port := q, dprog := d }

@[simp] theorem par_withProgress (q : Option PortState) (d : Option Prog) (s : State) :
    (s.withProgress q d).par = s.par := rfl

theorem blockRead_withProgress (q : Option PortState) (d : Option Prog) (a : Nat) (s : State) :
    (s.withProgress q d).blockRead a = ((s.blockRead a).1, (s.blockRead a).2.withProgress q d) := rfl

theorem xferModify_withProgress (q : Option PortState) (d : Option Prog) (n a : Nat) (m v : Byte) (s : State) :
    (s.withProgress q d).xferModify n a m v =
      ((s.xferModify n a m v).1, (s.xferModify n a m v).2.withProgress q d) := by
  simp only [State.xferModify, show (s.withProgress q d).xport = s.xport from rfl]
  cases (tryXfer n s.xport).landed <;> rfl

theorem xferWrite_withProgress (q : Option PortState) (d : Option Prog) (n a : Nat) (v : Byte) (s : State) :
    (s.withProgress q d).xferWrite n a v =
      ((s.xferWrite n a v).1, (s.xferWrite n a v).2.withProgress q d) := by
  simp only [State.xferWrite, show (s.withProgress q d).xport = s.xport from rfl]
  cases (tryXfer n s.xport).landed <;> rfl

theorem xferRead_withProgress (q : Option PortState) (d : Option Prog) (n a : Nat) (s : State) :
    (s.withProgress q d).xferRead n a = ((s.xferRead n a).1, (s.xferRead n a).2.withProgress q d) := rfl

/-- Applies an update to the state a modify's step leads to. -/
def ModOut.map (f : State → State) : ModOut → ModOut
  | .more m t => .more m (f t)
  | .done ok t => .done ok (f t)

theorem modStep_withProgress (q : Option PortState) (d : Option Prog) (a : Nat) (m v : Byte) (st : ModStage)
    (s : State) :
    (s.withProgress q d).modStep a m v st = (s.modStep a m v st).map (State.withProgress q d) := by
  unfold State.modStep
  rw [show (s.withProgress q d).par = s.par from rfl, xferModify_withProgress]
  split
  · rfl
  · match st with
    | .start 0 => rfl
    | .start (n + 1) =>
      simp only [xferRead_withProgress]
      rcases s.xferRead 1 a with ⟨_ | b, u⟩ <;> dsimp only
      · split <;> rfl
      · rfl
    | .write n byte =>
      simp only [xferWrite_withProgress]
      rcases s.xferWrite 1 a (modified byte m v) with ⟨_ | _, u⟩ <;> dsimp only
      · split <;> rfl
      · rfl

theorem rxFinish_withProgress (q : Option PortState) (d : Option Prog) (who : Issuer) (n : Fin 9) (s : State) :
    rxFinish who n (s.withProgress q d) = (rxFinish who n s).map (State.withProgress q d) := by
  cases who <;> rfl

theorem rxNext_withProgress (q : Option PortState) (d : Option Prog) (who : Issuer) (b : Buf) (n : Fin 9)
    (i : Nat) (s : State) :
    rxNext who b n i (s.withProgress q d) = (rxNext who b n i s).map (State.withProgress q d) := by
  unfold rxNext
  split
  · split
    · rfl
    · exact rxFinish_withProgress q d who n s
  · exact rxFinish_withProgress q d who n s

theorem storeImage_withProgress (q : Option PortState) (d : Option Prog) (who : Issuer) (j : Fin 14) (v : Byte)
    (s : State) :
    (s.withProgress q d).storeImage who j v = (s.storeImage who j v).withProgress q d := by
  cases who <;> rfl

theorem rxHeaderDone_withProgress (q : Option PortState) (d : Option Prog) (who : Issuer) (b : Buf) (s : State) :
    rxHeaderDone who b (s.withProgress q d) = (rxHeaderDone who b s).map (State.withProgress q d) := by
  unfold rxHeaderDone
  rw [show (s.withProgress q d).par = s.par from rfl,
    show (s.withProgress q d).image who = s.image who by cases who <;> rfl]
  dsimp only
  split
  · cases s.par.rtrSource
    · exact rxNext_withProgress ..
    · rfl
  · rfl

theorem recPollStep_withProgress (q : Option PortState) (d : Option Prog) (p : Nat) (s : State) :
    recPollStep p (s.withProgress q d) = (recPollStep p s).map (State.withProgress q d) := by
  unfold recPollStep
  rw [par_withProgress, blockRead_withProgress]
  rcases s.blockRead s.par.layout.canstat with ⟨_ | v, u⟩ <;> dsimp only
  · rfl
  · split
    · rfl
    · split <;> rfl

/-- A step of an operation does not read or write where its progress is kept. -/
theorem opStep_withProgress (q : Option PortState) (d : Option Prog) (who : Issuer) (p : Prog) (s : State) :
    opStep who p (s.withProgress q d) = (opStep who p s).map (State.withProgress q d) := by
  cases p with
  | rxHeader b j =>
    simp only [opStep, rxHeaderStep, par_withProgress, blockRead_withProgress]
    rcases s.blockRead (headerAddr s.par.layout b j) with ⟨_ | v, u⟩ <;> dsimp only
    · rfl
    · rw [storeImage_withProgress]
      split
      · rfl
      · exact rxHeaderDone_withProgress ..
  | rxCtrl b n =>
    simp only [opStep, rxCtrlStep, par_withProgress, blockRead_withProgress]
    rcases s.blockRead (s.par.layout.rxbBase b) with ⟨_ | v, u⟩ <;> dsimp only
    · rfl
    · rw [storeImage_withProgress]; exact rxNext_withProgress ..
  | rxData b n i =>
    simp only [opStep, rxDataStep, par_withProgress, blockRead_withProgress]
    rcases s.blockRead (dataAddr s.par.layout b i) with ⟨_ | v, u⟩ <;> dsimp only
    · rfl
    · rw [storeImage_withProgress]; exact rxNext_withProgress ..
  | snapEflg =>
    simp only [opStep, snapEflgStep, par_withProgress, blockRead_withProgress]
    rcases s.blockRead s.par.layout.eflg with ⟨_ | v, u⟩ <;> rfl
  | snapTec e =>
    simp only [opStep, snapTecStep, par_withProgress, blockRead_withProgress]
    rcases s.blockRead s.par.layout.tec with ⟨_ | v, u⟩ <;> rfl
  | snapRec e c =>
    simp only [opStep, snapRecStep, par_withProgress, blockRead_withProgress]
    rcases s.blockRead s.par.layout.recCounter with ⟨_ | v, u⟩ <;> rfl
  | classify =>
    simp only [opStep, classifyOp]
    rw [show (s.withProgress q d).esnap = s.esnap from rfl, par_withProgress]
    split
    · cases classifyErr s.par.layout s.esnap.eflg s.esnap.tec s.esnap.recv <;> rfl
    · rfl
  | ovrClear b m =>
    simp only [opStep, ovrClearStep, par_withProgress, modStep_withProgress]
    rcases s.modStep s.par.layout.eflg (ovrMask s.par.layout b) 0x00 m with ⟨m', u⟩ | ⟨_ | _, u⟩ <;> rfl
  | recModify m =>
    simp only [opStep, recModifyStep, par_withProgress, modStep_withProgress]
    rcases s.modStep s.par.layout.canctrl (reqopMask s.par.layout) (reqopField s.par.layout .normal) m
      with ⟨m', u⟩ | ⟨_ | _, u⟩ <;> rfl
  | recPoll p => exact recPollStep_withProgress ..
  | recWait p c =>
    simp only [opStep, recWaitStep]
    rw [show (s.withProgress q d).par = s.par from rfl, show (s.withProgress q d).now = s.now from rfl]
    split
    · exact recPollStep_withProgress ..
    · rfl
  | recEflg p =>
    simp only [opStep]
    unfold recEflgStep
    rw [par_withProgress, blockRead_withProgress]
    rcases s.blockRead s.par.layout.eflg with ⟨_ | v, u⟩ <;> dsimp only
    · rfl
    · split <;> rfl
  | flagClear m =>
    simp only [opStep, flagClearStep, par_withProgress]
    rw [show (s.withProgress q d).hmask = s.hmask from rfl, modStep_withProgress]
    rcases s.modStep s.par.layout.canintf s.hmask 0x00 m with ⟨m', u⟩ | ⟨_ | _, u⟩ <;> rfl

/-! ## A block step leaves the agenda alone -/

theorem portAfter_agenda {o : OpOut} {s t : State} (ho : ∀ u, o.state = some u → OpFrame .client s u)
    (h : portAfter o = some t) : t.agenda = s.agenda := by
  obtain ⟨_, u, rfl, rfl⟩ | ⟨_, u, rfl, rfl⟩ := portAfter_cases h <;> exact (ho u rfl).agenda

/-- A step of the port leaves the agenda. -/
theorem portStep_agenda {s t : State} (h : portStep s = some t) : t.agenda = s.agenda := by
  unfold portStep at h
  split at h
  · cases h
  · split at h
    · exact portAfter_agenda (s := { s with lock := .client s.client }) (fun _ hu => opStart_frame hu) h
    · cases h
  · split at h <;> cases h
    rfl
  · exact portAfter_agenda (fun _ hu => opStep_frame hu) h

theorem innerAfter_agenda {fin : OpResult → State → State} {o : OpOut} {s t : State}
    (ho : ∀ u, o.state = some u → OpFrame .dispatcher s u) (hf : ∀ r u, (fin r u).agenda = u.agenda)
    (h : innerAfter fin o = some t) : t.agenda = s.agenda := by
  obtain ⟨_, u, rfl, rfl⟩ | ⟨r, u, rfl, rfl⟩ := innerAfter_cases h
  · exact (ho u rfl).agenda
  · exact (hf r _).trans (ho u rfl).agenda

theorem setRxretry_agenda (b : Buf) (n : Nat) (s : State) : (s.setRxretry b n).agenda = s.agenda := by
  cases b <;> rfl

theorem rxEnd_agenda (b : Buf) (r : OpResult) (s : State) : (rxEnd b r s).agenda = s.agenda := by
  have fail : ∀ r u, (rxFailed b r u).agenda = u.agenda := by
    intro r u
    unfold rxFailed
    split <;> exact setRxretry_agenda b _ _
  cases r with
  | ok =>
    simp only [rxEnd, rxDeliver]
    split
    · exact setRxretry_agenda b _ _
    · rfl
  | _ => exact fail _ _

theorem ovrsEnd_agenda (s : State) : (ovrsEnd s).agenda = s.agenda := by
  simp only [ovrsEnd]
  split <;> rfl

theorem ovrEnd_agenda (b : Buf) (r : OpResult) (s : State) : (ovrEnd b r s).agenda = s.agenda := by
  have second : ∀ u, (ovrsSecond u).agenda = u.agenda := by
    intro u
    unfold ovrsSecond
    split
    · rfl
    · exact ovrsEnd_agenda u
  cases b with
  | rx0 => exact (second _).trans (by cases r <;> rfl)
  | rx1 => exact (ovrsEnd_agenda _).trans (by cases r <;> rfl)

/-- A step of the dispatcher leaves the agenda. -/
theorem dispStep_agenda {s t : State} (h : dispStep s = some t) : t.agenda = s.agenda := by
  have errEnd_agenda : ∀ r u, (errEnd r u).agenda = u.agenda := fun r _ => by cases r <;> rfl
  unfold dispStep at h
  cases hd : s.dstate <;> simp only [hd] at h
  · unfold idleStep at h
    split at h
    · cases h; rfl
    · split at h <;> cases h
      rfl
  · unfold acqStep at h
    split at h <;> cases h
    rfl
  · cases h
    unfold readfStep
    rcases hr : s.blockRead s.par.layout.canintf with ⟨_ | v, u⟩ <;> exact (OpFrame.blockRead .dispatcher hr).agenda
  all_goals try
    unfold rxStep at h
    split at h
    · exact innerAfter_agenda (fun _ hu => innerStep_frame hu) (rxEnd_agenda _) h
    · cases h; exact setRxretry_agenda _ _ s
  · cases h
    simp only [txsStep]
    split <;> rfl
  · unfold errsStep at h
    split at h
    · split at h
      · exact innerAfter_agenda (fun _ hu => opStep_frame hu) errEnd_agenda h
      · exact innerAfter_agenda (fun _ hu => innerStep_frame hu) (fun r u => by cases r <;> rfl) h
    · cases h; rfl
  · unfold recsStep at h
    split at h
    · exact innerAfter_agenda (fun _ hu => innerStep_frame hu) (fun r u => by cases r <;> rfl) h
    · cases h; rfl
  · unfold ovrsStep at h
    split at h
    · exact innerAfter_agenda (fun _ hu => opStep_frame hu) (ovrEnd_agenda _) h
    · split at h
      · split at h
        · exact innerAfter_agenda (fun _ hu => innerStep_frame hu) (ovrEnd_agenda _) h
        · split at h
          · exact innerAfter_agenda (fun _ hu => innerStep_frame hu) (ovrEnd_agenda _) h
          · cases h; exact ovrsEnd_agenda s
      · cases h; exact ovrsEnd_agenda s
  · cases h
    simp only [wakesStep]
    repeat' split
    all_goals rfl
  · unfold clrStep at h
    split at h
    · exact innerAfter_agenda (fun _ hu => opStep_frame hu) (fun r u => by cases r <;> rfl) h
    · split at h
      · exact innerAfter_agenda (fun _ hu => opStep_frame (p := .flagClear s.modStart) hu)
          (fun r u => by cases r <;> rfl) h
      · cases h; rfl
  · cases h; rfl

/-! ## Runs of an operation -/

/-- From progress `p` in `s`, an operation of `who` takes `n` steps of its own and ends with `r` in `t`. -/
inductive OpRuns (who : Issuer) : Nat → Prog → State → OpResult → State → Prop
  | last {p s r t} : opStep who p s = .done r t → OpRuns who 1 p s r t
  | more {n p s q u r t} : opStep who p s = .running q u → OpRuns who n q u r t → OpRuns who (n + 1) p s r t

theorem OpRuns.frame {who : Issuer} {n : Nat} {p : Prog} {s t : State} {r : OpResult}
    (h : OpRuns who n p s r t) : OpFrame who s t := by
  induction h with
  | last h => exact opStep_frame (by rw [h]; rfl)
  | more h _ ih => exact (opStep_frame (by rw [h]; rfl)).trans ih

/-- A client's operation runs to its end when no other agent moves. -/
theorem OpRuns.port {n : Nat} {p : Prog} {s t : State} {r : OpResult} (h : OpRuns .client n p s r t)
    (ha : s.agenda = []) (m : Nat) :
    runPort (n + m) { s with port := some (.run p) } = t.raise r := by
  induction h with
  | @last p s r t h =>
    have hf : OpFrame .client s t := opStep_frame (by rw [h]; rfl)
    have hs : portStep { s with port := some (.run p) } = some (t.raise r) := by
      show portAfter (opStep .client p (s.withProgress (some (.run p)) s.dprog)) = _
      rw [opStep_withProgress, h, ← hf.dprog]
      rfl
    rw [Nat.add_comm, runPort_succ hs (by simpa [State.raise, hf.agenda] using ha)]
    rfl
  | @more n p s q u r t h _ ih =>
    have hf : OpFrame .client s u := opStep_frame (by rw [h]; rfl)
    have hs : portStep { s with port := some (.run p) } = some { u with port := some (.run q) } := by
      show portAfter (opStep .client p (s.withProgress (some (.run p)) s.dprog)) = _
      rw [opStep_withProgress, h, ← hf.dprog]
      rfl
    rw [show n + 1 + m = n + m + 1 by omega, runPort_succ hs (by simpa [hf.agenda] using ha)]
    exact ih (by rw [hf.agenda]; exact ha)

/-- What a state of a pass does after an inner step does not depend on the progress kept before it. -/
theorem innerAfter_dprog (fin : OpResult → State → State) (p : Prog) (d : Option Prog) (s : State) :
    innerAfter fin (opStep .dispatcher p { s with dprog := d }) = innerAfter fin (opStep .dispatcher p s) := by
  have hw := opStep_withProgress s.port d .dispatcher p s
  rw [show s.withProgress s.port d = { s with dprog := d } from rfl] at hw
  rw [hw]
  rcases ho : opStep .dispatcher p s with ⟨q, u⟩ | ⟨r, u⟩ | _
  · have hp : u.port = s.port := (opStep_frame (t := u) (by rw [ho]; rfl)).port
    show some { u with port := s.port, dprog := some q } = some { u with dprog := some q }
    rw [← hp]
  · have hp : u.port = s.port := (opStep_frame (t := u) (by rw [ho]; rfl)).port
    show some (fin r { u with port := s.port, dprog := none }) = some (fin r { u with dprog := none })
    rw [← hp]
  · rfl

/-- An operation inside a pass runs to its end when no other agent moves: `fin` is what its state of the pass
does with the outcome, and its first step may begin it. -/
theorem OpRuns.pass {n : Nat} {p : Prog} {s s0 t : State} {r : OpResult} {fin : OpResult → State → State}
    (h : OpRuns .dispatcher n p s r t) (ha : s.agenda = []) (hd : s.dstate ≠ .idle)
    (hstep : ∀ q u, OpFrame .dispatcher s u →
      dispStep { u with dprog := some q } = innerAfter fin (opStep .dispatcher q { u with dprog := some q }))
    (hfin : ∀ u, OpFrame .dispatcher s u →
      (fin r { u with dprog := none }).dstate ≠ .idle ∧ (fin r { u with dprog := none }).agenda = [])
    (hfirst : dispStep s0 = innerAfter fin (opStep .dispatcher p s)) (m : Nat) :
    runPass (n + m) s0 = runPass m (fin r { t with dprog := none }) := by
  induction h generalizing s0 with
  | @last p s r t h =>
    have hf : OpFrame .dispatcher s t := opStep_frame (by rw [h]; rfl)
    rw [h] at hfirst
    rw [Nat.add_comm, runPass_succ hfirst (hfin t hf).2]
    simp [(hfin t hf).1]
  | @more n p s q u r t h _ ih =>
    have hf : OpFrame .dispatcher s u := opStep_frame (by rw [h]; rfl)
    rw [h] at hfirst
    rw [show n + 1 + m = n + m + 1 by omega, runPass_succ hfirst (by simpa [hf.agenda] using ha)]
    rw [if_neg (by simpa [hf.dstate] using hd)]
    refine ih (by rw [hf.agenda]; exact ha) (by rw [hf.dstate]; exact hd)
      (fun q' u' h' => hstep q' u' (hf.trans h')) (fun u' h' => hfin u' (hf.trans h')) ?_
    rw [hstep q u hf, innerAfter_dprog]

/-! ## RXREAD -/

/-- The state of an RXREAD of `who` that has filled the image register with `i` and read `as`. -/
def State.rxSoFar (who : Issuer) (i : Image) (as : List Nat) (s : State) : State :=
  State.setImage who i { s with bus := s.bus ++ readsBy s.lock as, xport := [] }

theorem rxSoFar_nil (who : Issuer) (s : State) (hx : s.xport = []) : s.rxSoFar who (s.image who) [] = s := by
  cases who <;> (cases s; simp only at hx; subst hx; simp [State.rxSoFar, State.setImage, State.image, readsBy])

theorem rxSoFar_read (who : Issuer) (i : Image) (as : List Nat) (a : Nat) (s : State) :
    (s.rxSoFar who i as).blockRead a = (some (s.chipByte a), s.rxSoFar who i (as ++ [a])) := by
  rw [State.blockRead_quiet _ _ (by cases who <;> rfl)]
  cases who <;> simp [State.rxSoFar, State.setImage, readsBy] <;> rfl

theorem rxSoFar_store (who : Issuer) (i : Image) (as : List Nat) (j : Fin 14) (v : Byte) (s : State) :
    (s.rxSoFar who i as).storeImage who j v = s.rxSoFar who (i.setByte j v) as := by
  cases who <;> rfl

theorem image_rxSoFar (who : Issuer) (i : Image) (as : List Nat) (s : State) :
    (s.rxSoFar who i as).image who = i := by cases who <;> rfl

theorem par_rxSoFar (who : Issuer) (i : Image) (as : List Nat) (s : State) :
    (s.rxSoFar who i as).par = s.par := by cases who <;> rfl

/-- One more data byte. -/
theorem rxImageAfter_succ (src : RtrSource) (old img : Image) (i : Fin 8) :
    (rxImageAfter src old img i.val).setByte ⟨i.val + 6, by omega⟩ img.data[i] =
      rxImageAfter src old img (i.val + 1) := by
  have : ((rxImageAfter src old img i.val).data.setIfInBounds i.val img.data[i]) =
      (rxImageAfter src old img (i.val + 1)).data := by
    ext k hk
    simp only [rxImageAfter, Vector.getElem_ofFn, Vector.getElem_setIfInBounds]
    split
    · next h => subst h; simp
    · next h =>
      have : k < i.val + 1 ↔ k < i.val := by omega
      simp [this]
  simp only [Image.setByte]
  rw [this]
  rfl

/-- RXREAD's data bytes from byte `i` on, `m` of them. -/
theorem rxData_runs (who : Issuer) (b : Buf) (n : Fin 9) (old : Image) (as : List Nat) (s : State) (m : Nat) :
    ∀ i : Nat, i + m = n.val → 0 < m →
    OpRuns who m (.rxData b n ⟨i % 8, by omega⟩)
      (s.rxSoFar who (rxImageAfter s.par.rtrSource old (s.rxImage b) i) as) .ok
      ((s.rxSoFar who (rxImageAfter s.par.rtrSource old (s.rxImage b) n.val)
        (as ++ (List.range' i m).map fun k => s.par.layout.rxbBase b + 6 + k)).setFrame who
        (decodeImage s.par.layout s.par.rtrSource (rxImageAfter s.par.rtrSource old (s.rxImage b) n.val) n.val)) := by
  induction m generalizing as with
  | zero => intro i _ h; omega
  | succ m ih =>
    intro i hi _
    have hi8 : i < 8 := by omega
    have key : opStep who (.rxData b n ⟨i % 8, by omega⟩)
        (s.rxSoFar who (rxImageAfter s.par.rtrSource old (s.rxImage b) i) as) =
        rxNext who b n (i + 1)
          (s.rxSoFar who (rxImageAfter s.par.rtrSource old (s.rxImage b) (i + 1))
            (as ++ [s.par.layout.rxbBase b + 6 + i])) := by
      have h8 : (⟨i % 8, by omega⟩ : Fin 8) = ⟨i, hi8⟩ := Fin.ext (Nat.mod_eq_of_lt hi8)
      rw [h8]
      simp only [opStep, rxDataStep, par_rxSoFar, rxSoFar_read]
      rw [rxSoFar_store]
      congr 2
      rw [← rxImageAfter_succ s.par.rtrSource old (s.rxImage b) ⟨i, hi8⟩]
      simp [State.rxImage, dataAddr]
    by_cases hm : m = 0
    · subst hm
      refine OpRuns.last (key.trans ?_)
      have : ¬ (i + 1 < n.val) := by omega
      have hn : n.val = i + 1 := by omega
      simp only [rxNext, rxFinish, image_rxSoFar, par_rxSoFar, hn, Nat.lt_irrefl, if_false, dite_eq_ite, ite_self]
      rfl
    · have h1 : i + 1 < 8 := by omega
      have h2 : i + 1 < n.val := by omega
      have hk : opStep who (.rxData b n ⟨i % 8, by omega⟩)
          (s.rxSoFar who (rxImageAfter s.par.rtrSource old (s.rxImage b) i) as) =
          .running (.rxData b n ⟨(i + 1) % 8, by omega⟩)
            (s.rxSoFar who (rxImageAfter s.par.rtrSource old (s.rxImage b) (i + 1))
              (as ++ [s.par.layout.rxbBase b + 6 + i])) := by
        rw [key]
        simp only [rxNext, h1, h2, dite_true, if_true]
        congr 2
        exact Fin.ext (Nat.mod_eq_of_lt h1).symm
      refine OpRuns.more hk ?_
      have := ih (as ++ [s.par.layout.rxbBase b + 6 + i]) (i + 1) (by omega) (by omega)
      rw [List.append_assoc] at this
      exact this

/-- A frame decoded from what RXREAD left is the frame the buffer holds. -/
theorem decodeImage_rxImageAfter (m : ChipLayout) (src : RtrSource) (old img : Image) (n : Nat) :
    decodeImage m src (rxImageAfter src old img n) n = decodeImage m src img n := by
  have hd : keepFirst n (rxImageAfter src old img n).data = keepFirst n img.data := by
    ext i hi
    simp only [keepFirst_getElem, rxImageAfter, Vector.getElem_ofFn]
    split <;> simp_all
  cases src <;> simp [decodeImage, hd] <;> rfl

/-- RXREAD's header: five reads, and then what the length nibble decides. -/
theorem rxHeader_runs (who : Issuer) (b : Buf) (s : State) (hx : s.xport = []) {m : Nat} {r : OpResult}
    {t : State}
    (h : OpRuns who (m + 1) (.rxHeader b 4)
      (s.rxSoFar who
        ((((((s.image who).setByte 1 (s.rxImage b).sidh).setByte 2 (s.rxImage b).sidl).setByte 3
          (s.rxImage b).eid8)).setByte 4 (s.rxImage b).eid0) ((rxAddresses s.par.layout .dlcByte b 0).take 4)) r t) :
    OpRuns who (m + 5) (.rxHeader b 0) s r t := by
  have step : ∀ (j : Nat) (hj : j + 1 < 5) (i : Image) (as : List Nat),
      opStep who (.rxHeader b ⟨j, by omega⟩) (s.rxSoFar who i as) =
        .running (.rxHeader b ⟨j + 1, hj⟩)
          (s.rxSoFar who (i.setByte ⟨j + 1, by omega⟩ (s.chipByte (headerAddr s.par.layout b ⟨j, by omega⟩)))
            (as ++ [headerAddr s.par.layout b ⟨j, by omega⟩])) := by
    intro j hj i as
    simp only [opStep, rxHeaderStep, par_rxSoFar, rxSoFar_read, rxSoFar_store, hj, dite_true]
  rw [← rxSoFar_nil who s hx]
  refine .more (step 0 (by omega) _ _) (.more (step 1 (by omega) _ _) (.more (step 2 (by omega) _ _)
    (.more (step 3 (by omega) _ _) ?_)))
  exact h

/-- RXREAD's last header read. -/
theorem rxHeader_last (who : Issuer) (b : Buf) (s : State) :
    opStep who (.rxHeader b 4)
      (s.rxSoFar who
        ((((((s.image who).setByte 1 (s.rxImage b).sidh).setByte 2 (s.rxImage b).sidl).setByte 3
          (s.rxImage b).eid8)).setByte 4 (s.rxImage b).eid0) ((rxAddresses s.par.layout .dlcByte b 0).take 4)) =
      rxHeaderDone who b
        (s.rxSoFar who (rxImageAfter .dlcByte (s.image who) (s.rxImage b) 0) (rxAddresses s.par.layout .dlcByte b 0)) := by
  simp only [opStep, rxHeaderStep, par_rxSoFar, rxSoFar_read, rxSoFar_store]
  rw [dif_neg (by decide)]
  congr 2
  have hd : (rxImageAfter .dlcByte (s.image who) (s.rxImage b) 0).data = (s.image who).data := by
    ext i hi
    simp [rxImageAfter]
  show Image.mk _ _ _ _ _ _ (s.image who).data = _
  rw [← hd]
  rfl

/-- An undisturbed RXREAD of a buffer whose length nibble is above 8 (R134). -/
theorem rxread_refuses (who : Issuer) (b : Buf) (s : State) (hx : s.xport = [])
    (hn : 8 < dlcNibble s.par.layout (s.rxImage b).dlc) :
    OpRuns who 5 (.rxHeader b 0) s .invalidLength
      (s.rxSoFar who (rxImageAfter .dlcByte (s.image who) (s.rxImage b) 0) (rxAddresses s.par.layout .dlcByte b 0)) := by
  refine rxHeader_runs who b s hx (m := 0) (.last ?_)
  rw [rxHeader_last]
  simp only [rxHeaderDone, image_rxSoFar, par_rxSoFar]
  rw [dif_neg (by simp only [rxImageAfter]; omega)]

/-- RXREAD from the data bytes on. -/
theorem rxNext_runs (who : Issuer) (b : Buf) (n : Fin 9) (old : Image) (as : List Nat) (s s0 : State)
    (p : Prog)
    (h : opStep who p s0 = rxNext who b n 0 (s.rxSoFar who (rxImageAfter s.par.rtrSource old (s.rxImage b) 0) as)) :
    OpRuns who (n.val + 1) p s0 .ok
      ((s.rxSoFar who (rxImageAfter s.par.rtrSource old (s.rxImage b) n.val)
        (as ++ (List.range n.val).map fun k => s.par.layout.rxbBase b + 6 + k)).setFrame who
        (decodeImage s.par.layout s.par.rtrSource (s.rxImage b) n.val)) := by
  by_cases hn : n.val = 0
  · rw [hn]
    refine .last (h.trans ?_)
    simp only [rxNext, rxFinish, image_rxSoFar, par_rxSoFar, hn, Nat.lt_irrefl, if_false, dite_eq_ite, ite_self]
    rw [decodeImage_rxImageAfter]
    simp
  · have hk : opStep who p s0 = .running (.rxData b n ⟨0 % 8, by omega⟩)
        (s.rxSoFar who (rxImageAfter s.par.rtrSource old (s.rxImage b) 0) as) := by
      rw [h]
      simp only [rxNext, show 0 < n.val by omega, if_true]
      rfl
    have := OpRuns.more hk (rxData_runs who b n old as s n.val 0 (by omega) (by omega))
    rwa [decodeImage_rxImageAfter, ← List.range_eq_range'] at this

/-- An undisturbed RXREAD of a buffer whose length nibble is `n`, at most 8 (R134, R135): what it has read, filled
and decoded. -/
theorem rxread_runs (who : Issuer) (b : Buf) (n : Fin 9) (s : State) (hx : s.xport = [])
    (hn : n.val = dlcNibble s.par.layout (s.rxImage b).dlc) :
    ∃ m, m ≤ 14 ∧ OpRuns who m (.rxHeader b 0) s .ok
      ((s.rxSoFar who (rxImageAfter s.par.rtrSource (s.image who) (s.rxImage b) n.val)
        (rxAddresses s.par.layout s.par.rtrSource b n.val)).setFrame who
        (decodeImage s.par.layout s.par.rtrSource (s.rxImage b) n.val)) := by
  have hdone : rxHeaderDone who b
      (s.rxSoFar who (rxImageAfter .dlcByte (s.image who) (s.rxImage b) 0) (rxAddresses s.par.layout .dlcByte b 0)) =
      match s.par.rtrSource with
      | .rxctrl => .running (.rxCtrl b n)
        (s.rxSoFar who (rxImageAfter .dlcByte (s.image who) (s.rxImage b) 0) (rxAddresses s.par.layout .dlcByte b 0))
      | .dlcByte => rxNext who b n 0
        (s.rxSoFar who (rxImageAfter .dlcByte (s.image who) (s.rxImage b) 0) (rxAddresses s.par.layout .dlcByte b 0)) := by
    have hlt : dlcNibble s.par.layout (rxImageAfter .dlcByte (s.image who) (s.rxImage b) 0).dlc < 9 := by
      show dlcNibble s.par.layout (s.rxImage b).dlc < 9
      omega
    have he : (⟨dlcNibble s.par.layout (rxImageAfter .dlcByte (s.image who) (s.rxImage b) 0).dlc, hlt⟩ : Fin 9) = n :=
      Fin.ext hn.symm
    cases hs : s.par.rtrSource <;>
    · simp only [rxHeaderDone, image_rxSoFar, par_rxSoFar, hs]
      rw [dif_pos hlt, he]
  cases hs : s.par.rtrSource with
  | dlcByte =>
    refine ⟨n.val + 5, by omega, rxHeader_runs who b s hx ?_⟩
    have := rxNext_runs who b n (s.image who) (rxAddresses s.par.layout .dlcByte b 0) s _ _
      (by rw [rxHeader_last, hdone, hs])
    rw [hs] at this
    exact this
  | rxctrl =>
    refine ⟨n.val + 1 + 5, by omega, rxHeader_runs who b s hx (.more (by rw [rxHeader_last, hdone, hs]) ?_)⟩
    have := rxNext_runs who b n (s.image who) (rxAddresses s.par.layout .rxctrl b 0) s
      (s.rxSoFar who (rxImageAfter .dlcByte (s.image who) (s.rxImage b) 0) (rxAddresses s.par.layout .dlcByte b 0))
      (.rxCtrl b n) (by
        simp only [opStep, rxCtrlStep, par_rxSoFar, rxSoFar_read, rxSoFar_store, hs]
        rfl)
    rw [hs] at this
    exact this

end Sys2Proof.Machine
end

