-- ==== Sys2Proof/Tests/Slice0.lean ====
section
/-!
SUPPORT. Tests. Expected values are those of spec/95_test_vectors.md or are worked out by hand from the rule
named. The second half shows, for each statement that has hypotheses, a state and operands that meet them.
-/

namespace Sys2Proof.Tests

open Sys2Proof.Machine

/-! ## Small states -/

/-- Parameters of the vectors: WAKE_TIMEOUT 10, MODE_POLL_LIMIT 3, BACKOFF(k) = 20 k, one attempt. -/
def par : Params :=
  { rtrSource := .dlcByte, rxRetryLimit := 1, nativeBitModify := true, xferExtra := 0, evqExtra := 1
    rxqExtra := 0, wakeExtra := 9, pollExtra := 2, pollDelay := 0, backoffMinExtra := 19
    backoffRise := [0, 20, 20, 20], recfailsMax := 255, layout := mcp2515 }

/-- A booted state (R284) with the chip's CANINTF, EFLG and TEC at the given values. -/
def st (canintf eflg tec : Byte) : State :=
  { State.reset with
    par := par, now := 7, idleSince := 7
    chip := [(0x0E, 0x00), (0x0F, 0x07), (0x1C, tec), (0x1D, 0x00), (0x2B, 0x7F), (0x2C, canintf), (0x2D, eflg)] }

/-- Receive buffer 1 holds the frame of V26, and buffer 0 has a DLC nibble of 15 (V28). -/
def rxCells : List Host.Cell :=
  [(0x60, 0x08), (0x61, 0x24), (0x62, 0x60), (0x63, 0x00), (0x64, 0x00), (0x65, 0x0F), (0x70, 0x00), (0x71, 0x91),
   (0x72, 0xA8), (0x73, 0x56), (0x74, 0x78), (0x75, 0x02), (0x76, 0xDE), (0x77, 0xAD)]

/-- `st` with `rxCells`. -/
def rxSt (canintf eflg : Byte) : State :=
  { st canintf eflg 0 with chip := Memory.writeAll (st canintf eflg 0).chip rxCells }

/-- Receive buffer 0 holds a frame of 8 bytes (V30, V31). -/
def fullSt (canintf : Byte) : State :=
  { rxSt canintf 0 with chip := Memory.write (rxSt canintf 0).chip 0x65 0x08 }

/-- With a token in EVQ. -/
def token (s : State) : State := { s with evq := 1 }

/-- With the idle timeout due. -/
def due (s : State) : State := { s with now := s.idleSince + 10 }

/-- With these draws of the transport to come. -/
def draws (ds : List XDraw) (s : State) : State := { s with xport := ds }

/-- With this agent's act next. -/
def turn (a : Act) (s : State) : State := { s with agenda := [a] }

/-- Without a native modify. -/
def nonNative (s : State) : State := { s with par := { s.par with nativeBitModify := false } }

/-- With a chip whose CANINTF is at 0x10 and EFLG at 0x11, where ERR is bit 0 and WAKE bit 1, TXBO bit 7 and the
overflow bits 0 and 1, and whose mode fields and buffer fields stand elsewhere too (R2, R6: the layout is a
parameter), with these values in both. -/
def moved (canintf eflg : Byte) : State :=
  { st 0 0 0 with
    par := { par with
      layout := { mcp2515 with
        canintf := 0x10, eflg := 0x11, rx0Bit := 7, rx1Bit := 6, errBit := 0, wakeBit := 1
        txboBit := 7, ovr0Bit := 0, ovr1Bit := 1, reqopLo := 2, opmodLo := 1, txreqBit := 0, rxrtrBit := 0
        sidLo := 1, exideBit := 7, eidLo := 4, dlcRtrBit := 0, dlcLo := 2
        readCmd := 0x13, writeCmd := 0x12, modifyCmd := 0x15, resetCmd := 0x0C } }
    chip := Memory.writeAll (st 0 0 0).chip [(0x10, canintf), (0x11, eflg)] }

/-- A pass in ERRS with this progress. -/
def errsAt (p : Prog) : State :=
  { st 0x20 0x20 3 with dstate := .errs, lock := .dispatcher, flags := 0x20, dprog := some p }

/-- A check of the next state. -/
def after (o : Host.Outcome State Fault Refusal) (f : State → Bool) : Bool :=
  match o with
  | .next t => f t
  | _ => false

/-- The addresses of the bus entries. -/
def addrs (s : State) : List Nat :=
  s.bus.map fun e =>
    match e.op with
    | .read a => a
    | .write a _ => a
    | .modify a _ _ => a
    | .reset => 0

/-! ## Who may issue what (R101, R102) -/

theorem test_wf_dispatch_refused : Instr.wellFormed .client .dispatch = false := by decide
theorem test_wf_dispatchTo_refused : Instr.wellFormed .client .dispatchTo = false := by decide
theorem test_wf_nop_refused : Instr.wellFormed .dispatcher .nop = false := by decide
theorem test_wf_encode_refused : Instr.wellFormed .dispatcher .encode = false := by decide
theorem test_wf_decode_refused : Instr.wellFormed .dispatcher .decode = false := by decide
theorem test_wf_breset_refused : Instr.wellFormed .dispatcher .breset = false := by decide
theorem test_wf_both :
    [Issuer.client, .dispatcher].all (fun w => [Instr.rxread .rx1, .snaperr, .classify, .clrovr .rx0, .recover].all
      (Instr.wellFormed w)) = true := by decide

/-- The layouts of the spec's default and of `moved` are well-formed. -/
theorem test_wf_layout : mcp2515.Wf ∧ (moved 0 0).par.layout.Wf := by decide

/-- One ill-formed layout for each check. -/
theorem test_wf_layout_refused :
    [{ mcp2515 with eflg := 0x2C }, { mcp2515 with canstat := 0x80 }, { mcp2515 with rxb1 := 0x73 },
     { mcp2515 with tec := 0x6D }, { mcp2515 with txb1 := 0x3D }, { mcp2515 with wakeBit := 0 },
     { mcp2515 with ovr1Bit := 5 }, { mcp2515 with sleep := 0 }, { mcp2515 with eidLo := 2 },
     { mcp2515 with dlcRtrBit := 3 }, { mcp2515 with resetCmd := 0x05 }].all (fun m => !decide m.Wf) = true := by decide

/-! ## Decoding (R100 to R102; V52 to V59) -/

/-- Bits 7:5 RSV, 4 B, 3:0 OP, written out. -/
theorem test_decode_words :
    decode 0b00010011 = .ok (.rxread .rx1) ∧ decode 0b00011000 = .ok (.clrovr .rx1) ∧
    decode 0b00001001 = .ok .recover ∧ decode 0b00000101 = .ok .dispatchTo := by decide

/-- V55 to V59: every word a client may not write. -/
theorem test_illegal_words :
    [0x0B, 0x0C, 0x0D, 0x0E, 0x0F, 0x04, 0x05, 0x11, 0x1A, 0x21, 0x80, 0xE3].all
      (fun w => (clientRequest w).isNone) = true := by decide

theorem test_table_word : decodeTableWord 8 0x13 = some (.rxread .rx1) ∧ decodeTableWord 16 0x13 = none := by decide

theorem test_pseudo : Pseudo.expand .clrovrAll = [.clrovr .rx0, .clrovr .rx1] := by decide

/-! ## One step at a time -/

/-- The next step runs the word placed: DISPATCH.TO, from reset. -/
theorem test_fetch_dispatchTo :
    after (step ((st 0 0 0).withFetchWord 8 0x05)) (fun t => decide (t.pkind = .timeout ∧ t.evlog.length = 3)) =
      true := by decide

/-- V52. -/
theorem test_nop : after (step ((st 0 0 0).withFetchWord 8 0x00)) (fun t => decide (t.result = 0x00)) = true := by
  decide

/-- V57: an illegal word. -/
theorem test_illegal_step :
    after (step ((st 0 0 0).withFetchWord 8 0x11)) (fun t => decide (t.result = 0x0F ∧ t.elen = 0)) = true := by
  decide

/-- V2. -/
theorem test_encode_extended :
    after (exec .encode { st 0 0 0 with
      fin := { id := 0x92345678, dlc := 2, data := #v[0xDE, 0xAD, 0x5A, 0x5A, 0x5A, 0x5A, 0x5A, 0x5A] } })
      (fun t => decide (t.elen = 7 ∧ t.img =
        { ctrl := 0x00, sidh := 0x91, sidl := 0xA8, eid8 := 0x56, eid0 := 0x78, dlc := 0x02
          data := #v[0xDE, 0xAD, 0, 0, 0, 0, 0, 0] })) = true := by decide

/-- V12: Length before Identifier. -/
theorem test_encode_length_first :
    after (exec .encode { st 0 0 0 with fin := { zeroFrame with id := 0x00000800, dlc := 12 } })
      (fun t => decide (t.result = 0x11 ∧ t.img = zeroImage)) = true := by decide

/-- V22: SIDL[4] and SIDL[2] are ignored. -/
theorem test_decode_extended :
    after (exec .decode { st 0 0 0 with
      img := { ctrl := 0x00, sidh := 0xFF, sidl := 0xFF, eid8 := 0xFF, eid0 := 0xFF, dlc := 0x48
               data := #v[0, 1, 2, 3, 4, 5, 6, 7] } })
      (fun t => decide (t.fout = { id := 0xDFFFFFFF, dlc := 8, data := #v[0, 1, 2, 3, 4, 5, 6, 7] })) = true := by
  decide

/-- V20: the remote flag in CTRL, under RXCTRL. -/
theorem test_decode_rxctrl :
    after (exec .decode { st 0 0 0 with
      par := { par with rtrSource := .rxctrl }
      img := { zeroImage with ctrl := 0x08, sidh := 0x24, sidl := 0x60 } })
      (fun t => decide (t.fout.id = 0x40000123)) = true := by decide

/-- V26. -/
theorem test_rxread_rx1 :
    after (exec (.rxread .rx1) (rxSt 0 0)) (fun t => decide (t.result = 0x00 ∧ t.lock = .free ∧
      t.fout = { id := 0x92345678, dlc := 2, data := #v[0xDE, 0xAD, 0, 0, 0, 0, 0, 0] } ∧
      addrs t = [0x71, 0x72, 0x73, 0x74, 0x75, 0x76, 0x77])) = true := by decide

/-- V31: the 14th read, under RXCTRL, fails. -/
theorem test_rxread_last_fails :
    after (exec (.rxread .rx0) (draws (List.replicate 13 .ok ++ [.fail false])
      { fullSt 0 with par := { par with rtrSource := .rxctrl } }))
      (fun t => decide (t.result = 0xE2 ∧ t.fout = zeroFrame ∧
        addrs t = [0x61, 0x62, 0x63, 0x64, 0x65, 0x60, 0x66, 0x67, 0x68, 0x69, 0x6A, 0x6B, 0x6C, 0x6D])) = true := by
  decide

/-- V34. -/
theorem test_snaperr_tec_fails :
    after (exec .snaperr (draws [.ok, .fail false] (st 0 0x40 3)))
      (fun t => decide (t.result = 0x22 ∧ t.esnap.valid = false ∧ t.esnap.eflg = 0)) = true := by decide

/-- V40 and V41: TXEP is not consulted, TXBO is. -/
theorem test_classify :
    after (exec .classify { st 0 0 0 with esnap := { eflg := 0x10, tec := 0, recv := 0, valid := true } })
      (fun t => decide (t.eclass = .active)) = true ∧
    after (exec .classify { st 0 0 0 with esnap := { eflg := 0x20, tec := 0, recv := 0, valid := true } })
      (fun t => decide (t.eclass = .busOff ∧ t.recpend = true)) = true := by decide

/-- V42. -/
theorem test_clrovr :
    after (exec (.clrovr .rx0) (st 0 0xC0 0)) (fun t => decide (t.chipByte 0x2D = 0x80 ∧ t.result = 0)) = true := by
  decide

/-- V47. -/
theorem test_recover_fails :
    after (exec .recover (st 0 0x20 0)) (fun t => decide (t.result = 0x04 ∧ t.recfails = 1 ∧ t.recnext = 27 ∧
      addrs t = [0x0F, 0x0E, 0x2D])) = true := by decide

/-- V48. -/
theorem test_recover_mode_timeout :
    after (exec .recover { st 0 0 0 with chip := Memory.write (st 0 0 0).chip 0x0E 0x80 })
      (fun t => decide (t.result = 0x03 ∧ addrs t = [0x0F, 0x0E, 0x0E, 0x0E])) = true := by decide

/-- V60. -/
theorem test_breset :
    after (exec .breset { token (st 0 0 0) with eclass := .busOff, recpend := true, rxretry0 := 1 })
      (fun t => decide (t.bstat = 0x06 ∧ t.evq = 1 ∧ t.evlog.map Record.bytes = [[0x14, 0, 0, 0, 0]])) = true := by
  decide

/-- P3. -/
theorem test_dispatch_fans_out :
    after (exec .dispatch (token (rxSt 0x56 0))) (fun t => decide (t.chipByte 0x2C = 0 ∧ t.evq = 0 ∧
      t.evlog.map Record.bytes =
        [[0x12, 0, 0, 0, 0], [0x01, 0x56, 0, 0, 0], [0x03, 1, 2, 0, 0], [0x07, 0x14, 0, 0, 0], [0x0E, 0, 0, 0, 0],
         [0x10, 0x56, 0, 0, 0], [0x13, 0x56, 0, 0, 0]])) = true := by decide

/-- R10, R199: in a pass CLASSIFY is a step of its own. The snapshot's last read leaves the pass in ERRS with no class,
and the clients may act before the class and its record come. -/
theorem test_pass_classify_steps :
    (dispStep (errsAt (.snapRec 0x20 3))).any (fun t =>
      decide (t.dstate = .errs ∧ t.eclass = .unknown ∧ t.evlog = [] ∧ t.esnap = ⟨0x20, 3, 0, true⟩)) = true ∧
    ((dispStep (errsAt (.snapRec 0x20 3))).bind dispStep).any (fun t =>
      decide (t.dstate = .recs ∧ t.eclass = .busOff ∧ t.errok = true ∧
        t.evlog.map Record.bytes = [[0x08, 2, 0x20, 3, 0]])) = true := by decide

/-- P5: RX0, set by the chip during the pass, survives; without a native modify, set between the read and the write,
it is lost. The agenda gives the dispatcher its steps up to that point, then the chip acts. -/
theorem test_dispatch_flag_set_meanwhile :
    after (exec .dispatch { token (rxSt 0x04 0) with
      agenda := [.dispatcher, .dispatcher, .env (.chip (.loadRx .rx0 zeroImage))] })
      (fun t => decide (t.chipByte 0x2C = 0x01 ∧ t.hmask = 0x04 ∧ t.dstate = .idle)) = true ∧
    after (exec .dispatch { token (nonNative (rxSt 0x04 0)) with
      agenda := List.replicate 10 .dispatcher ++ [.env (.chip (.loadRx .rx0 zeroImage))] })
      (fun t => decide (t.chipByte 0x2C = 0x00 ∧ addrs t = [0x2C, 0x2C, 0x2C] ∧ t.dstate = .idle)) = true := by
  decide

/-- P2, pass 2. -/
theorem test_dispatchTo_drops :
    after (exec .dispatchTo { due (rxSt 0x01 0) with rxretry0 := 1 }) (fun t => decide (t.chipByte 0x2C = 0 ∧
      t.idleSince = 17 ∧ t.rxq = [] ∧ t.evlog.map Record.bytes =
        [[0x12, 1, 0, 0, 0], [0x01, 0x01, 0, 0, 0], [0x05, 0, 0x11, 0, 0], [0x10, 0x01, 0, 0, 0],
         [0x13, 0x01, 0, 0, 0]])) = true := by decide

/-! ## Steps of the environment, and another layout -/

/-- R26: OPREQ reads as the last word written, before the port takes its turn. -/
theorem test_opreq_reads_write :
    after (step (turn (.env (.client (.wrOpreq 2 0x13))) (st 0 0 0)))
      (fun t => decide (t.opreq = 0x13 ∧ t.held = [⟨2, 0x13⟩] ∧ t.port = none)) = true := by decide

/-- R63: the read half of a client's modify changes no register, and the write half loses the flag the chip set in
between. -/
theorem test_client_modify_halves :
    after (step { turn (.env (.client (.xmodify 2 0x2C 0x04 0x00))) (nonNative (st 0x04 0 0)) with lock := .client 2 })
      (fun t => decide (t.chipByte 0x2C = 0x04 ∧ t.halves = [⟨2, 0x2C, 0x00⟩])) = true ∧
    after (step { turn (.env (.client (.xmodifyWrite 2))) (nonNative (st 0x05 0 0)) with
      lock := .client 2, halves := [⟨2, 0x2C, 0x00⟩] })
      (fun t => decide (t.chipByte 0x2C = 0x00 ∧ t.halves = [] ∧ addrs t = [0x2C])) = true := by decide

/-- R6: the pass reads and clears the flags where the layout has them. -/
theorem test_moved_pass :
    after (exec .dispatch (token (moved 0x03 0x01)))
      (fun t => decide (t.hmask = 0x03 ∧ t.chipByte 0x10 = 0x00 ∧ t.chipByte 0x11 = 0x00 ∧ t.eclass = .active ∧
        addrs t = [0x10, 0x11, 0x1C, 0x1D, 0x11, 0x10])) = true := by decide

/-- R2, R92 to R96: ENCODE and DECODE place and read each field where the layout has it. -/
theorem test_moved_codec :
    after (exec .encode { moved 0 0 with fin := { zeroFrame with id := 0xDFFFFFFF, dlc := 2 } })
      (fun t => decide (t.img = { zeroImage with
        ctrl := 0x01, sidh := 0xFF, sidl := 0xBE, eid8 := 0xFF, eid0 := 0xFF, dlc := 0x09 })) = true ∧
    after (exec .decode { moved 0 0 with
      img := { zeroImage with sidh := 0x24, sidl := 0x46, dlc := 0xC5 } })
      (fun t => decide (t.fout = { zeroFrame with id := 0x40000123, dlc := 1 })) = true := by decide

/-- R104: the bytes sent. -/
theorem test_wire :
    (BusOp.modify 0x2C 0x04 0x00).wire mcp2515 = [0x05, 0x2C, 0x04, 0x00] ∧
    (BusOp.read 0x2C).wire mcp2515 = [0x03, 0x2C] ∧ (BusOp.write 0x2B 0x7F).wire mcp2515 = [0x02, 0x2B, 0x7F] ∧
    BusOp.reset.wire mcp2515 = [0xC0] ∧ BusOp.reset.wire (moved 0 0).par.layout = [0x0C] := by decide

/-! ## Witnesses: what meets the hypotheses of each statement -/

theorem wit_RequestWordRoundTrip : decode 0x18 = .ok (.clrovr .rx1) := by decide

/-- A turn for each register a client writes, at the ends of the byte ranges, with a request already held. -/
theorem wit_ClientWritesRegisters :
    (∃ s : State, s.agenda = [.env (.client (.wrFinId 0x800007FF))]) ∧
    (∃ s : State, s.agenda = [.env (.client (.wrFinDlc 9))]) ∧
    (∃ s : State, s.agenda = [.env (.client (.wrFinData 7 0xFF))]) ∧
    (∃ s : State, s.agenda = [.env (.client (.wrImg 0 0xFF))]) ∧
    (∃ s : State, s.agenda = [.env (.client (.wrImg 13 0xFF))]) ∧
    (∃ s : State, s.agenda = [.env (.client (.wrOpreq 2 0xE3))] ∧ s.held = [⟨1, 0x01⟩]) ∧
    ∃ s : State, s.agenda = [.env (.client (.wrBstat 0xFF))] :=
  ⟨⟨turn (.env (.client (.wrFinId 0x800007FF))) (st 0 0 0), rfl⟩,
    ⟨turn (.env (.client (.wrFinDlc 9))) (st 0 0 0), rfl⟩,
    ⟨turn (.env (.client (.wrFinData 7 0xFF))) (st 0 0 0), rfl⟩,
    ⟨turn (.env (.client (.wrImg 0 0xFF))) (st 0 0 0), rfl⟩,
    ⟨turn (.env (.client (.wrImg 13 0xFF))) (st 0 0 0), rfl⟩,
    ⟨{ turn (.env (.client (.wrOpreq 2 0xE3))) (st 0 0 0) with held := [⟨1, 0x01⟩] }, rfl, rfl⟩,
    turn (.env (.client (.wrBstat 0xFF))) (st 0 0 0), rfl⟩

/-- The state of a request word at the port. -/
def requested (w : Byte) : State := { turn .port (st 0 0 0) with held := [⟨1, w⟩] }

/-- A word for each way of being illegal, at the edges of the ranges. -/
theorem wit_IllegalRequestSetsResultOnly :
    (∃ (s : State) (r : Request), s.agenda = [.port] ∧ s.port = none ∧ s.held = [r] ∧ r.word.extractLsb' 5 3 ≠ 0) ∧
    (∃ (s : State) (r : Request), s.agenda = [.port] ∧ s.port = none ∧ s.held = [r] ∧
      0xB ≤ (r.word.extractLsb' 0 4).toNat) ∧
    (∃ (s : State) (r : Request), s.agenda = [.port] ∧ s.port = none ∧ s.held = [r] ∧ r.word.extractLsb' 0 4 = 0x4) ∧
    (∃ (s : State) (r : Request), s.agenda = [.port] ∧ s.port = none ∧ s.held = [r] ∧ r.word.extractLsb' 0 4 = 0x5) ∧
    ∃ (s : State) (r : Request), s.agenda = [.port] ∧ s.port = none ∧ s.held = [r] ∧
      r.word.getLsbD 4 = true ∧ r.word.extractLsb' 0 4 ≠ 0x3 ∧ r.word.extractLsb' 0 4 ≠ 0x8 :=
  ⟨⟨requested 0x23, ⟨1, 0x23⟩, by decide⟩, ⟨requested 0x0B, ⟨1, 0x0B⟩, by decide⟩,
    ⟨requested 0x04, ⟨1, 0x04⟩, by decide⟩, ⟨requested 0x05, ⟨1, 0x05⟩, by decide⟩,
    requested 0x11, ⟨1, 0x11⟩, by decide⟩

/-- With an operation at the port. -/
def busyWith (p : PortState) (s : State) : State := { turn .port s with port := some p }

/-- With the port idle; with each kind of waiting operation; and with a running one that has no step, ends, and goes
on. -/
theorem wit_PortStepRunsRequest :
    (∃ (s : State) (r : Request) (i : Instr), s.agenda = [.port] ∧ s.port = none ∧ s.held = [r] ∧
      decode r.word = .ok i ∧ i.wellFormed .client = true) ∧
    (∃ s : State, s.agenda = [.port] ∧ s.port = some (.acquire .recover)) ∧
    (∃ s : State, s.agenda = [.port] ∧ s.port = some .resetWait) ∧
    (∃ s : State, s.agenda = [.port] ∧ s.port ≠ none ∧ portStep { s with agenda := [] } = none) ∧
    (∃ s t : State, s.agenda = [.port] ∧ s.port ≠ none ∧ portStep { s with agenda := [] } = some t ∧ t.port = none) ∧
    ∃ s t : State, s.agenda = [.port] ∧ s.port ≠ none ∧ portStep { s with agenda := [] } = some t ∧ t.port ≠ none :=
  ⟨⟨requested 0x13, ⟨1, 0x13⟩, .rxread .rx1, by decide⟩, ⟨busyWith (.acquire .recover) (st 0 0 0), by decide⟩,
    ⟨busyWith .resetWait (st 0 0 0), by decide⟩,
    ⟨busyWith (.acquire .snaperr) { st 0 0 0 with lock := .dispatcher }, by decide⟩,
    ⟨busyWith (.run (.snapRec 0 0)) (st 0 0 0), _, rfl, by decide, rfl, by decide⟩,
    busyWith (.run .snapEflg) (st 0 0 0), _, rfl, by decide, rfl, by decide⟩

/-- With a token, with none and the timeout due at its first tick, and one tick before; a pass that is held, one that
ends, and one that goes on. -/
theorem wit_DispatcherStepRunsPass :
    (∃ s : State, s.agenda = [.dispatcher] ∧ s.dstate = .idle ∧ 0 < s.evq) ∧
    (∃ s : State, s.agenda = [.dispatcher] ∧ s.dstate = .idle ∧ s.evq = 0 ∧
      s.idleSince + s.par.wakeTimeout = s.now) ∧
    (∃ s : State, s.agenda = [.dispatcher] ∧ s.dstate = .idle ∧ s.evq = 0 ∧
      s.now + 1 = s.idleSince + s.par.wakeTimeout) ∧
    (∃ s : State, s.agenda = [.dispatcher] ∧ s.dstate ≠ .idle ∧ dispStep { s with agenda := [] } = none) ∧
    (∃ s t : State, s.agenda = [.dispatcher] ∧ s.dstate ≠ .idle ∧ dispStep { s with agenda := [] } = some t ∧
      t.dstate = .idle) ∧
    ∃ s t : State, s.agenda = [.dispatcher] ∧ s.dstate ≠ .idle ∧ dispStep { s with agenda := [] } = some t ∧
      t.dstate ≠ .idle :=
  ⟨⟨turn .dispatcher (token (st 0 0 0)), by decide⟩, ⟨turn .dispatcher (due (st 0 0 0)), by decide⟩,
    ⟨{ turn .dispatcher (st 0 0 0) with now := 16 }, by decide⟩,
    ⟨{ turn .dispatcher (st 0 0 0) with dstate := .acq, lock := .client 1 }, by decide⟩,
    ⟨{ turn .dispatcher (st 0 0 0) with dstate := .rel }, _, rfl, by decide, rfl, rfl⟩,
    { turn .dispatcher (st 0 0 0) with dstate := .txs }, _, rfl, by decide, rfl, by decide⟩

theorem wit_BusyPortHoldsRequest :
    ∃ (s : State) (i : Instr), s.port ≠ none ∧ i.wellFormed .client = true :=
  ⟨{ st 0 0 0 with port := some .resetWait }, .nop, by decide⟩

/-- A port operation begun, and one that waits; a pass that waits for a client that holds LOCK directly, and one that
need not; and a lock act of a client beside another one's half-done modify, with LOCK FREE and held. -/
theorem wit_LockTakenHoldsOperation :
    (∃ s : State, s.port = none ∧ s.lock ≠ .free) ∧
    (∃ s : State, s.port = some (.acquire .snaperr) ∧ s.lock ≠ .free) ∧
    (∃ s : State, s.dstate = .acq ∧ s.port = none ∧ s.lock = .client 2) ∧
    (∃ s : State, s.dstate = .acq ∧ s.lock = .free) ∧
    (∃ s : State, s.agenda = [.env (.client (.lock 3))] ∧ (∀ h ∈ s.halves, h.client ≠ 3) ∧ s.lock = .free) ∧
    ∃ s : State, s.agenda = [.env (.client (.lock 3))] ∧ (∀ h ∈ s.halves, h.client ≠ 3) ∧ s.lock = .client 2 ∧
      s.halves = [⟨2, 0x2C, 0x00⟩] :=
  ⟨⟨{ st 0 0 0 with lock := .dispatcher }, by decide⟩,
    ⟨busyWith (.acquire .snaperr) { st 0 0 0 with lock := .client 0 }, by decide⟩,
    ⟨{ st 0 0 0 with dstate := .acq, lock := .client 2 }, by decide⟩, ⟨{ st 0 0 0 with dstate := .acq }, by decide⟩,
    ⟨turn (.env (.client (.lock 3))) (st 0 0 0), by decide⟩,
    { turn (.env (.client (.lock 3))) (st 0 0 0) with lock := .client 2, halves := [⟨2, 0x2C, 0x00⟩] }, by decide⟩

theorem wit_NopSetsResult : (st 0 0 0).port = none := by decide

/-- A frame in FIN. -/
def withFin (id : IdWord) (dlc : Byte) : State := { st 0 0 0 with fin := { zeroFrame with id := id, dlc := dlc } }

/-- The largest standard identifier with length 8 in the default layout, and the largest extended one with length 0 in
another. -/
theorem wit_EncodeWritesImage :
    (∃ (s : State) (m : ChipLayout), s.port = none ∧ s.par.layout = m ∧ m.Wf ∧ s.fin.dlc.toNat ≤ 8 ∧
      s.fin.id.getLsbD 29 = false ∧ s.fin.id.extractLsb' 11 18 = 0 ∧ s.fin.id.getLsbD 31 = false) ∧
    ∃ (s : State) (m : ChipLayout), s.port = none ∧ s.par.layout = m ∧ m.Wf ∧ s.fin.dlc.toNat ≤ 8 ∧
      s.fin.id.getLsbD 29 = false ∧ s.fin.id.getLsbD 31 = true :=
  ⟨⟨withFin 0x000007FF 8, mcp2515, by decide⟩,
    { moved 0 0 with fin := { zeroFrame with id := 0x9FFFFFFF } }, (moved 0 0).par.layout, by decide⟩

/-- V9, V11 and V10. -/
theorem wit_EncodeRefusesInvalidFrame :
    (∃ s : State, s.port = none ∧ 8 < s.fin.dlc.toNat) ∧
    (∃ s : State, s.port = none ∧ s.fin.dlc.toNat ≤ 8 ∧ s.fin.id.getLsbD 29 = true) ∧
    ∃ s : State, s.port = none ∧ s.fin.dlc.toNat ≤ 8 ∧ s.fin.id.getLsbD 31 = false ∧
      s.fin.id.extractLsb' 11 18 ≠ 0 :=
  ⟨⟨withFin 0x00000123 9, by decide⟩, ⟨withFin 0x20000123 0, by decide⟩, withFin 0x00000800 8, by decide⟩

/-- An image in IMG, under a remote source. -/
def withImg (src : RtrSource) (ctrl sidl dlc : Byte) : State :=
  { st 0 0 0 with
    par := { par with rtrSource := src }, img := { zeroImage with ctrl := ctrl, sidl := sidl, dlc := dlc } }

/-- Both identifier forms, both remote sources, lengths 8 and 0. -/
theorem wit_DecodeWritesFrame :
    (∃ (s : State) (m : ChipLayout), s.port = none ∧ s.par.layout = m ∧
      8 = (s.img.dlc.extractLsb' m.dlcLo.val 4).toNat ∧ s.img.sidl.getLsbD m.exideBit.val = true ∧
      s.par.rtrSource = .dlcByte) ∧
    ∃ (s : State) (m : ChipLayout), s.port = none ∧ s.par.layout = m ∧
      0 = (s.img.dlc.extractLsb' m.dlcLo.val 4).toNat ∧ s.img.sidl.getLsbD m.exideBit.val = false ∧
      s.par.rtrSource = .rxctrl :=
  ⟨⟨withImg .dlcByte 0x00 0xEB 0xB8, mcp2515, by decide⟩, withImg .rxctrl 0x08 0x70 0x40, mcp2515, by decide⟩

/-- V25 and V18. -/
theorem wit_DecodeRefusesLength :
    (∃ s : State, s.port = none ∧ (s.img.dlc.extractLsb' s.par.layout.dlcLo.val 4).toNat = 9) ∧
    ∃ s : State, s.port = none ∧ (s.img.dlc.extractLsb' s.par.layout.dlcLo.val 4).toNat = 15 :=
  ⟨⟨withImg .dlcByte 0 0x60 0x09, by decide⟩, withImg .rxctrl 0 0x60 0x0F, by decide⟩

theorem wit_CodecRoundTrip :
    ∃ s t u : State, s.port = none ∧ s.layoutInv ∧ s.fin.valid = true ∧ exec .encode s = .next t ∧ u.port = none ∧
      u.img = t.img ∧ u.par.layout = s.par.layout :=
  ⟨{ moved 0 0 with fin := { zeroFrame with id := 0xC0000001, dlc := 3 } }, _, _, by decide, by decide, by decide,
    rfl, rfl, rfl, rfl⟩

theorem wit_DecodeEncodeDecodeStable :
    ∃ s t : State, s.port = none ∧ s.layoutInv ∧ exec .decode s = .next t ∧ t.result = 0x00 :=
  ⟨{ st 0 0 0 with img := { zeroImage with sidl := 0x63, dlc := 0xB8 } }, _, by decide, by decide, rfl, by decide⟩

/-- Two standard images that differ in every ignored bit, under DLC_BYTE, and two extended ones under RXCTRL. -/
theorem wit_DecodeIgnoresReservedBits :
    (∃ (s t : State) (m : ChipLayout), s.port = none ∧ t.port = none ∧ s.par = t.par ∧ s.par.layout = m ∧
      s.fout = t.fout ∧ s.img.sidh = t.img.sidh ∧
      s.img.sidl.extractLsb' m.sidLo.val 3 = t.img.sidl.extractLsb' m.sidLo.val 3 ∧
      s.img.sidl.getLsbD m.exideBit.val = t.img.sidl.getLsbD m.exideBit.val ∧
      s.img.sidl.getLsbD m.exideBit.val = false ∧
      s.img.dlc.extractLsb' m.dlcLo.val 4 = t.img.dlc.extractLsb' m.dlcLo.val 4 ∧
      s.par.rtrSource = .dlcByte ∧ s.img.dlc.getLsbD m.dlcRtrBit.val = t.img.dlc.getLsbD m.dlcRtrBit.val ∧
      (∀ i : Fin 8, i.val < (s.img.dlc.extractLsb' m.dlcLo.val 4).toNat → s.img.data[i] = t.img.data[i]) ∧
      s.img ≠ t.img) ∧
    ∃ (s t : State) (m : ChipLayout), s.port = none ∧ t.port = none ∧ s.par = t.par ∧ s.par.layout = m ∧
      s.fout = t.fout ∧ s.img.sidh = t.img.sidh ∧
      s.img.sidl.extractLsb' m.sidLo.val 3 = t.img.sidl.extractLsb' m.sidLo.val 3 ∧
      s.img.sidl.getLsbD m.exideBit.val = t.img.sidl.getLsbD m.exideBit.val ∧
      (s.img.sidl.getLsbD m.exideBit.val = true ∧
      s.img.sidl.extractLsb' m.eidLo.val 2 = t.img.sidl.extractLsb' m.eidLo.val 2 ∧
        s.img.eid8 = t.img.eid8 ∧ s.img.eid0 = t.img.eid0) ∧
      s.img.dlc.extractLsb' m.dlcLo.val 4 = t.img.dlc.extractLsb' m.dlcLo.val 4 ∧ s.par.rtrSource = .rxctrl ∧
      s.img.ctrl.getLsbD m.rxrtrBit.val = t.img.ctrl.getLsbD m.rxrtrBit.val ∧
      (∀ i : Fin 8, i.val < (s.img.dlc.extractLsb' m.dlcLo.val 4).toNat → s.img.data[i] = t.img.data[i]) ∧
      s.img ≠ t.img :=
  ⟨⟨withImg .dlcByte 0x00 0x60 0x08, withImg .dlcByte 0xFF 0x77 0xB8, mcp2515, by decide⟩,
    withImg .rxctrl 0x08 0x6B 0x00, withImg .rxctrl 0xFF 0x7F 0xF0, mcp2515, by decide⟩

theorem wit_RxreadDecodesBuffer :
    (rxSt 0 0).portReady ∧ (rxSt 0 0).quiet ∧
      2 = (((rxSt 0 0).rxImage .rx1).dlc.extractLsb' (rxSt 0 0).par.layout.dlcLo.val 4).toNat ∧
    (fullSt 0).portReady ∧ (fullSt 0).quiet ∧
      8 = (((fullSt 0).rxImage .rx0).dlc.extractLsb' (fullSt 0).par.layout.dlcLo.val 4).toNat := by decide

theorem wit_RxreadRefusesLength :
    (rxSt 0 0).portReady ∧ (rxSt 0 0).quiet ∧
      8 < (((rxSt 0 0).rxImage .rx0).dlc.extractLsb' (rxSt 0 0).par.layout.dlcLo.val 4).toNat := by decide

/-- The first read, and the last of a full buffer. -/
theorem wit_RxreadTransportFailure :
    (∃ s : State, s.portReady ∧ s.agenda = [] ∧ [true].length = s.par.xferAttempts ∧
      15 = ((s.rxImage .rx0).dlc.extractLsb' s.par.layout.dlcLo.val 4).toNat ∧
      0 < (rxAddresses s.par.layout s.par.rtrSource .rx0 15).length ∧
      s.xport = List.replicate 0 XDraw.ok ++ [true].map XDraw.fail ++ []) ∧
    ∃ s : State, s.portReady ∧ s.agenda = [] ∧ [true].length = s.par.xferAttempts ∧
      8 = ((s.rxImage .rx0).dlc.extractLsb' s.par.layout.dlcLo.val 4).toNat ∧
      12 < (rxAddresses s.par.layout s.par.rtrSource .rx0 8).length ∧
      s.xport = List.replicate 12 XDraw.ok ++ [true].map XDraw.fail ++ [] :=
  ⟨⟨draws [.fail true] (rxSt 0 0), by decide⟩, draws (List.replicate 12 .ok ++ [.fail true]) (fullSt 0), by decide⟩

theorem wit_ClientOperationFrame :
    ∃ t, exec (LockOp.instr (.rxread .rx1)) (rxSt 0 0) = .next t ∧
      ∃ u, exec (LockOp.instr (.clrovr .rx0)) (rxSt 0 0) = .next u := ⟨_, rfl, _, rfl⟩

theorem wit_SnaperrTakesSnapshot : (st 0 0x40 3).portReady ∧ (st 0 0x40 3).quiet := by decide

theorem wit_SnaperrTransportFailure :
    (∃ s : State, s.portReady ∧ s.agenda = [] ∧ [false].length = s.par.xferAttempts ∧
      s.xport = List.replicate 0 XDraw.ok ++ [false].map XDraw.fail ++ []) ∧
    ∃ s : State, s.portReady ∧ s.agenda = [] ∧ [false].length = s.par.xferAttempts ∧
      s.xport = List.replicate 2 XDraw.ok ++ [false].map XDraw.fail ++ [] :=
  ⟨⟨draws [.fail false] (st 0 0 0), by decide⟩, draws [.ok, .ok, .fail false] (st 0 0 0), by decide⟩

/-- A snapshot in ESNAP. -/
def withSnap (eflg tec recv : Byte) : State :=
  { st 0 0 0 with esnap := { eflg := eflg, tec := tec, recv := recv, valid := true } }

/-- A valid snapshot for each branch: bus-off, either counter at 128, both at 127. -/
theorem wit_ClassifySnapshot :
    (∃ s : State, s.portReady ∧ s.esnap.valid = true ∧
      s.esnap.eflg.getLsbD s.par.layout.txboBit.val = true) ∧
    (∃ s : State, s.portReady ∧ s.esnap.valid = true ∧ s.esnap.eflg.getLsbD s.par.layout.txboBit.val = false ∧
      s.esnap.tec.toNat = 128) ∧
    (∃ s : State, s.portReady ∧ s.esnap.valid = true ∧ s.esnap.eflg.getLsbD s.par.layout.txboBit.val = false ∧
      s.esnap.recv.toNat = 128) ∧
    ∃ s : State, s.portReady ∧ s.esnap.valid = true ∧ s.esnap.eflg.getLsbD s.par.layout.txboBit.val = false ∧
      s.esnap.tec.toNat = 127 ∧
      s.esnap.recv.toNat = 127 :=
  ⟨⟨withSnap 0x20 0 0, by decide⟩, ⟨withSnap 0x00 128 0, by decide⟩, ⟨withSnap 0x10 0 128, by decide⟩,
    withSnap 0x00 127 127, by decide⟩

theorem wit_ClassifyWithoutSnapshot : (st 0 0 0).portReady ∧ (st 0 0 0).esnap.valid = false := by decide

theorem wit_ClrovrClearsOneBit :
    (st 0 0xC0 0).portReady ∧ (st 0 0xC0 0).quiet ∧ (st 0 0xC0 0).layoutInv ∧ (nonNative (moved 0 0x03)).portReady ∧
    (nonNative (moved 0 0x03)).quiet ∧ (nonNative (moved 0 0x03)).layoutInv := by decide

theorem wit_ClrovrTransportFailure :
    ∃ s : State, s.portReady ∧ s.agenda = [] ∧ s.layoutInv ∧ s.par.nativeBitModify = true ∧
      [true].length = s.par.xferAttempts ∧ s.xport = [true].map XDraw.fail ++ [] :=
  ⟨draws [.fail true] (st 0 0xC0 0), by decide⟩

/-- V45. -/
theorem wit_RecoverBackoffPending : ∃ s : State, s.portReady ∧ s.recfails ≠ 0 ∧ s.now < s.recnext :=
  ⟨{ st 0 0 0 with recfails := 1, recnext := 50, now := 49 }, by decide⟩

/-- V46, and V51 at the tick its backoff ends. -/
theorem wit_RecoverAtFirstPoll :
    (∃ s : State, s.portReady ∧ s.quiet ∧ s.layoutInv ∧ s.recfails = 0 ∧
      (s.chipByte s.par.layout.canstat).extractLsb' s.par.layout.opmodLo.val 3 = s.par.layout.normal ∧
      (s.chipByte s.par.layout.eflg).getLsbD s.par.layout.txboBit.val = false) ∧
    ∃ s : State, s.portReady ∧ s.quiet ∧ s.layoutInv ∧ s.recfails = 255 ∧ s.recnext = s.now ∧
      (s.chipByte s.par.layout.canstat).extractLsb' s.par.layout.opmodLo.val 3 = s.par.layout.normal ∧
      (s.chipByte s.par.layout.eflg).getLsbD s.par.layout.txboBit.val = true :=
  ⟨⟨st 0 0 0, by decide⟩, { st 0 0x20 0 with recfails := 255, recnext := 7 }, by decide⟩

theorem wit_RecoverModeTimeout :
    ∃ s : State, s.portReady ∧ s.quiet ∧ s.layoutInv ∧ s.par.nativeBitModify = true ∧ s.par.pollDelay = 0 ∧
      s.recfails = 0 ∧
      (s.chipByte s.par.layout.canstat).extractLsb' s.par.layout.opmodLo.val 3 ≠ s.par.layout.normal :=
  ⟨{ st 0 0 0 with chip := Memory.write (st 0 0 0).chip 0x0E 0x80 }, by decide⟩

theorem wit_RecoverTransportFailure :
    (∃ s : State, s.portReady ∧ s.agenda = [] ∧ s.layoutInv ∧ s.par.nativeBitModify = true ∧
      [true].length = s.par.xferAttempts ∧
      s.xport = List.replicate 0 XDraw.ok ++ [true].map XDraw.fail ++ [] ∧ s.recfails = 0 ∧
      (s.chipByte s.par.layout.canstat).extractLsb' s.par.layout.opmodLo.val 3 = s.par.layout.normal) ∧
    ∃ s : State, s.portReady ∧ s.agenda = [] ∧ s.layoutInv ∧ s.par.nativeBitModify = true ∧
      [true].length = s.par.xferAttempts ∧
      s.xport = List.replicate 2 XDraw.ok ++ [true].map XDraw.fail ++ [] ∧ s.recfails = 0 ∧
      (s.chipByte s.par.layout.canstat).extractLsb' s.par.layout.opmodLo.val 3 = s.par.layout.normal :=
  ⟨⟨draws [.fail true] (st 0 0 0), by decide⟩, draws [.ok, .ok, .fail true] (st 0 0 0), by decide⟩

/-- A wait of 3 ticks that is not over, and one that is. -/
def waiting (now : Nat) : State :=
  { st 0 0 0 with port := some (.run (.recWait 1 7)), now := now, par := { par with pollDelay := 3 } }

theorem wit_RecoverWaitsForClock :
    (waiting 9).port = some (.run (.recWait 1 7)) ∧ (waiting 9).now < 7 + (waiting 9).par.pollDelay ∧
    7 + (waiting 10).par.pollDelay ≤ (waiting 10).now := by decide

theorem wit_BackoffNondecreasing : (1 : Nat) ≤ 2 ∧ par.backoff 1 = 20 ∧ par.backoff 2 = 40 := by decide

theorem wit_BresetResetsBlock : (st 0 0 0).portReady ∧ (st 0 0 0).dstate = .idle := by decide

theorem wit_BresetHeld :
    (∃ s : State, s.port = none ∧ s.dstate ≠ .idle) ∧ ∃ s : State, s.port = none ∧ s.lock ≠ .free :=
  ⟨⟨{ st 0 0 0 with dstate := .acq }, by decide⟩, { st 0 0 0 with lock := .client 3 }, by decide⟩

/-- Either kind of pass: every flag the statement admits, and none. -/
theorem wit_PassHandlesTxAndWake :
    (∃ (s : State) (f : Byte), s.passReady .event ∧ s.quiet ∧ s.par.layout = mcp2515 ∧ s.recpend = false ∧
      f = s.chipByte 0x2C ∧
      f &&& 0x23 = 0 ∧ f = 0xDC) ∧
    ∃ (s : State) (f : Byte), s.passReady .timeout ∧ s.quiet ∧ s.par.layout = mcp2515 ∧ s.recpend = false ∧
      f = s.chipByte 0x2C ∧
      f &&& 0x23 = 0 ∧ f = 0x00 :=
  ⟨⟨token (st 0xDC 0 0), 0xDC, by decide⟩, due (st 0 0 0), 0, by decide⟩

theorem wit_PassFlagReadFailure :
    (∃ s : State, s.passReady .event ∧ s.agenda = [] ∧ [false].length = s.par.xferAttempts ∧
      s.xport = [false].map XDraw.fail ++ []) ∧
    ∃ s : State, s.passReady .timeout ∧ s.agenda = [] ∧ [false].length = s.par.xferAttempts ∧
      s.xport = [false].map XDraw.fail ++ [] :=
  ⟨⟨token (draws [.fail false] (st 0 0 0)), by decide⟩, due (draws [.fail false] (st 0 0 0)), by decide⟩

/-- With a native modify and without. -/
theorem wit_PassDeliversFrame :
    (∃ s : State, s.passReady .event ∧ s.quiet ∧ s.par.layout = mcp2515 ∧ s.par.nativeBitModify = false ∧
      s.recpend = false ∧
      s.chipByte 0x2C = 0x02 ∧ 2 = ((s.rxImage .rx1).dlc.extractLsb' 0 4).toNat ∧ s.rxq.length < s.par.rxqCap) ∧
    ∃ s : State, s.passReady .timeout ∧ s.quiet ∧ s.par.layout = mcp2515 ∧ s.par.nativeBitModify = true ∧
      s.recpend = false ∧
      s.chipByte 0x2C = 0x01 ∧ 8 = ((s.rxImage .rx0).dlc.extractLsb' 0 4).toNat ∧ s.rxq.length < s.par.rxqCap :=
  ⟨⟨token (nonNative (rxSt 0x02 0)), by decide⟩, due (fullSt 0x01), by decide⟩

theorem wit_PassBackpressure :
    ∃ s : State, s.passReady .event ∧ s.quiet ∧ s.par.layout = mcp2515 ∧ s.recpend = false ∧ s.chipByte 0x2C = 0x02 ∧
      2 = ((s.rxImage .rx1).dlc.extractLsb' 0 4).toNat ∧ s.par.rxqCap ≤ s.rxq.length :=
  ⟨{ token (rxSt 0x02 0) with rxq := [zeroFrame] }, by decide⟩

/-- V66 and V67: the length nibble, at the limit without a native modify; and the transport, at the first read of a buffer with nibble 15 and at the last of a
full one. -/
theorem wit_PassRetriesThenDrops :
    (∃ s : State, s.passReady .event ∧ s.agenda = [] ∧ s.par.layout = mcp2515 ∧
      s.recpend = false ∧ s.chipByte 0x2C = 0x01 ∧
      15 = ((s.rxImage .rx0).dlc.extractLsb' 0 4).toNat ∧ s.xport = [] ∧ s.rxretry .rx0 < s.par.rxRetryLimit) ∧
    (∃ s : State, s.passReady .event ∧ s.agenda = [] ∧ s.par.layout = mcp2515 ∧
      s.recpend = false ∧ s.chipByte 0x2C = 0x01 ∧
      15 = ((s.rxImage .rx0).dlc.extractLsb' 0 4).toNat ∧ s.xport = [] ∧ s.par.rxRetryLimit ≤ s.rxretry .rx0 ∧
      s.par.nativeBitModify = false) ∧
    (∃ s : State, s.passReady .event ∧ s.agenda = [] ∧ s.par.layout = mcp2515 ∧
      s.recpend = false ∧ s.chipByte 0x2C = 0x01 ∧
      15 = ((s.rxImage .rx0).dlc.extractLsb' 0 4).toNat ∧
      0 < (rxAddresses s.par.layout s.par.rtrSource .rx0 15).length ∧ [true].length = s.par.xferAttempts ∧
      s.xport = List.replicate (0 + 1) XDraw.ok ++ [true].map XDraw.fail ∧ s.rxretry .rx0 < s.par.rxRetryLimit) ∧
    ∃ s : State, s.passReady .timeout ∧ s.agenda = [] ∧ s.par.layout = mcp2515 ∧
      s.recpend = false ∧ s.chipByte 0x2C = 0x01 ∧
      8 = ((s.rxImage .rx0).dlc.extractLsb' 0 4).toNat ∧
      12 < (rxAddresses s.par.layout s.par.rtrSource .rx0 8).length ∧ [true].length = s.par.xferAttempts ∧
      s.xport = List.replicate (12 + 1) XDraw.ok ++ [true].map XDraw.fail ∧ s.par.rxRetryLimit ≤ s.rxretry .rx0 :=
  ⟨⟨token (rxSt 0x01 0), by decide⟩, ⟨{ token (nonNative (rxSt 0x01 0)) with rxretry0 := 1 }, by decide⟩,
    ⟨token (draws [.ok, .fail true] (rxSt 0x01 0)), by decide⟩,
    { due (draws (List.replicate 13 .ok ++ [.fail true]) (fullSt 0x01)) with rxretry0 := 1 }, by decide⟩

/-- A pass with ERR in ERRS, whose next transaction fails. -/
def inErrs (p : Option Prog) : State :=
  { draws [.fail false] (st 0x20 0x40 3) with dstate := .errs, lock := .dispatcher, flags := 0x20, dprog := p }

/-- A pass with ERR in OVRS after a good snapshot, whose next transaction fails with its write landed. -/
def inOvrs (e : Byte) (p : Option Prog) : State :=
  { draws [.fail true] (st 0x20 e 3) with
    dstate := .ovrs, lock := .dispatcher, flags := 0x20, dprog := p, errok := true
    esnap := { eflg := e, tec := 3, recv := 0, valid := true } }

/-- V68 without a native modify, and with no overflow bit; each read of the snapshot failing; and an overflow clear failing, of buffer 0 as the
state's first step with buffer 1's to follow, of buffer 1 as its first, and of buffer 1 in progress. -/
theorem wit_PassHandlesErr :
    (∃ (s : State) (e : Byte), s.passReady .event ∧ s.quiet ∧ s.par.layout = mcp2515 ∧ s.par.nativeBitModify = false ∧
      s.chipByte 0x2C = 0x20 ∧ e = s.chipByte 0x2D ∧ e.getLsbD 5 = false ∧ e = 0xC0) ∧
    (∃ (s : State) (e : Byte), s.passReady .timeout ∧ s.quiet ∧ s.par.layout = mcp2515 ∧
      s.par.nativeBitModify = true ∧
      s.chipByte 0x2C = 0x20 ∧ e = s.chipByte 0x2D ∧ e.getLsbD 5 = false ∧ e = 0x00) ∧
    (∀ k : Fin 3, ∃ (s : State) (e c : Byte), s.dstate = .errs ∧ s.flags.getLsbD s.par.layout.errBit.val = true ∧
      s.dprog = (match k.val with | 0 => none | 1 => some (.snapTec e) | _ => some (.snapRec e c)) ∧
      [false].length = s.par.xferAttempts ∧ s.xport = [false].map XDraw.fail ++ []) ∧
    (∃ s : State, s.dstate = .ovrs ∧ s.flags.getLsbD s.par.layout.errBit.val = true ∧ s.layoutInv ∧
      s.par.nativeBitModify = true ∧ [true].length = s.par.xferAttempts ∧ s.xport = [true].map XDraw.fail ++ [] ∧
      s.dprog = none ∧ s.errok = true ∧ ovrSet s.par.layout .rx0 s.esnap.eflg = true) ∧
    (∃ s : State, s.dstate = .ovrs ∧ s.flags.getLsbD s.par.layout.errBit.val = true ∧ s.layoutInv ∧
      s.par.nativeBitModify = true ∧ [true].length = s.par.xferAttempts ∧ s.xport = [true].map XDraw.fail ++ [] ∧
      s.dprog = none ∧ s.errok = true ∧ ovrSet s.par.layout .rx1 s.esnap.eflg = true ∧
      ovrSet s.par.layout .rx0 s.esnap.eflg = false) ∧
    ∃ s : State, s.dstate = .ovrs ∧ s.flags.getLsbD s.par.layout.errBit.val = true ∧ s.layoutInv ∧
      s.par.nativeBitModify = true ∧ [true].length = s.par.xferAttempts ∧ s.xport = [true].map XDraw.fail ++ [] ∧
      s.dprog = some (.ovrClear .rx1 (.start 1)) :=
  ⟨⟨token (nonNative (st 0x20 0xC0 0)), 0xC0, by decide⟩, ⟨due (st 0x20 0x00 128), 0x00, by decide⟩,
    fun
    | 0 => ⟨inErrs none, 0, 0, by decide⟩
    | 1 => ⟨inErrs (some (.snapTec 0x40)), 0x40, 0, by decide⟩
    | 2 => ⟨inErrs (some (.snapRec 0x40 3)), 0x40, 3, by decide⟩,
    ⟨inOvrs 0xC0 none, by decide⟩, ⟨inOvrs 0x80 none, by decide⟩,
    inOvrs 0xC0 (some (.ovrClear .rx1 (.start 1))), by decide⟩

/-- P4, pass A; and a pass with no flag and the latch set, with TXBO 0 and no native modify, and with TXBO 1 at RECFAILS_MAX. -/
theorem wit_PassAttemptsRecovery :
    (∃ (s : State) (e n : Byte), s.passReady .event ∧ s.quiet ∧ s.par.layout = mcp2515 ∧
      s.par.nativeBitModify = true ∧ s.chipByte 0x2C = 0x20 ∧ e = s.chipByte 0x2D ∧ e.getLsbD 5 = true ∧
      e.extractLsb' 6 2 = 0 ∧ s.recfails = 0 ∧ (s.chipByte 0x0E).extractLsb' 5 3 = 0 ∧
      n = BitVec.ofNat 8 (min (s.recfails.toNat + 1) s.par.recfailsMax.toNat)) ∧
    (∃ (s : State) (e n : Byte), s.passReady .timeout ∧ s.quiet ∧ s.par.layout = mcp2515 ∧
      s.par.nativeBitModify = false ∧ s.chipByte 0x2C = 0x00 ∧ s.recpend = true ∧ e = s.chipByte 0x2D ∧ e = 0x00 ∧
      s.recfails = 0 ∧ (s.chipByte 0x0E).extractLsb' 5 3 = 0 ∧
      n = BitVec.ofNat 8 (min (s.recfails.toNat + 1) s.par.recfailsMax.toNat)) ∧
    ∃ (s : State) (e n : Byte), s.passReady .timeout ∧ s.quiet ∧ s.par.layout = mcp2515 ∧
      s.par.nativeBitModify = true ∧ s.chipByte 0x2C = 0x00 ∧ s.recpend = true ∧ e = s.chipByte 0x2D ∧ e = 0x20 ∧
      s.recfails = 255 ∧ s.recnext = s.now ∧ (s.chipByte 0x0E).extractLsb' 5 3 = 0 ∧
      n = BitVec.ofNat 8 (min (s.recfails.toNat + 1) s.par.recfailsMax.toNat) :=
  ⟨⟨token (st 0x20 0x20 0xF8), 0x20, 1, by decide⟩, ⟨{ due (nonNative (st 0 0 0)) with recpend := true }, 0x00, 1, by decide⟩,
    { due (st 0 0x20 0) with recpend := true, recfails := 255, recnext := 17 }, 0x20, 255, by decide⟩

/-- E5, P2 pass 1, with a native modify and without. -/
theorem wit_FlagClearDiscipline :
    (∃ s : State, s.passReady .event ∧ s.quiet ∧ s.par.layout = mcp2515 ∧ s.par.nativeBitModify = true ∧
      s.par.rxRetryLimit = 1 ∧ s.chipByte 0x2C = 0x21 ∧ s.rxretry0 = 0 ∧
      8 < ((s.rxImage .rx0).dlc.extractLsb' 0 4).toNat ∧ (s.chipByte 0x2D).extractLsb' 5 3 = 0) ∧
    ∃ s : State, s.passReady .event ∧ s.quiet ∧ s.par.layout = mcp2515 ∧ s.par.nativeBitModify = false ∧
      s.par.rxRetryLimit = 1 ∧ s.chipByte 0x2C = 0x21 ∧ s.rxretry0 = 0 ∧
      8 < ((s.rxImage .rx0).dlc.extractLsb' 0 4).toNat ∧ (s.chipByte 0x2D).extractLsb' 5 3 = 0 :=
  ⟨⟨token (rxSt 0x21 0), by decide⟩, token (nonNative (rxSt 0x21 0)), by decide⟩

/-- The recovery step of V76. -/
theorem wit_PassDefersRecovery :
    ∃ s : State, s.dstate = .recs ∧ s.dprog = none ∧ s.recpend = true ∧ s.recfails ≠ 0 ∧ s.now < s.recnext :=
  ⟨{ st 0 0 0 with dstate := .recs, recpend := true, recfails := 1, recnext := 20 }, by decide⟩

theorem wit_FinalClearFails :
    ∃ s : State, s.dstate = .clr ∧ s.dprog = none ∧ s.layoutInv ∧ s.par.nativeBitModify = true ∧ s.hmask ≠ 0 ∧
      [true].length = s.par.xferAttempts ∧ s.xport = [true].map XDraw.fail ++ [] :=
  ⟨{ draws [.fail true] (st 0x04 0 0) with dstate := .clr, hmask := 0x04 }, by decide⟩

theorem wit_PassEnds :
    (∃ s : State, s.passReady .event ∧ s.agenda = [] ∧ s.par.pollDelay = 0) ∧
    ∃ s : State, s.passReady .timeout ∧ s.agenda = [] ∧ s.par.pollDelay = 0 :=
  ⟨⟨token (draws [.ok, .fail true] (fullSt 0xFF)), by decide⟩, due (fullSt 0xFF), by decide⟩

/-- A state that meets every invariant, and whose next step is the write half of a client's modify. -/
theorem wit_StepKeepsInvariants :
    ∃ s t : State, s.Inv ∧ step s = .next t :=
  ⟨{ turn (.env (.client (.xmodifyWrite 2))) (st 0 0 0) with lock := .client 2, halves := [⟨2, 0x7F, 0x01⟩] }, _,
    { layout := by decide, mem := by decide, halves := by decide, lock := by decide
      prog := ⟨fun p h => (by cases h), fun m h => (by cases h), by decide⟩
      mask := by decide, queue := by decide
      frame := ⟨by decide, by decide, fun f h => (by cases h)⟩
      latch := by decide, time := by decide, elen := by decide }, rfl⟩

theorem wit_LogAppendOnlyClockForward : ∃ t, step (turn .dispatcher (token (st 0x04 0 0))) = .next t := ⟨_, rfl⟩

/-- An edge, and a state that stays. -/
theorem wit_DispatcherEdges :
    (∃ t, dispStep (token (st 0 0 0)) = some t ∧ edge .idle t.dstate = true) ∧
    ∃ t, dispStep { rxSt 0x01 0 with dstate := .rx0, flags := 0x01 } = some t ∧ t.dstate = .rx0 ∧ t.dprog ≠ none :=
  ⟨⟨_, rfl, by decide⟩, _, rfl, by decide, by decide⟩

theorem wit_PassLeavesClientRegisters : ∃ t, dispStep { st 0 0 0 with dstate := .readf } = some t := ⟨_, rfl⟩

/-- A pass that reads CANINTF, and a client operation that reads EFLG. -/
theorem wit_BlockTransactionsOnly :
    (∃ s t : State, s.lockInv ∧ dispStep s = some t ∧ t.bus ≠ s.bus) ∧
    ∃ s t : State, s.lockInv ∧ portStep s = some t ∧ t.bus ≠ s.bus :=
  ⟨⟨{ st 0 0 0 with dstate := .readf, lock := .dispatcher }, _, by decide, rfl, by decide⟩,
   { st 0 0 0 with port := some (.run .snapEflg), lock := .client 0 }, _, by decide, rfl, by decide⟩

/-- A pass in CLR, and a client operation in progress. -/
theorem wit_FlagsClearedOnlyAtClr :
    (∃ s t : State, s.par.nativeBitModify = true ∧ s.progInv ∧ s.layoutInv ∧ dispStep s = some t ∧
      t.chipByte 0x2C ≠ s.chipByte 0x2C) ∧
    ∃ s t : State, s.par.nativeBitModify = true ∧ s.progInv ∧ s.layoutInv ∧ portStep s = some t :=
  ⟨⟨{ st 0x05 0 0 with dstate := .clr, flags := 0x04, hmask := 0x04 }, _, by decide,
      ⟨fun p h => (by cases h), fun m h => (by cases h), by decide⟩, by decide, rfl, by decide⟩,
   { st 0 0xC0 0 with port := some (.run (.ovrClear .rx0 (.start 1))) }, _, by decide,
      ⟨fun p h => (by cases h), fun m h => (by cases h), by decide⟩, by decide, rfl⟩

theorem wit_BlockNeverSetsChipBit :
    ∃ s t : State, s.par.nativeBitModify = true ∧ s.par.layout.normal = 0 ∧
      (dispStep s = some t ∨ portStep s = some t) :=
  ⟨{ st 0 0xC0 0 with port := some (.run (.ovrClear .rx0 (.start 1))) }, _, by decide, by decide, .inr rfl⟩

theorem wit_NonNativeClearLosesFlag :
    ∃ s : State, s.layoutInv ∧ s.par.nativeBitModify = false ∧ s.xport = [] ∧ s.dstate = .clr ∧
      s.dprog = some (.flagClear (.write 0 0x04)) :=
  ⟨{ nonNative (st 0x05 0 0) with dstate := .clr, dprog := some (.flagClear (.write 0 0x04)) }, by decide⟩

/-- EVQ with room, and full. -/
theorem wit_IsrPushesToken :
    (∃ s : State, s.agenda = [.env .isr] ∧ 0 < s.edges ∧ s.evq < s.par.evqCap) ∧
    ∃ s : State, s.agenda = [.env .isr] ∧ 0 < s.edges ∧ s.evq = s.par.evqCap :=
  ⟨⟨{ turn (.env .isr) (st 0 0 0) with edges := 1 }, by decide⟩,
    { turn (.env .isr) (st 0 0 0) with edges := 1, evq := 2 }, by decide⟩

/-- A flag that makes an edge, and one that finds INT asserted. -/
theorem wit_FlagSetEdge :
    (∃ s : State, s.agenda = [.env (.chip (.setFlags 0x01))] ∧ s.intLow = false) ∧
    ∃ s : State, s.agenda = [.env (.chip (.setFlags 0x01))] ∧ s.intLow = true :=
  ⟨⟨turn (.env (.chip (.setFlags 0x01))) (st 0 0 0), by decide⟩,
    turn (.env (.chip (.setFlags 0x01))) (st 0x04 0 0), by decide⟩

theorem wit_TransactionNeedsLock :
    (∃ s : State, s.lock ≠ .client 3 ∧ s.agenda = [.env (.client (.xread 3 0x0E))]) ∧
    (∃ s : State, s.lock ≠ .client 3 ∧ s.agenda = [.env (.client (.xwrite 3 0x60 0))]) ∧
    (∃ s : State, s.lock ≠ .client 3 ∧ s.agenda = [.env (.client (.xmodify 3 0xFF 1 1))]) ∧
    ∃ s : State, s.lock ≠ .client 3 ∧ s.agenda = [.env (.client (.xreset 3))] :=
  ⟨⟨turn (.env (.client (.xread 3 0x0E))) (st 0 0 0), by decide⟩,
    ⟨turn (.env (.client (.xwrite 3 0x60 0))) (st 0 0 0), by decide⟩,
    ⟨turn (.env (.client (.xmodify 3 0xFF 1 1))) (st 0 0 0), by decide⟩,
    turn (.env (.client (.xreset 3))) (st 0 0 0), by decide⟩

/-- A full buffer that the chip would load, and would write; another act of the chip beside it; an empty one that it
loads. -/
theorem wit_FlaggedBufferStable :
    (∃ s : State, s.rxFull .rx1 = true ∧ s.agenda = [.env (.chip (.loadRx .rx1 zeroImage))]) ∧
    (∃ s : State, s.rxFull .rx1 = true ∧ s.agenda = [.env (.chip (.pokeRx .rx1 13 0))]) ∧
    (∃ s t : State, s.layoutInv ∧ s.rxFull .rx1 = true ∧ s.agenda = [.env (.chip (.counters 1 2 0x3F))] ∧
      step s = .next t) ∧
    ∃ s : State, s.layoutInv ∧ s.rxFull .rx0 = false ∧ s.agenda = [.env (.chip (.loadRx .rx0 zeroImage))] :=
  ⟨⟨turn (.env (.chip (.loadRx .rx1 zeroImage))) (st 0x02 0 0), by decide⟩,
    ⟨turn (.env (.chip (.pokeRx .rx1 13 0))) (st 0x02 0 0), by decide⟩,
    ⟨turn (.env (.chip (.counters 1 2 0x3F))) (st 0x02 0 0), _, by decide, by decide, rfl, rfl⟩,
    turn (.env (.chip (.loadRx .rx0 zeroImage))) (st 0x02 0 0), by decide⟩

theorem wit_ChipResetValues :
    ∃ s : State, s.agenda = [.env (.client (.xreset 2))] ∧ s.lock = .client 2 ∧ s.halves = [] ∧
      s.par.layout = mcp2515 ∧ s.xport = [] :=
  ⟨{ turn (.env (.client (.xreset 2))) (st 0 0 0) with lock := .client 2 }, by decide⟩

end Sys2Proof.Tests
end

/-!
SUPPORT. What one block step may record and issue, said once for the dispatcher and the client port: it only adds to the
event log, leaves the clock and the parameters, and issues at most one admitted transaction (R10, R38, R60, R61). From
it: the machine's histories only grow, and the block's transactions are its own.
-/

namespace Sys2Proof.Machine

/-! ## Parameters -/

/-- BACKOFF rises with its argument (R6, R166): the first rises of a longer run have no smaller sum. -/
theorem backoff_mono (p : Params) : Monotone p.backoff := fun _ _ h =>
  Nat.add_le_add_left (List.monotone_sum_take p.backoffRise h) p.backoffMin

/-- Settles O33: BACKOFF is BACKOFF_MIN and the sum of its first rises. -/
theorem backoffNondecreasing : Obligations.BackoffNondecreasing := fun p _ _ h =>
  ⟨backoff_mono p h, Nat.le_add_right _ _, Nat.le_add_left _ _⟩

/-! ## Power-on -/

theorem reset_layout : State.reset.par.layout = mcp2515 := rfl

/-- Power-on defines no chip register: each byte is a free value (R280). -/
theorem chipByte_reset (a : Nat) : State.reset.chipByte a = Config.unspecReg 0 a := rfl

theorem reset_blockAtReset : State.reset.blockAtReset := by simp [State.reset]

theorem reset_atRest : State.reset.atRest := ⟨rfl, rfl, rfl, rfl⟩

/-- Settles O9: the block is at its reset values, the chip is undefined, and the layout is the default one. -/
theorem powerOnReset : Obligations.PowerOnReset := by
  refine ⟨reset_blockAtReset, rfl, reset_atRest, chipByte_reset, rfl, rfl, rfl, rfl, rfl, ?_⟩
  simp [reset_layout]

/-! ## Steps that issue no transaction -/

/-- A step that issues no transaction: it leaves the clock, the parameters and the history of transactions, and at most
adds to the event log. -/
structure State.LogsOnly (s t : State) : Prop where
  evlog : s.evlog <+: t.evlog
  now : t.now = s.now
  par : t.par = s.par
  bus : t.bus = s.bus

/-- What leaves the event log too. -/
theorem State.LogsOnly.of_eq {s t : State} (evlog : t.evlog = s.evlog) (now : t.now = s.now) (par : t.par = s.par)
    (bus : t.bus = s.bus) : s.LogsOnly t :=
  ⟨evlog ▸ List.prefix_rfl, now, par, bus⟩

theorem State.LogsOnly.trans {s t u : State} (h : s.LogsOnly t) (k : t.LogsOnly u) : s.LogsOnly u :=
  ⟨h.evlog.trans k.evlog, k.now.trans h.now, k.par.trans h.par, k.bus.trans h.bus⟩

theorem emit_logsOnly (k : RecordKind) (x y z w : Byte) (s : State) : s.LogsOnly (s.emit k x y z w) :=
  ⟨List.prefix_append _ _, rfl, rfl, rfl⟩

theorem handle_logsOnly (m : Byte) (s : State) : s.LogsOnly (s.handle m) := .of_eq rfl rfl rfl rfl

theorem enter_logsOnly (d : DState) (s : State) : s.LogsOnly { s with dstate := d } := .of_eq rfl rfl rfl rfl

theorem setRxretry_logsOnly (b : Buf) (n : Nat) (s : State) : s.LogsOnly (s.setRxretry b n) := by
  cases b <;> exact .of_eq rfl rfl rfl rfl

/-! ## At most one transaction -/

/-- From `s` to `t` at most one transaction is issued, by the agent that owns LOCK in `s`, and it is one that the block
may issue (R10, R60, R61). -/
def State.IssuesOne (s t : State) : Prop :=
  t.bus = s.bus ∨ ∃ op, t.bus = s.bus ++ [⟨s.lock, op⟩] ∧
    blockTransaction s.par.layout s.par.nativeBitModify op = true

theorem State.IssuesOne.then {s u t : State} (h : s.IssuesOne u) (k : t.bus = u.bus) : s.IssuesOne t := by
  unfold State.IssuesOne
  rw [k]
  exact h

/-- A register of a receive buffer is in the block's address set (R60). -/
theorem blockAddress_rxBuffer (m : ChipLayout) (b : Buf) {j : Nat} (hj : j < 14) :
    blockAddress m (m.rxbBase b + j) = true := by
  have : inReceiveBuffer m (m.rxbBase b + j) = true := by
    rw [inReceiveBuffer, decide_eq_true_eq]
    cases b <;> simp only [ChipLayout.rxbBase] <;> omega
  simp [blockAddress, this]

/-- An overflow mask lies within OVR_ALL (R98). -/
theorem ovrMask_within_ovrAll (m : ChipLayout) (b : Buf) : ovrMask m b &&& ~~~ovrAll m = 0 := by
  have within (x y : Byte) : x &&& ~~~(x ||| y) = 0 := by
    rw [BitVec.not_or, ← BitVec.and_assoc, BitVec.and_not_self]
    exact BitVec.zero_and
  cases b with
  | rx0 => exact within _ _
  | rx1 => rw [ovrAll, BitVec.or_comm]; exact within _ _

/-- Where the block may issue a modify, it may issue the two halves that stand in its place (R63). -/
theorem modify_halves_admitted {l : ChipLayout} {a : Nat} {m v : Byte}
    (h : blockTransaction l true (.modify a m v) = true) (native : Bool) (w : Byte) :
    blockTransaction l native (.read a) = true ∧ blockTransaction l false (.write a w) = true := by
  have ha : a = l.canintf ∨ a = l.eflg ∨ a = l.canctrl := by
    simp only [blockTransaction, Bool.true_and, Bool.or_eq_true, Bool.and_eq_true, beq_iff_eq] at h
    tauto
  rcases ha with rfl | rfl | rfl <;> simp [blockTransaction, blockAddress]

/-- A block's read of an admitted address. -/
theorem State.IssuesOne.of_blockRead {s t : State} {a : Nat} {r : Option Byte} (h : s.blockRead a = (r, t))
    (ha : blockAddress s.par.layout a = true) : s.IssuesOne t := by
  rw [(State.blockRead_spec h).2]
  exact .inr ⟨.read a, rfl, ha⟩

/-- A step of an admitted modify, native or not. -/
theorem State.IssuesOne.of_modStep {s t : State} {a : Nat} {m v : Byte} {st : ModStage}
    (h : (∃ st', s.modStep a m v st = .more st' t) ∨ ∃ ok, s.modStep a m v st = .done ok t)
    (ha : blockTransaction s.par.layout true (.modify a m v) = true) : s.IssuesOne t := by
  obtain ⟨bus, x, hn, hm⟩ := State.modStep_spec h
  unfold State.IssuesOne
  cases hp : s.par.nativeBitModify
  · obtain ⟨hb, ht⟩ := hm hp
    have htb : t.bus = bus := by rcases ht with rfl | ⟨_, _, _, rfl⟩ <;> rfl
    rw [htb]
    rcases hb with hb | hb | ⟨w, hb⟩
    · exact .inl hb
    · exact .inr ⟨_, hb, (modify_halves_admitted ha _ 0).1⟩
    · exact .inr ⟨_, hb, (modify_halves_admitted ha true w).2⟩
  · obtain ⟨hb, ht⟩ := hn hp
    have htb : t.bus = bus := by rcases ht with rfl | rfl <;> rfl
    rw [htb]
    exact .inr ⟨_, hb, ha⟩

/-! ## One step of an operation -/

theorem storeImage_bus (who : Issuer) (j : Fin 14) (v : Byte) (s : State) : (s.storeImage who j v).bus = s.bus := by
  cases who <;> rfl

theorem rxFinish_bus {who : Issuer} {n : Fin 9} {s t : State} (h : (rxFinish who n s).state = some t) :
    t.bus = s.bus := by
  cases h
  cases who <;> rfl

theorem rxNext_bus {who : Issuer} {b : Buf} {n : Fin 9} {i : Nat} {s t : State}
    (h : (rxNext who b n i s).state = some t) : t.bus = s.bus := by
  unfold rxNext at h
  split at h
  · split at h
    · cases h; rfl
    · exact rxFinish_bus h
  · exact rxFinish_bus h

theorem rxHeaderDone_bus {who : Issuer} {b : Buf} {s t : State} (h : (rxHeaderDone who b s).state = some t) :
    t.bus = s.bus := by
  unfold rxHeaderDone at h
  dsimp only at h
  split at h
  · split at h
    · cases h; rfl
    · exact rxNext_bus h
  · cases h; rfl

theorem recFail_bus {r : OpResult} {s t : State} (h : (recFail r s).state = some t) : t.bus = s.bus := by
  cases h; rfl

theorem latchUpdate_bus (k : EClass) (s : State) : (latchUpdate k s).bus = s.bus := by cases k <;> rfl

theorem classifyOp_bus {s t : State} (h : (classifyOp s).state = some t) : t.bus = s.bus := by
  unfold classifyOp at h
  split at h <;> cases h
  · exact latchUpdate_bus _ s
  · rfl

theorem recPollStep_issuesOne {p : Nat} {s t : State} (h : (recPollStep p s).state = some t) : s.IssuesOne t := by
  unfold recPollStep at h
  rcases hr : s.blockRead s.par.layout.canstat with ⟨_ | v, u⟩ <;> rw [hr] at h <;> dsimp only at h
  all_goals have hu := State.IssuesOne.of_blockRead hr (by simp [blockAddress])
  · exact hu.then (recFail_bus h)
  · split at h
    · cases h; exact hu
    · split at h
      · cases h; exact hu
      · exact hu.then (recFail_bus h)

/-- One step of any operation issues at most one transaction, and one the block may issue. -/
theorem opStep_issuesOne {who : Issuer} {p : Prog} {s t : State} (h : (opStep who p s).state = some t) :
    s.IssuesOne t := by
  cases p with
  | rxHeader b j =>
    simp only [opStep, rxHeaderStep] at h
    rcases hr : s.blockRead (headerAddr s.par.layout b j) with ⟨_ | v, u⟩ <;> rw [hr] at h <;> dsimp only at h
    all_goals have hu := State.IssuesOne.of_blockRead hr (blockAddress_rxBuffer _ b (by omega))
    · cases h; exact hu
    · replace hu := hu.then (storeImage_bus who ⟨j.val + 1, by omega⟩ v u)
      split at h
      · cases h; exact hu
      · exact hu.then (rxHeaderDone_bus h)
  | rxCtrl b n =>
    simp only [opStep, rxCtrlStep] at h
    rcases hr : s.blockRead (s.par.layout.rxbBase b) with ⟨_ | v, u⟩ <;> rw [hr] at h <;> dsimp only at h
    all_goals have hu := State.IssuesOne.of_blockRead hr (blockAddress_rxBuffer _ b (j := 0) (by omega))
    · cases h; exact hu
    · exact (hu.then (storeImage_bus who 0 v u)).then (rxNext_bus h)
  | rxData b n i =>
    simp only [opStep, rxDataStep, dataAddr, Nat.add_assoc] at h
    rcases hr : s.blockRead (s.par.layout.rxbBase b + (6 + i.val)) with ⟨_ | v, u⟩ <;> rw [hr] at h <;>
      dsimp only at h
    all_goals have hu := State.IssuesOne.of_blockRead hr (blockAddress_rxBuffer _ b (by omega))
    · cases h; exact hu
    · exact (hu.then (storeImage_bus who ⟨i.val + 6, by omega⟩ v u)).then (rxNext_bus h)
  | snapEflg =>
    simp only [opStep, snapEflgStep] at h
    rcases hr : s.blockRead s.par.layout.eflg with ⟨_ | v, u⟩ <;> rw [hr] at h <;> cases h <;>
      exact .of_blockRead hr (by simp [blockAddress])
  | snapTec e =>
    simp only [opStep, snapTecStep] at h
    rcases hr : s.blockRead s.par.layout.tec with ⟨_ | v, u⟩ <;> rw [hr] at h <;> cases h <;>
      exact .of_blockRead hr (by simp [blockAddress])
  | snapRec e c =>
    simp only [opStep, snapRecStep] at h
    rcases hr : s.blockRead s.par.layout.recCounter with ⟨_ | v, u⟩ <;> rw [hr] at h <;> cases h
    all_goals have hu := State.IssuesOne.of_blockRead hr (by simp [blockAddress])
    · exact hu
    · exact hu.then rfl
  | classify => exact .inl (classifyOp_bus h)
  | ovrClear b m =>
    simp only [opStep, ovrClearStep] at h
    have ha : blockTransaction s.par.layout true (.modify s.par.layout.eflg (ovrMask s.par.layout b) 0x00) = true := by
      simp [blockTransaction, ovrMask_within_ovrAll]
    rcases hr : s.modStep s.par.layout.eflg (ovrMask s.par.layout b) 0x00 m with ⟨m', u⟩ | ⟨_ | _, u⟩ <;>
      rw [hr] at h <;> cases h
    · exact .of_modStep (.inl ⟨_, hr⟩) ha
    all_goals exact .of_modStep (.inr ⟨_, hr⟩) ha
  | recModify m =>
    simp only [opStep, recModifyStep] at h
    have ha : blockTransaction s.par.layout true (.modify s.par.layout.canctrl (reqopMask s.par.layout)
        (reqopField s.par.layout .normal)) = true := by simp [blockTransaction]
    rcases hr : s.modStep s.par.layout.canctrl (reqopMask s.par.layout) (reqopField s.par.layout .normal) m
      with ⟨m', u⟩ | ⟨_ | _, u⟩ <;> rw [hr] at h <;> dsimp only at h
    · cases h; exact .of_modStep (.inl ⟨_, hr⟩) ha
    · exact (State.IssuesOne.of_modStep (.inr ⟨_, hr⟩) ha).then (recFail_bus h)
    · cases h; exact .of_modStep (.inr ⟨_, hr⟩) ha
  | recPoll p => exact recPollStep_issuesOne h
  | recWait p c =>
    simp only [opStep, recWaitStep] at h
    split at h
    · exact recPollStep_issuesOne h
    · cases h
  | recEflg p =>
    simp only [opStep, recEflgStep] at h
    rcases hr : s.blockRead s.par.layout.eflg with ⟨_ | v, u⟩ <;> rw [hr] at h <;> dsimp only at h
    all_goals have hu := State.IssuesOne.of_blockRead hr (by simp [blockAddress])
    · exact hu.then (recFail_bus h)
    · split at h
      · exact hu.then (recFail_bus h)
      · cases h; exact hu.then rfl
  | flagClear m =>
    simp only [opStep, flagClearStep] at h
    have ha : blockTransaction s.par.layout true (.modify s.par.layout.canintf s.hmask 0x00) = true := by
      simp [blockTransaction]
    rcases hr : s.modStep s.par.layout.canintf s.hmask 0x00 m with ⟨m', u⟩ | ⟨_ | _, u⟩ <;> rw [hr] at h <;>
      cases h
    · exact .of_modStep (.inl ⟨_, hr⟩) ha
    all_goals exact .of_modStep (.inr ⟨_, hr⟩) ha

/-- The beginning of an operation issues no transaction. -/
theorem opStart_bus {op : LockOp} {s t : State} (h : (opStart op s).state = some t) : t.bus = s.bus := by
  cases op with
  | classify => exact classifyOp_bus h
  | recover =>
    simp only [opStart, recStart] at h
    split at h <;> cases h <;> rfl
  | _ => cases h; rfl

theorem opStart_logsOnly {op : LockOp} {s t : State} (h : (opStart op s).state = some t) : s.LogsOnly t :=
  have hf : OpFrame .client s t := opStart_frame h
  .of_eq hf.evlog hf.now hf.par (opStart_bus h)

/-! ## One block step -/

/-- What every block step does to the histories: it adds to the event log, leaves the clock and the parameters, and
issues at most one admitted transaction (R10, R38). -/
structure State.BlockStep (s t : State) : Prop where
  evlog : s.evlog <+: t.evlog
  now : t.now = s.now
  par : t.par = s.par
  issues : s.IssuesOne t

theorem State.LogsOnly.blockStep {s t : State} (h : s.LogsOnly t) : s.BlockStep t :=
  ⟨h.evlog, h.now, h.par, .inl h.bus⟩

/-- What follows the transaction of a block step within the same step. -/
theorem State.BlockStep.then {s u t : State} (h : s.BlockStep u) (k : u.LogsOnly t) : s.BlockStep t :=
  ⟨h.evlog.trans k.evlog, k.now.trans h.now, k.par.trans h.par, h.issues.then k.bus⟩

/-- What an operation's beginning does before the first transaction of the same step. -/
theorem State.BlockStep.after {s u t : State} (hl : u.lock = s.lock) (h : s.LogsOnly u) (k : u.BlockStep t) :
    s.BlockStep t := by
  refine ⟨h.evlog.trans k.evlog, k.now.trans h.now, k.par.trans h.par, ?_⟩
  have hk := k.issues
  unfold State.IssuesOne at hk ⊢
  rwa [h.bus, h.par, hl] at hk

/-- An operation's step within its frame. -/
theorem State.BlockStep.of_frame {who : Issuer} {s t : State} (hf : OpFrame who s t) (hi : s.IssuesOne t) :
    s.BlockStep t :=
  ⟨hf.evlog ▸ List.prefix_rfl, hf.now, hf.par, hi⟩

theorem opStep_blockStep {who : Issuer} {p : Prog} {s t : State} (h : (opStep who p s).state = some t) :
    s.BlockStep t :=
  .of_frame (opStep_frame h) (opStep_issuesOne h)

theorem innerStep_blockStep {op : LockOp} {s t : State} (h : (innerStep op s).state = some t) : s.BlockStep t := by
  unfold innerStep at h
  split at h
  · exact opStep_blockStep h
  · rcases ho : opStart op s with ⟨p, u⟩ | ⟨r, u⟩ | _ <;> rw [ho] at h <;> dsimp only at h
    · have hu : (opStart op s).state = some u := by rw [ho]; rfl
      exact .after (opStart_frame (who := .dispatcher) hu).lock (opStart_logsOnly hu) (opStep_blockStep h)
    · exact (opStart_logsOnly (by rw [ho]; exact h)).blockStep
    · cases h

/-! ## One step of the port -/

theorem portAfter_blockStep {o : OpOut} {s t : State} (ho : ∀ u, o.state = some u → s.BlockStep u)
    (h : portAfter o = some t) : s.BlockStep t := by
  obtain ⟨_, u, rfl, rfl⟩ | ⟨_, u, rfl, rfl⟩ := portAfter_cases h <;>
    exact (ho u rfl).then (.of_eq rfl rfl rfl rfl)

/-- Before its operation runs, the port issues no transaction. -/
theorem portStep_logsOnly {s t : State} (hr : s.portRuns = false) (h : portStep s = some t) : s.LogsOnly t := by
  unfold portStep at h
  split at h
  · cases h
  · next op _ =>
    split at h
    · have own : s.LogsOnly { s with lock := .client s.client } := .of_eq rfl rfl rfl rfl
      have start : ∀ u, (opStart op { s with lock := .client s.client }).state = some u → s.LogsOnly u :=
        fun _ hu => own.trans (opStart_logsOnly hu)
      obtain ⟨_, u, ho, rfl⟩ | ⟨_, u, ho, rfl⟩ := portAfter_cases h <;>
        exact (start u (by rw [ho]; rfl)).trans (.of_eq rfl rfl rfl rfl)
    · cases h
  · split at h <;> cases h
    exact ⟨List.prefix_append _ _, rfl, rfl, rfl⟩
  · next p hp => simp [State.portRuns, hp] at hr

theorem portStep_blockStep {s t : State} (h : portStep s = some t) : s.BlockStep t := by
  cases hr : s.portRuns with
  | false => exact (portStep_logsOnly hr h).blockStep
  | true =>
    unfold State.portRuns at hr
    split at hr
    · next p hp =>
      rw [portStep, hp] at h
      exact portAfter_blockStep (fun _ hu => opStep_blockStep hu) h
    · cases hr

/-! ## One step of the dispatcher -/

theorem innerAfter_blockStep {fin : OpResult → State → State} {o : OpOut} {s t : State}
    (ho : ∀ u, o.state = some u → s.BlockStep u) (hf : ∀ r (u : State), u.LogsOnly (fin r u))
    (h : innerAfter fin o = some t) : s.BlockStep t := by
  obtain ⟨_, u, rfl, rfl⟩ | ⟨r, u, rfl, rfl⟩ := innerAfter_cases h
  · exact (ho u rfl).then (.of_eq rfl rfl rfl rfl)
  · have clear : u.LogsOnly { u with dprog := none } := .of_eq rfl rfl rfl rfl
    exact (ho u rfl).then (clear.trans (hf r _))

theorem rxDeliver_logsOnly (b : Buf) (s : State) : s.LogsOnly (rxDeliver b s) := by
  unfold rxDeliver
  split
  · have push : s.LogsOnly { s with rxq := s.rxq ++ [s.dfout] } := .of_eq rfl rfl rfl rfl
    exact ((push.trans (handle_logsOnly _ _)).trans (setRxretry_logsOnly b 0 _)).trans (emit_logsOnly ..)
  · exact emit_logsOnly ..

theorem rxFailed_logsOnly (b : Buf) (r : OpResult) (s : State) : s.LogsOnly (rxFailed b r s) := by
  unfold rxFailed
  split
  · exact (setRxretry_logsOnly b _ s).trans (emit_logsOnly ..)
  · exact ((handle_logsOnly _ s).trans (setRxretry_logsOnly b 0 _)).trans (emit_logsOnly ..)

theorem rxEnd_logsOnly (b : Buf) (r : OpResult) (s : State) : s.LogsOnly (rxEnd b r s) := by
  cases r with
  | ok => exact (enter_logsOnly _ s).trans (rxDeliver_logsOnly b _)
  | _ => exact (enter_logsOnly _ s).trans (rxFailed_logsOnly b _ _)

theorem errEnd_logsOnly (r : OpResult) (s : State) : s.LogsOnly (errEnd r s) := by
  cases r <;> exact ⟨List.prefix_append _ _, rfl, rfl, rfl⟩

theorem snapEnd_logsOnly (r : OpResult) (s : State) : s.LogsOnly (snapEnd r s) := by
  unfold snapEnd
  split
  · exact .of_eq rfl rfl rfl rfl
  · exact errEnd_logsOnly _ s

theorem recEnd_logsOnly (r : OpResult) (s : State) : s.LogsOnly (recEnd r s) := by
  cases r <;> exact ⟨List.prefix_append _ _, rfl, rfl, rfl⟩

theorem ovrsEnd_logsOnly (s : State) : s.LogsOnly (ovrsEnd s) := by
  simp only [ovrsEnd]
  split <;> exact .of_eq rfl rfl rfl rfl

theorem ovrsSecond_logsOnly (s : State) : s.LogsOnly (ovrsSecond s) := by
  unfold ovrsSecond
  split
  · exact .of_eq rfl rfl rfl rfl
  · exact ovrsEnd_logsOnly s

theorem ovrEnd_logsOnly (b : Buf) (r : OpResult) (s : State) : s.LogsOnly (ovrEnd b r s) := by
  cases b with
  | rx0 => exact .trans (by cases r <;> exact ⟨List.prefix_append _ _, rfl, rfl, rfl⟩) (ovrsSecond_logsOnly _)
  | rx1 => exact .trans (by cases r <;> exact ⟨List.prefix_append _ _, rfl, rfl, rfl⟩) (ovrsEnd_logsOnly _)

theorem clrEnd_logsOnly (r : OpResult) (s : State) : s.LogsOnly (clrEnd r s) := by
  cases r <;> exact ⟨List.prefix_append _ _, rfl, rfl, rfl⟩

theorem idleStep_logsOnly {s t : State} (h : idleStep s = some t) : s.LogsOnly t := by
  unfold idleStep at h
  split at h
  · cases h; exact .of_eq rfl rfl rfl rfl
  · split at h <;> cases h
    exact .of_eq rfl rfl rfl rfl

theorem acqStep_logsOnly {s t : State} (h : acqStep s = some t) : s.LogsOnly t := by
  unfold acqStep at h
  split at h <;> cases h
  exact ⟨List.prefix_append _ _, rfl, rfl, rfl⟩

theorem readfStep_blockStep (s : State) : s.BlockStep (readfStep s) := by
  unfold readfStep
  rcases hr : s.blockRead s.par.layout.canintf with ⟨_ | v, u⟩ <;> dsimp only
  all_goals
    have hu : s.BlockStep u :=
      .of_frame (OpFrame.blockRead .dispatcher hr) (.of_blockRead hr (by simp [blockAddress]))
    exact hu.then ⟨List.prefix_append _ _, rfl, rfl, rfl⟩

theorem rxStep_blockStep {b : Buf} {s t : State} (h : rxStep b s = some t) : s.BlockStep t := by
  unfold rxStep at h
  split at h
  · exact innerAfter_blockStep (fun _ hu => innerStep_blockStep hu) (rxEnd_logsOnly b) h
  · cases h
    exact ((setRxretry_logsOnly b 0 s).trans (enter_logsOnly _ _)).blockStep

theorem txsStep_logsOnly (s : State) : s.LogsOnly (txsStep s) := by
  simp only [txsStep]
  split
  · exact ⟨List.prefix_append _ _, rfl, rfl, rfl⟩
  · exact .of_eq rfl rfl rfl rfl

theorem errsStep_blockStep {s t : State} (h : errsStep s = some t) : s.BlockStep t := by
  unfold errsStep at h
  split at h
  · split at h
    · exact innerAfter_blockStep (fun _ hu => opStep_blockStep hu) errEnd_logsOnly h
    · exact innerAfter_blockStep (fun _ hu => innerStep_blockStep hu) snapEnd_logsOnly h
  · cases h
    exact (enter_logsOnly _ s).blockStep

theorem recsStep_blockStep {s t : State} (h : recsStep s = some t) : s.BlockStep t := by
  unfold recsStep at h
  split at h
  · exact innerAfter_blockStep (fun _ hu => innerStep_blockStep hu) recEnd_logsOnly h
  · cases h
    exact (enter_logsOnly _ s).blockStep

theorem ovrsStep_blockStep {s t : State} (h : ovrsStep s = some t) : s.BlockStep t := by
  unfold ovrsStep at h
  split at h
  · exact innerAfter_blockStep (fun _ hu => opStep_blockStep hu) (ovrEnd_logsOnly _) h
  · split at h
    · split at h
      · exact innerAfter_blockStep (fun _ hu => innerStep_blockStep hu) (ovrEnd_logsOnly _) h
      · split at h
        · exact innerAfter_blockStep (fun _ hu => innerStep_blockStep hu) (ovrEnd_logsOnly _) h
        · cases h; exact (ovrsEnd_logsOnly s).blockStep
    · cases h; exact (ovrsEnd_logsOnly s).blockStep

theorem wakesStep_logsOnly (s : State) : s.LogsOnly (wakesStep s) := by
  unfold wakesStep
  extract_lets t u
  have hu : s.LogsOnly u := by
    unfold u
    split
    · exact ((enter_logsOnly _ s).trans (handle_logsOnly _ _)).trans (emit_logsOnly ..)
    · exact enter_logsOnly _ s
  split
  · exact hu.trans (emit_logsOnly ..)
  · exact hu

theorem clrStep_blockStep {s t : State} (h : clrStep s = some t) : s.BlockStep t := by
  unfold clrStep at h
  split at h
  · exact innerAfter_blockStep (fun _ hu => opStep_blockStep hu) clrEnd_logsOnly h
  · split at h
    · exact innerAfter_blockStep (fun _ hu => opStep_blockStep (who := .dispatcher) (p := .flagClear s.modStart) hu)
        clrEnd_logsOnly h
    · cases h
      exact (enter_logsOnly _ s).blockStep

theorem relStep_logsOnly (s : State) : s.LogsOnly (relStep s) := ⟨List.prefix_append _ _, rfl, rfl, rfl⟩

/-- Outside a pass the dispatcher issues no transaction. -/
theorem dispStep_logsOnly {s t : State} (hp : s.dstate.inPass = false) (h : dispStep s = some t) : s.LogsOnly t := by
  unfold dispStep at h
  cases hd : s.dstate <;> simp only [hd] at h hp
  case idle => exact idleStep_logsOnly h
  case acq => exact acqStep_logsOnly h
  all_goals simp [DState.inPass] at hp

theorem dispStep_blockStep {s t : State} (h : dispStep s = some t) : s.BlockStep t := by
  unfold dispStep at h
  cases hd : s.dstate <;> simp only [hd] at h
  case idle => exact (idleStep_logsOnly h).blockStep
  case acq => exact (acqStep_logsOnly h).blockStep
  case readf => cases h; exact readfStep_blockStep s
  case rx0 => exact rxStep_blockStep h
  case rx1 => exact rxStep_blockStep h
  case txs => cases h; exact (txsStep_logsOnly s).blockStep
  case errs => exact errsStep_blockStep h
  case recs => exact recsStep_blockStep h
  case ovrs => exact ovrsStep_blockStep h
  case wakes => cases h; exact (wakesStep_logsOnly s).blockStep
  case clr => exact clrStep_blockStep h
  case rel => cases h; exact (relStep_logsOnly s).blockStep

/-- Settles O52: an agent that issues a transaction is at work, and then it owns LOCK. -/
theorem blockTransactionsOnly : Obligations.BlockTransactionsOnly := by
  intro s t ⟨hdisp, hport⟩
  constructor
  · intro h
    cases hp : s.dstate.inPass with
    | false => exact .inl (dispStep_logsOnly hp h).bus
    | true => exact hdisp.mpr hp ▸ (dispStep_blockStep h).issues
  · intro h
    cases hr : s.portRuns with
    | false => exact .inl (portStep_logsOnly hr h).bus
    | true => exact hport hr ▸ (portStep_blockStep h).issues

/-! ## The histories of the whole machine -/

/-- The log and the history of transactions have only grown at their ends, NOW has not decreased and the parameters are
the same (R6, R9, R38, R40). -/
structure State.Grows (s t : State) : Prop where
  evlog : s.evlog <+: t.evlog
  now : s.now ≤ t.now
  par : t.par = s.par
  bus : s.bus <+: t.bus

theorem State.Grows.refl (s : State) : s.Grows s := ⟨List.prefix_rfl, le_rfl, rfl, List.prefix_rfl⟩

theorem State.Grows.trans {s t u : State} (h : s.Grows t) (k : t.Grows u) : s.Grows u :=
  ⟨h.evlog.trans k.evlog, h.now.trans k.now, k.par.trans h.par, h.bus.trans k.bus⟩

/-- What leaves the histories, the clock and the parameters. -/
theorem State.Grows.of_eq {s t : State} (evlog : t.evlog = s.evlog) (now : t.now = s.now) (par : t.par = s.par)
    (bus : t.bus = s.bus) : s.Grows t :=
  ⟨evlog ▸ List.prefix_rfl, now.ge, par, bus ▸ List.prefix_rfl⟩

theorem State.BlockStep.grows {s t : State} (h : s.BlockStep t) : s.Grows t := by
  refine ⟨h.evlog, h.now.ge, h.par, ?_⟩
  obtain hb | ⟨op, hb, -⟩ := h.issues
  · exact hb ▸ List.prefix_rfl
  · exact hb ▸ List.prefix_append _ _

/-! ### Acts of the environment -/

theorem setChip_grows (m : Memory) (s : State) : s.Grows (s.setChip m) := .of_eq rfl rfl rfl rfl

theorem putByte_grows (a : Nat) (v : Byte) (s : State) : s.Grows (s.putByte a v) := setChip_grows _ s

theorem setBits_grows (a : Nat) (m : Byte) (s : State) : s.Grows (s.setBits a m) := putByte_grows _ _ s

theorem clearBits_grows (a : Nat) (m : Byte) (s : State) : s.Grows (s.clearBits a m) := putByte_grows _ _ s

theorem chipStep_grows {a : ChipAct} {s t : State} (h : chipStep a s = .ok t) : s.Grows t := by
  cases a <;> simp only [chipStep] at h
  case setFlags m => cases h; exact setBits_grows ..
  case loadRx b img =>
    split at h <;> cases h
    exact (setChip_grows ..).trans (setBits_grows ..)
  case pokeRx b j v =>
    split at h <;> cases h
    exact putByte_grows ..
  case overflow b =>
    split at h <;> cases h
    exact setBits_grows ..
  case counters => cases h; exact ((putByte_grows ..).trans (putByte_grows ..)).trans (putByte_grows ..)
  case enterMode => cases h; exact putByte_grows ..
  case clearBusOff => cases h; exact clearBits_grows ..
  case txDone n => cases h; exact (clearBits_grows ..).trans (setBits_grows ..)

/-- A transaction's record in the history, with the draws it used. -/
theorem issue_grows (op : BusOp) (x : List XDraw) (s : State) : s.Grows { s.logBus op with xport := x } :=
  ⟨List.prefix_rfl, le_rfl, rfl, List.prefix_append _ _⟩

theorem storeReg_grows (a : Nat) (v : Byte) (s : State) : s.Grows (s.storeReg a v) := putByte_grows _ _ s

theorem resetChip_grows (s : State) : s.Grows s.resetChip := by
  unfold State.resetChip
  exact .of_eq rfl rfl rfl rfl

theorem xferRead_grows (n a : Nat) (s : State) : s.Grows (s.xferRead n a).2 := issue_grows _ _ s

theorem xferWrite_grows (n a : Nat) (v : Byte) (s : State) : s.Grows (s.xferWrite n a v).2 := by
  simp only [State.xferWrite]
  split
  · exact (issue_grows _ _ s).trans (storeReg_grows ..)
  · exact issue_grows _ _ s

theorem xferModify_grows (n a : Nat) (m v : Byte) (s : State) : s.Grows (s.xferModify n a m v).2 := by
  simp only [State.xferModify]
  split
  · exact (issue_grows _ _ s).trans (storeReg_grows ..)
  · exact issue_grows _ _ s

theorem clientReset_grows (s : State) : s.Grows (clientReset s) := by
  simp only [clientReset]
  split
  · exact (issue_grows _ _ s).trans (resetChip_grows _)
  · exact issue_grows _ _ s

theorem clientModify_grows (c : Nat) (a m v : Byte) (s : State) : s.Grows (clientModify c a m v s) := by
  unfold clientModify
  split
  · exact xferModify_grows ..
  · have hg := xferRead_grows 1 a.toNat s
    rcases hr : s.xferRead 1 a.toNat with ⟨_ | byte, u⟩ <;> rw [hr] at hg <;> dsimp only at hg ⊢
    · exact hg
    · exact hg.trans (.of_eq rfl rfl rfl rfl)

theorem clientModifyWrite_grows {c : Nat} {s t : State} (h : clientModifyWrite c s = .ok t) : s.Grows t := by
  unfold clientModifyWrite at h
  split at h
  · cases h; exact .refl s
  · split at h <;> cases h
    exact (xferWrite_grows ..).trans (.of_eq rfl rfl rfl rfl)

/-- A client's access to the chip that is no fault has the effect given. -/
theorem clientAccess_ok {c : Nat} {s t u : State} (h : clientAccess c s t = .ok u) : u = t := by
  unfold clientAccess at h
  split at h
  · cases h
  · split at h <;> cases h
    rfl

theorem clientTransaction_ok {c : Nat} {a : Byte} {s t u : State} (h : clientTransaction c a s t = .ok u) : u = t := by
  unfold clientTransaction at h
  split at h
  · cases h
  · exact clientAccess_ok h

theorem clientWrite_ok {c : Nat} {a : Byte} {s t u : State} (h : clientWrite c a s t = .ok u) : u = t := by
  unfold clientWrite at h
  split at h
  · cases h
  · exact clientTransaction_ok h

theorem clientStep_grows {a : ClientAct} {s t : State} (h : clientStep a s = .ok t) : s.Grows t := by
  cases a with
  | lock c =>
    simp only [clientStep] at h
    split at h <;> cases h
    split
    · exact .of_eq rfl rfl rfl rfl
    · exact .refl s
  | unlock c =>
    simp only [clientStep] at h
    split at h
    · cases h
    · split at h <;> cases h
      exact .of_eq rfl rfl rfl rfl
  | xread c a => exact clientTransaction_ok h ▸ xferRead_grows ..
  | xwrite c a v => exact clientWrite_ok h ▸ xferWrite_grows ..
  | xmodify c a m v => exact clientWrite_ok h ▸ clientModify_grows ..
  | xmodifyWrite c => exact clientModifyWrite_grows h
  | xreset c => exact clientAccess_ok h ▸ clientReset_grows s
  | _ => cases h; exact .of_eq rfl rfl rfl rfl

theorem isrStep_grows (s : State) : s.Grows (isrStep s) := by
  unfold isrStep
  split
  · exact .refl s
  · exact .of_eq rfl rfl rfl rfl

theorem envStep_grows {e : EnvAct} {s t : State} (h : envStep e s = .ok t) : s.Grows t := by
  cases e with
  | chip a => exact chipStep_grows h
  | isr => cases h; exact isrStep_grows s
  | client a => exact clientStep_grows h
  | tick n => cases h; exact ⟨List.prefix_rfl, Nat.le_add_right _ _, rfl, List.prefix_rfl⟩
  | _ => cases h; exact .of_eq rfl rfl rfl rfl

/-! ### The machine's step -/

theorem encodeOp_grows (s : State) : s.Grows (encodeOp s) := by
  unfold encodeOp
  repeat' split
  all_goals exact .of_eq rfl rfl rfl rfl

theorem decodeOp_grows (s : State) : s.Grows (decodeOp s) := by
  simp only [decodeOp]
  split <;> exact .of_eq rfl rfl rfl rfl

theorem step_grows {s t : State} (h : step s = .next t) : s.Grows t := by
  have same : ∀ u v : State, s.Grows u → v.evlog = u.evlog → v.now = u.now → v.par = u.par → v.bus = u.bus →
      s.Grows v := fun _ _ k he hn hp hb => k.trans (.of_eq he hn hp hb)
  exact step_keeps (P := s.Grows)
    (agenda := fun u _ k => same u _ k rfl rfl rfl rfl)
    (env := fun _ _ _ k he => k.trans (envStep_grows he))
    (port := fun _ _ k hp => k.trans (portStep_blockStep hp).grows)
    (disp := fun _ _ k hd => k.trans (dispStep_blockStep hd).grows)
    (draw := fun u k => same u _ k rfl rfl rfl rfl)
    (take := fun u _ _ k _ => same u _ k rfl rfl rfl rfl)
    (hold := fun u _ _ k => same u _ k rfl rfl rfl rfl)
    (nop := fun u _ k => same u _ k rfl rfl rfl rfl)
    (enc := fun u k => k.trans (encodeOp_grows u))
    (dec := fun u k => k.trans (decodeOp_grows u))
    (start := fun u _ k _ _ => same u _ k rfl rfl rfl rfl)
    (.refl s) h

/-- Settles O49: every block step and every act of an environment agent grows the histories, so the step does. -/
theorem logAppendOnlyClockForward : Obligations.LogAppendOnlyClockForward := fun _ _ h =>
  have hg := step_grows h
  ⟨hg.evlog, hg.now, hg.par, hg.bus⟩

end Sys2Proof.Machine

/-!
SUPPORT. What one step of an operation, of a block agent and of the environment can do, said once as what is closed under
its effects. From it: every step keeps every invariant, the frames of the client port's and the dispatcher's steps, and
the acts of single agents on the registers, LOCK and the chip.
-/

namespace Sys2Proof.Machine

/-! ## Bytes within bytes -/

/-- A byte lies within another if each of its bits is set there too. -/
theorem within_iff {x y : Byte} : x &&& ~~~y = 0 ↔ ∀ (i : Nat) (hi : i < 8), x[i] = true → y[i] = true := by
  constructor
  · intro h i hi
    simpa using congrArg (·[i]) h
  · intro h
    ext i hi
    simpa using h i hi

theorem within_trans {x y z : Byte} (h : x &&& ~~~y = 0) (k : y &&& ~~~z = 0) : x &&& ~~~z = 0 :=
  within_iff.mpr fun i hi hx => within_iff.mp k i hi (within_iff.mp h i hi hx)

@[simp] theorem bitMask_getElem (p : Fin 8) (i : Nat) (h : i < 8) : (bitMask p)[i] = decide (i = p.val) := by
  rw [← BitVec.getLsbD_eq_getElem, bitMask_getLsbD]

/-- A mask of one bit lies within the common bits of two bytes that have that bit. -/
theorem bitMask_within {p : Fin 8} {f k : Byte} (hf : f.getLsbD p.val = true) (hk : k.getLsbD p.val = true) :
    bitMask p &&& ~~~(f &&& k) = 0 := by
  refine within_iff.mpr fun i hi hx => ?_
  obtain rfl : i = p.val := by simpa using hx
  rw [BitVec.getElem_and, ← BitVec.getLsbD_eq_getElem, ← BitVec.getLsbD_eq_getElem, hf, hk, Bool.and_self]

/-! ## Decoded frames -/

/-- The frame word DECODE computes satisfies `id_ok`: bit 29 is 0, and without EXIDE so are bits 28:11 (R131, R133). -/
theorem idOk_decodeImage (m : ChipLayout) (src : RtrSource) (img : Image) (n : Nat) :
    idOk (decodeImage m src img n).id = true := by
  simp only [decodeImage, decodeId, idOk, Bool.and_eq_true, Bool.or_eq_true, Bool.not_eq_true', beq_iff_eq]
  split
  · exact ⟨by simp, .inl (by simp)⟩
  · refine ⟨by simp, .inr ?_⟩
    rw [BitVec.extractLsb'_or, BitVec.extractLsb'_or, extract_place_of_disjoint _ _ _ _ _ (by omega),
      extract_place_of_disjoint _ _ _ _ _ (by omega), extract_place_of_disjoint _ _ _ _ _ (by omega)]
    rfl

/-- DECODE's frame is valid and canonical (R131 to R133). -/
theorem decodeImage_decoded (m : ChipLayout) (src : RtrSource) (img : Image) {n : Nat} (hn : n ≤ 8) :
    Frame.decoded (decodeImage m src img n) := by
  have hdlc : (BitVec.ofNat 8 n).toNat = n := by rw [BitVec.toNat_ofNat]; omega
  constructor
  · rw [Frame.valid, idOk_decodeImage, Bool.and_true, decide_eq_true_eq]
    exact hdlc.trans_le hn
  · simp only [Frame.canon, decodeImage, hdlc, keepFirst_keepFirst]

/-! ## Which operation a progress belongs to -/

/-- The operation a progress belongs to; none for a pass's final clear, which is the dispatcher's own (R205). -/
def Prog.op : Prog → Option LockOp
  | .rxHeader b _ => some (.rxread b)
  | .rxCtrl b _ => some (.rxread b)
  | .rxData b _ _ => some (.rxread b)
  | .snapEflg => some .snaperr
  | .snapTec _ => some .snaperr
  | .snapRec _ _ => some .snaperr
  | .classify => some .classify
  | .ovrClear b _ => some (.clrovr b)
  | .recModify _ => some .recover
  | .recPoll _ => some .recover
  | .recWait _ _ => some .recover
  | .recEflg _ => some .recover
  | .flagClear _ => none

/-- CLASSIFY's only progress is its one step. -/
theorem Prog.op_eq_classify {p : Prog} : p.op = some .classify ↔ p = .classify := by cases p <;> simp [Prog.op]

/-- Only a pass's final clear belongs to no operation. -/
theorem Prog.op_eq_none {p : Prog} : p.op = none ↔ ∃ m, p = .flagClear m := by cases p <;> simp [Prog.op]

theorem rxNext_running {who : Issuer} {b : Buf} {n : Fin 9} {i : Nat} {s t : State} {q : Prog}
    (h : rxNext who b n i s = .running q t) : q.op = some (.rxread b) := by
  unfold rxNext at h
  split at h
  · split at h <;> cases h
    rfl
  · cases h

theorem rxHeaderDone_running {who : Issuer} {b : Buf} {s t : State} {q : Prog}
    (h : rxHeaderDone who b s = .running q t) : q.op = some (.rxread b) := by
  unfold rxHeaderDone at h
  dsimp only at h
  split at h
  · split at h
    · cases h; rfl
    · exact rxNext_running h
  · cases h

theorem recPollStep_running {p : Nat} {s t : State} {q : Prog} (h : recPollStep p s = .running q t) :
    q.op = some .recover := by
  unfold recPollStep at h
  split at h
  · cases h
  · split at h
    · cases h; rfl
    · split at h <;> cases h
      rfl

/-- An operation in progress goes on with progress of its own, never SNAPERR's first; CLASSIFY is one step. -/
theorem opStep_running {who : Issuer} {p q : Prog} {s t : State} (h : opStep who p s = .running q t) :
    q.op = p.op ∧ q ≠ .snapEflg ∧ q ≠ .classify := by
  have own : ∀ {o : LockOp}, o ≠ .snaperr → o ≠ .classify → q.op = some o →
      q.op = some o ∧ q ≠ .snapEflg ∧ q ≠ .classify := by
    intro o hs hc hq
    refine ⟨hq, ?_, ?_⟩ <;> rintro rfl <;> cases hq
    · exact hs rfl
    · exact hc rfl
  cases p with
  | rxHeader b j =>
    simp only [opStep, rxHeaderStep] at h
    split at h
    · cases h
    · split at h
      · cases h; exact ⟨rfl, by simp, by simp⟩
      · exact own (by simp) (by simp) (rxHeaderDone_running h)
  | rxCtrl b n =>
    simp only [opStep, rxCtrlStep] at h
    split at h
    · cases h
    · exact own (by simp) (by simp) (rxNext_running h)
  | rxData b n i =>
    simp only [opStep, rxDataStep] at h
    split at h
    · cases h
    · exact own (by simp) (by simp) (rxNext_running h)
  | snapEflg =>
    simp only [opStep, snapEflgStep] at h
    split at h <;> cases h
    exact ⟨rfl, by simp, by simp⟩
  | snapTec e =>
    simp only [opStep, snapTecStep] at h
    split at h <;> cases h
    exact ⟨rfl, by simp, by simp⟩
  | snapRec e c =>
    simp only [opStep, snapRecStep] at h
    split at h <;> cases h
  | classify =>
    simp only [opStep, classifyOp] at h
    split at h <;> cases h
  | ovrClear b m =>
    simp only [opStep, ovrClearStep] at h
    split at h <;> cases h
    exact ⟨rfl, by simp, by simp⟩
  | recModify m =>
    simp only [opStep, recModifyStep] at h
    split at h <;> cases h <;> exact ⟨rfl, by simp, by simp⟩
  | recPoll p => exact own (by simp) (by simp) (recPollStep_running h)
  | recWait p c =>
    simp only [opStep, recWaitStep] at h
    split at h
    · exact own (by simp) (by simp) (recPollStep_running h)
    · cases h
  | recEflg p =>
    simp only [opStep, recEflgStep] at h
    split at h
    · cases h
    · split at h <;> cases h
  | flagClear m =>
    simp only [opStep, flagClearStep] at h
    split at h <;> cases h
    exact ⟨rfl, by simp, by simp⟩

/-- An operation's beginning leads to progress of the operation; CLASSIFY has none. -/
theorem opStart_running {op : LockOp} {q : Prog} {s t : State} (h : opStart op s = .running q t) :
    q.op = some op ∧ op ≠ .classify := by
  cases op with
  | classify =>
    simp only [opStart, classifyOp] at h
    split at h <;> cases h
  | recover =>
    simp only [opStart, recStart] at h
    split at h <;> cases h
    exact ⟨rfl, by simp⟩
  | _ => cases h; exact ⟨rfl, by simp⟩

/-! ## What is closed under the steps of an operation -/

/-- A property of the state that everything keeps that a step of an operation `o` of `who` can do: a read, a step of an
admitted modify, a byte into the image register, a decoded frame, and what `o` may write of the error registers. -/
structure OpClosed (who : Issuer) (o : Option LockOp) (P : State → Prop) : Prop where
  read : ∀ s a, P s → P (s.blockRead a).2
  modify : ∀ s a m v st t, P s → blockTransaction s.par.layout true (.modify a m v) = true →
    ((∃ st', s.modStep a m v st = .more st' t) ∨ ∃ ok, s.modStep a m v st = .done ok t) → P t
  image : ∀ s j v, P s → P (s.storeImage who j v)
  frame : ∀ s f, P s → Frame.decoded f → P (s.setFrame who f)
  snap : o = some .snaperr → ∀ s e, P s → P { s with esnap := e }
  latch : o = some .classify → ∀ s k, P s → P (latchUpdate k s)
  fail : o = some .recover → ∀ s n t, P s → P { s with recfails := n, recnext := t }
  success : o = some .recover → ∀ s, P s → P { s with recpend := false, recfails := 0, eclass := .unknown }

section OpClosed

variable {who : Issuer} {o : Option LockOp} {P : State → Prop}

theorem OpClosed.of_read (h : OpClosed who o P) {s t : State} {a : Nat} {r : Option Byte} (hs : P s)
    (hr : s.blockRead a = (r, t)) : P t := by
  have := h.read s a hs
  rwa [hr] at this

theorem OpClosed.rxFinish (h : OpClosed who o P) {n : Fin 9} {s t : State} (hs : P s)
    (ht : (rxFinish who n s).state = some t) : P t := by
  cases ht
  exact h.frame s _ hs (decodeImage_decoded _ _ _ (by omega))

theorem OpClosed.rxNext (h : OpClosed who o P) {b : Buf} {n : Fin 9} {i : Nat} {s t : State} (hs : P s)
    (ht : (rxNext who b n i s).state = some t) : P t := by
  unfold Machine.rxNext at ht
  split at ht
  · split at ht
    · cases ht; exact hs
    · exact h.rxFinish hs ht
  · exact h.rxFinish hs ht

theorem OpClosed.rxHeaderDone (h : OpClosed who o P) {b : Buf} {s t : State} (hs : P s)
    (ht : (rxHeaderDone who b s).state = some t) : P t := by
  unfold Machine.rxHeaderDone at ht
  dsimp only at ht
  split at ht
  · split at ht
    · cases ht; exact hs
    · exact h.rxNext hs ht
  · cases ht; exact hs

theorem OpClosed.classifyOp (h : OpClosed who (some .classify) P) {s t : State} (hs : P s)
    (ht : (classifyOp s).state = some t) : P t := by
  unfold Machine.classifyOp at ht
  split at ht <;> cases ht
  · exact h.latch rfl s _ hs
  · exact hs

theorem OpClosed.recFail (h : OpClosed who (some .recover) P) {r : OpResult} {s t : State} (hs : P s)
    (ht : (recFail r s).state = some t) : P t := by
  cases ht
  exact h.fail rfl s _ _ hs

theorem OpClosed.recPollStep (h : OpClosed who (some .recover) P) {p : Nat} {s t : State} (hs : P s)
    (ht : (recPollStep p s).state = some t) : P t := by
  unfold Machine.recPollStep at ht
  rcases hr : s.blockRead s.par.layout.canstat with ⟨_ | v, u⟩ <;> rw [hr] at ht <;> dsimp only at ht
  all_goals have hu := h.of_read hs hr
  · exact h.recFail hu ht
  · split at ht
    · cases ht; exact hu
    · split at ht
      · cases ht; exact hu
      · exact h.recFail hu ht

/-- One step of an operation keeps what is closed under its effects. -/
theorem opStep_keeps {p : Prog} (h : OpClosed who p.op P) {s t : State} (hs : P s)
    (ht : (opStep who p s).state = some t) : P t := by
  cases p with
  | rxHeader b j =>
    simp only [opStep, rxHeaderStep] at ht
    rcases hr : s.blockRead (headerAddr s.par.layout b j) with ⟨_ | v, u⟩ <;> rw [hr] at ht <;> dsimp only at ht
    all_goals have hu := h.of_read hs hr
    · cases ht; exact hu
    · replace hu := h.image u ⟨j.val + 1, by omega⟩ v hu
      split at ht
      · cases ht; exact hu
      · exact h.rxHeaderDone hu ht
  | rxCtrl b n =>
    simp only [opStep, rxCtrlStep] at ht
    rcases hr : s.blockRead (s.par.layout.rxbBase b) with ⟨_ | v, u⟩ <;> rw [hr] at ht <;> dsimp only at ht
    all_goals have hu := h.of_read hs hr
    · cases ht; exact hu
    · exact h.rxNext (h.image u 0 v hu) ht
  | rxData b n i =>
    simp only [opStep, rxDataStep] at ht
    rcases hr : s.blockRead (dataAddr s.par.layout b i) with ⟨_ | v, u⟩ <;> rw [hr] at ht <;> dsimp only at ht
    all_goals have hu := h.of_read hs hr
    · cases ht; exact hu
    · exact h.rxNext (h.image u ⟨i.val + 6, by omega⟩ v hu) ht
  | snapEflg =>
    simp only [opStep, snapEflgStep] at ht
    rcases hr : s.blockRead s.par.layout.eflg with ⟨_ | v, u⟩ <;> rw [hr] at ht <;> cases ht <;>
      exact h.of_read hs hr
  | snapTec e =>
    simp only [opStep, snapTecStep] at ht
    rcases hr : s.blockRead s.par.layout.tec with ⟨_ | v, u⟩ <;> rw [hr] at ht <;> cases ht <;>
      exact h.of_read hs hr
  | snapRec e c =>
    simp only [opStep, snapRecStep] at ht
    rcases hr : s.blockRead s.par.layout.recCounter with ⟨_ | v, u⟩ <;> rw [hr] at ht <;> cases ht
    all_goals have hu := h.of_read hs hr
    · exact hu
    · exact h.snap rfl u _ hu
  | classify => exact h.classifyOp hs ht
  | ovrClear b m =>
    simp only [opStep, ovrClearStep] at ht
    have ha : blockTransaction s.par.layout true (.modify s.par.layout.eflg (ovrMask s.par.layout b) 0x00) = true := by
      simp [blockTransaction, ovrMask_within_ovrAll]
    rcases hr : s.modStep s.par.layout.eflg (ovrMask s.par.layout b) 0x00 m with ⟨m', u⟩ | ⟨_ | _, u⟩ <;>
      rw [hr] at ht <;> cases ht
    · exact h.modify s _ _ _ m _ hs ha (.inl ⟨_, hr⟩)
    all_goals exact h.modify s _ _ _ m _ hs ha (.inr ⟨_, hr⟩)
  | recModify m =>
    simp only [opStep, recModifyStep] at ht
    have ha : blockTransaction s.par.layout true (.modify s.par.layout.canctrl (reqopMask s.par.layout)
        (reqopField s.par.layout .normal)) = true := by simp [blockTransaction]
    rcases hr : s.modStep s.par.layout.canctrl (reqopMask s.par.layout) (reqopField s.par.layout .normal) m
      with ⟨m', u⟩ | ⟨_ | _, u⟩ <;> rw [hr] at ht <;> dsimp only at ht
    · cases ht; exact h.modify s _ _ _ m _ hs ha (.inl ⟨_, hr⟩)
    · exact h.recFail (h.modify s _ _ _ m _ hs ha (.inr ⟨_, hr⟩)) ht
    · cases ht; exact h.modify s _ _ _ m _ hs ha (.inr ⟨_, hr⟩)
  | recPoll p => exact h.recPollStep hs ht
  | recWait p c =>
    simp only [opStep, recWaitStep] at ht
    split at ht
    · exact h.recPollStep hs ht
    · cases ht
  | recEflg p =>
    simp only [opStep, recEflgStep] at ht
    rcases hr : s.blockRead s.par.layout.eflg with ⟨_ | v, u⟩ <;> rw [hr] at ht <;> dsimp only at ht
    all_goals have hu := h.of_read hs hr
    · exact h.recFail hu ht
    · split at ht
      · exact h.recFail hu ht
      · cases ht; exact h.success rfl u hu
  | flagClear m =>
    simp only [opStep, flagClearStep] at ht
    have ha : blockTransaction s.par.layout true (.modify s.par.layout.canintf s.hmask 0x00) = true := by
      simp [blockTransaction]
    rcases hr : s.modStep s.par.layout.canintf s.hmask 0x00 m with ⟨m', u⟩ | ⟨_ | _, u⟩ <;> rw [hr] at ht <;>
      cases ht
    · exact h.modify s _ _ _ m _ hs ha (.inl ⟨_, hr⟩)
    all_goals exact h.modify s _ _ _ m _ hs ha (.inr ⟨_, hr⟩)

/-- So does its beginning. -/
theorem opStart_keeps {op : LockOp} (h : OpClosed who (some op) P) {s t : State} (hs : P s)
    (ht : (opStart op s).state = some t) : P t := by
  cases op with
  | snaperr => cases ht; exact h.snap rfl s _ hs
  | classify => exact h.classifyOp hs ht
  | recover =>
    simp only [opStart, recStart] at ht
    split at ht <;> cases ht <;> exact hs
  | _ => cases ht; exact hs

/-- So does an inner step of a pass, whichever operation is in progress. -/
theorem innerStep_keeps (h : ∀ o, OpClosed .dispatcher o P) {op : LockOp} {s t : State} (hs : P s)
    (ht : (innerStep op s).state = some t) : P t := by
  unfold innerStep at ht
  split at ht
  · exact opStep_keeps (h _) hs ht
  · rcases ho : opStart op s with ⟨p, u⟩ | ⟨r, u⟩ | _ <;> rw [ho] at ht <;> dsimp only at ht
    · exact opStep_keeps (h _) (opStart_keeps (h _) hs (by rw [ho]; rfl)) ht
    · exact opStart_keeps (h _) hs (by rw [ho]; exact ht)
    · cases ht

end OpClosed

/-! ## What one step of an agent can be -/

/-- What a step of the port can be: its operation takes LOCK and begins, BRESET takes effect, or its operation goes
on. -/
theorem portStep_cases {s t : State} (h : portStep s = some t) :
    (∃ op, s.port = some (.acquire op) ∧ s.lock = .free ∧
      portAfter (opStart op { s with lock := .client s.client }) = some t) ∨
    (s.port = some .resetWait ∧ s.dstate = .idle ∧ s.lock = .free ∧ t = blockReset s) ∨
    ∃ p, s.port = some (.run p) ∧ portAfter (opStep .client p s) = some t := by
  unfold portStep at h
  split at h
  · cases h
  · next op hp =>
    split at h
    · next hl => exact .inl ⟨op, hp, hl, h⟩
    · cases h
  · next hp =>
    split at h <;> cases h
    next hg => exact .inr (.inl ⟨hp, hg.1, hg.2, rfl⟩)
  · next p hp => exact .inr (.inr ⟨p, hp, h⟩)

/-! ## What is closed under the acts of the environment -/

/-- A property of the state that everything keeps that an act of the environment can do. Where an act's guard matters,
it stands as what the update is known to keep. -/
structure EnvClosed (P : State → Prop) : Prop where
  issue : ∀ s op x, P s → P { s.logBus op with xport := x }
  chip : ∀ s m, P s → (s.Inv → Memory.wf m = true) → P (s.setChip m)
  reset : ∀ s, P s → P s.resetChip
  halves : ∀ s hs, P s → (s.halvesInv → ({ s with halves := hs } : State).halvesInv) → P { s with halves := hs }
  lock : ∀ s l, P s → (s.lockInv → ({ s with lock := l } : State).lockInv) → P { s with lock := l }
  edges : ∀ s n, P s → P { s with edges := n }
  token : ∀ s, P s → s.evq < s.par.evqCap → P { s with evq := s.evq + 1 }
  consume : ∀ s, P s → P { s with rxq := s.rxq.tail }
  tick : ∀ s n, P s → P { s with now := s.now + n }
  fin : ∀ s f, P s → P { s with fin := f }
  img : ∀ s i, P s → P { s with img := i }
  hold : ∀ s c w, P s → P (writeOpreq c w s)

section EnvClosed

variable {P : State → Prop}

theorem EnvClosed.put (k : EnvClosed P) {s : State} (h : P s) {a : Nat} (v : Byte)
    (ha : s.Inv → a < Config.addressLimit) : P (s.putByte a v) :=
  k.chip s _ h fun hs => Memory.wf_write hs.mem (ha hs) v

/-- A transmit buffer's control register exists. -/
theorem wf_txbBase {m : ChipLayout} (h : m.Wf) (n : Fin 3) : m.txbBase n < Config.addressLimit := by
  obtain ⟨-, h0, h1, h2, -⟩ := wf_bounds h
  simp only [ChipLayout.txbBase, Config.addressLimit]
  split <;> omega

/-- The registers of a receive buffer exist. -/
theorem wf_rxbBase {m : ChipLayout} (h : m.Wf) (b : Buf) {j : Nat} (hj : j < 14) :
    m.rxbBase b + j < Config.addressLimit := by
  obtain ⟨-, -, -, -, h0, h1⟩ := wf_bounds h
  cases b <;> simp only [ChipLayout.rxbBase, Config.addressLimit] <;> omega

/-- Each single register exists. -/
theorem wf_register {m : ChipLayout} (h : m.Wf) {a : Nat} (ha : a ∈ m.registers) : a < Config.addressLimit :=
  h.2.1 a ha

theorem chipStep_keeps (k : EnvClosed P) {a : ChipAct} {s t : State} (h : P s) (ht : chipStep a s = .ok t) : P t := by
  have reg : ∀ {s : State} {a : Nat}, a ∈ s.par.layout.registers → s.Inv → a < Config.addressLimit :=
    fun ha hs => wf_register hs.layout ha
  cases a <;> simp only [chipStep] at ht
  case setFlags m => cases ht; exact k.put h _ (reg (by simp [ChipLayout.registers]))
  case loadRx b img =>
    split at ht <;> cases ht
    refine k.put (k.chip s _ h fun hs => Memory.wf_writeAll hs.mem ?_) _ (reg (by simp [ChipLayout.registers]))
    intro c hc
    obtain ⟨j, -, rfl⟩ := List.mem_map.mp hc
    exact wf_rxbBase hs.layout b j.isLt
  case pokeRx b j v =>
    split at ht <;> cases ht
    exact k.put h _ fun hs => wf_rxbBase hs.layout b j.isLt
  case overflow b =>
    split at ht <;> cases ht
    exact k.put h _ (reg (by simp [ChipLayout.registers]))
  case counters =>
    cases ht
    have put : ∀ {s : State} (a : Nat) (v : Byte), P s → a ∈ s.par.layout.registers → P (s.putByte a v) :=
      fun _ v h ha => k.put h v (reg ha)
    exact put _ _ (put _ _ (put _ _ h (by simp [ChipLayout.registers])) (by simp [ChipLayout.registers]))
      (by simp [ChipLayout.registers])
  case enterMode => cases ht; exact k.put h _ (reg (by simp [ChipLayout.registers]))
  case clearBusOff => cases ht; exact k.put h _ (reg (by simp [ChipLayout.registers]))
  case txDone n =>
    cases ht
    exact k.put (k.put h _ fun hs => wf_txbBase hs.layout n) _ (reg (by simp [ChipLayout.registers]))

theorem xferRead_keeps (k : EnvClosed P) {s : State} (h : P s) (n a : Nat) : P (s.xferRead n a).2 := k.issue s _ _ h

theorem xferWrite_keeps (k : EnvClosed P) {s : State} (h : P s) (n : Nat) {a : Nat} (v : Byte)
    (ha : s.halvesInv → a < Config.addressLimit) : P (s.xferWrite n a v).2 := by
  simp only [State.xferWrite]
  split
  · exact k.put (k.issue s _ _ h) _ fun hs => ha hs.halves
  · exact k.issue s _ _ h

theorem xferModify_keeps (k : EnvClosed P) {s : State} (h : P s) (n : Nat) {a : Nat} (m v : Byte)
    (ha : a < Config.addressLimit) : P (s.xferModify n a m v).2 := by
  simp only [State.xferModify]
  split
  · exact k.put (k.issue s _ _ h) _ fun _ => ha
  · exact k.issue s _ _ h

theorem xferWrite_halves (s : State) (n a : Nat) (v : Byte) : (s.xferWrite n a v).2.halves = s.halves := by
  simp only [State.xferWrite]
  split <;> rfl

/-- A client's access that is no fault is of a register the chip has (R60). -/
theorem clientTransaction_address {c : Nat} {a : Byte} {s t u : State} (h : clientTransaction c a s t = .ok u) :
    a.toNat < Config.addressLimit := by
  unfold clientTransaction clientAccess at h
  split at h
  · cases h
  · next hg =>
    split at h
    · cases h
    · next hl => exact not_le.mp fun ha => hg ⟨not_not.mp hl, ha⟩

theorem clientWrite_address {c : Nat} {a : Byte} {s t u : State} (h : clientWrite c a s t = .ok u) :
    a.toNat < Config.addressLimit := by
  unfold clientWrite at h
  split at h
  · cases h
  · exact clientTransaction_address h

theorem clientModify_keeps (k : EnvClosed P) {s : State} (h : P s) (c : Nat) {a : Byte} (m v : Byte)
    (ha : a.toNat < Config.addressLimit) : P (clientModify c a m v s) := by
  unfold clientModify
  split
  · exact xferModify_keeps k h 1 m v ha
  · have hr := xferRead_keeps k h 1 a.toNat
    split
    · next byte t ht =>
      rw [ht] at hr
      refine k.halves t _ hr fun hh x hx => ?_
      rcases List.mem_append.mp hx with hx | hx
      · exact hh x hx
      · rw [List.mem_singleton.mp hx]
        exact ha
    · next t ht => rwa [ht] at hr

theorem clientModifyWrite_keeps (k : EnvClosed P) {c : Nat} {s t : State} (h : P s)
    (ht : clientModifyWrite c s = .ok t) : P t := by
  unfold clientModifyWrite at ht
  split at ht
  · cases ht; exact h
  · next x hx =>
    split at ht <;> cases ht
    refine k.halves _ _ (xferWrite_keeps k h 1 x.value fun hh => hh x (List.mem_of_find?_eq_some hx)) ?_
    intro hh y hy
    rw [State.halvesInv, xferWrite_halves] at hh
    exact hh y (List.mem_filter.mp hy).1

theorem clientReset_keeps (k : EnvClosed P) {s : State} (h : P s) : P (clientReset s) := by
  simp only [clientReset]
  split
  · exact k.reset _ (k.issue s _ _ h)
  · exact k.issue s _ _ h

theorem clientStep_keeps (k : EnvClosed P) {a : ClientAct} {s t : State} (h : P s) (ht : clientStep a s = .ok t) :
    P t := by
  cases a with
  | wrFinId v => cases ht; exact k.fin s _ h
  | wrFinDlc v => cases ht; exact k.fin s _ h
  | wrFinData i v => cases ht; exact k.fin s _ h
  | wrImg j v => cases ht; exact k.img s _ h
  | wrBstat v => cases ht; exact h
  | wrOpreq c w => cases ht; exact k.hold s c w h
  | lock c =>
    simp only [clientStep] at ht
    split at ht <;> cases ht
    split
    · next hl =>
      refine k.lock s _ h fun ⟨hd, hp⟩ => ⟨?_, fun hr => absurd (hp hr) (by simp [hl])⟩
      simpa [hl] using hd
    · exact h
  | unlock c =>
    simp only [clientStep] at ht
    split at ht
    · cases ht
    · next hl =>
      split at ht <;> cases ht
      next hr =>
      refine k.lock s _ h fun ⟨hd, hp⟩ => ⟨?_, fun hr' => absurd (.inl hr') hr⟩
      simpa [not_not.mp hl] using hd
  | xread c a => exact clientTransaction_ok ht ▸ xferRead_keeps k h 1 a.toNat
  | xwrite c a v => exact clientWrite_ok ht ▸ xferWrite_keeps k h 1 v fun _ => clientWrite_address ht
  | xmodify c a m v => exact clientWrite_ok ht ▸ clientModify_keeps k h c m v (clientWrite_address ht)
  | xmodifyWrite c => exact clientModifyWrite_keeps k h ht
  | xreset c => exact clientAccess_ok ht ▸ clientReset_keeps k h

/-- An act of an environment agent keeps what is closed under its effects. -/
theorem envStep_keeps (k : EnvClosed P) {e : EnvAct} {s t : State} (h : P s) (ht : envStep e s = .ok t) : P t := by
  cases e with
  | chip a => exact chipStep_keeps k h ht
  | isr =>
    cases ht
    unfold isrStep
    split
    · exact h
    · split
      · next hq => exact k.edges _ _ (k.token s h hq)
      · exact k.edges s _ h
  | glitch => cases ht; exact k.edges s _ h
  | client a => exact clientStep_keeps k h ht
  | consume => cases ht; exact k.consume s h
  | tick n => cases ht; exact k.tick s n h

end EnvClosed

/-! ## Which progress fits which state -/

/-- Which operation a state of the pass may have in progress (R190); CLR's is the final clear, which is no operation. -/
def DState.mayRun : DState → Option LockOp → Bool
  | .rx0, some (.rxread b) => b == .rx0
  | .rx1, some (.rxread b) => b == .rx1
  | .errs, some .snaperr => true
  | .errs, some .classify => true
  | .recs, some .recover => true
  | .ovrs, some (.clrovr _) => true
  | .clr, none => true
  | _, _ => false

theorem DState.inPass_of_mayRun {d : DState} {o : Option LockOp} (h : d.mayRun o = true) : d.inPass = true := by
  cases d <;> simp [DState.mayRun, DState.inPass] at h ⊢

/-- The flag that a state of the pass serves, which FLAGS holds while the state works on it (R195, R199, R201). -/
def DState.serves (m : ChipLayout) (f : Byte) : DState → Bool
  | .rx0 => rxFlagSet m .rx0 f
  | .rx1 => rxFlagSet m .rx1 f
  | .errs => errSet m f
  | .ovrs => errSet m f
  | _ => true

/-- A progress fits a state that may run its operation; SNAPERR's first never stands in a pass, whose beginning comes
with its first transaction. -/
theorem progFits_eq (d : DState) (p : Prog) : progFits d p = (decide (p ≠ .snapEflg) && d.mayRun p.op) := by
  cases d <;> cases p <;> rfl

theorem progFits_iff {d : DState} {p : Prog} : progFits d p = true ↔ p ≠ .snapEflg ∧ d.mayRun p.op = true := by
  rw [progFits_eq, Bool.and_eq_true, decide_eq_true_eq]

/-- The flag a state serves, as `progInv` says it state by state. -/
theorem DState.serves_iff {m : ChipLayout} {f : Byte} {d : DState} :
    d.serves m f = true ↔
      (d = .rx0 → rxFlagSet m .rx0 f = true) ∧ (d = .rx1 → rxFlagSet m .rx1 f = true) ∧
        (d = .errs → errSet m f = true) ∧ (d = .ovrs → errSet m f = true) := by
  cases d <;> simp [DState.serves]

/-- `progInv` in terms of operations: what is in progress fits the dispatcher's state, which has seen the flag it
serves, and the port runs an operation, CLASSIFY's one step never being in progress there. -/
theorem State.progInv_iff {s : State} :
    s.progInv ↔
      (∀ p, s.dprog = some p →
        progFits s.dstate p = true ∧ s.dstate.serves s.par.layout s.flags = true ∧
          (p = .classify → s.esnap.valid = true)) ∧
      ∀ p, s.port = some (.run p) → p.op ≠ none ∧ p.op ≠ some .classify := by
  constructor
  · rintro ⟨hd, hf, hc⟩
    refine ⟨fun p hp => ?_, fun p hp => ⟨fun hn => ?_, fun hk => ?_⟩⟩
    · obtain ⟨hfit, h0, h1, he, ho, hv⟩ := hd p hp
      exact ⟨hfit, DState.serves_iff.mpr ⟨h0, h1, he, ho⟩, hv⟩
    · obtain ⟨m, rfl⟩ := Prog.op_eq_none.mp hn
      exact hf m hp
    · exact hc (Prog.op_eq_classify.mp hk ▸ hp)
  · rintro ⟨hd, hp⟩
    refine ⟨fun p hq => ?_, fun m hm => (hp _ hm).1 rfl, fun hc => (hp _ hc).2 rfl⟩
    obtain ⟨hfit, hs, hv⟩ := hd p hq
    obtain ⟨h0, h1, he, ho⟩ := DState.serves_iff.mp hs
    exact ⟨hfit, h0, h1, he, ho, hv⟩

/-- With nothing in progress in a pass, `progInv` speaks of the port alone. -/
theorem progInv_of_idle {s t : State} (h : s.progInv) (hd : t.dprog = none) (hp : t.port = s.port) : t.progInv :=
  State.progInv_iff.mpr ⟨fun _ hq => absurd (hd.symm.trans hq) (by simp), hp ▸ (State.progInv_iff.mp h).2⟩

theorem State.Inv.dprog_none {s : State} (h : s.Inv) (hd : ∀ o, s.dstate.mayRun o = false) : s.dprog = none := by
  rcases hp : s.dprog with _ | p
  · rfl
  · have := (progFits_iff.mp (h.prog.1 p hp).1).2
    rw [hd] at this
    cases this

/-- A state whose flag FLAGS does not hold has nothing in progress. -/
theorem State.Inv.dprog_none_of_unserved {s : State} (h : s.Inv)
    (hs : s.dstate.serves s.par.layout s.flags ≠ true) : s.dprog = none := by
  rcases hp : s.dprog with _ | p
  · rfl
  · exact absurd ((State.progInv_iff.mp h.prog).1 p hp).2.1 hs

/-! ## What an operation's step keeps -/

/-- The invariants of what an operation may write: the chip registers, the frame registers and the recovery latch. -/
structure State.OpInv (s : State) : Prop where
  layout : s.layoutInv
  mem : s.memInv
  fout : Frame.decoded s.fout
  dfout : Frame.decoded s.dfout
  latch : s.latchInv

theorem State.Inv.opInv {s : State} (h : s.Inv) : s.OpInv := ⟨h.layout, h.mem, h.frame.1, h.frame.2.1, h.latch⟩

/-- The block's modifies are of CANINTF, EFLG and CANCTRL (R60). -/
theorem blockTransaction_modify {l : ChipLayout} {a : Nat} {m v : Byte}
    (h : blockTransaction l true (.modify a m v) = true) : a = l.canintf ∨ a = l.eflg ∨ a = l.canctrl := by
  simp only [blockTransaction, Bool.true_and, Bool.or_eq_true, Bool.and_eq_true, beq_iff_eq] at h
  tauto

/-- A step of a modify writes one byte to its register, or none. -/
theorem modStep_putByte {s t : State} {a : Nat} {m v : Byte} {st : ModStage}
    (h : (∃ st', s.modStep a m v st = .more st' t) ∨ ∃ ok, s.modStep a m v st = .done ok t) :
    ∃ bus xport, t = { s with bus := bus, xport := xport } ∨
      ∃ w, t = State.putByte { s with bus := bus, xport := xport } a w := by
  obtain ⟨bus, x, hn, hm⟩ := State.modStep_spec h
  refine ⟨bus, x, ?_⟩
  cases hp : s.par.nativeBitModify
  · rcases (hm hp).2 with h | ⟨_, _, _, h⟩
    · exact .inl h
    · exact .inr ⟨_, h⟩
  · rcases (hn hp).2 with h | h
    · exact .inl h
    · exact .inr ⟨_, h⟩

theorem opInv_closed (who : Issuer) (o : Option LockOp) : OpClosed who o State.OpInv where
  read _ _ h := { h with }
  modify s a m v st t h ha ht := by
    have hb : a < Config.addressLimit := by
      refine wf_register h.layout ?_
      rcases blockTransaction_modify ha with rfl | rfl | rfl <;> simp [ChipLayout.registers]
    obtain ⟨bus, x, rfl | ⟨w, rfl⟩⟩ := modStep_putByte ht
    · exact { h with }
    · exact { h with mem := Memory.wf_write h.mem hb w }
  image s j v h := by cases who <;> exact { h with }
  frame s f h hf := by
    cases who
    · exact { h with fout := hf }
    · exact { h with dfout := hf }
  snap _ _ _ h := { h with }
  latch _ s k h := by cases k <;> exact { h with latch := by simp [State.latchInv, latchUpdate] }
  fail _ _ _ _ h := { h with }
  success _ _ h := { h with latch := by simp [State.latchInv] }

/-- What an operation's step leaves is a state with every invariant once its progress is settled: an operation writes
only what `OpInv` speaks of. -/
theorem State.Inv.of_op {who : Issuer} {s u : State} (h : s.Inv) (hf : OpFrame who s u) (ho : u.OpInv) :
    ({ u with dprog := none } : State).Inv where
  layout := ho.layout
  mem := ho.mem
  halves := by have := h.halves; rwa [State.halvesInv, ← hf.halves] at this
  lock := by
    have := h.lock
    simpa [State.lockInv, State.portRuns, hf.lock, hf.dstate, hf.port, hf.client] using this
  prog := progInv_of_idle h.prog rfl hf.port
  mask := by
    have := h.mask
    rwa [State.maskInv, ← hf.hmask, ← hf.flags, ← hf.par, ← hf.dstate, ← hf.errok] at this
  queue := by
    have := h.queue
    rwa [State.queueInv, ← hf.evq, ← hf.rxq, ← hf.rxretry0, ← hf.rxretry1, ← hf.par] at this
  frame := ⟨ho.fout, ho.dfout, by have := h.frame.2.2; rwa [← hf.rxq] at this⟩
  latch := ho.latch
  time := by have := h.time; rwa [State.timeInv, ← hf.idleSince, ← hf.now] at this
  elen := by have := h.elen; rwa [State.elenInv, ← hf.elen] at this

/-! ## Updates that keep the invariants -/

theorem State.Inv.emit {s : State} (h : s.Inv) (k : RecordKind) (x y z w : Byte) : (s.emit k x y z w).Inv :=
  { h with }

theorem State.Inv.setRxretry {s : State} (h : s.Inv) (b : Buf) {n : Nat} (hn : n ≤ s.par.rxRetryLimit) :
    (s.setRxretry b n).Inv := by
  obtain ⟨he, hq, h0, h1⟩ := h.queue
  cases b
  · exact { h with queue := ⟨he, hq, hn, h1⟩ }
  · exact { h with queue := ⟨he, hq, h0, hn⟩ }

/-- A decoded frame is handed off while RXQ has room. -/
theorem State.Inv.deliver {s : State} (h : s.Inv) (hq : s.rxq.length < s.par.rxqCap) :
    ({ s with rxq := s.rxq ++ [s.dfout] } : State).Inv where
  layout := h.layout
  mem := h.mem
  halves := h.halves
  lock := h.lock
  prog := h.prog
  mask := h.mask
  queue := ⟨h.queue.1, by simpa using hq, h.queue.2.2⟩
  frame := ⟨h.frame.1, h.frame.2.1, fun f hf => by
    rcases List.mem_append.mp hf with hf | hf
    · exact h.frame.2.2 f hf
    · rw [List.mem_singleton.mp hf]
      exact h.frame.2.1⟩
  latch := h.latch
  time := h.time
  elen := h.elen

/-- Before OVRS is over ERR is not marked handled (R202). -/
theorem State.Inv.err_unhandled {s : State} (h : s.Inv) (hd : s.dstate.errDone = false) :
    errSet s.par.layout s.hmask = false := by
  rw [← Bool.not_eq_true]
  intro he
  have := (h.mask.2.2 he).2
  rw [hd] at this
  cases this

/-- Flags that FLAGS holds are marked handled; ERR only once OVRS is over. -/
theorem State.Inv.handle {s : State} (h : s.Inv) {m : Byte} (hm : m &&& ~~~(s.flags &&& knownf s.par.layout) = 0)
    (hd : s.dstate ≠ .readf)
    (he : errSet s.par.layout m = true → s.errok = true ∧ s.dstate.errDone = true) : (s.handle m).Inv := by
  obtain ⟨h1, -, h3⟩ := h.mask
  refine { h with mask := ⟨?_, fun hr => absurd hr hd, fun hs => ?_⟩ }
  · show (s.hmask ||| m) &&& _ = 0
    rw [BitVec.and_or_distrib_right]
    exact (congrArg₂ _ h1 hm).trans (by simp)
  · have : errSet s.par.layout s.hmask = true ∨ errSet s.par.layout m = true := by
      simpa [errSet, State.handle] using hs
    exact this.elim h3 he

/-- Before OVRS is over ERROK may change. -/
theorem State.Inv.setErrok {s : State} (h : s.Inv) (hd : s.dstate.errDone = false) (b : Bool) :
    ({ s with errok := b } : State).Inv :=
  { h with
    mask := ⟨h.mask.1, h.mask.2.1, fun he => absurd he (by rw [Bool.not_eq_true]; exact h.err_unhandled hd)⟩ }

/-- The dispatcher goes on to another state, within the pass or outside it. -/
theorem State.Inv.enter {s : State} (h : s.Inv) (hp : s.dprog = none) {d : DState} (hi : d.inPass = s.dstate.inPass)
    (hr : d ≠ .readf) (he : s.dstate.errDone = true → d.errDone = true) : ({ s with dstate := d } : State).Inv :=
  { h with
    lock := ⟨by rw [hi]; exact h.lock.1, h.lock.2⟩
    prog := progInv_of_idle h.prog hp rfl
    mask := ⟨h.mask.1, fun hd => absurd hd hr, fun hm => ⟨(h.mask.2.2 hm).1, he (h.mask.2.2 hm).2⟩⟩ }

/-- An operation comes to be in progress in a pass. -/
theorem State.Inv.setDprog {s : State} (h : s.Inv) {p : Prog} (hf : progFits s.dstate p = true)
    (hs : s.dstate.serves s.par.layout s.flags = true) (hc : p = .classify → s.esnap.valid = true) :
    ({ s with dprog := some p } : State).Inv :=
  { h with
    prog := State.progInv_iff.mpr
      ⟨fun _ hq => Option.some.inj hq ▸ ⟨hf, hs, hc⟩, (State.progInv_iff.mp h.prog).2⟩ }

/-! ## Every act of the environment keeps the invariants -/

theorem inv_envClosed : EnvClosed State.Inv where
  issue _ _ _ h := { h with }
  chip _ _ h hm := { h with mem := hm h }
  reset _ h := { h with mem := wf_resetRegisters h.layout _ }
  halves _ _ h hh := { h with halves := hh h.halves }
  lock _ _ h hl := { h with lock := hl h.lock }
  edges _ _ h := { h with }
  token _ h hq := { h with queue := ⟨hq, h.queue.2⟩ }
  consume _ h :=
    { h with
      queue := ⟨h.queue.1, (List.tail_sublist _).length_le.trans h.queue.2.1, h.queue.2.2⟩
      frame := ⟨h.frame.1, h.frame.2.1, fun f hf => h.frame.2.2 f (List.mem_of_mem_tail hf)⟩ }
  tick _ _ h := { h with time := Nat.le_add_right_of_le h.time }
  fin _ _ h := { h with }
  img _ _ h := { h with }
  hold _ _ _ h := { h with }

/-! ## Every step of the port keeps the invariants -/

/-- A client that owns LOCK keeps the dispatcher out of its passes, so nothing is in progress there (R39). -/
theorem State.Inv.dprog_none_of_client {s : State} (h : s.Inv) {c : Nat} (hl : s.lock = .client c) :
    s.dprog = none := by
  have hd : s.dstate.inPass = false := by
    rw [← Bool.not_eq_true, ← h.lock.1, hl]
    simp
  exact h.dprog_none fun o => Bool.eq_false_iff.mpr fun hm => absurd (DState.inPass_of_mayRun hm) (by simp [hd])

/-- What follows a step of the port's operation: it goes on, or it ends and frees LOCK (R211). -/
theorem portAfter_inv {o : OpOut} {s t : State} (h : s.Inv) (hl : s.lock = .client s.client)
    (ho : ∀ u, o.state = some u → OpFrame .client s u ∧ u.OpInv)
    (hrun : ∀ p u, o = .running p u → p.op ≠ none ∧ p.op ≠ some .classify) (ht : portAfter o = some t) : t.Inv := by
  have key : ∀ u, o.state = some u → u.Inv ∧ u.lock = .client u.client := by
    intro u hu
    obtain ⟨hf, hu⟩ := ho u hu
    have hd : u.dprog = none := hf.dprog.trans (h.dprog_none_of_client hl)
    have hi := h.of_op hf hu
    rw [← hd] at hi
    exact ⟨hi, by rw [hf.lock, hf.client, hl]⟩
  obtain ⟨p, u, rfl, rfl⟩ | ⟨r, u, rfl, rfl⟩ := portAfter_cases ht
  all_goals obtain ⟨hu, hlu⟩ := key u rfl
  · exact
      { hu with
        lock := ⟨hu.lock.1, fun _ => hlu⟩
        prog := State.progInv_iff.mpr
          ⟨(State.progInv_iff.mp hu.prog).1, fun q hq => by cases hq; exact hrun p u rfl⟩ }
  · have hpass : u.dstate.inPass ≠ true := fun hp => absurd (hu.lock.1.mpr hp) (by simp [hlu])
    exact
      { hu with
        lock := ⟨⟨nofun, fun hp => absurd hp hpass⟩, nofun⟩
        prog := State.progInv_iff.mpr ⟨(State.progInv_iff.mp hu.prog).1, nofun⟩ }

theorem zeroFrame_decoded : Frame.decoded zeroFrame := by decide

/-- BRESET takes effect in IDLE with LOCK FREE, and leaves the reset values (R210). -/
theorem blockReset_inv {s : State} (h : s.Inv) (hd : s.dstate = .idle) (hl : s.lock = .free) : (blockReset s).Inv where
  layout := h.layout
  mem := h.mem
  halves := h.halves
  lock := ⟨by simp [blockReset, hl, DState.inPass], nofun⟩
  prog := State.progInv_iff.mpr
    ⟨fun p hp => absurd ((h.dprog_none (by simp [hd, DState.mayRun])).symm.trans hp) (by simp), nofun⟩
  mask := ⟨BitVec.zero_and, fun _ => rfl, fun he => by simp [errSet, blockReset] at he⟩
  queue := ⟨h.queue.1, h.queue.2.1, Nat.zero_le _, Nat.zero_le _⟩
  frame := ⟨zeroFrame_decoded, zeroFrame_decoded, h.frame.2.2⟩
  latch := by simp [State.latchInv, blockReset]
  time := le_rfl
  elen := .inl rfl

theorem portStep_inv {s t : State} (h : s.Inv) (ht : portStep s = some t) : t.Inv := by
  obtain ⟨op, -, hl, ha⟩ | ⟨-, hd, hl, rfl⟩ | ⟨p, hp, ha⟩ := portStep_cases ht
  · have hi : ({ s with lock := .client s.client } : State).Inv :=
      { h with lock := ⟨by simpa [hl] using h.lock.1, fun _ => rfl⟩ }
    exact portAfter_inv hi rfl
      (fun u hu => ⟨opStart_frame hu, opStart_keeps (opInv_closed .client _) hi.opInv hu⟩)
      (fun p u hr => by obtain ⟨hq, hc⟩ := opStart_running hr; simp [hq, hc]) ha
  · exact blockReset_inv h hd hl
  · have hl : s.lock = .client s.client := h.lock.2 (by simp [State.portRuns, hp])
    exact portAfter_inv h hl (fun u hu => ⟨opStep_frame hu, opStep_keeps (opInv_closed .client _) h.opInv hu⟩)
      (fun q u hr => (opStep_running hr).1 ▸ (State.progInv_iff.mp h.prog).2 p hp) ha

/-! ## Every step of the dispatcher keeps the invariants -/

/-- The dispatcher stands in state `d` with every invariant, no operation in progress and the flag it serves seen. -/
structure State.At (d : DState) (s : State) : Prop where
  inv : s.Inv
  dprog : s.dprog = none
  dstate : s.dstate = d
  serves : d.serves s.par.layout s.flags = true

/-- What follows an inner step of a pass: the operation goes on, or it ends in the state that ran it. -/
theorem innerAfter_inv {fin : OpResult → State → State} {o : OpOut} {s t : State} (h : s.Inv)
    (hs : s.dstate.serves s.par.layout s.flags = true)
    (ho : ∀ u, o.state = some u → OpFrame .dispatcher s u ∧ u.OpInv)
    (hrun : ∀ p u, o = .running p u → p ≠ .classify ∧ progFits s.dstate p = true)
    (hfin : ∀ r u, o = .done r u → ({ u with dprog := none } : State).At s.dstate →
      (fin r { u with dprog := none }).Inv)
    (ht : innerAfter fin o = some t) : t.Inv := by
  have key : ∀ u, o.state = some u → ({ u with dprog := none } : State).At s.dstate := fun u hu =>
    have hf := (ho u hu).1
    ⟨h.of_op hf (ho u hu).2, rfl, hf.dstate, by simpa only [hf.par, hf.flags] using hs⟩
  obtain ⟨p, u, rfl, rfl⟩ | ⟨r, u, rfl, rfl⟩ := innerAfter_cases ht
  · obtain ⟨hi, -, hd, hs⟩ := key u rfl
    obtain ⟨hc, hp⟩ := hrun p u rfl
    exact hi.setDprog (hd ▸ hp) (hd ▸ hs) fun h => absurd h hc
  · exact hfin r u rfl (key u rfl)

/-- The dispatcher's operation in progress goes on, or its final clear begins. -/
theorem innerAfter_opStep_inv {fin : OpResult → State → State} {p : Prog} {s t : State} (h : s.Inv)
    (hs : s.dstate.serves s.par.layout s.flags = true) (hp : s.dstate.mayRun p.op = true)
    (hfin : ∀ r u, opStep .dispatcher p s = .done r u → ({ u with dprog := none } : State).At s.dstate →
      (fin r { u with dprog := none }).Inv)
    (ht : innerAfter fin (opStep .dispatcher p s) = some t) : t.Inv :=
  innerAfter_inv h hs (fun _ hu => ⟨opStep_frame hu, opStep_keeps (opInv_closed .dispatcher _) h.opInv hu⟩)
    (fun _ _ hr =>
      have ⟨hq, hne, hc⟩ := opStep_running hr
      ⟨hc, progFits_iff.mpr ⟨hne, hq ▸ hp⟩⟩) hfin ht

/-- An operation that a state of a pass runs begins or goes on. -/
theorem innerAfter_innerStep_inv {fin : OpResult → State → State} {op : LockOp} {s t : State} (h : s.Inv)
    (hs : s.dstate.serves s.par.layout s.flags = true) (hop : s.dstate.mayRun (some op) = true)
    (hfin : ∀ r u, innerStep op s = .done r u → ({ u with dprog := none } : State).At s.dstate →
      (fin r { u with dprog := none }).Inv)
    (ht : innerAfter fin (innerStep op s) = some t) : t.Inv := by
  refine innerAfter_inv h hs
    (fun _ hu => ⟨innerStep_frame hu, innerStep_keeps (opInv_closed .dispatcher) h.opInv hu⟩) ?_ hfin ht
  intro q u hr
  have go : ∀ {p : Prog} {v : State}, s.dstate.mayRun p.op = true → opStep .dispatcher p v = .running q u →
      q ≠ .classify ∧ progFits s.dstate q = true := by
    intro p v hp hq
    obtain ⟨hq, hne, hc⟩ := opStep_running hq
    exact ⟨hc, progFits_iff.mpr ⟨hne, hq ▸ hp⟩⟩
  unfold innerStep at hr
  split at hr
  · next p hp => exact go (progFits_iff.mp (h.prog.1 p hp).1).2 hr
  · split at hr
    · next p v hv => exact go ((opStart_running hv).1 ▸ hop) hr
    · next ho => exact absurd hr (ho q u)

theorem idleStep_inv {s t : State} (h : s.Inv) (hd : s.dstate = .idle) (ht : idleStep s = some t) : t.Inv := by
  have hp := h.dprog_none (by simp [hd, DState.mayRun])
  have ha := h.enter (d := .acq) hp (by rw [hd]; rfl) (by simp) fun _ => rfl
  unfold idleStep at ht
  split at ht
  · cases ht
    exact { ha with queue := ⟨(Nat.sub_le _ _).trans ha.queue.1, ha.queue.2⟩ }
  · split at ht <;> cases ht
    exact { ha with }

theorem acqStep_inv {s t : State} (h : s.Inv) (hd : s.dstate = .acq) (ht : acqStep s = some t) : t.Inv := by
  have hp := h.dprog_none (by simp [hd, DState.mayRun])
  unfold acqStep at ht
  split at ht <;> cases ht
  next hl =>
  refine State.Inv.emit ?_ ..
  exact
    { h with
      lock := ⟨by simp [DState.inPass], fun hr => absurd (h.lock.2 hr) (by simp [hl])⟩
      prog := progInv_of_idle h.prog hp rfl
      mask := ⟨BitVec.zero_and, fun _ => rfl, fun he => by simp [errSet] at he⟩ }

theorem readfStep_inv {s : State} (h : s.Inv) (hd : s.dstate = .readf) : (readfStep s).Inv := by
  have hp := h.dprog_none (by simp [hd, DState.mayRun])
  have hm := h.mask.2.1 hd
  unfold readfStep
  split
  · next t hr =>
    rw [(State.blockRead_spec hr).2]
    refine State.Inv.emit ?_ ..
    exact { h.enter (d := .rel) hp (by rw [hd]; rfl) (by simp) (by simp [hd, DState.errDone]) with }
  · next f t hr =>
    rw [(State.blockRead_spec hr).2]
    refine State.Inv.emit ?_ ..
    exact
      { h.enter (d := .rx0) hp (by rw [hd]; rfl) (by simp) (by simp [hd, DState.errDone]) with
        prog := progInv_of_idle h.prog hp rfl
        mask := ⟨by simp [hm], fun _ => hm, fun he => by simp [errSet, hm] at he⟩ }

/-! ### ERR among the flags that are handled -/

theorem errSet_rxFlag {m : ChipLayout} (h : m.Wf) (b : Buf) : errSet m (rxFlag m b) = false := by
  obtain ⟨h0, h1, -⟩ := wf_errBit h
  cases b <;> simp [errSet, rxFlag, rxBit, Fin.val_inj, h0, h1]

theorem errSet_txfAll {m : ChipLayout} (h : m.Wf) : errSet m (txfAll m) = false := by
  obtain ⟨-, -, h0, h1, h2, -⟩ := wf_errBit h
  simp [errSet, txfAll, Fin.val_inj, h0, h1, h2]

theorem errSet_wakef {m : ChipLayout} (h : m.Wf) : errSet m (wakef m) = false := by
  simp [errSet, wakef, Fin.val_inj, (wf_errBit h).2.2.2.2.2]

/-! ### The states of a pass -/

/-- The state that reads receive buffer b (R195). -/
def rxState : Buf → DState
  | .rx0 => .rx0
  | .rx1 => .rx1

/-- The state that reads a receive buffer goes on to the next one. -/
theorem State.Inv.afterRx {s : State} (h : s.Inv) (hp : s.dprog = none) {b : Buf} (hd : s.dstate = rxState b) :
    ({ s with dstate := Machine.afterRx b } : State).Inv := by
  cases b <;> exact h.enter hp (by rw [hd]; rfl) nofun (by rw [hd]; nofun)

/-- A receive flag that FLAGS holds is marked handled. -/
theorem State.Inv.handleRx {s : State} (h : s.Inv) {b : Buf} (hd : s.dstate = Machine.afterRx b)
    (hs : rxFlagSet s.par.layout b s.flags = true) : (s.handle (rxFlag s.par.layout b)).Inv := by
  refine h.handle ?_ ?_ ?_
  · refine bitMask_within hs ?_
    cases b <;> simp [knownf, rxFlag, rxBit]
  · cases b <;> simp [hd, Machine.afterRx]
  · exact fun he => absurd he (Bool.eq_false_iff.mp (errSet_rxFlag h.layout b))

theorem rxEnd_inv {b : Buf} {s : State} (h : s.At (rxState b)) (r : OpResult) : (rxEnd b r s).Inv := by
  obtain ⟨hi, hp, hd, hs⟩ := h
  have hs : rxFlagSet s.par.layout b s.flags = true := by cases b <;> exact hs
  have ha := hi.afterRx hp hd
  have fail : ∀ r, (rxFailed b r { s with dstate := Machine.afterRx b }).Inv := by
    intro r
    unfold rxFailed
    split
    · next hn => exact (ha.setRxretry b hn).emit ..
    · exact ((ha.handleRx rfl hs).setRxretry b (Nat.zero_le _)).emit ..
  cases r with
  | ok =>
    simp only [rxEnd, rxDeliver]
    split
    · next hq => exact (((ha.deliver hq).handleRx rfl hs).setRxretry b (Nat.zero_le _)).emit ..
    · exact ha.emit ..
  | _ => exact fail _

theorem rxStep_inv {b : Buf} {s t : State} (h : s.Inv) (hd : s.dstate = rxState b) (ht : rxStep b s = some t) :
    t.Inv := by
  unfold rxStep at ht
  split at ht
  · next hf =>
    refine innerAfter_innerStep_inv h ?_ ?_ (fun r _ _ hu => rxEnd_inv (hd ▸ hu) r) ht
    · rw [hd]; cases b <;> exact hf
    · rw [hd]; cases b <;> rfl
  · next hf =>
    have hp : s.dprog = none := h.dprog_none_of_unserved (by rw [hd]; cases b <;> exact hf)
    cases ht
    have hr := h.setRxretry b (Nat.zero_le _)
    exact hr.afterRx (by simpa using hp) (by simpa using hd)

theorem txsStep_inv {s : State} (h : s.Inv) (hd : s.dstate = .txs) : (txsStep s).Inv := by
  have hp := h.dprog_none (by simp [hd, DState.mayRun])
  have hm : (s.handle (s.flags &&& txfAll s.par.layout)).Inv := by
    refine h.handle ?_ (by simp [hd]) ?_
    · refine within_iff.mpr fun i hi hx => ?_
      rw [BitVec.getElem_and, Bool.and_eq_true] at hx
      simp [knownf, hx.1, hx.2]
    · intro he
      rw [errSet, BitVec.getLsbD_and, Bool.and_eq_true] at he
      exact absurd he.2 (Bool.eq_false_iff.mp (errSet_txfAll h.layout))
  have he := hm.enter (d := .errs) hp (by simp [hd, DState.inPass]) (by simp) (by simp [hd, DState.errDone])
  simp only [txsStep]
  split
  · exact he.emit ..
  · exact he

theorem errEnd_inv {s : State} (h : s.At .errs) (r : OpResult) : (errEnd r s).Inv := by
  obtain ⟨hi, hp, hd, -⟩ := h
  have hr := hi.enter (d := .recs) hp (by rw [hd]; rfl) (by simp) (by simp [hd, DState.errDone])
  cases r with
  | ok => exact (hr.emit ..).setErrok rfl true
  | _ => exact hr.emit ..

/-- A good end of SNAPERR or CLASSIFY leaves a good snapshot (R160, R161). -/
theorem opStep_snapshot {who : Issuer} {p : Prog} {s u : State} (hp : p.op = some .snaperr ∨ p.op = some .classify)
    (h : opStep who p s = .done .ok u) : u.esnap.valid = true := by
  cases p <;> simp [Prog.op] at hp
  case snapEflg =>
    simp only [opStep, snapEflgStep] at h
    split at h <;> cases h
  case snapTec =>
    simp only [opStep, snapTecStep] at h
    split at h <;> cases h
  case snapRec =>
    simp only [opStep, snapRecStep] at h
    split at h <;> cases h
    rfl
  case classify =>
    simp only [opStep, classifyOp] at h
    split at h
    · next hv =>
      cases h
      generalize classifyErr s.par.layout s.esnap.eflg s.esnap.tec s.esnap.recv = k
      cases k <;> exact hv
    · cases h

/-- So does a good end of SNAPERR inside a pass. -/
theorem innerStep_snapshot {s u : State} (h : s.Inv) (hd : s.dstate = .errs)
    (hs : innerStep .snaperr s = .done .ok u) : u.esnap.valid = true := by
  unfold innerStep at hs
  split at hs
  · next p hp =>
    have hm := (progFits_iff.mp (h.prog.1 p hp).1).2
    rw [hd] at hm
    refine opStep_snapshot ?_ hs
    cases p <;> simp [Prog.op, DState.mayRun] at hm ⊢
  · exact opStep_snapshot (p := .snapEflg) (.inl rfl) hs

theorem snapEnd_inv {s : State} (h : s.At .errs) (r : OpResult) (hv : r = .ok → s.esnap.valid = true) :
    (snapEnd r s).Inv := by
  unfold snapEnd
  split
  · exact h.inv.setDprog (by rw [h.dstate]; rfl) (by rw [h.dstate]; exact h.serves) fun _ => hv rfl
  · exact errEnd_inv h _

theorem errsStep_inv {s t : State} (h : s.Inv) (hd : s.dstate = .errs) (ht : errsStep s = some t) : t.Inv := by
  unfold errsStep at ht
  split at ht
  · next hf =>
    have hs : s.dstate.serves s.par.layout s.flags = true := by rw [hd]; exact hf
    split at ht
    · exact innerAfter_opStep_inv h hs (by rw [hd]; rfl) (fun r _ _ hu => errEnd_inv (hd ▸ hu) r) ht
    · refine innerAfter_innerStep_inv h hs (by rw [hd]; rfl) (fun r u ho hu => ?_) ht
      exact snapEnd_inv (hd ▸ hu) r fun hr => innerStep_snapshot (u := u) h hd (hr ▸ ho)
  · next hf =>
    have hp : s.dprog = none := h.dprog_none_of_unserved (by rw [hd]; exact hf)
    cases ht
    exact h.enter hp (by rw [hd]; rfl) (by simp) (by simp [hd, DState.errDone])

theorem recEnd_inv {s : State} (h : s.At .recs) (r : OpResult) : (recEnd r s).Inv := by
  obtain ⟨hi, hp, hd, -⟩ := h
  have ho := hi.enter (d := .ovrs) hp (by rw [hd]; rfl) (by simp) (by simp [hd, DState.errDone])
  cases r <;> exact ho.emit ..

theorem recsStep_inv {s t : State} (h : s.Inv) (hd : s.dstate = .recs) (ht : recsStep s = some t) : t.Inv := by
  unfold recsStep at ht
  split at ht
  · exact innerAfter_innerStep_inv h (by rw [hd]; rfl) (by rw [hd]; rfl) (fun r _ _ hu => recEnd_inv (hd ▸ hu) r) ht
  · next hr =>
    cases ht
    have hp : s.dprog = none := by simpa using fun hp => hr (.inr hp)
    exact h.enter hp (by rw [hd]; rfl) (by simp) (by simp [hd, DState.errDone])

theorem ovrsEnd_inv {s : State} (h : s.Inv) (hp : s.dprog = none) (hd : s.dstate = .ovrs) : (ovrsEnd s).Inv := by
  have hw := h.enter (d := .wakes) hp (by rw [hd]; rfl) (by simp) (by simp [hd, DState.errDone])
  simp only [ovrsEnd]
  split
  · next hg =>
    obtain ⟨hf, he⟩ := Bool.and_eq_true_iff.mp hg
    exact hw.handle (bitMask_within hf (by simp [knownf, errf])) (by simp) fun _ => ⟨he, rfl⟩
  · exact hw

theorem ovrsSecond_inv {s : State} (h : s.At .ovrs) : (ovrsSecond s).Inv := by
  obtain ⟨hi, hp, hd, hs⟩ := h
  unfold ovrsSecond
  split
  · exact hi.setDprog (by rw [hd]; rfl) (by rw [hd]; exact hs) fun hc => by cases hc
  · exact ovrsEnd_inv hi hp hd

theorem ovrEnd_inv {s : State} (h : s.At .ovrs) (b : Buf) (r : OpResult) : (ovrEnd b r s).Inv := by
  obtain ⟨hi, hp, hd, hs⟩ := h
  have next : ∀ {u : State}, u.Inv → u.dprog = s.dprog → u.dstate = s.dstate → u.par = s.par → u.flags = s.flags →
      u.At .ovrs := fun hu h1 h2 h3 h4 => ⟨hu, h1.trans hp, h2.trans hd, by rw [h3, h4]; exact hs⟩
  have hf : ({ s.emit .ovrClearFail (ovrMask s.par.layout b) 0 0 0 with errok := false } : State).At .ovrs :=
    next ((hi.emit ..).setErrok (by simp [hd, DState.errDone]) false) rfl rfl rfl rfl
  have ho : (s.emit .ovrCleared (ovrMask s.par.layout b) 0 0 0).At .ovrs := next (hi.emit ..) rfl rfl rfl rfl
  have close : ∀ {u : State}, u.At .ovrs → (match b with | .rx0 => ovrsSecond u | .rx1 => ovrsEnd u).Inv := by
    intro u hu
    cases b
    · exact ovrsSecond_inv hu
    · exact ovrsEnd_inv hu.inv hu.dprog hu.dstate
  cases r with
  | ok => cases b <;> exact close ho
  | _ => cases b <;> exact close hf

theorem ovrsStep_inv {s t : State} (h : s.Inv) (hd : s.dstate = .ovrs) (ht : ovrsStep s = some t) : t.Inv := by
  unfold ovrsStep at ht
  split at ht
  · next p hp =>
    obtain ⟨hfit, hs, -⟩ := (State.progInv_iff.mp h.prog).1 p hp
    exact innerAfter_opStep_inv h hs (progFits_iff.mp hfit).2 (fun r _ _ hu => ovrEnd_inv (hd ▸ hu) _ r) ht
  · next hp =>
    split at ht
    · next hg =>
      have hs : s.dstate.serves s.par.layout s.flags = true := by rw [hd]; exact (Bool.and_eq_true_iff.mp hg).1
      have clear : ∀ b, innerAfter (ovrEnd b) (innerStep (.clrovr b) s) = some t → t.Inv := fun b ht =>
        innerAfter_innerStep_inv h hs (by rw [hd]; rfl) (fun r _ _ hu => ovrEnd_inv (hd ▸ hu) b r) ht
      split at ht
      · exact clear _ ht
      · split at ht
        · exact clear _ ht
        · cases ht; exact ovrsEnd_inv h hp hd
    · cases ht; exact ovrsEnd_inv h hp hd

theorem wakesStep_inv {s : State} (h : s.Inv) (hd : s.dstate = .wakes) : (wakesStep s).Inv := by
  have hp := h.dprog_none (by simp [hd, DState.mayRun])
  have hc := h.enter (d := .clr) hp (by rw [hd]; rfl) (by simp) fun _ => rfl
  unfold wakesStep
  extract_lets t u
  have hu : u.Inv := by
    unfold u
    split
    · next hw =>
      have hk : (knownf s.par.layout).getLsbD s.par.layout.wakeBit.val = true := by simp [knownf, wakef]
      refine (hc.handle (bitMask_within hw hk) nofun ?_).emit ..
      exact fun he => absurd he (Bool.eq_false_iff.mp (errSet_wakef h.layout))
    · exact hc
  split
  · exact hu.emit ..
  · exact hu

theorem clrEnd_inv {s : State} (h : s.At .clr) (r : OpResult) : (clrEnd r s).Inv := by
  obtain ⟨hi, hp, hd, -⟩ := h
  have hr := hi.enter (d := .rel) hp (by rw [hd]; rfl) (by simp) fun _ => rfl
  cases r <;> exact hr.emit ..

theorem clrStep_inv {s t : State} (h : s.Inv) (hd : s.dstate = .clr) (ht : clrStep s = some t) : t.Inv := by
  have hs : s.dstate.serves s.par.layout s.flags = true := by rw [hd]; rfl
  unfold clrStep at ht
  split at ht
  · next p hp =>
    exact innerAfter_opStep_inv h hs (progFits_iff.mp (h.prog.1 p hp).1).2 (fun r _ _ hu => clrEnd_inv (hd ▸ hu) r) ht
  · next hp =>
    split at ht
    · exact innerAfter_opStep_inv (p := .flagClear s.modStart) h hs (by rw [hd]; rfl)
        (fun r _ _ hu => clrEnd_inv (hd ▸ hu) r) ht
    · cases ht
      exact h.enter hp (by rw [hd]; rfl) (by simp) fun _ => rfl

theorem relStep_inv {s : State} (h : s.Inv) (hd : s.dstate = .rel) : (relStep s).Inv := by
  have hp := h.dprog_none (by simp [hd, DState.mayRun])
  have hl : s.lock = .dispatcher := h.lock.1.mpr (by rw [hd]; rfl)
  exact
    { h.emit .passEnd s.hmask 0 0 0 with
      lock := ⟨by simp [relStep, DState.inPass], fun hr => absurd (h.lock.2 hr) (by simp [hl])⟩
      prog := progInv_of_idle h.prog hp rfl
      mask := ⟨h.mask.1, nofun, fun he => ⟨(h.mask.2.2 he).1, rfl⟩⟩
      time := le_rfl }

theorem dispStep_inv {s t : State} (h : s.Inv) (ht : dispStep s = some t) : t.Inv := by
  unfold dispStep at ht
  cases hd : s.dstate <;> simp only [hd] at ht
  case idle => exact idleStep_inv h hd ht
  case acq => exact acqStep_inv h hd ht
  case readf => cases ht; exact readfStep_inv h hd
  case rx0 => exact rxStep_inv (b := .rx0) h hd ht
  case rx1 => exact rxStep_inv (b := .rx1) h hd ht
  case txs => cases ht; exact txsStep_inv h hd
  case errs => exact errsStep_inv h hd ht
  case recs => exact recsStep_inv h hd ht
  case ovrs => exact ovrsStep_inv h hd ht
  case wakes => cases ht; exact wakesStep_inv h hd
  case clr => exact clrStep_inv h hd ht
  case rel => cases ht; exact relStep_inv h hd

/-! ## The machine's step keeps the invariants -/

theorem encodeOp_inv {s : State} (h : s.Inv) : (encodeOp s).Inv := by
  unfold encodeOp
  split
  · exact { h with }
  · next hl =>
    split
    · exact { h with }
    · have hn : (5 + s.fin.dlc).toNat = 5 + s.fin.dlc.toNat := by
        rw [BitVec.toNat_add_of_lt (by simp; omega)]; rfl
      exact { h with elen := .inr (by rw [hn]; omega) }

theorem decodeOp_inv {s : State} (h : s.Inv) : (decodeOp s).Inv := by
  simp only [decodeOp]
  split
  · exact { h with }
  · next hn => exact { h with frame := ⟨decodeImage_decoded _ _ _ (not_lt.mp hn), h.frame.2⟩ }

/-- An operation that waits to begin does not run yet. -/
theorem start_not_running {s : State} {st : PortState} (hst : ∀ p, st ≠ .run p) :
    ({ s with port := some st } : State).portRuns = false := by
  cases st with
  | run p => exact absurd rfl (hst p)
  | _ => rfl

/-- Settles O48: each block step, act of the environment and act of the port keeps every invariant, so the step does. -/
theorem stepKeepsInvariants : Obligations.StepKeepsInvariants := fun _ _ h hs =>
  step_keeps (P := State.Inv)
    (agenda := fun _ _ h => { h with })
    (env := fun _ _ _ h => envStep_keeps inv_envClosed h)
    (port := fun _ _ => portStep_inv)
    (disp := fun _ _ => dispStep_inv)
    (draw := fun _ h => { h with })
    (take := fun _ _ _ h hp => { h with lock := ⟨h.lock.1, fun hr => by simp [State.portRuns, takeRequest, hp] at hr⟩ })
    (hold := fun _ _ _ h => { h with })
    (nop := fun _ _ h => { h with })
    (enc := fun _ => encodeOp_inv)
    (dec := fun _ => decodeOp_inv)
    (start := fun _ st h _ hst =>
      { h with
        lock := ⟨h.lock.1, fun hr => absurd hr (by simp [start_not_running hst])⟩
        prog := State.progInv_iff.mpr
          ⟨(State.progInv_iff.mp h.prog).1, fun p hp => absurd (Option.some.inj hp) (hst p)⟩ })
    h hs

/-! ## What a client's operation spares -/

/-- From `s` to `u` the dispatcher's own registers, the log and the parameters are as before; under RXREAD and
CLROVR the error registers too. -/
structure State.Spares (op : LockOp) (s u : State) : Prop where
  pass : s.samePass u
  evlog : u.evlog = s.evlog
  par : u.par = s.par
  err : (∃ b, op = .rxread b ∨ op = .clrovr b) → s.sameErr u

theorem State.Spares.refl (op : LockOp) (s : State) : s.Spares op s :=
  ⟨by simp [State.samePass], rfl, rfl, fun _ => by simp [State.sameErr]⟩

theorem spares_envClosed (op : LockOp) (s : State) : EnvClosed (s.Spares op) where
  issue _ _ _ h := { h with }
  chip _ _ h _ := { h with }
  reset _ h := { h with }
  halves _ _ h _ := { h with }
  lock _ _ h _ := { h with }
  edges _ _ h := { h with }
  token _ h _ := { h with }
  consume _ h := { h with }
  tick _ _ h := { h with }
  fin _ _ h := { h with }
  img _ _ h := { h with }
  hold _ _ _ h := { h with }

theorem spares_opClosed (op : LockOp) (s : State) : OpClosed .client (some op) (s.Spares op) where
  read _ _ h := { h with }
  modify _ _ _ _ _ _ h _ ht := by
    obtain ⟨_, _, rfl | ⟨_, rfl⟩⟩ := modStep_putByte ht <;> exact { h with }
  image _ _ _ h := { h with }
  frame _ _ h _ := { h with }
  snap ho _ _ h := { h with err := by cases ho; simp }
  latch ho _ k h := by cases ho; cases k <;> exact { h with err := by simp }
  fail ho _ _ _ h := { h with err := by cases ho; simp }
  success ho _ h := { h with err := by cases ho; simp }

/-- The port is idle, or it waits to begin `op` or runs it. -/
def State.portHas (op : LockOp) (s : State) : Prop :=
  ∀ st, s.port = some st → st = .acquire op ∨ ∃ p, st = .run p ∧ p.op = some op

theorem portHas_envClosed (op : LockOp) : EnvClosed (State.portHas op) where
  issue _ _ _ h := h
  chip _ _ h _ := h
  reset _ h := h
  halves _ _ h _ := h
  lock _ _ h _ := h
  edges _ _ h := h
  token _ h _ := h
  consume _ h := h
  tick _ _ h := h
  fin _ _ h := h
  img _ _ h := h
  hold _ _ _ h := h

/-- After a step of `op` the port has `op`, or is idle. -/
theorem portAfter_spares {op : LockOp} {o : OpOut} {s t : State} (ho : ∀ u, o.state = some u → s.Spares op u)
    (hrun : ∀ p u, o = .running p u → p.op = some op) (ht : portAfter o = some t) : s.Spares op t ∧ t.portHas op := by
  obtain ⟨p, u, rfl, rfl⟩ | ⟨r, u, rfl, rfl⟩ := portAfter_cases ht
  · exact ⟨{ ho u rfl with }, fun st hst => .inr ⟨p, (Option.some.inj hst).symm, hrun p u rfl⟩⟩
  · exact ⟨{ ho u rfl with }, nofun⟩

theorem portStep_spares {op : LockOp} {s u t : State} (h : s.Spares op u) (hp : u.portHas op)
    (ht : portStep u = some t) : s.Spares op t ∧ t.portHas op := by
  obtain ⟨op', hq, -, ha⟩ | ⟨hq, -⟩ | ⟨p, hq, ha⟩ := portStep_cases ht
  · obtain hop | ⟨p, hr, -⟩ := hp _ hq
    · cases hop
      have hl : s.Spares op { u with lock := .client u.client } := { h with }
      exact portAfter_spares (fun _ hu => opStart_keeps (spares_opClosed op s) hl hu)
        (fun _ _ hr => (opStart_running hr).1) ha
    · cases hr
  · obtain hop | ⟨p, hr, -⟩ := hp _ hq
    · cases hop
    · cases hr
  · obtain hop | ⟨p', hr, hop⟩ := hp _ hq
    · cases hop
    · cases hr
      exact portAfter_spares (fun _ hu => opStep_keeps (hop ▸ spares_opClosed op s) h hu)
        (fun _ _ hr => (opStep_running hr).1.trans hop) ha

/-- A LOCK-taking operation that a client issues starts at the port, which waits to acquire LOCK (R211). -/
theorem exec_lockOp (op : LockOp) (s : State) : exec op.instr s = .next (portRun op.instr (.acquire op) s) := by
  cases op <;> rfl

/-- Settles O21: every step of the operation and every act of the environment spares those registers, so a run does. -/
theorem clientOperationFrame : Obligations.ClientOperationFrame := by
  intro s t op ht
  rw [exec_lockOp] at ht
  cases ht
  suffices h : s.Spares op (portRun op.instr (.acquire op) s) from
    ⟨h.pass, h.evlog, h.par, fun b hb => h.err ⟨b, .inl hb⟩, fun b hb => h.err ⟨b, .inr hb⟩⟩
  unfold portRun
  split
  · exact { State.Spares.refl op s with }
  · refine (runPort_keeps (P := fun u => s.Spares op u ∧ u.portHas op) ?_ ?_ ?_ _ _ ?_).1
    · exact fun _ _ ⟨h, hp⟩ => ⟨{ h with }, hp⟩
    · exact fun _ _ _ ⟨h, hp⟩ he =>
        ⟨envStep_keeps (spares_envClosed op s) h he, envStep_keeps (portHas_envClosed op) hp he⟩
    · exact fun _ _ ⟨h, hp⟩ => portStep_spares h hp
    · exact ⟨{ State.Spares.refl op s with }, fun _ hst => .inl (Option.some.inj hst).symm⟩

/-! ## What a step of the dispatcher can be -/

/-- `t` is `s` but for the dispatcher's own registers, its progress, LOCK, the queues and the log. -/
def State.OwnWrites (s t : State) : Prop :=
  ∃ dstate flags hmask rxretry0 rxretry1 evq rxq evlog lock idleSince errok pkind dprog,
    t = { s with
      dstate := dstate, flags := flags, hmask := hmask, rxretry0 := rxretry0, rxretry1 := rxretry1, evq := evq
      rxq := rxq, evlog := evlog, lock := lock, idleSince := idleSince, errok := errok, pkind := pkind, dprog := dprog }

theorem State.OwnWrites.of {s : State} {dstate : DState} {flags hmask : Byte} {rxretry0 rxretry1 evq : Nat}
    {rxq : List Frame} {evlog : List Record} {lock : Lock} {idleSince : Nat} {errok : Bool} {pkind : PassKind}
    {dprog : Option Prog} :
    s.OwnWrites { s with
      dstate := dstate, flags := flags, hmask := hmask, rxretry0 := rxretry0, rxretry1 := rxretry1, evq := evq
      rxq := rxq, evlog := evlog, lock := lock, idleSince := idleSince, errok := errok, pkind := pkind
      dprog := dprog } :=
  ⟨_, _, _, _, _, _, _, _, _, _, _, _, _, rfl⟩

/-- The part of a dispatcher's step that may issue a transaction: none, a plain read, or a step of an operation. -/
inductive State.PassCore (s : State) : State → Prop
  | idle : s.PassCore s
  | read {a : Nat} {r : Option Byte} {t : State} : s.blockRead a = (r, t) → s.PassCore t
  | inner {op : LockOp} {t : State} : (innerStep op s).state = some t → s.PassCore t
  | going {p : Prog} {t : State} : (opStep .dispatcher p s).state = some t → s.PassCore t

theorem State.PassCore.keeps {P : State → Prop} (k : ∀ o, OpClosed .dispatcher o P) {s u : State}
    (hu : s.PassCore u) (h : P s) : P u := by
  cases hu with
  | idle => exact h
  | read hr => exact (k none).of_read h hr
  | inner ho => exact innerStep_keeps k h ho
  | going ho => exact opStep_keeps (k _) h ho

theorem rxEnd_ownWrites (b : Buf) (r : OpResult) (s : State) : s.OwnWrites (rxEnd b r s) := by
  have fail : ∀ r, s.OwnWrites (rxFailed b r { s with dstate := afterRx b }) := by
    intro r
    unfold rxFailed
    split <;> cases b <;> exact .of
  cases r with
  | ok =>
    simp only [rxEnd, rxDeliver]
    split <;> cases b <;> exact .of
  | _ => exact fail _

theorem errEnd_ownWrites (r : OpResult) (s : State) : s.OwnWrites (errEnd r s) := by cases r <;> exact .of

theorem snapEnd_ownWrites (r : OpResult) (s : State) : s.OwnWrites (snapEnd r s) := by
  unfold snapEnd
  split
  · exact .of
  · exact errEnd_ownWrites _ s

theorem recEnd_ownWrites (r : OpResult) (s : State) : s.OwnWrites (recEnd r s) := by cases r <;> exact .of

theorem clrEnd_ownWrites (r : OpResult) (s : State) : s.OwnWrites (clrEnd r s) := by cases r <;> exact .of

theorem ovrsEnd_ownWrites (s : State) : s.OwnWrites (ovrsEnd s) := by
  simp only [ovrsEnd]
  split <;> exact .of

theorem ovrEnd_ownWrites (b : Buf) (r : OpResult) (s : State) : s.OwnWrites (ovrEnd b r s) := by
  cases r <;> cases b <;> simp only [ovrEnd, ovrsSecond, ovrsEnd] <;> repeat' split
  all_goals exact .of

theorem txsStep_ownWrites (s : State) : s.OwnWrites (txsStep s) := by
  simp only [txsStep]
  split <;> exact .of

theorem wakesStep_ownWrites (s : State) : s.OwnWrites (wakesStep s) := by
  simp only [wakesStep]
  repeat' split
  all_goals exact .of

theorem innerAfter_ownWrites {fin : OpResult → State → State} {o : OpOut} {t : State}
    (hf : ∀ r (u : State), u.OwnWrites (fin r u)) (ht : innerAfter fin o = some t) :
    ∃ u, o.state = some u ∧ u.OwnWrites t := by
  obtain ⟨p, u, rfl, rfl⟩ | ⟨r, u, rfl, rfl⟩ := innerAfter_cases ht
  · exact ⟨u, rfl, .of⟩
  · obtain ⟨_, _, _, _, _, _, _, _, _, _, _, _, _, h⟩ := hf r { u with dprog := none }
    exact ⟨u, rfl, h ▸ .of⟩

/-- A step of the dispatcher issues at most one transaction, and then writes registers of its own, LOCK, the queues and
the log only (R190, R263). -/
theorem dispStep_cases {s t : State} (h : dispStep s = some t) : ∃ u, s.PassCore u ∧ u.OwnWrites t := by
  have inner : ∀ {fin : OpResult → State → State} {op : LockOp}, (∀ r (u : State), u.OwnWrites (fin r u)) →
      innerAfter fin (innerStep op s) = some t → ∃ u, s.PassCore u ∧ u.OwnWrites t := fun hf ht =>
    have ⟨u, hu, hw⟩ := innerAfter_ownWrites hf ht
    ⟨u, .inner hu, hw⟩
  have going : ∀ {fin : OpResult → State → State} {p : Prog}, (∀ r (u : State), u.OwnWrites (fin r u)) →
      innerAfter fin (opStep .dispatcher p s) = some t → ∃ u, s.PassCore u ∧ u.OwnWrites t := fun hf ht =>
    have ⟨u, hu, hw⟩ := innerAfter_ownWrites hf ht
    ⟨u, .going hu, hw⟩
  have own : s.OwnWrites t → ∃ u, s.PassCore u ∧ u.OwnWrites t := fun hw => ⟨s, .idle, hw⟩
  have rx : ∀ {b}, rxStep b s = some t → ∃ u, s.PassCore u ∧ u.OwnWrites t := by
    intro b h
    unfold rxStep at h
    split at h
    · exact inner (rxEnd_ownWrites b) h
    · cases h
      exact own (by cases b <;> exact .of)
  unfold dispStep at h
  cases hd : s.dstate <;> simp only [hd] at h
  case idle =>
    unfold idleStep at h
    split at h
    · cases h; exact own .of
    · split at h <;> cases h
      exact own .of
  case acq =>
    unfold acqStep at h
    split at h <;> cases h
    exact own .of
  case readf =>
    cases h
    unfold readfStep
    split
    all_goals next hr => exact ⟨_, .read hr, .of⟩
  case rx0 => exact rx h
  case rx1 => exact rx h
  case txs => cases h; exact own (txsStep_ownWrites s)
  case errs =>
    unfold errsStep at h
    split at h
    · split at h
      · exact going errEnd_ownWrites h
      · exact inner snapEnd_ownWrites h
    · cases h; exact own .of
  case recs =>
    unfold recsStep at h
    split at h
    · exact inner recEnd_ownWrites h
    · cases h; exact own .of
  case ovrs =>
    unfold ovrsStep at h
    split at h
    · exact going (ovrEnd_ownWrites _) h
    · split at h
      · split at h
        · exact inner (ovrEnd_ownWrites _) h
        · split at h
          · exact inner (ovrEnd_ownWrites _) h
          · cases h; exact own (ovrsEnd_ownWrites s)
      · cases h; exact own (ovrsEnd_ownWrites s)
  case wakes => cases h; exact own (wakesStep_ownWrites s)
  case clr =>
    unfold clrStep at h
    split at h
    · exact going clrEnd_ownWrites h
    · split at h
      · exact going (p := .flagClear s.modStart) clrEnd_ownWrites h
      · cases h; exact own .of
  case rel => cases h; exact own .of

/-! ## What a pass leaves to the client -/

/-- From `s` to `u` the client port and NOW are as before. -/
structure State.LeavesPort (s u : State) : Prop where
  regs : s.sameClient u
  port : u.port = s.port
  client : u.client = s.client
  held : u.held = s.held
  now : u.now = s.now

theorem leavesPort_opClosed (s : State) (o : Option LockOp) : OpClosed .dispatcher o s.LeavesPort where
  read _ _ h := { h with }
  modify _ _ _ _ _ _ h _ ht := by
    obtain ⟨_, _, rfl | ⟨_, rfl⟩⟩ := modStep_putByte ht <;> exact { h with }
  image _ _ _ h := { h with }
  frame _ _ h _ := { h with }
  snap _ _ _ h := { h with }
  latch _ _ k h := by cases k <;> exact { h with }
  fail _ _ _ _ h := { h with }
  success _ _ h := { h with }

/-- Settles O51: neither an operation of the dispatcher nor its own writes touch the client port or NOW. -/
theorem passLeavesClientRegisters : Obligations.PassLeavesClientRegisters := by
  intro s t ht
  obtain ⟨u, hu, _, _, _, _, _, _, _, _, _, _, _, _, _, rfl⟩ := dispStep_cases ht
  have h : s.LeavesPort u := hu.keeps (leavesPort_opClosed s) ⟨by simp [State.sameClient], rfl, rfl, rfl, rfl⟩
  exact ⟨h.regs, h.port, h.client, h.held, h.now⟩

/-! ## The block clears chip bits and sets none -/

/-- With Normal mode's code 0 every modify of the block writes 0 under its mask. -/
theorem blockTransaction_modify_zero {l : ChipLayout} (hl : l.normal = 0) {a : Nat} {m v : Byte}
    (h : blockTransaction l true (.modify a m v) = true) : v = 0 := by
  have hz : reqopField l .normal = 0 := by simp [reqopField, ChipLayout.modeCode, hl, place]
  simp only [blockTransaction, Bool.true_and, Bool.or_eq_true, Bool.and_eq_true, beq_iff_eq] at h
  obtain (⟨-, rfl⟩ | ⟨-, rfl⟩) | ⟨-, rfl⟩ := h
  · rfl
  · rfl
  · exact hz

/-- A modify that writes 0 sets no bit, in whatever register. -/
theorem written_modified_zero (l : ChipLayout) (a : Nat) (old m : Byte) :
    written l a old (modified old m 0) &&& ~~~old = 0 := by
  unfold written
  split
  · refine within_iff.mpr fun i hi hx => ?_
    simp only [BitVec.getElem_or, BitVec.getElem_and, Bool.or_eq_true, Bool.and_eq_true] at hx
    exact hx.elim And.left fun h => h.1.1
  · split
    · exact BitVec.and_not_self _
    · refine within_iff.mpr fun i hi hx => ?_
      have hb : old[i] = true ∧ m[i] = false := by simpa [modified] using hx
      exact hb.1

/-- From `s` to `u` no chip bit is set, and the parameters are the same. -/
structure State.SetsNoBit (s u : State) : Prop where
  par : u.par = s.par
  bits : ∀ a, u.chipByte a &&& ~~~s.chipByte a = 0

theorem State.SetsNoBit.refl (s : State) : s.SetsNoBit s := ⟨rfl, fun _ => BitVec.and_not_self _⟩

theorem setsNoBit_opClosed {s : State} (hn : s.par.nativeBitModify = true) (hl : s.par.layout.normal = 0)
    (who : Issuer) (o : Option LockOp) : OpClosed who o s.SetsNoBit where
  read _ _ h := { h with }
  modify u a m v st t h ha ht := by
    obtain ⟨bus, x, hu, -⟩ := State.modStep_spec ht
    obtain rfl := blockTransaction_modify_zero (by rwa [h.par]) ha
    obtain ⟨-, rfl | rfl⟩ := hu (by rwa [h.par])
    · exact { h with }
    · refine ⟨h.par, fun b => ?_⟩
      rw [State.chipByte_modifyReg]
      split
      · next hb =>
        subst hb
        exact within_trans (written_modified_zero ..) (h.bits b)
      · exact h.bits b
  image _ _ _ h := by cases who <;> exact { h with }
  frame _ _ h _ := by cases who <;> exact { h with }
  snap _ _ _ h := { h with }
  latch _ _ k h := by cases k <;> exact { h with }
  fail _ _ _ _ h := { h with }
  success _ _ h := { h with }

theorem portAfter_setsNoBit {o : OpOut} {s t : State} (ho : ∀ u, o.state = some u → s.SetsNoBit u)
    (ht : portAfter o = some t) : s.SetsNoBit t := by
  obtain ⟨_, u, rfl, rfl⟩ | ⟨_, u, rfl, rfl⟩ := portAfter_cases ht <;> exact { ho u rfl with }

/-- Settles O54: a block step changes the chip by modifies that write 0 alone. -/
theorem blockNeverSetsChipBit : Obligations.BlockNeverSetsChipBit := by
  intro s t hn hl ht
  suffices h : s.SetsNoBit t from h.bits
  have k := setsNoBit_opClosed hn hl
  obtain hd | hp := ht
  · obtain ⟨u, hu, _, _, _, _, _, _, _, _, _, _, _, _, _, rfl⟩ := dispStep_cases hd
    exact { hu.keeps (k .dispatcher) (.refl s) with }
  · obtain ⟨op, -, -, ha⟩ | ⟨-, -, -, rfl⟩ | ⟨p, -, ha⟩ := portStep_cases hp
    · have hs : s.SetsNoBit { s with lock := .client s.client } := { State.SetsNoBit.refl s with }
      exact portAfter_setsNoBit (fun _ hu => opStart_keeps (k .client _) hs hu) ha
    · exact { State.SetsNoBit.refl s with }
    · exact portAfter_setsNoBit (fun _ hu => opStep_keeps (k .client _) (.refl s) hu) ha

/-! ## A client's writes of registers -/

/-- A step whose turn is an act of the environment is that act. -/
theorem step_env {s t : State} {e : EnvAct} {l : List Act} (ha : s.agenda = .env e :: l)
    (ht : envStep e { s with agenda := l } = .ok t) : step s = .next t := by
  rw [step, ha]
  simp only [ht]

theorem step_env_fault {s : State} {e : EnvAct} {l : List Act} {f : Fault} (ha : s.agenda = .env e :: l)
    (ht : envStep e { s with agenda := l } = .error f) : step s = .fault f := by
  rw [step, ha]
  simp only [ht]

/-- A byte of an image after a write of one (R92). -/
theorem Image.byte_setByte (img : Image) (j k : Fin 14) (v : Byte) :
    (img.setByte j v).byte k = if k = j then v else img.byte k := by
  rcases j with ⟨_ | _ | _ | _ | _ | _ | j, hj⟩ <;> rcases k with ⟨_ | _ | _ | _ | _ | _ | k, hk⟩
  all_goals simp [Image.setByte, Image.byte, Fin.ext_iff]
  -- Both bytes lie in the data.
  have hj' : j < img.data.toArray.size := by simp; omega
  rw [Array.getElem?_setIfInBounds]
  simp only [hj', if_true, eq_comm (a := j)]
  split <;> simp

/-- Settles O2: each act is its one update of the state. -/
theorem clientWritesRegisters : Obligations.ClientWritesRegisters := by
  intro s l
  refine ⟨fun v ha => step_env ha rfl, fun v ha => step_env ha rfl, fun i v ha => ?_, fun j v ha => ?_,
    fun c w ha => step_env ha rfl, fun v ha => step_env ha rfl⟩
  · refine ⟨s.fin.data.set i.val v, step_env ha rfl, fun k => ?_⟩
    simp [Vector.getElem_set, Fin.ext_iff, eq_comm]
  · exact ⟨s.img.setByte j v, step_env ha rfl, fun k => Image.byte_setByte s.img j k v⟩

/-! ## The client port's turn -/

theorem step_port {s : State} {l : List Act} (ha : s.agenda = .port :: l) :
    step s = portTurn { s with agenda := l } := by
  rw [step, ha]

theorem clientRequest_of_wellFormed {w : Byte} {i : Instr} (hd : decode w = .ok i) (hw : i.wellFormed .client = true) :
    clientRequest w = some i := by
  simp [clientRequest, hd, hw]

theorem State.busy_iff {s : State} : s.busy = true ↔ s.port ≠ none := Option.isSome_iff_ne_none

theorem portTurn_busy {s : State} (hp : s.port ≠ none) : portTurn s = .next (runPort s.par.stepBound s) :=
  if_pos (State.busy_iff.mpr hp)

theorem portTurn_idle {s : State} {r : Request} {rest : List Request} {i : Instr} (hp : s.port = none)
    (hh : s.held = r :: rest) (hr : clientRequest r.word = some i) : portTurn s = exec i (takeRequest r rest s) := by
  rw [portTurn, if_neg (by simp [State.busy_iff, hp]), hh]
  simp only [hr]

/-- With the port idle, an operation that waits to begin in `st` starts there. -/
theorem portRun_idle (i : Instr) (st : PortState) {s : State} (hp : s.port = none) :
    portRun i st s = runPort s.par.stepBound { s with port := some st } := by
  rw [portRun, if_neg (by simp [State.busy_iff, hp])]

/-- An operation that waits to begin in `st` is started anew at each turn. -/
theorem portRun_again (i : Instr) {st : PortState} {s : State} (hp : s.port = some st) :
    portRun i st { s with port := none } = runPort s.par.stepBound s := by
  rw [portRun_idle i st rfl, ← hp]

theorem runPort_none {n : Nat} {s : State} (h : portStep s = none) : runPort n s = s := by
  cases n with
  | zero => rfl
  | succ n => rw [runPort, h]

theorem runPort_ended {n : Nat} {s t : State} (h : portStep s = some t) (hp : t.port = none) :
    runPort (n + 1) s = t := by
  rw [runPort, h]
  exact if_pos (Option.isNone_iff_eq_none.mpr hp)

theorem runPort_goes_on {n : Nat} {s t : State} (h : portStep s = some t) (hp : t.port ≠ none) :
    runPort (n + 1) s =
      match settle .client s.agenda t with
      | (true, v) => runPort n v
      | (false, v) => v := by
  rw [runPort, h, ← portStep_agenda h]
  exact if_neg (Option.isNone_iff_eq_none.not.mpr hp)

/-- A turn runs at least one block step, if there is one. -/
theorem stepBound_succ (p : Params) : p.stepBound = p.stepBound - 1 + 1 := by
  obtain ⟨k, hk⟩ := stepBound_eq p
  omega

/-- A busy port's turn takes the operation's next block step, and goes on after it unless the operation has ended. -/
theorem portTurn_step {s t : State} (hp : s.port ≠ none) (ht : portStep s = some t) :
    (t.port = none → portTurn s = .next t) ∧
      (t.port ≠ none → portTurn s =
        .next (match settle .client s.agenda t with
          | (true, v) => runPort (s.par.stepBound - 1) v
          | (false, v) => v)) := by
  rw [portTurn_busy hp, stepBound_succ]
  exact ⟨fun he => congrArg _ (runPort_ended ht he), fun hne => congrArg _ (runPort_goes_on ht hne)⟩

/-- Settles O5: the turn takes the oldest request, or runs the port on by its next block step. -/
theorem portStepRunsRequest : Obligations.PortStepRunsRequest := by
  rintro s _ l ha rfl
  rw [step_port ha]
  have busy : s.port ≠ none →
      portTurn { s with agenda := l } = .next (runPort s.par.stepBound { s with agenda := l }) :=
    portTurn_busy (s := { s with agenda := l })
  refine ⟨fun r rest i hp hh hd hw => ?_, fun op hp => ?_, fun hp => ?_, fun hp => ⟨fun hn => ?_, fun t ht => ?_⟩⟩
  · exact portTurn_idle hp hh (clientRequest_of_wellFormed hd hw)
  · rw [busy (by simp [hp]), exec_lockOp]
    exact congrArg _ (portRun_again (s := { s with agenda := l }) _ hp).symm
  · rw [busy (by simp [hp])]
    exact congrArg _ (portRun_again (s := { s with agenda := l }) .breset hp).symm
  · rw [busy hp, runPort_none hn]
  · exact portTurn_step (s := { s with agenda := l }) hp ht

theorem portNow_busy (i : Instr) (op : State → State) {s : State} (hp : s.port ≠ none) :
    portNow i op s = writeOpreq s.client (encode i) s :=
  if_pos (State.busy_iff.mpr hp)

theorem portRun_busy (i : Instr) (st : PortState) {s : State} (hp : s.port ≠ none) :
    portRun i st s = writeOpreq s.client (encode i) s :=
  if_pos (State.busy_iff.mpr hp)

/-- Settles O7: every operation a client may issue runs at an idle port only. -/
theorem busyPortHoldsRequest : Obligations.BusyPortHoldsRequest := by
  intro s i hp hw
  cases i with
  | nop => exact congrArg _ (portNow_busy .nop _ hp)
  | encode => exact congrArg _ (portNow_busy .encode _ hp)
  | decode => exact congrArg _ (portNow_busy .decode _ hp)
  | dispatch => cases hw
  | dispatchTo => cases hw
  | rxread b => exact congrArg _ (portRun_busy (.rxread b) _ hp)
  | snaperr => exact congrArg _ (portRun_busy .snaperr _ hp)
  | classify => exact congrArg _ (portRun_busy .classify _ hp)
  | clrovr b => exact congrArg _ (portRun_busy (.clrovr b) _ hp)
  | recover => exact congrArg _ (portRun_busy .recover _ hp)
  | breset => exact congrArg _ (portRun_busy .breset _ hp)

/-! ## Taking LOCK -/

/-- An operation that waits for LOCK has no step while LOCK is not FREE (R39). -/
theorem portStep_waits {s : State} {op : LockOp} (hp : s.port = some (.acquire op)) (hl : s.lock ≠ .free) :
    portStep s = none := by
  rw [portStep, hp]
  exact if_neg hl

theorem dispStep_acq {s : State} (hd : s.dstate = .acq) : dispStep s = acqStep s := by
  rw [dispStep, hd]

/-- Settles O8: LOCK's guard stands before each of the three ways to take it. -/
theorem lockTakenHoldsOperation : Obligations.LockTakenHoldsOperation := by
  intro s
  refine ⟨fun op hp hl => ?_, fun op hp hl => portStep_waits hp hl, fun hd hl => ?_, fun hd hl => ?_,
    fun c l ha hh => step_env ha ?_⟩
  · rw [exec_lockOp, portRun_idle _ _ hp]
    exact congrArg _ (runPort_none (portStep_waits rfl hl))
  · rw [dispStep_acq hd]
    exact if_neg hl
  · rw [dispStep_acq hd]
    exact if_pos hl
  · have hf : State.halfDone c { s with agenda := l } = false := by simpa [State.halfDone] using hh
    rw [envStep, clientStep, hf]
    by_cases hl : s.lock = .free <;> simp [hl]

/-! ## Power-on -/

/-- Settles O47: the registers are at their reset values, the chip is undefined and the layout is the default one. -/
theorem resetMeetsInvariants : Obligations.ResetMeetsInvariants where
  layout := mcp2515_wf
  mem := rfl
  halves := nofun
  lock := ⟨⟨nofun, nofun⟩, nofun⟩
  prog := State.progInv_iff.mpr ⟨nofun, nofun⟩
  mask := ⟨BitVec.zero_and, nofun, fun he => absurd he (by simp [errSet, State.reset])⟩
  queue := ⟨Nat.zero_le _, Nat.zero_le _, Nat.zero_le _, Nat.zero_le _⟩
  frame := ⟨zeroFrame_decoded, zeroFrame_decoded, nofun⟩
  latch := ⟨nofun, nofun⟩
  time := le_rfl
  elen := .inl rfl

/-! ## The interrupt line -/

/-- INT is asserted while some enabled flag is set (R48). -/
theorem State.intLow_iff {s : State} :
    s.intLow = true ↔ s.chipByte s.par.layout.canintf &&& s.chipByte s.par.layout.caninte ≠ 0 := bne_iff_ne

theorem State.intLow_eq_false {s : State} :
    s.intLow = false ↔ s.chipByte s.par.layout.canintf &&& s.chipByte s.par.layout.caninte = 0 := by
  rw [← Bool.not_eq_true, State.intLow_iff, not_not]

/-- A write of the chip's registers makes an edge exactly if INT becomes asserted by it (R48, R287). -/
theorem setChip_edges (s : State) (m : Memory) :
    (s.setChip m).edges = s.edges + if s.intLow = false ∧ (s.setChip m).intLow = true then 1 else 0 := by
  have hi : (s.setChip m).intLow = ({ s with chip := m } : State).intLow := rfl
  rw [hi]
  cases hs : s.intLow <;> cases hm : ({ s with chip := m } : State).intLow <;> simp [State.setChip, hs, hm]

/-- Settles O57: the flags are or-ed into CANINTF alone, and INT's falling edge is counted by its definition. -/
theorem flagSetEdge : Obligations.FlagSetEdge := by
  intro s l m ha
  refine ⟨_, step_env ha rfl, ?_⟩
  refine ⟨State.chipByte_putByte_same _ _ _, fun a h => State.chipByte_putByte_other _ h.symm _, ?_⟩
  refine (setChip_edges ..).trans ?_
  simp only [State.intLow_iff, State.intLow_eq_false]
  rfl

/-! ## A client's transactions -/

theorem clientAccess_notOwner {c : Nat} {s : State} (t : State) (hl : s.lock ≠ .client c) :
    clientAccess c s t = .error .notLockOwner := if_pos hl

theorem clientTransaction_notOwner {c : Nat} {s : State} (a : Byte) (t : State) (hl : s.lock ≠ .client c) :
    clientTransaction c a s t = .error .notLockOwner := by
  rw [clientTransaction, if_neg fun h => hl h.1, clientAccess_notOwner t hl]

theorem clientWrite_notOwner {c : Nat} {s : State} (a : Byte) (t : State) (hl : s.lock ≠ .client c) :
    clientWrite c a s t = .error .notLockOwner := by
  rw [clientWrite, if_neg fun h => hl h.1, clientTransaction_notOwner a t hl]

/-- Settles O58: each primitive's guard is the owner's. -/
theorem transactionNeedsLock : Obligations.TransactionNeedsLock := fun _ _ _ a _ _ hl =>
  ⟨fun ha => step_env_fault ha (clientTransaction_notOwner a _ hl),
    fun ha => step_env_fault ha (clientWrite_notOwner a _ hl),
    fun ha => step_env_fault ha (clientWrite_notOwner a _ hl),
    fun ha => step_env_fault ha (clientAccess_notOwner _ hl)⟩

/-! ## A client's reset of the chip -/

/-- The registers a chip reset defines in the default layout, in canonical form (R281). -/
def resetMemory (epoch : Nat) : Memory :=
  [(0x0E, 0x80), (0x0F, 0x87), (0x1C, 0x00), (0x1D, 0x00), (0x2B, 0x00), (0x2C, 0x00), (0x2D, 0x00),
   (0x30, Config.unspecReg epoch 0x30 &&& ~~~0x08), (0x40, Config.unspecReg epoch 0x40 &&& ~~~0x08),
   (0x50, Config.unspecReg epoch 0x50 &&& ~~~0x08)]

theorem writeAll_resetRegisters_mcp2515 (epoch : Nat) :
    Memory.writeAll [] (resetRegisters mcp2515 epoch) = resetMemory epoch := rfl

/-- No register above the last transmit buffer's control register has a value. -/
theorem resetMemory_read_none (epoch : Nat) {a : Nat} (ha : 0x50 < a) : (resetMemory epoch).read a = none := by
  have hne : ∀ b ≤ 0x50, b ≠ a := by omega
  simp [resetMemory, Memory.read, hne]

/-- A byte under the mask that clears TXREQ has it clear. -/
theorem resetMemory_txreq (v : Byte) : (v &&& ~~~0x08).getLsbD 3 = false := by simp

/-- A client's chip reset that lands leaves the reset memory, and nothing else of the state but the history, the draws
and the epoch moves. -/
theorem clientReset_mcp2515 {s : State} (hl : s.par.layout = mcp2515) (hx : s.xport = []) :
    clientReset s =
      { s with
        bus := s.bus ++ [⟨s.lock, .reset⟩], xport := [], chip := resetMemory (s.epoch + 1), epoch := s.epoch + 1 } := by
  simp [clientReset, hx, State.resetChip, State.logBus, hl, writeAll_resetRegisters_mcp2515]

/-- Settles O60: the chip is the reset memory, in which receive buffers have no entry. -/
theorem chipResetValues : Obligations.ChipResetValues := by
  intro s l c ha hlock hh hl hx
  have ht : envStep (.client (.xreset c)) { s with agenda := l } = .ok (clientReset { s with agenda := l }) := by
    simp [envStep, clientStep, clientAccess, hlock, State.halfDone, hh]
  rw [clientReset_mcp2515 (s := { s with agenda := l }) hl hx] at ht
  refine ⟨_, step_env ha ht, rfl, rfl, rfl, rfl, rfl, rfl, rfl, ?_, ?_, ?_, ?_, ?_, ?_, ?_, rfl⟩
  · intro n
    rw [hl]
    fin_cases n <;> exact resetMemory_txreq _
  · intro b j
    have hj : 0x50 < s.par.layout.rxbBase b + j.val := by
      rw [hl]
      cases b <;> simp only [ChipLayout.rxbBase, mcp2515] <;> omega
    simp only [State.chipByte, resetMemory_read_none _ hj, Option.getD_none]
  · rw [State.intLow_eq_false]
    simp only [hl]
    exact BitVec.zero_and
  · simp [State.sameClient]
  · simp [State.samePass]
  · simp [State.sameErr]
  · simp [State.sameQueues]

end Sys2Proof.Machine

/-!
SUPPORT. The request words of the operations, which of them a client may issue, and the fields of what ENCODE and DECODE
write.
-/

namespace Sys2Proof.Machine

/-! ## Request words -/

/-- Equal bits are equal as fields of one bit. -/
theorem extract_bit_congr {n k : Nat} {x : BitVec n} {y : BitVec k} {i j : Nat} (h : x.getLsbD i = y.getLsbD j) :
    x.extractLsb' i 1 = y.extractLsb' j 1 := by
  ext p hp
  obtain rfl : p = 0 := by omega
  simpa only [BitVec.getElem_extractLsb', add_zero] using h

/-- The three fields of R100 are the whole word. -/
theorem word_ext {v w : Byte} (hr : rsvField v = rsvField w) (hb : bField v = bField w) (ho : opField v = opField w) :
    v = w := by
  have fields (x : Byte) : x.extractLsb' 5 3 ++ (x.extractLsb' 4 1 ++ x.extractLsb' 0 4) = x := by
    simp only [BitVec.extractLsb'_append_extractLsb'_eq_extractLsb', BitVec.extractLsb'_eq_self]
  rw [← fields v, ← fields w, BitVec.eq_of_toNat_eq hr, BitVec.eq_of_toNat_eq ho, extract_bit_congr hb]

theorem noBuffer_eq_ok {w : Byte} {i j : Instr} : noBuffer w i = .ok j ↔ bField w = false ∧ i = j := by
  cases h : bField w <;> simp [noBuffer, h]

theorem decode_encode (i : Instr) : decode (encode i) = .ok i := by
  cases i with
  | rxread b => cases b <;> rfl
  | clrovr b => cases b <;> rfl
  | _ => rfl

/-- A word that decodes has the fields of its operation's word, and so is that word. -/
theorem encode_of_decode {w : Byte} {i : Instr} (h : decode w = .ok i) : encode i = w := by
  unfold decode at h
  split at h
  · cases h
  next hr =>
  have hr : rsvField w = 0 := not_not.mp hr
  split at h
  case h_4 ho | h_9 ho =>
    cases h
    cases hb : bField w <;> exact word_ext hr.symm hb.symm ho.symm
  case h_12 => cases h
  all_goals
    next ho =>
    obtain ⟨hb, rfl⟩ := noBuffer_eq_ok.mp h
    exact word_ext hr.symm hb.symm ho.symm

/-- Settles O1: decoding the encoder's words is a case per operation, and a word is determined by its fields. -/
theorem requestWordRoundTrip : Obligations.RequestWordRoundTrip :=
  ⟨decode_encode, fun _ _ => encode_of_decode⟩

/-- Settles O3: the words that decode are the encoder's, and each of the three others meets one of the decoder's
refusals. -/
theorem requestWordsOfTable : Obligations.RequestWordsOfTable :=
  ⟨decode_encode .nop, decode_encode .encode, decode_encode .decode, decode_encode (.rxread .rx0),
    decode_encode (.rxread .rx1), decode_encode .dispatch, decode_encode .dispatchTo, decode_encode .snaperr,
    decode_encode .classify, decode_encode (.clrovr .rx0), decode_encode (.clrovr .rx1), decode_encode .recover,
    decode_encode .breset, rfl, rfl, rfl⟩

/-! ## Illegal requests -/

/-- A word starts an operation exactly if it is the word of one that a client may issue (R102). -/
theorem clientRequest_eq_some {w : Byte} {i : Instr} :
    clientRequest w = some i ↔ encode i = w ∧ i.wellFormed .client = true := by
  refine ⟨fun h => ?_, fun ⟨hw, hi⟩ => clientRequest_of_wellFormed (hw ▸ decode_encode i) hi⟩
  unfold clientRequest at h
  split at h
  · cases h
  · next j hd =>
    split at h <;> cases h
    exact ⟨encode_of_decode hd, ‹_›⟩

/-- The fields of the word of an operation that a client may issue (R100 to R102). -/
theorem encode_fields_of_client {i : Instr} (hi : i.wellFormed .client = true) :
    (encode i).extractLsb' 5 3 = 0 ∧ ((encode i).extractLsb' 0 4).toNat < 0xB ∧
      (encode i).extractLsb' 0 4 ≠ 0x4 ∧ (encode i).extractLsb' 0 4 ≠ 0x5 ∧
      ((encode i).getLsbD 4 = true → (encode i).extractLsb' 0 4 = 0x3 ∨ (encode i).extractLsb' 0 4 = 0x8) := by
  cases i with
  | dispatch => cases hi
  | dispatchTo => cases hi
  | rxread b => cases b <;> decide
  | clrovr b => cases b <;> decide
  | _ => decide

/-- With the port idle, the oldest held write is rejected if it starts no operation. -/
theorem portTurn_rejects {s : State} {r : Request} {rest : List Request} (hp : s.port = none) (hh : s.held = r :: rest)
    (hr : clientRequest r.word = none) : portTurn s = .next (rejectRequest (takeRequest r rest s)) := by
  rw [portTurn, if_neg (by simp [State.busy_iff, hp]), hh]
  simp only [hr]

/-- Settles O4: no word of an operation that a client may issue is illegal, so the port rejects an illegal word. -/
theorem illegalRequestSetsResultOnly : Obligations.IllegalRequestSetsResultOnly := by
  intro s l r rest ha hp hh hill
  have hr : clientRequest r.word = none := by
    refine Option.eq_none_iff_forall_ne_some.mpr fun i h => ?_
    obtain ⟨hw, hi⟩ := clientRequest_eq_some.mp h
    obtain ⟨hrsv, hop, h4, h5, hb⟩ := hw ▸ encode_fields_of_client hi
    rcases hill with h | h | h | h | ⟨h, h3, h8⟩
    · exact h hrsv
    · omega
    · exact h4 h
    · exact h5 h
    · exact (hb h).elim h3 h8
  rw [step_port ha]
  exact portTurn_rejects (s := { s with agenda := l }) hp hh hr

/-! ## Fields of a word -/

/-- The identifier of an extended frame is the concatenation of its five fields (R95). -/
theorem extendedId_append (id : IdWord) :
    id.extractLsb' 21 8 ++ id.extractLsb' 18 3 ++ id.extractLsb' 16 2 ++ id.extractLsb' 8 8 ++ id.extractLsb' 0 8 =
      id.extractLsb' 0 29 := by
  simp only [BitVec.extractLsb'_append_extractLsb'_eq_extractLsb']

/-- The identifier of a standard frame is the concatenation of its two fields (R96). -/
theorem standardId_append (id : IdWord) : id.extractLsb' 3 8 ++ id.extractLsb' 0 3 = id.extractLsb' 0 11 :=
  BitVec.extractLsb'_append_extractLsb'_eq_extractLsb' rfl

/-- A placed field has no bit outside its place. -/
theorem place_getLsbD_outside {n : Nat} (w lo : Nat) (v : BitVec n) {i : Nat} (h : i < lo ∨ lo + n ≤ i) :
    (place w lo v).getLsbD i = false := by
  rw [place_getLsbD]
  rcases h with h | h
  · simp [show ¬lo ≤ i by omega]
  · simp [BitVec.getLsbD_of_ge v (i - lo) (by omega)]

/-- A single bit placed in a byte is the byte's only bit. -/
theorem place_bit_getLsbD {n : Nat} (p : Fin 8) (v : BitVec n) (k i : Nat) :
    (place 8 p.val (v.extractLsb' k 1)).getLsbD i = (decide (i = p.val) && v.getLsbD k) := by
  obtain rfl | hi := eq_or_ne i p.val
  · simp
  · rw [place_getLsbD_outside _ _ _ (by omega), decide_eq_false hi, Bool.false_and]

/-! ## The operations of the codec at an idle port -/

/-- With the port idle, an operation that takes no LOCK is its one step. -/
theorem portNow_idle (i : Instr) (op : State → State) {s : State} (hp : s.port = none) : portNow i op s = op s :=
  if_neg (by simp [State.busy_iff, hp])

theorem exec_encode {s : State} (hp : s.port = none) : exec .encode s = .next (encodeOp s) :=
  congrArg _ (portNow_idle .encode encodeOp hp)

theorem exec_decode {s : State} (hp : s.port = none) : exec .decode s = .next (decodeOp s) :=
  congrArg _ (portNow_idle .decode decodeOp hp)

/-! ## ENCODE -/

theorem idOk_iff {id : IdWord} :
    idOk id = true ↔ id.getLsbD 29 = false ∧ (id.getLsbD 31 = true ∨ id.extractLsb' 11 18 = 0) := by
  simp [idOk]

/-- ENCODE of a valid frame (R130). -/
theorem encodeOp_of_valid {s : State} (hn : s.fin.dlc.toNat ≤ 8) (hid : idOk s.fin.id = true) :
    encodeOp s = { s with img := encodeImage s.par.layout s.fin, elen := 5 + s.fin.dlc, result := 0x00 } := by
  rw [encodeOp, if_neg (not_lt.mpr hn), if_neg (by simp [hid])]
  rfl

/-- SIDL has no bit outside its fields (R93, R130). -/
theorem encodeImage_sidl_outside {m : ChipLayout} (f : Frame) {i : Nat} (hi : i ∉ m.sidlBits) :
    (encodeImage m f).sidl.getLsbD i = false := by
  simp only [ChipLayout.sidlBits, List.mem_cons, List.not_mem_nil, or_false, not_or] at hi
  obtain ⟨h0, h1, h2, hx, h3, h4⟩ := hi
  simp only [encodeImage]
  split
  · rw [BitVec.getLsbD_or, BitVec.getLsbD_or, place_getLsbD_outside _ _ _ (by omega), bitMask_getLsbD,
      place_getLsbD_outside _ _ _ (by omega), decide_eq_false hx]
    rfl
  · exact place_getLsbD_outside _ _ _ (by omega)

/-- The DLC byte has no bit outside its fields (R94, R130). -/
theorem encodeImage_dlc_outside {m : ChipLayout} (f : Frame) {i : Nat} (hi : i ∉ m.dlcBits) :
    (encodeImage m f).dlc.getLsbD i = false := by
  simp only [ChipLayout.dlcBits, List.mem_cons, List.not_mem_nil, or_false, not_or] at hi
  obtain ⟨h0, h1, h2, h3, hr⟩ := hi
  simp only [encodeImage]
  rw [BitVec.getLsbD_or, place_getLsbD_outside _ _ _ (by omega), place_getLsbD_outside _ _ _ (by omega)]
  rfl

/-- The identifier of an extended frame in the image ENCODE writes (R95). -/
theorem encodeImage_extendedId {m : ChipLayout} (h : m.Wf) {f : Frame} (hx : f.id.getLsbD 31 = true) :
    (encodeImage m f).sidh ++ (encodeImage m f).sidl.extractLsb' m.sidLo.val 3 ++
        (encodeImage m f).sidl.extractLsb' m.eidLo.val 2 ++ (encodeImage m f).eid8 ++ (encodeImage m f).eid0 =
      f.id.extractLsb' 0 29 := by
  obtain ⟨hsid, -, heid, -⟩ := encodeImage_fields h f
  rw [hsid, heid, if_pos hx, if_pos hx, ← extendedId_append]
  simp only [encodeImage, hx, if_true]

/-- The identifier of a standard frame in the image ENCODE writes; the fields of an extended one are 0 (R96). -/
theorem encodeImage_standardId {m : ChipLayout} (h : m.Wf) {f : Frame} (hx : f.id.getLsbD 31 = false) :
    (encodeImage m f).sidh ++ (encodeImage m f).sidl.extractLsb' m.sidLo.val 3 = f.id.extractLsb' 0 11 ∧
      (encodeImage m f).sidl.extractLsb' m.eidLo.val 2 = 0 ∧ (encodeImage m f).eid8 = 0x00 ∧
      (encodeImage m f).eid0 = 0x00 := by
  obtain ⟨hsid, -, heid, -⟩ := encodeImage_fields h f
  rw [hsid, heid, ← standardId_append]
  simp only [encodeImage, hx, Bool.false_eq_true, if_false, and_self]

/-- Settles O11: the image is `encodeImage`'s, whose fields are the frame's in a well-formed layout. -/
theorem encodeWritesImage : Obligations.EncodeWritesImage := by
  rintro s m hp rfl hm hn h29 hid
  obtain ⟨-, hexide, -, hdlc, hrtr, -⟩ := encodeImage_fields hm s.fin
  refine ⟨encodeImage s.par.layout s.fin, ?_, fun i => place_bit_getLsbD _ _ _ i, hexide, encodeImage_extendedId hm,
    encodeImage_standardId hm, fun i => encodeImage_sidl_outside s.fin, hdlc, ?_,
    fun i => encodeImage_dlc_outside s.fin, fun i => keepFirst_getElem _ _ _ i.isLt⟩
  · rw [exec_encode hp, encodeOp_of_valid hn (idOk_iff.mpr ⟨h29, hid⟩)]
  · simpa using congrArg (·.getLsbD 0) hrtr

/-! ## DECODE -/

/-- DECODE of an image with a length of 0 to 8 (R133). -/
theorem decodeOp_of_length {s : State} (hn : dlcNibble s.par.layout s.img.dlc ≤ 8) :
    decodeOp s =
      { s with
        fout := decodeImage s.par.layout s.par.rtrSource s.img (dlcNibble s.par.layout s.img.dlc)
        result := 0x00 } :=
  if_neg (not_lt.mpr hn)

/-- DECODE of an image with a length above 8 (R133). -/
theorem decodeOp_of_badLength {s : State} (hn : 8 < dlcNibble s.par.layout s.img.dlc) :
    decodeOp s = { s with result := 0x11 } :=
  if_pos hn

/-- Bit 31 of the frame DECODE writes is EXIDE (R133). -/
theorem decodeImage_ext (m : ChipLayout) (src : RtrSource) (img : Image) (n : Nat) :
    (decodeImage m src img n).id.getLsbD 31 = img.sidl.getLsbD m.exideBit.val := by
  rw [decodeImage, decodeId]
  split
  · next hx => rw [hx]; simp
  · next hx => rw [Bool.eq_false_iff.mpr hx]; simp

/-- Bit 30 of the frame DECODE writes is the remote bit (R133). -/
theorem decodeImage_rtr (m : ChipLayout) (src : RtrSource) (img : Image) (n : Nat) :
    (decodeImage m src img n).id.getLsbD 30 = (rtrBit m src img).getLsbD 0 := by
  rw [decodeImage, decodeId]
  split <;> simp

/-- Bit 29 of the frame DECODE writes is 0 (R131, R133). -/
theorem decodeImage_reserved (m : ChipLayout) (src : RtrSource) (img : Image) (n : Nat) :
    (decodeImage m src img n).id.getLsbD 29 = false :=
  (idOk_iff.mp (idOk_decodeImage m src img n)).1

/-- The fields of the frame word DECODE writes for an extended image are the image's (R95, R133). -/
theorem decodeImage_extended_fields {m : ChipLayout} (src : RtrSource) {img : Image} (n : Nat)
    (hx : img.sidl.getLsbD m.exideBit.val = true) :
    (decodeImage m src img n).id.extractLsb' 21 8 = img.sidh ∧
      (decodeImage m src img n).id.extractLsb' 18 3 = img.sidl.extractLsb' m.sidLo.val 3 ∧
      (decodeImage m src img n).id.extractLsb' 16 2 = img.sidl.extractLsb' m.eidLo.val 2 ∧
      (decodeImage m src img n).id.extractLsb' 8 8 = img.eid8 ∧
      (decodeImage m src img n).id.extractLsb' 0 8 = img.eid0 := by
  simp only [decodeImage, decodeId, hx, if_true, BitVec.extractLsb'_or]
  refine ⟨?_, ?_, ?_, ?_, ?_⟩ <;>
    simp (disch := omega) [extract_place, extract_place_of_disjoint]

/-- The fields of the frame word DECODE writes for a standard image are the image's, and 0 above them (R96, R133). -/
theorem decodeImage_standard_fields {m : ChipLayout} (src : RtrSource) {img : Image} (n : Nat)
    (hx : img.sidl.getLsbD m.exideBit.val = false) :
    (decodeImage m src img n).id.extractLsb' 3 8 = img.sidh ∧
      (decodeImage m src img n).id.extractLsb' 0 3 = img.sidl.extractLsb' m.sidLo.val 3 ∧
      (decodeImage m src img n).id.extractLsb' 11 18 = 0 := by
  simp only [decodeImage, decodeId, hx, BitVec.extractLsb'_or, Bool.false_eq_true, if_false]
  refine ⟨?_, ?_, ?_⟩ <;>
    simp (disch := omega) [extract_place, extract_place_of_disjoint]

/-- The remote bit by source (R94, R133). -/
theorem rtrBit_getLsbD (m : ChipLayout) (src : RtrSource) (img : Image) :
    (rtrBit m src img).getLsbD 0 =
      if src = .dlcByte then img.dlc.getLsbD m.dlcRtrBit.val else img.ctrl.getLsbD m.rxrtrBit.val := by
  cases src <;> simp [rtrBit]

/-- Settles O13: the frame is `decodeImage`'s, whose fields are the image's. -/
theorem decodeWritesFrame : Obligations.DecodeWritesFrame := by
  rintro s m n hp rfl hnib hn
  obtain rfl : n = dlcNibble s.par.layout s.img.dlc := hnib
  refine ⟨decodeImage s.par.layout s.par.rtrSource s.img _, ?_, decodeImage_ext .., ?_, decodeImage_reserved ..,
    fun hx => ?_, fun hx => ?_, ?_, fun i => keepFirst_getElem _ _ _ i.isLt⟩
  · rw [exec_decode hp, decodeOp_of_length hn]
  · rw [decodeImage_rtr, rtrBit_getLsbD]
  · obtain ⟨hsidh, hsid, heid, heid8, heid0⟩ := decodeImage_extended_fields s.par.rtrSource _ hx
    rw [← extendedId_append, hsidh, hsid, heid, heid8, heid0]
  · obtain ⟨hsidh, hsid, hhigh⟩ := decodeImage_standard_fields s.par.rtrSource _ hx
    exact ⟨by rw [← standardId_append, hsidh, hsid], hhigh⟩
  · rw [decodeImage, BitVec.toNat_ofNat]
    omega

/-! ### What DECODE reads -/

theorem keepFirst_congr {n : Nat} {d e : Payload} (h : ∀ i : Fin 8, i.val < n → d[i] = e[i]) :
    keepFirst n d = keepFirst n e := by
  refine Vector.ext fun i hi => ?_
  rw [keepFirst_getElem, keepFirst_getElem]
  split
  · exact h ⟨i, hi⟩ ‹_›
  · rfl

/-- The frame word depends on the identifier's fields, and on the extended ones only in an extended image. -/
theorem decodeId_congr {m : ChipLayout} {a b : Image} (hsidh : a.sidh = b.sidh)
    (hsid : a.sidl.extractLsb' m.sidLo.val 3 = b.sidl.extractLsb' m.sidLo.val 3)
    (hexide : a.sidl.getLsbD m.exideBit.val = b.sidl.getLsbD m.exideBit.val)
    (hext : a.sidl.getLsbD m.exideBit.val = true →
      a.sidl.extractLsb' m.eidLo.val 2 = b.sidl.extractLsb' m.eidLo.val 2 ∧ a.eid8 = b.eid8 ∧ a.eid0 = b.eid0) :
    decodeId m a = decodeId m b := by
  rw [decodeId, decodeId, ← hexide, ← hsidh, ← hsid]
  split
  · next hx =>
    obtain ⟨heid, heid8, heid0⟩ := hext hx
    rw [heid, heid8, heid0]
  · rfl

/-- The remote bit depends on the bit that the source selects. -/
theorem rtrBit_congr {m : ChipLayout} {src : RtrSource} {a b : Image}
    (hdlc : src = .dlcByte → a.dlc.getLsbD m.dlcRtrBit.val = b.dlc.getLsbD m.dlcRtrBit.val)
    (hctrl : src = .rxctrl → a.ctrl.getLsbD m.rxrtrBit.val = b.ctrl.getLsbD m.rxrtrBit.val) :
    rtrBit m src a = rtrBit m src b := by
  cases src with
  | dlcByte => exact extract_bit_congr (hdlc rfl)
  | rxctrl => exact extract_bit_congr (hctrl rfl)

/-- Settles O17: the length, the frame word, the remote bit and the data are each equal, whatever the other bits. -/
theorem decodeIgnoresReservedBits : Obligations.DecodeIgnoresReservedBits := by
  rintro s t m hs ht hpar rfl hfout hsidh hsid hexide hext hdlc hrdlc hrctrl hdata
  have hnib : dlcNibble s.par.layout s.img.dlc = dlcNibble s.par.layout t.img.dlc := congrArg BitVec.toNat hdlc
  refine ⟨_, _, exec_decode hs, exec_decode ht, ?_⟩
  by_cases hn : 8 < dlcNibble s.par.layout s.img.dlc
  · rw [decodeOp_of_badLength hn, decodeOp_of_badLength (hpar ▸ hnib ▸ hn)]
    exact ⟨hfout, rfl⟩
  · rw [decodeOp_of_length (not_lt.mp hn), decodeOp_of_length (not_lt.mp (hpar ▸ hnib ▸ hn))]
    refine ⟨?_, rfl⟩
    simp only [← hpar, ← hnib, decodeImage, decodeId_congr hsidh hsid hexide hext, rtrBit_congr hrdlc hrctrl,
      keepFirst_congr (n := dlcNibble s.par.layout s.img.dlc) hdata]

end Sys2Proof.Machine

/-!
SUPPORT. What ENCODE and DECODE refuse, and that DECODE undoes ENCODE.
-/

namespace Sys2Proof.Machine

/-! ## What ENCODE and DECODE refuse -/

/-- ENCODE of a frame whose length is above 8 (R130, R255). -/
theorem encodeOp_of_badLength {s : State} (hn : 8 < s.fin.dlc.toNat) : encodeOp s = { s with result := 0x11 } :=
  if_pos hn

/-- ENCODE of a frame whose identifier word is malformed (R130, R131). -/
theorem encodeOp_of_badIdentifier {s : State} (hn : s.fin.dlc.toNat ≤ 8) (hid : idOk s.fin.id = false) :
    encodeOp s = { s with result := 0x21 } := by
  rw [encodeOp, if_neg (not_lt.mpr hn), if_pos hid]
  rfl

/-- Settles O12: the length is tested first, and an identifier word with either defect is malformed. -/
theorem encodeRefusesInvalidFrame : Obligations.EncodeRefusesInvalidFrame := by
  intro s hp
  refine ⟨fun hn => ?_, fun hn hid => ?_⟩
  · rw [exec_encode hp, encodeOp_of_badLength hn]
  · have hbad : idOk s.fin.id = false := by
      rw [← Bool.not_eq_true, idOk_iff, not_and_or, not_or, Bool.not_eq_false, Bool.not_eq_true]
      exact hid
    rw [exec_encode hp, encodeOp_of_badIdentifier hn hbad]

/-- Settles O14: the length nibble is DECODE's first test. -/
theorem decodeRefusesLength : Obligations.DecodeRefusesLength := fun s hp hn => by
  rw [exec_decode hp, decodeOp_of_badLength hn]

/-! ## DECODE undoes ENCODE -/

/-- An identifier word is its three flags and its 29 identifier bits (R90). -/
theorem idWord_ext {v w : IdWord} (h31 : v.getLsbD 31 = w.getLsbD 31) (h30 : v.getLsbD 30 = w.getLsbD 30)
    (h29 : v.getLsbD 29 = w.getLsbD 29) (hid : v.extractLsb' 0 29 = w.extractLsb' 0 29) : v = w := by
  have fields (x : IdWord) :
      x.extractLsb' 31 1 ++ (x.extractLsb' 30 1 ++ (x.extractLsb' 29 1 ++ x.extractLsb' 0 29)) = x := by
    simp only [BitVec.extractLsb'_append_extractLsb'_eq_extractLsb', BitVec.extractLsb'_eq_self]
  rw [← fields v, ← fields w, extract_bit_congr h31, extract_bit_congr h30, extract_bit_congr h29, hid]

/-- The identifier bits that DECODE reads from an extended image (R95, R133). -/
theorem decodeImage_extendedId {m : ChipLayout} (src : RtrSource) {img : Image} (n : Nat)
    (hx : img.sidl.getLsbD m.exideBit.val = true) :
    (decodeImage m src img n).id.extractLsb' 0 29 =
      img.sidh ++ img.sidl.extractLsb' m.sidLo.val 3 ++ img.sidl.extractLsb' m.eidLo.val 2 ++ img.eid8 ++ img.eid0 := by
  obtain ⟨hsidh, hsid, heid, heid8, heid0⟩ := decodeImage_extended_fields src n hx
  rw [← extendedId_append, hsidh, hsid, heid, heid8, heid0]

/-- The identifier bits of a standard frame, which end at bit 10 (R96, R131). -/
theorem standardId_zero_append (id : IdWord) (h : id.extractLsb' 11 18 = 0#18) :
    id.extractLsb' 0 29 = 0#18 ++ id.extractLsb' 0 11 := by
  rw [← h]
  simp only [BitVec.extractLsb'_append_extractLsb'_eq_extractLsb']

/-- The identifier bits that DECODE reads from a standard image (R96, R133). -/
theorem decodeImage_standardId {m : ChipLayout} (src : RtrSource) {img : Image} (n : Nat)
    (hx : img.sidl.getLsbD m.exideBit.val = false) :
    (decodeImage m src img n).id.extractLsb' 0 29 = 0#18 ++ (img.sidh ++ img.sidl.extractLsb' m.sidLo.val 3) := by
  obtain ⟨hsidh, hsid, hhigh⟩ := decodeImage_standard_fields src n hx
  rw [standardId_zero_append _ hhigh, ← standardId_append, hsidh, hsid]

/-- The remote bit of the image ENCODE writes is the frame's, wherever it is read (R130, R136). -/
theorem rtrBit_encodeImage {m : ChipLayout} (h : m.Wf) (src : RtrSource) (f : Frame) :
    rtrBit m src (encodeImage m f) = f.id.extractLsb' 30 1 := by
  obtain ⟨-, -, -, -, hdlc, hctrl⟩ := encodeImage_fields h f
  cases src with
  | dlcByte => exact hdlc
  | rxctrl => exact hctrl

/-- The length nibble of the image ENCODE writes is the frame's length (R94, R130). -/
theorem dlcNibble_encodeImage {m : ChipLayout} (h : m.Wf) {f : Frame} (hn : f.dlc.toNat ≤ 8) :
    dlcNibble m (encodeImage m f).dlc = f.dlc.toNat := by
  obtain ⟨-, -, -, hdlc, -⟩ := encodeImage_fields h f
  rw [dlcNibble, hdlc, BitVec.extractLsb'_toNat, Nat.shiftRight_zero]
  omega

/-- DECODE of the image ENCODE writes gives the frame's identifier word, field by field (R95, R96, R136). -/
theorem decodeImage_encodeImage_id {m : ChipLayout} (h : m.Wf) (src : RtrSource) {f : Frame} (hid : idOk f.id = true)
    (n : Nat) : (decodeImage m src (encodeImage m f) n).id = f.id := by
  obtain ⟨h29, hstd⟩ := idOk_iff.mp hid
  obtain ⟨-, hexide, -⟩ := encodeImage_fields h f
  refine idWord_ext ?_ ?_ ?_ ?_
  · rw [decodeImage_ext, hexide]
  · rw [decodeImage_rtr, rtrBit_encodeImage h]
    simp
  · rw [decodeImage_reserved, h29]
  · cases hx : f.id.getLsbD 31 with
    | true => rw [decodeImage_extendedId src n (hexide.trans hx), encodeImage_extendedId h hx]
    | false =>
      rw [decodeImage_standardId src n (hexide.trans hx), (encodeImage_standardId h hx).1,
        standardId_zero_append f.id (hstd.resolve_left (Bool.eq_false_iff.mp hx))]

/-- DECODE undoes ENCODE up to the data bytes beyond the length (R132, R136). -/
theorem decodeImage_encodeImage {m : ChipLayout} (h : m.Wf) (src : RtrSource) {f : Frame} (hid : idOk f.id = true) :
    decodeImage m src (encodeImage m f) f.dlc.toNat = f.canon := by
  have hfid := decodeImage_encodeImage_id h src hid f.dlc.toNat
  simp only [decodeImage] at hfid ⊢
  rw [hfid, BitVec.ofNat_toNat, BitVec.setWidth_eq]
  simp only [encodeImage, keepFirst_keepFirst]
  rfl

/-- A canonical frame is equivalent to the frame it comes from (R132). -/
theorem Frame.canon_equiv (f : Frame) : Frame.equiv f.canon f :=
  ⟨rfl, rfl, fun i hi => (keepFirst_getElem _ _ _ i.isLt).trans (if_pos hi)⟩

theorem Frame.valid_iff {f : Frame} : f.valid = true ↔ f.dlc.toNat ≤ 8 ∧ idOk f.id = true := by
  simp [Frame.valid]

/-- Settles O15: ENCODE's image has the frame's length nibble, and DECODE undoes ENCODE on it. -/
theorem codecRoundTrip : Obligations.CodecRoundTrip := by
  intro s t u hs hwf hvalid henc hu himg hpar
  obtain ⟨hn, hid⟩ := Frame.valid_iff.mp hvalid
  rw [exec_encode hs, encodeOp_of_valid hn hid] at henc
  cases henc
  have hnib : dlcNibble u.par.layout u.img.dlc = s.fin.dlc.toNat := by
    rw [hpar, himg]
    exact dlcNibble_encodeImage hwf hn
  have hfout : decodeImage u.par.layout u.par.rtrSource u.img (dlcNibble u.par.layout u.img.dlc) = s.fin.canon := by
    rw [hnib, hpar, himg]
    exact decodeImage_encodeImage hwf _ hid
  exact ⟨_, (exec_decode hu).trans (congrArg _ (decodeOp_of_length (hnib ▸ hn))), rfl, hfout,
    hfout ▸ Frame.canon_equiv s.fin⟩

/-- ENCODE of a valid frame succeeds, and DECODE of its image gives back the canonical frame (R130, R136). -/
theorem exec_encode_decode {s : State} (hp : s.port = none) (hwf : s.layoutInv) (hvalid : s.fin.valid = true) :
    ∃ t v : State, exec .encode s = .next t ∧ t.result = 0x00 ∧
      exec .decode t = .next v ∧ v.result = 0x00 ∧ v.fout = s.fin.canon := by
  obtain ⟨hn, hid⟩ := Frame.valid_iff.mp hvalid
  have ht := encodeOp_of_valid hn hid
  obtain ⟨v, hdec, hv, hfout, -⟩ := codecRoundTrip s _ (encodeOp s) hp hwf hvalid (exec_encode hp)
    (by rw [ht]; exact hp) rfl (by rw [ht])
  exact ⟨_, v, exec_encode hp, by rw [ht], hdec, hv, hfout⟩

/-- DECODE that succeeds leaves a valid canonical frame in FOUT (R131 to R133). -/
theorem decodeOp_fout_decoded {s : State} (h : (decodeOp s).result = 0x00) : Frame.decoded (decodeOp s).fout := by
  by_cases hn : 8 < dlcNibble s.par.layout s.img.dlc
  · rw [decodeOp_of_badLength hn] at h
    cases h
  · rw [decodeOp_of_length (not_lt.mp hn)]
    exact decodeImage_decoded _ _ _ (not_lt.mp hn)

theorem decodeOp_port (s : State) : (decodeOp s).port = s.port := by
  simp only [decodeOp]
  split <;> rfl

/-- Settles O16: a decoded frame is valid and its own canonical form, so the round trip of O15 gives it back. -/
theorem decodeEncodeDecodeStable : Obligations.DecodeEncodeDecodeStable := by
  intro s t hs hwf hdec hres
  obtain rfl : decodeOp s = t := Host.Outcome.next.inj ((exec_decode hs).symm.trans hdec)
  obtain ⟨hvalid, hcanon⟩ := decodeOp_fout_decoded hres
  have hpar : (decodeOp s).par = s.par := (decodeOp_grows s).par
  obtain ⟨u, v, henc, hu, hdec', hv, hfout⟩ :=
    exec_encode_decode (s := { decodeOp s with fin := (decodeOp s).fout }) ((decodeOp_port s).trans hs)
      (show (decodeOp s).par.layout.Wf by rwa [hpar]) hvalid
  exact ⟨u, v, henc, hu, hdec', hv, hfout.trans hcanon⟩

end Sys2Proof.Machine

/-!
SUPPORT. An undisturbed RXREAD that a client issues, from its request to its end.
-/

namespace Sys2Proof.Machine

/-! ## A client's operation from its request to its end -/

/-- An operation of a client that finds LOCK FREE and goes on to progress `p` in `u`, and runs from there to its end
within a turn while no other agent moves, ends in that state as raised (R39, R211). -/
theorem exec_lockOp_runs {op : LockOp} {p : Prog} {n : Nat} {r : OpResult} {s u t : State} (hp : s.portReady)
    (ha : s.agenda = []) (hn : n ≤ 71)
    (hstart : ∀ q, opStart op { s with port := q, lock := .client s.client } = .running p { u with port := q })
    (h : OpRuns .client n p u r t) : exec op.instr s = .next (t.raise r) := by
  obtain ⟨hport, hlock⟩ := hp
  have hagenda : u.agenda = [] :=
    (opStart_frame (who := .client) (congrArg OpOut.state (hstart none))).agenda.trans ha
  have hstep : portStep { s with port := some (.acquire op) } = some { u with port := some (.run p) } := by
    rw [portStep]
    exact (if_pos hlock).trans (congrArg portAfter (hstart _))
  obtain ⟨k, hk⟩ := stepBound_eq s.par
  rw [exec_lockOp, portRun_idle _ _ hport, hk, show k + 72 = n + (71 - n + k) + 1 by omega, runPort_succ hstep hagenda,
    if_neg nofun, h.port hagenda]

/-! ## RXREAD by a client -/

theorem OpResult.ok_byte : OpResult.ok.byte = 0x00 := rfl

theorem OpResult.invalidLength_byte : OpResult.invalidLength.byte = 0x11 := rfl

/-- An undisturbed RXREAD by a client ends as its run from the first header read does. -/
theorem exec_rxread_runs {b : Buf} {n : Nat} {r : OpResult} {s t : State} (hp : s.portReady) (hq : s.quiet)
    (hn : n ≤ 71) (h : OpRuns .client n (.rxHeader b 0) { s with lock := .client s.client } r t) :
    exec (.rxread b) s = .next (t.raise r) :=
  exec_lockOp_runs (op := .rxread b) hp hq.1 hn (fun _ => rfl) h

/-- Settles O18: the run of an undisturbed RXREAD, ended by success. -/
theorem rxreadDecodesBuffer : Obligations.RxreadDecodesBuffer := by
  intro s b n hp hq hnib hn
  obtain ⟨m, hm, h⟩ := rxread_runs .client b ⟨n, by omega⟩ { s with lock := .client s.client } hq.2 hnib
  rw [exec_rxread_runs hp hq (by omega) h]
  simp [State.raise, State.rxSoFar, State.rxImage, State.chipByte, OpResult.ok_byte, hp.1, hp.2, hq.2]

/-- Settles O19: the run of an undisturbed RXREAD, ended by the length nibble after the header. -/
theorem rxreadRefusesLength : Obligations.RxreadRefusesLength := by
  intro s b hp hq hn
  have h := rxread_refuses .client b { s with lock := .client s.client } hq.2 hn
  rw [exec_rxread_runs hp hq (by omega) h]
  simp [State.raise, State.rxSoFar, State.rxImage, State.chipByte, OpResult.invalidLength_byte, hp.1, hp.2, hq.2]

end Sys2Proof.Machine

/-!
SUPPORT. A pass while no other agent moves and no transaction fails: what its states do, said once for each, and a pass
that delivers one frame.
-/

namespace Sys2Proof.Machine

/-! ## A pass while no other agent moves -/

/-- A pass that stands in `s` goes on, after `n` steps of the dispatcher, as one that stands in `t` does. -/
def PassRuns (n : Nat) (s t : State) : Prop := ∀ m, runPass (n + m) s = runPass m t

theorem PassRuns.trans {n k : Nat} {s t u : State} (h : PassRuns n s t) (g : PassRuns k t u) : PassRuns (n + k) s u :=
  fun m => by rw [Nat.add_assoc, h, g]

/-- One step of the dispatcher that does not end the pass. -/
theorem PassRuns.step {s t : State} (h : dispStep s = some t) (ha : s.agenda = []) (hd : t.dstate ≠ .idle) :
    PassRuns 1 s t := fun m => by
  rw [Nat.add_comm, runPass_succ h ((dispStep_agenda h).trans ha), if_neg hd]

/-- An operation inside a pass runs to its end: `fin` is what its state of the pass does with the outcome (R190). -/
theorem PassRuns.of_op {n : Nat} {p : Prog} {r : OpResult} {s t : State} {fin : OpResult → State → State}
    (hp : s.dprog = none) (ha : s.agenda = []) (hd : s.dstate ≠ .idle) (h : OpRuns .dispatcher n p s r t)
    (hfirst : dispStep s = innerAfter fin (opStep .dispatcher p s))
    (hstep : ∀ q u, OpFrame .dispatcher s u →
      dispStep { u with dprog := some q } = innerAfter fin (opStep .dispatcher q { u with dprog := some q }))
    (hfin : ∀ u, (fin r u).dstate ≠ .idle ∧ (fin r u).agenda = u.agenda) : PassRuns n s (fin r t) := fun m => by
  have hlast : { t with dprog := none } = t := by rw [← hp, ← h.frame.dprog]
  rw [h.pass ha hd hstep (fun u hu => ⟨(hfin _).1, (hfin _).2.trans (hu.agenda.trans ha)⟩) hfirst m, hlast]

theorem dispStep_rx {s : State} {b : Buf} (hd : s.dstate = rxState b) : dispStep s = rxStep b s := by
  cases b <;> rw [dispStep, hd] <;> rfl

/-! ### Its beginning -/

/-- A pass of kind `k` once it owns LOCK (R192, R193). -/
def State.acquired (k : PassKind) (s : State) : State :=
  { s with
    evq := s.evq - 1, pkind := k, lock := .dispatcher, hmask := 0x00, errok := false, dstate := .readf
    evlog := s.evlog ++ [⟨.passStart, k.code, 0, 0, 0⟩] }

/-- A pass of kind `k` once it has read CANINTF (R194). -/
def State.flagged (k : PassKind) (s : State) : State :=
  { s.acquired k with
    flags := s.chipByte s.par.layout.canintf, dstate := .rx0
    evlog := s.evlog ++ [⟨.passStart, k.code, 0, 0, 0⟩, ⟨.flagsRead, s.chipByte s.par.layout.canintf, 0, 0, 0⟩]
    bus := s.bus ++ [⟨.dispatcher, .read s.par.layout.canintf⟩] }

/-- Where a pass can start, it does. -/
theorem dispStep_starts {k : PassKind} {s : State} (hp : s.passReady k) :
    dispStep s = some { s with evq := s.evq - 1, pkind := k, dstate := .acq } := by
  obtain ⟨hd, -, -, hevent, htimeout⟩ := hp
  rw [dispStep, hd]
  cases k with
  | event => exact if_pos (hevent rfl)
  | timeout =>
    obtain ⟨hevq, hdue⟩ := htimeout rfl
    have ht : timedOut s = true := decide_eq_true hdue
    simp [idleStep, startTimeout, hevq, ht]

/-- A pass acquires LOCK where it is FREE. -/
theorem pass_acquires {k : PassKind} {s : State} (hp : s.passReady k) (ha : s.agenda = []) :
    PassRuns 2 s (s.acquired k) := by
  refine (PassRuns.step (dispStep_starts hp) ha nofun).trans (PassRuns.step ?_ ha (by simp [State.acquired]))
  exact (dispStep_acq rfl).trans (if_pos hp.2.2.1)

/-- A pass reads the flags while no transaction fails. -/
theorem pass_reads {k : PassKind} {s : State} (hp : s.passReady k) (hq : s.quiet) : PassRuns 3 s (s.flagged k) := by
  refine (pass_acquires hp hq.1).trans (PassRuns.step ?_ hq.1 (by simp [State.flagged]))
  have hx : (s.acquired k).xport = [] := hq.2
  show some (readfStep _) = _
  rw [readfStep, State.blockRead_quiet _ _ hx]
  simp [State.acquired, State.flagged, State.emit, State.chipByte, hq.2]

/-! ### The receive buffers -/

theorem afterRx_ne_idle (b : Buf) : afterRx b ≠ .idle := by cases b <;> decide

theorem rxEnd_dstate (b : Buf) (r : OpResult) (s : State) : (rxEnd b r s).dstate = afterRx b := by
  have retry (n : Nat) (u : State) : (u.setRxretry b n).dstate = u.dstate := by cases b <;> rfl
  have fail (r : OpResult) (u : State) : (rxFailed b r u).dstate = u.dstate := by
    unfold rxFailed
    split <;> exact retry _ _
  cases r with
  | ok =>
    simp only [rxEnd, rxDeliver]
    split
    · exact retry _ _
    · rfl
  | _ => exact fail _ _

/-- A receive buffer with its flag clear is passed over (R195). -/
theorem pass_skips_rx {b : Buf} {s : State} (hd : s.dstate = rxState b) (ha : s.agenda = [])
    (hf : rxFlagSet s.par.layout b s.flags = false) :
    PassRuns 1 s { s.setRxretry b 0 with dstate := afterRx b } := by
  refine PassRuns.step ?_ ha (afterRx_ne_idle b)
  rw [dispStep_rx hd, rxStep, if_neg (by simp [hf])]

theorem dispStep_rx_flagged {b : Buf} {s : State} (hd : s.dstate = rxState b)
    (hf : rxFlagSet s.par.layout b s.flags = true) :
    dispStep s = innerAfter (rxEnd b) (innerStep (.rxread b) s) := by
  rw [dispStep_rx hd, rxStep, if_pos hf]

/-- A receive buffer with its flag set is read by RXREAD, whose outcome is the pass's to handle (R195). -/
theorem pass_reads_rx {b : Buf} {n : Nat} {r : OpResult} {s t : State} (hd : s.dstate = rxState b)
    (hp : s.dprog = none) (ha : s.agenda = []) (hf : rxFlagSet s.par.layout b s.flags = true)
    (h : OpRuns .dispatcher n (.rxHeader b 0) s r t) : PassRuns n s (rxEnd b r t) := by
  refine .of_op hp ha (by rw [hd]; cases b <;> decide) h (dispStep_rx_flagged hd hf |>.trans ?_) ?_ ?_
  · rw [innerStep, hp]
    rfl
  · intro q u hu
    exact dispStep_rx_flagged (s := { u with dprog := some q }) (hu.dstate.trans hd)
      (by rw [hu.par, hu.flags]; exact hf)
  · exact fun u => ⟨rxEnd_dstate b r u ▸ afterRx_ne_idle b, rxEnd_agenda b r u⟩

/-! ### From the transmit flags to the clear -/

/-- Flags of which TXS to WAKES have nothing to do (R198 to R204). -/
structure OnlyRx (m : ChipLayout) (f : Byte) : Prop where
  tx : f &&& txfAll m = 0
  err : errSet m f = false
  wake : wakeSet m f = false
  unknown : f &&& unkf m = 0

/-- With receive flags alone and no recovery pending, a pass goes on from the receive buffers to its clear and does
nothing. -/
theorem pass_skips_to_clr {s : State} (hd : s.dstate = .txs) (hp : s.dprog = none) (ha : s.agenda = [])
    (hr : s.recpend = false) (hf : OnlyRx s.par.layout s.flags) : PassRuns 5 s { s with dstate := .clr } := by
  have txs : dispStep s = some { s with dstate := .errs } := by
    rw [dispStep, hd]
    simp [txsStep, hf.tx, State.handle]
  have errs : dispStep { s with dstate := .errs } = some { s with dstate := .recs } := by
    simp [dispStep, errsStep, hf.err]
  have recs : dispStep { s with dstate := .recs } = some { s with dstate := .ovrs } := by
    simp [dispStep, recsStep, hr, hp]
  have ovrs : dispStep { s with dstate := .ovrs } = some { s with dstate := .wakes } := by
    simp [dispStep, ovrsStep, ovrsEnd, hf.err, hp]
  have wakes : dispStep { s with dstate := .wakes } = some { s with dstate := .clr } := by
    simp [dispStep, wakesStep, hf.wake, hf.unknown]
  exact ((((PassRuns.step txs ha nofun).trans (.step errs ha nofun)).trans (.step recs ha nofun)).trans
    (.step ovrs ha nofun)).trans (.step wakes ha nofun)

/-! ### The clear -/

/-- What an undisturbed modify of a register leaves, native or not (R62, R63). -/
def State.afterModify (a : Nat) (m v : Byte) (s : State) : State :=
  State.storeReg { s with bus := s.bus ++ modifyBy s.par.nativeBitModify s.lock a m v (s.chipByte a) } a
    (modified (s.chipByte a) m v)

/-- An undisturbed modify is done in one step, or without a native modify in two, of which the first only issues its
read. -/
theorem modStep_runs {s : State} (hx : s.xport = []) (a : Nat) (m v : Byte) :
    s.modStep a m v s.modStart = .done true (s.afterModify a m v) ∨
      ∃ st bus, s.modStep a m v s.modStart = .more st { s with bus := bus } ∧
        State.modStep a m v st { s with bus := bus } = .done true (s.afterModify a m v) := by
  cases hn : s.par.nativeBitModify with
  | true =>
    left
    rw [State.modStep_quiet _ _ _ _ _ hn hx, State.afterModify, hn, ← hx]
    rfl
  | false =>
    right
    have hread := State.modStep_read_quiet s a m v s.par.xferExtra hn hx
    have hwrite := State.modStep_write_quiet { s with bus := s.bus ++ [⟨s.lock, .read a⟩] } a m v s.par.xferExtra
      (s.chipByte a) hn hx
    rw [List.append_assoc, ← hx] at hwrite
    rw [← hx] at hread
    refine ⟨_, _, hread, hwrite.trans ?_⟩
    rw [State.afterModify, hn]
    rfl

/-- Clearing flags of CANINTF writes one byte of the chip and makes no edge of INT (R48, R287). -/
theorem storeReg_canintf_clear {s : State} (hm : s.layoutInv) (m : Byte) :
    s.storeReg s.par.layout.canintf (modified (s.chipByte s.par.layout.canintf) m 0x00) =
      { s with
        chip := Memory.write s.chip s.par.layout.canintf (s.chipByte s.par.layout.canintf &&& ~~~m) } := by
  obtain ⟨⟨-, -, -, -, hstat, -⟩, -, ⟨-, -, htec, -⟩, ⟨-, hrec, -⟩, ⟨hinte, -⟩, heflg⟩ := wf_registers hm
  have hmod : modified (s.chipByte s.par.layout.canintf) m 0x00 = s.chipByte s.par.layout.canintf &&& ~~~m := by
    simp [modified]
  rw [State.storeReg, written_plain heflg htec.symm hrec.symm hstat.symm, hmod]
  have hedges : (s.putByte s.par.layout.canintf (s.chipByte s.par.layout.canintf &&& ~~~m)).edges = s.edges := by
    rw [State.putByte, setChip_edges, if_neg, Nat.add_zero]
    rintro ⟨hbefore, hafter⟩
    refine State.intLow_iff.mp hafter ?_
    show State.chipByte (s.putByte _ _) _ &&& State.chipByte (s.putByte _ _) _ = 0
    rw [State.setChip_par, State.chipByte_putByte_same, State.chipByte_putByte_other _ hinte.symm, BitVec.and_assoc,
      BitVec.and_comm (~~~m), ← BitVec.and_assoc, State.intLow_eq_false.mp hbefore]
    exact BitVec.zero_and
  show ({ s with chip := _, edges := (s.putByte _ _).edges } : State) = _
  rw [hedges]

/-- So an undisturbed clear of CANINTF leaves no more than its transactions and the byte (R62, R63). -/
theorem afterModify_canintf_clear {s : State} (hm : s.layoutInv) (m : Byte) :
    s.afterModify s.par.layout.canintf m 0x00 =
      { s with
        chip := Memory.write s.chip s.par.layout.canintf (s.chipByte s.par.layout.canintf &&& ~~~m)
        bus := s.bus ++ modifyBy s.par.nativeBitModify s.lock s.par.layout.canintf m 0x00
          (s.chipByte s.par.layout.canintf) } :=
  storeReg_canintf_clear
    (s :=
      { s with
        bus := s.bus ++ modifyBy s.par.nativeBitModify s.lock s.par.layout.canintf m 0x00
          (s.chipByte s.par.layout.canintf) })
    hm m

/-- The run of the clear's modify, while no transaction fails. -/
theorem flagClear_runs {s : State} (hx : s.xport = []) :
    ∃ n, n ≤ 2 ∧ OpRuns .dispatcher n (.flagClear s.modStart) s .ok
      (s.afterModify s.par.layout.canintf s.hmask 0x00) := by
  rcases modStep_runs hx s.par.layout.canintf s.hmask 0x00 with hdone | ⟨st, bus, hmore, hdone⟩
  · refine ⟨1, by decide, .last ?_⟩
    rw [opStep, flagClearStep, hdone]
  · refine ⟨2, le_rfl, .more (q := .flagClear st) (u := { s with bus := bus }) ?_ (.last ?_)⟩
    · rw [opStep, flagClearStep, hmore]
    · rw [opStep, flagClearStep, hdone]

/-- The pass's clear, while no transaction fails (R205). -/
theorem pass_clears {s : State} (hm : s.layoutInv) (hd : s.dstate = .clr) (hp : s.dprog = none) (hq : s.quiet)
    (hh : s.hmask ≠ 0) :
    ∃ n, n ≤ 2 ∧ PassRuns n s
      { s with
        dstate := .rel
        chip := Memory.write s.chip s.par.layout.canintf (s.chipByte s.par.layout.canintf &&& ~~~s.hmask)
        bus := s.bus ++ modifyBy s.par.nativeBitModify s.lock s.par.layout.canintf s.hmask 0x00
          (s.chipByte s.par.layout.canintf)
        evlog := s.evlog ++ [⟨.flagsCleared, s.hmask, 0, 0, 0⟩] } := by
  obtain ⟨n, hn, h⟩ := flagClear_runs hq.2
  rw [afterModify_canintf_clear hm] at h
  refine ⟨n, hn, .of_op (fin := clrEnd) hp hq.1 (by simp [hd]) h ?_ ?_ fun u => ⟨by simp [clrEnd, State.emit], rfl⟩⟩
  · rw [dispStep, hd]
    show clrStep s = _
    rw [clrStep, hp]
    exact if_pos hh
  · intro q u hu
    rw [dispStep, hu.dstate, hd]
    rfl

/-! ### Its end -/

/-- A pass that has reached REL ends there (R206). -/
theorem exec_pass {k : PassKind} {n : Nat} {s t : State} (hp : s.passReady k) (h : PassRuns n s t) (hn : n ≤ 71)
    (hd : t.dstate = .rel) (ha : t.agenda = []) : exec (passInstr k) s = .next (relStep t) := by
  have hexec : exec (passInstr k) s = .next (runPass s.par.stepBound s) := by
    obtain ⟨hidle, -, -, hevent, htimeout⟩ := hp
    cases k with
    | event => exact congrArg _ (if_pos ⟨hidle, hevent rfl⟩)
    | timeout =>
      obtain ⟨hevq, hdue⟩ := htimeout rfl
      exact congrArg _ (if_pos ⟨hidle, hevq, decide_eq_true hdue⟩)
  obtain ⟨j, hj⟩ := stepBound_eq s.par
  rw [hexec, hj, show j + 72 = n + (71 - n + j + 1) by omega, h]
  have hrel : dispStep t = some (relStep t) := by rw [dispStep, hd]
  rw [runPass_succ hrel ha]
  rfl

/-- A pass that has handled receive flags alone, with no recovery pending, clears them and ends. -/
theorem exec_pass_clears {k : PassKind} {j : Nat} {s t : State} (hp : s.passReady k) (h : PassRuns j s t) (hj : j ≤ 64)
    (hm : t.layoutInv) (hd : t.dstate = .txs) (hdp : t.dprog = none) (hq : t.quiet) (hr : t.recpend = false)
    (hf : OnlyRx t.par.layout t.flags) (hh : t.hmask ≠ 0) :
    exec (passInstr k) s = .next
      { t with
        dstate := .idle, lock := .free, idleSince := t.now
        chip := Memory.write t.chip t.par.layout.canintf (t.chipByte t.par.layout.canintf &&& ~~~t.hmask)
        bus := t.bus ++ modifyBy t.par.nativeBitModify t.lock t.par.layout.canintf t.hmask 0x00
          (t.chipByte t.par.layout.canintf)
        evlog := t.evlog ++ [⟨.flagsCleared, t.hmask, 0, 0, 0⟩, ⟨.passEnd, t.hmask, 0, 0, 0⟩] } := by
  have hskip := h.trans (pass_skips_to_clr hd hdp hq.1 hr hf)
  obtain ⟨i, hi, hclr⟩ := pass_clears (s := { t with dstate := .clr }) hm rfl hdp hq hh
  rw [exec_pass hp (hskip.trans hclr) (by omega) rfl hq.1, relStep, State.emit, List.append_assoc]
  rfl

/-! ### A pass that delivers one frame -/

/-- What the hand-off of the frame of buffer b, of data length n, writes beside the pass's own progress (R195, R197). -/
def State.delivered (b : Buf) (n : Nat) (s : State) : State :=
  { s with
    hmask := s.hmask ||| rxFlag s.par.layout b
    dimg := rxImageAfter s.par.rtrSource s.dimg (s.rxImage b) n
    dfout := decodeImage s.par.layout s.par.rtrSource (s.rxImage b) n
    rxq := s.rxq ++ [decodeImage s.par.layout s.par.rtrSource (s.rxImage b) n]
    evlog := s.evlog ++ [⟨.rxDelivered, bufIndex b, BitVec.ofNat 8 n, 0, 0⟩]
    bus := s.bus ++ readsBy s.lock (rxAddresses s.par.layout s.par.rtrSource b n) }

/-- A decoded frame is handed off while RXQ has room (R195, R197). -/
theorem rxEnd_hands_off {b : Buf} {n : Nat} {s : State} (hx : s.xport = []) (hroom : s.rxq.length < s.par.rxqCap) :
    rxEnd b .ok
        ((s.rxSoFar .dispatcher (rxImageAfter s.par.rtrSource (s.image .dispatcher) (s.rxImage b) n)
          (rxAddresses s.par.layout s.par.rtrSource b n)).setFrame .dispatcher
          (decodeImage s.par.layout s.par.rtrSource (s.rxImage b) n)) =
      State.setRxretry b 0 { s.delivered b n with dstate := afterRx b } := by
  simp only [rxEnd, rxDeliver]
  refine (if_pos hroom).trans ?_
  cases b <;> rw [State.delivered, State.rxSoFar, ← hx] <;> rfl

/-- A flagged buffer with a length of 0 to 8 is read, decoded and handed off while RXQ has room. -/
theorem pass_hands_off {b : Buf} {n : Fin 9} {s : State} (hd : s.dstate = rxState b) (hp : s.dprog = none)
    (hq : s.quiet) (hf : rxFlagSet s.par.layout b s.flags = true)
    (hn : n.val = dlcNibble s.par.layout (s.rxImage b).dlc) (hroom : s.rxq.length < s.par.rxqCap) :
    ∃ j, j ≤ 14 ∧ PassRuns j s (State.setRxretry b 0 { s.delivered b n with dstate := afterRx b }) := by
  obtain ⟨ha, hx⟩ := hq
  obtain ⟨j, hj, h⟩ := rxread_runs .dispatcher b n s hx hn
  have hread := pass_reads_rx hd hp ha hf h
  rw [rxEnd_hands_off hx hroom] at hread
  exact ⟨j, hj, hread⟩

/-- Where one receive flag alone is set, its buffer's frame is handed off and the other buffer is passed over. -/
theorem pass_delivers {b : Buf} {n : Fin 9} {s : State} (hd : s.dstate = .rx0) (hp : s.dprog = none) (hq : s.quiet)
    (hf : ∀ c, rxFlagSet s.par.layout c s.flags = decide (c = b))
    (hn : n.val = dlcNibble s.par.layout (s.rxImage b).dlc) (hroom : s.rxq.length < s.par.rxqCap) :
    ∃ j, j ≤ 15 ∧ PassRuns j s { s.delivered b n with dstate := .txs, rxretry0 := 0, rxretry1 := 0 } := by
  cases b with
  | rx0 =>
    obtain ⟨j, hj, h⟩ := pass_hands_off (b := .rx0) hd hp hq (hf .rx0) hn hroom
    exact ⟨j + 1, by omega, h.trans (pass_skips_rx (b := .rx1) rfl hq.1 (hf .rx1))⟩
  | rx1 =>
    have hskip := pass_skips_rx (b := .rx0) hd hq.1 (hf .rx0)
    obtain ⟨j, hj, h⟩ := pass_hands_off (b := .rx1) (s := { s.setRxretry .rx0 0 with dstate := .rx1 }) rfl hp hq
      (hf .rx1) hn hroom
    exact ⟨1 + j, by omega, hskip.trans h⟩

/-- Each buffer has a receive flag of its own (R97). -/
theorem rxFlagSet_rxFlag_mcp2515 (b c : Buf) : rxFlagSet mcp2515 c (rxFlag mcp2515 b) = decide (c = b) := by
  cases c <;> cases b <;> decide

theorem onlyRx_rxFlag_mcp2515 (b : Buf) : OnlyRx mcp2515 (rxFlag mcp2515 b) := by
  cases b <;> constructor <;> decide

theorem rxFlag_mcp2515_ne_zero (b : Buf) : rxFlag mcp2515 b ≠ 0 := by
  cases b <;> decide

/-- Settles O38: the pass begins, hands off the frame, does nothing from TXS to WAKES, clears the flag and ends. -/
theorem passDeliversFrame : Obligations.PassDeliversFrame := by
  intro s k b n hp hq hl hrec hflags hnib hn hroom
  have hm : s.par.layout.Wf := hl ▸ mcp2515_wf
  have hf : s.chipByte s.par.layout.canintf = rxFlag mcp2515 b := by
    rw [hl]
    cases b <;> exact hflags
  have hset (c : Buf) : rxFlagSet s.par.layout c (s.chipByte s.par.layout.canintf) = decide (c = b) := by
    rw [hf, hl, rxFlagSet_rxFlag_mcp2515]
  have honly : OnlyRx s.par.layout (s.chipByte s.par.layout.canintf) := by
    rw [hf, hl]
    exact onlyRx_rxFlag_mcp2515 b
  have hmask : 0 ||| rxFlag s.par.layout b = s.chipByte s.par.layout.canintf := by
    rw [hf, hl]
    exact BitVec.zero_or
  have hne : 0 ||| rxFlag s.par.layout b ≠ 0 := by
    rw [hmask, hf]
    exact rxFlag_mcp2515_ne_zero b
  have hnibble : n = dlcNibble s.par.layout (s.rxImage b).dlc := hl ▸ hnib
  obtain ⟨j, hj, hdel⟩ := pass_delivers (n := ⟨n, by omega⟩) (s := s.flagged k) rfl hp.2.1 hq hset hnibble hroom
  refine ⟨_, exec_pass_clears hp ((pass_reads hp hq).trans hdel) (by omega) hm rfl hp.2.1 hq hrec honly hne, ?_, ?_⟩
  · obtain ⟨hidle, -, hlock, -, -⟩ := hp
    have hc : s.par.layout.canintf = 0x2C := by rw [hl]; rfl
    simp only [State.delivered, State.flagged, State.acquired, hmask]
    simp [State.rxImage, State.chipByte, readsBy, hidle, hlock, hc]
  · intro a
    show (s.putByte s.par.layout.canintf
      (s.chipByte s.par.layout.canintf &&& ~~~(0 ||| rxFlag s.par.layout b))).chipByte a = _
    rw [hmask, BitVec.and_not_self, hl]
    split
    · next h => rw [h]; exact State.chipByte_putByte_same _ _ _
    · next h => exact State.chipByte_putByte_other _ (Ne.symm h) _

end Sys2Proof.Machine

/-!
SUPPORT. The error-state operations while no transaction fails, said once for a client and for a pass: what SNAPERR,
CLASSIFY and RECOVER do to the state, and what they give a client that issues them.
-/

namespace Sys2Proof.Machine

/-! ## Reads that succeed -/

/-- The state once the registers `as` have been read with success (R61, R67). -/
def State.haveRead (as : List Nat) (s : State) : State := { s with bus := s.bus ++ readsBy s.lock as }

theorem haveRead_append (as bs : List Nat) (s : State) : (s.haveRead as).haveRead bs = s.haveRead (as ++ bs) := by
  simp [State.haveRead, readsBy]

/-- A read that no draw fails returns the register's value and leaves nothing but its record. -/
theorem blockRead_haveRead {s : State} (hx : s.xport = []) (a : Nat) :
    s.blockRead a = (some (s.chipByte a), s.haveRead [a]) := by
  rw [State.blockRead_quiet s a hx, ← hx]
  rfl

/-! ## Writes of registers that INT does not see -/

theorem chipByte_of_write {s t : State} {a : Nat} {v : Byte} (hc : t.chip = Memory.write s.chip a v)
    (he : t.epoch = s.epoch) (b : Nat) : t.chipByte b = if b = a then v else s.chipByte b := by
  rw [State.chipByte_congr (s := s.putByte a v) hc he]
  split
  · next h => rw [h, State.chipByte_putByte_same]
  · next h => exact State.chipByte_putByte_other s (Ne.symm h) v

/-- A write of a register other than CANINTF and CANINTE makes no edge of INT (R48, R287). -/
theorem storeReg_no_edge {s : State} {a : Nat} (hf : a ≠ s.par.layout.canintf) (he : a ≠ s.par.layout.caninte)
    (v : Byte) :
    s.storeReg a v = { s with chip := Memory.write s.chip a (written s.par.layout a (s.chipByte a) v) } := by
  have hlow : (s.storeReg a v).intLow = s.intLow := by
    rw [State.intLow, State.intLow, State.storeReg_par, State.chipByte_storeReg, State.chipByte_storeReg,
      if_neg hf.symm, if_neg he.symm]
  have hedges : (s.storeReg a v).edges = s.edges := by
    refine (setChip_edges s _).trans ?_
    rw [if_neg, Nat.add_zero]
    rintro ⟨hbefore, hafter⟩
    exact absurd (hbefore.symm.trans (hlow.symm.trans hafter)) Bool.false_ne_true
  show ({ s with chip := _, edges := (s.storeReg a v).edges } : State) = _
  rw [hedges]

theorem afterModify_no_edge {s : State} {a : Nat} (hf : a ≠ s.par.layout.canintf) (he : a ≠ s.par.layout.caninte)
    (m v : Byte) :
    s.afterModify a m v =
      { s with
        chip := Memory.write s.chip a (written s.par.layout a (s.chipByte a) (modified (s.chipByte a) m v))
        bus := s.bus ++ modifyBy s.par.nativeBitModify s.lock a m v (s.chipByte a) } :=
  storeReg_no_edge (s := { s with bus := s.bus ++ modifyBy s.par.nativeBitModify s.lock a m v (s.chipByte a) }) hf he _

/-! ## SNAPERR -/

theorem snapEflgStep_quiet {s : State} (hx : s.xport = []) :
    snapEflgStep s = .running (.snapTec (s.chipByte s.par.layout.eflg)) (s.haveRead [s.par.layout.eflg]) := by
  rw [snapEflgStep, blockRead_haveRead hx]

theorem snapTecStep_quiet {s : State} (hx : s.xport = []) (e : Byte) :
    snapTecStep e s = .running (.snapRec e (s.chipByte s.par.layout.tec)) (s.haveRead [s.par.layout.tec]) := by
  rw [snapTecStep, blockRead_haveRead hx]

theorem snapRecStep_quiet {s : State} (hx : s.xport = []) (e c : Byte) :
    snapRecStep e c s =
      .done .ok
        { s.haveRead [s.par.layout.recCounter] with
          esnap := { eflg := e, tec := c, recv := s.chipByte s.par.layout.recCounter, valid := true } } := by
  rw [snapRecStep, blockRead_haveRead hx]

/-- The state once SNAPERR has taken its snapshot (R160). -/
def State.snapped (s : State) : State :=
  { s with
    bus := s.bus ++ readsBy s.lock [s.par.layout.eflg, s.par.layout.tec, s.par.layout.recCounter]
    esnap :=
      { eflg := s.chipByte s.par.layout.eflg, tec := s.chipByte s.par.layout.tec
        recv := s.chipByte s.par.layout.recCounter, valid := true } }

/-- SNAPERR reads EFLG, TEC and REC while no transaction fails, whatever ESNAP held. -/
theorem snapshot_runs (who : Issuer) {s : State} (hx : s.xport = []) : OpRuns who 3 .snapEflg s .ok s.snapped := by
  have htec := snapTecStep_quiet (s := s.haveRead [s.par.layout.eflg]) hx (s.chipByte s.par.layout.eflg)
  rw [haveRead_append] at htec
  have hrec := snapRecStep_quiet (s := s.haveRead [s.par.layout.eflg, s.par.layout.tec]) hx
    (s.chipByte s.par.layout.eflg) (s.chipByte s.par.layout.tec)
  rw [haveRead_append] at hrec
  exact .more (snapEflgStep_quiet hx) (.more htec (.last hrec))

/-! ## CLASSIFY -/

theorem classifyOp_of_valid {s : State} (hv : s.esnap.valid = true) :
    classifyOp s = .done .ok (latchUpdate (classifyErr s.par.layout s.esnap.eflg s.esnap.tec s.esnap.recv) s) :=
  if_pos hv

theorem classifyOp_of_invalid {s : State} (hv : s.esnap.valid = false) : classifyOp s = .done .noSnapshot s :=
  if_neg (by simp [hv])

/-! ## RECOVER -/

theorem recStart_pending {s : State} (hf : s.recfails ≠ 0) (hn : s.now < s.recnext) :
    recStart s = .done .backoffPending s := if_pos ⟨hf, hn⟩

/-- With no backoff due RECOVER begins (R164, R166). -/
theorem recStart_due {s : State} (h : s.recfails = 0 ∨ s.recnext ≤ s.now) :
    recStart s = .running (.recModify s.modStart) s :=
  if_neg fun ⟨hf, hn⟩ => h.elim hf (Nat.not_le.mpr hn)

/-- The state once an attempt at recovery has failed (R164). -/
def State.recoveryFailed (s : State) : State :=
  { s with
    recfails := recfailsNext s.par.recfailsMax s.recfails
    recnext := s.now + s.par.backoff (recfailsNext s.par.recfailsMax s.recfails).toNat }

theorem recFail_eq (r : OpResult) (s : State) : recFail r s = .done r s.recoveryFailed := rfl

/-- The state once an attempt at recovery has succeeded (R164). -/
def State.recovered (s : State) : State := { s with recpend := false, recfails := 0, eclass := .unknown }

theorem recOk_eq (s : State) : recOk s = .done .ok s.recovered := rfl

/-- RECFAILS saturates within a byte (R34). -/
theorem recfailsNext_toNat (max n : Byte) : (recfailsNext max n).toNat = min (n.toNat + 1) max.toNat := by
  rw [recfailsNext, BitVec.toNat_ofNat, Nat.mod_eq_of_lt]
  exact Nat.lt_of_le_of_lt (Nat.min_le_right ..) max.isLt

theorem recoveryFailed_eq (s : State) :
    s.recoveryFailed =
      { s with
        recfails := BitVec.ofNat 8 (min (s.recfails.toNat + 1) s.par.recfailsMax.toNat)
        recnext := s.now + s.par.backoff (min (s.recfails.toNat + 1) s.par.recfailsMax.toNat) } := by
  rw [State.recoveryFailed, recfailsNext_toNat]
  rfl

theorem recPollStep_of_normal {s : State} (hx : s.xport = []) (p : Nat)
    (hm : modeNormal s.par.layout (s.chipByte s.par.layout.canstat) = true) :
    recPollStep p s = .running (.recEflg p) (s.haveRead [s.par.layout.canstat]) := by
  rw [recPollStep, blockRead_haveRead hx]
  exact if_pos hm

theorem recPollStep_again {s : State} (hx : s.xport = []) {p : Nat}
    (hm : modeNormal s.par.layout (s.chipByte s.par.layout.canstat) = false) (hp : p < s.par.modePollLimit) :
    recPollStep p s = .running (.recWait p s.now) (s.haveRead [s.par.layout.canstat]) := by
  rw [recPollStep, blockRead_haveRead hx]
  exact (if_neg (by simp [hm])).trans (if_pos hp)

theorem recPollStep_gives_up {s : State} (hx : s.xport = []) {p : Nat}
    (hm : modeNormal s.par.layout (s.chipByte s.par.layout.canstat) = false) (hp : s.par.modePollLimit ≤ p) :
    recPollStep p s = .done .modeTimeout (s.haveRead [s.par.layout.canstat]).recoveryFailed := by
  rw [recPollStep, blockRead_haveRead hx]
  exact (if_neg (by simp [hm])).trans (if_neg (Nat.not_lt.mpr hp))

/-- The read of EFLG decides the attempt (R164). -/
theorem recEflgStep_quiet {s : State} (hx : s.xport = []) (p : Nat) :
    recEflgStep p s =
      if txboSet s.par.layout (s.chipByte s.par.layout.eflg) then
        .done .recoveryFailed (s.haveRead [s.par.layout.eflg]).recoveryFailed
      else .done .ok (s.haveRead [s.par.layout.eflg]).recovered := by
  rw [recEflgStep, blockRead_haveRead hx]
  rfl

/-- A wait that is over is the next poll. -/
theorem recWaitStep_over {s : State} {p c : Nat} (h : c + s.par.pollDelay ≤ s.now) :
    recWaitStep p c s = recPollStep (p + 1) s := if_pos h

theorem recWaitStep_waits {s : State} {p c : Nat} (h : s.now < c + s.par.pollDelay) : recWaitStep p c s = .waiting :=
  if_neg (Nat.not_le.mpr h)

/-- Whatever the transport does, a poll issues its read of CANSTAT and the operation has a next state. -/
theorem recPollStep_reads (p : Nat) (s : State) :
    ∃ u, (recPollStep p s).state = some u ∧ u.bus = s.bus ++ [⟨s.lock, .read s.par.layout.canstat⟩] := by
  rcases hr : s.blockRead s.par.layout.canstat with ⟨_ | v, u⟩ <;> obtain ⟨-, hu⟩ := State.blockRead_spec hr <;>
    rw [recPollStep, hr]
  · exact ⟨_, rfl, congrArg State.bus hu⟩
  · dsimp only
    split_ifs <;> exact ⟨_, rfl, congrArg State.bus hu⟩

/-- Progress with the same first step runs alike. -/
theorem OpRuns.of_first {who : Issuer} {n : Nat} {p q : Prog} {s t : State} {r : OpResult}
    (hfirst : opStep who p s = opStep who q s) (h : OpRuns who n q s r t) : OpRuns who n p s r t := by
  cases h with
  | last h => exact .last (hfirst.trans h)
  | more h k => exact .more (hfirst.trans h) k

/-- The polls left, with no delay between them, while the mode does not read Normal (R165, R244). -/
theorem polls_time_out (who : Issuer) {s : State} (hx : s.xport = []) (hd : s.par.pollDelay = 0)
    (hm : modeNormal s.par.layout (s.chipByte s.par.layout.canstat) = false) {j p : Nat}
    (hp : p + j = s.par.modePollLimit) :
    OpRuns who (j + 1) (.recPoll p) s .modeTimeout
      (s.haveRead (List.replicate (j + 1) s.par.layout.canstat)).recoveryFailed := by
  induction j generalizing p s with
  | zero => exact .last (recPollStep_gives_up hx hm (by omega))
  | succ j ih =>
    refine .more (recPollStep_again hx hm (by omega)) (.of_first (q := .recPoll (p + 1)) ?_ ?_)
    · exact recWaitStep_over (s := s.haveRead [s.par.layout.canstat]) (Nat.le_of_eq (by rw [State.haveRead, hd]; rfl))
    · have hrest := ih (s := s.haveRead [s.par.layout.canstat]) hx hd hm ((Nat.add_right_comm p 1 j).trans hp)
      rw [haveRead_append] at hrest
      exact hrest

/-- A mode's code lies within REQOP's mask (R44). -/
theorem reqopField_within (m : ChipLayout) (k : Mode) : reqopField m k &&& reqopMask m = reqopField m k := by
  have within : ∀ v : BitVec 3, v.setWidth 8 &&& (0b111#3).setWidth 8 = v.setWidth 8 := by decide
  rw [reqopField, reqopMask, place, place, ← BitVec.shiftLeft_and_distrib, within]

/-- The state once RECOVER has requested Normal mode: CANCTRL's REQOP holds its code (R62, R63, R165). -/
def State.modeRequested (s : State) : State :=
  { s with
    chip := Memory.write s.chip s.par.layout.canctrl
      ((s.chipByte s.par.layout.canctrl &&& ~~~reqopMask s.par.layout) ||| reqopField s.par.layout .normal)
    bus := s.bus ++ modifyBy s.par.nativeBitModify s.lock s.par.layout.canctrl (reqopMask s.par.layout)
      (reqopField s.par.layout .normal) (s.chipByte s.par.layout.canctrl) }

theorem chipByte_modeRequested (s : State) (a : Nat) :
    s.modeRequested.chipByte a =
      if a = s.par.layout.canctrl then
        (s.chipByte s.par.layout.canctrl &&& ~~~reqopMask s.par.layout) ||| reqopField s.par.layout .normal
      else s.chipByte a :=
  chipByte_of_write (s := s) (t := s.modeRequested) rfl rfl a

theorem afterModify_modeRequested {s : State} (hm : s.layoutInv) :
    s.afterModify s.par.layout.canctrl (reqopMask s.par.layout) (reqopField s.par.layout .normal) =
      s.modeRequested := by
  obtain ⟨⟨hstat, -⟩, ⟨htec, hrec, hinte, hintf, heflg⟩, -⟩ := wf_registers hm
  rw [afterModify_no_edge hintf hinte, written_plain heflg htec hrec hstat.symm, modified, reqopField_within]
  rfl

/-- RECOVER's mode request succeeds, in one step or two, and its first poll comes next (R165). -/
theorem recover_begins {who : Issuer} {n : Nat} {r : OpResult} {s t : State} (hm : s.layoutInv) (hx : s.xport = [])
    (h : OpRuns who n (.recPoll 1) s.modeRequested r t) :
    ∃ m, m ≤ n + 2 ∧ OpRuns who m (.recModify s.modStart) s r t := by
  rw [← afterModify_modeRequested hm] at h
  rcases modStep_runs hx s.par.layout.canctrl (reqopMask s.par.layout) (reqopField s.par.layout .normal) with
    hdone | ⟨st, bus, hmore, hdone⟩
  · refine ⟨n + 1, by omega, .more ?_ h⟩
    rw [opStep, recModifyStep, hdone]
  · refine ⟨n + 1 + 1, le_rfl, .more (q := .recModify st) (u := { s with bus := bus }) ?_ (.more ?_ h)⟩
    · rw [opStep, recModifyStep, hmore]
    · rw [opStep, recModifyStep, hdone]

/-- The mode request leaves what a poll reads. -/
theorem modeNormal_modeRequested {s : State} (hm : s.layoutInv) :
    modeNormal s.modeRequested.par.layout (s.modeRequested.chipByte s.modeRequested.par.layout.canstat) =
      modeNormal s.par.layout (s.chipByte s.par.layout.canstat) := by
  rw [chipByte_modeRequested]
  exact congrArg _ (if_neg (wf_registers hm).1.1)

/-- RECOVER where the mode never reads Normal and polls follow each other with no delay (R165, R244). -/
theorem recover_times_out (who : Issuer) {s : State} (hm : s.layoutInv) (hx : s.xport = []) (hd : s.par.pollDelay = 0)
    (hmode : modeNormal s.par.layout (s.chipByte s.par.layout.canstat) = false) :
    ∃ n, n ≤ s.par.modePollLimit + 2 ∧ OpRuns who n (.recModify s.modStart) s .modeTimeout
      (s.modeRequested.haveRead (List.replicate s.par.modePollLimit s.par.layout.canstat)).recoveryFailed :=
  recover_begins hm hx (polls_time_out who (j := s.par.pollExtra) (s := s.modeRequested) hx hd
    ((modeNormal_modeRequested hm).trans hmode) (Nat.add_comm ..))

/-! ## What they give a client -/

/-- An operation of a client that finds LOCK FREE and that its beginning ends, ends in that step, whatever the
environment (R39, R211). -/
theorem exec_lockOp_ends {op : LockOp} {r : OpResult} {s u : State} (hp : s.portReady)
    (h : opStart op { s with port := some (.acquire op), lock := .client s.client } = .done r u) :
    exec op.instr s = .next (u.raise r) := by
  have hstep : portStep { s with port := some (.acquire op) } = some (u.raise r) := by
    rw [portStep]
    exact (if_pos hp.2).trans (congrArg portAfter h)
  rw [exec_lockOp, portRun_idle _ _ hp.1, stepBound_succ, runPort_ended hstep rfl]

/-- The port steps wherever its operation has a next state, and leaves that state's transactions. -/
theorem portAfter_of_state {o : OpOut} {u : State} (h : o.state = some u) :
    ∃ t, portAfter o = some t ∧ t.bus = u.bus := by
  cases o <;> cases h <;> exact ⟨_, rfl, rfl⟩

/-- Ending a client's operation gives LOCK and the port back as the operation found them. -/
theorem raise_of_ready {s : State} (hp : s.portReady) (r : OpResult) (q : Option PortState) (l : Lock) :
    State.raise r { s with port := q, lock := l } = { s with result := r.byte } := by
  rw [State.raise, ← hp.1, ← hp.2]

/-- Settles O22: the run of an undisturbed SNAPERR. -/
theorem snaperrTakesSnapshot : Obligations.SnaperrTakesSnapshot := by
  intro s hp hq
  have h := snapshot_runs .client
    (s := { s with lock := .client s.client, esnap := { s.esnap with valid := false } }) hq.2
  refine (exec_lockOp_runs (op := .snaperr) hp hq.1 (by decide) (fun _ => rfl) h).trans ?_
  simp [State.snapped, State.raise, State.chipByte, OpResult.ok_byte, hp.1, hp.2]

/-- CLASSIFY of a valid snapshot updates the latch by the class, whatever the environment. -/
theorem exec_classify_of_valid {s : State} (hp : s.portReady) (hv : s.esnap.valid = true) :
    exec .classify s = .next
      { latchUpdate (classifyErr s.par.layout s.esnap.eflg s.esnap.tec s.esnap.recv) s with result := 0x00 } := by
  refine (exec_lockOp_ends (op := .classify) hp (classifyOp_of_valid hv)).trans (congrArg _ ?_)
  show State.raise .ok (latchUpdate (classifyErr s.par.layout s.esnap.eflg s.esnap.tec s.esnap.recv) _) = _
  cases classifyErr s.par.layout s.esnap.eflg s.esnap.tec s.esnap.recv <;>
    simp [latchUpdate, State.raise, OpResult.ok_byte, hp.1, hp.2]

/-- Settles O24: the class is a case of the bus-off flag and then of the counters, and the latch follows it. -/
theorem classifySnapshot : Obligations.ClassifySnapshot := by
  intro s hp hv
  rw [exec_classify_of_valid hp hv]
  by_cases hoff : s.esnap.eflg.getLsbD s.par.layout.txboBit.val = true
  · have hclass : classifyErr s.par.layout s.esnap.eflg s.esnap.tec s.esnap.recv = .busOff := if_pos hoff
    rw [hclass, if_pos hoff]
    rfl
  · rw [if_neg hoff]
    by_cases hpassive : 128 ≤ s.esnap.tec.toNat ∨ 128 ≤ s.esnap.recv.toNat
    · have hclass : classifyErr s.par.layout s.esnap.eflg s.esnap.tec s.esnap.recv = .passive :=
        (if_neg hoff).trans (if_pos hpassive)
      rw [hclass, if_pos hpassive]
      rfl
    · have hclass : classifyErr s.par.layout s.esnap.eflg s.esnap.tec s.esnap.recv = .active :=
        (if_neg hoff).trans (if_neg hpassive)
      rw [hclass, if_neg hpassive]
      rfl

/-- Settles O25: CLASSIFY's guard is the snapshot's VALID. -/
theorem classifyWithoutSnapshot : Obligations.ClassifyWithoutSnapshot := fun _ hp hv =>
  (exec_lockOp_ends (op := .classify) hp (classifyOp_of_invalid hv)).trans (congrArg _ (raise_of_ready hp ..))

/-- Settles O28: the backoff's gate is RECOVER's beginning. -/
theorem recoverBackoffPending : Obligations.RecoverBackoffPending := fun _ hp hf hn =>
  (exec_lockOp_ends (op := .recover) hp (recStart_pending hf hn)).trans (congrArg _ (raise_of_ready hp ..))

/-- `exec_lockOp_runs` for every run that a turn has steps for. -/
theorem exec_lockOp_runs_in_turn {op : LockOp} {p : Prog} {n : Nat} {r : OpResult} {s u t : State} (hp : s.portReady)
    (ha : s.agenda = []) (hn : n < s.par.stepBound)
    (hstart : ∀ q, opStart op { s with port := q, lock := .client s.client } = .running p { u with port := q })
    (h : OpRuns .client n p u r t) : exec op.instr s = .next (t.raise r) := by
  have hagenda : u.agenda = [] :=
    (opStart_frame (who := .client) (congrArg OpOut.state (hstart none))).agenda.trans ha
  have hstep : portStep { s with port := some (.acquire op) } = some { u with port := some (.run p) } := by
    rw [portStep]
    exact (if_pos hp.2).trans (congrArg portAfter (hstart _))
  rw [exec_lockOp, portRun_idle _ _ hp.1, show s.par.stepBound = n + (s.par.stepBound - n - 1) + 1 by omega,
    runPort_succ hstep hagenda, if_neg nofun, h.port hagenda]

/-- A RECOVER by a client with no backoff due ends as its run from the mode request does. -/
theorem exec_recover_runs {n : Nat} {r : OpResult} {s t : State} (hp : s.portReady) (ha : s.agenda = [])
    (hdue : s.recfails = 0 ∨ s.recnext ≤ s.now) (hn : n < s.par.stepBound)
    (h : OpRuns .client n (.recModify s.modStart) { s with lock := .client s.client } r t) :
    exec .recover s = .next (t.raise r) :=
  exec_lockOp_runs_in_turn (op := .recover) (p := .recModify s.modStart) (u := { s with lock := .client s.client }) hp ha hn
    (fun _ => recStart_due hdue) h

theorem OpResult.modeTimeout_byte : OpResult.modeTimeout.byte = 0x03 := rfl

/-- Settles O30: the mode request, then the polls, each waiting no time for the next, of which none reads Normal. -/
theorem recoverModeTimeout : Obligations.RecoverModeTimeout := by
  intro s hp hq hm hn hd hdue hmode
  obtain ⟨n, hle, hruns⟩ := recover_times_out .client (s := { s with lock := .client s.client }) hm hq.2 hd
    (beq_eq_false_iff_ne.mpr hmode)
  have hturn : n < s.par.stepBound := by
    simp only [Params.stepBound, Params.modePollLimit] at hle ⊢
    omega
  refine ⟨_, exec_recover_runs hp hq.1 hdue hturn hruns, ?_, chipByte_modeRequested s⟩
  simp [State.raise, recoveryFailed_eq, State.haveRead, State.modeRequested, modifyBy, OpResult.modeTimeout_byte, hn,
    hp.1, hp.2]

/-- Settles O32: the wait's guard is the clock's, and a poll issues its read whatever comes of it. -/
theorem recoverWaitsForClock : Obligations.RecoverWaitsForClock := by
  intro s p c hp
  rw [portStep, hp]
  refine ⟨fun h => congrArg portAfter (recWaitStep_waits h), fun h => ?_⟩
  obtain ⟨u, hu, hbus⟩ := recPollStep_reads (p + 1) s
  obtain ⟨t, ht, hsame⟩ := portAfter_of_state hu
  exact ⟨t, (congrArg portAfter (recWaitStep_over h)).trans ht, hsame.trans hbus⟩

end Sys2Proof.Machine

/-!
SUPPORT. The states ERRS, RECS and OVRS of a pass: what each does while no other agent moves, said once, and how a pass
that finds no flag but ERR begins and ends.
-/

namespace Sys2Proof.Machine

/-! ## An operation inside a pass -/

theorem PassRuns.refl (s : State) : PassRuns 0 s s := fun m => by rw [Nat.zero_add]

/-- An operation inside a pass runs to its end, where its state of the pass has the progress of that operation alone to
go on with: `fin` is what that state does with the outcome, and its first step may begin the operation (R190). -/
theorem PassRuns.of_run {n : Nat} {p : Prog} {r : OpResult} {s s0 t : State} {fin : OpResult → State → State}
    (h : OpRuns .dispatcher n p s r t) (ha : s0.agenda = []) (hd : s.dstate ≠ .idle)
    (hfirst : dispStep s0 = innerAfter fin (opStep .dispatcher p s))
    (hstep : ∀ q u, q.op = p.op → OpFrame .dispatcher s u →
      dispStep { u with dprog := some q } = innerAfter fin (opStep .dispatcher q { u with dprog := some q }))
    (hfin : ∀ u, OpFrame .dispatcher s u → (fin r { u with dprog := none }).dstate ≠ .idle) :
    PassRuns n s0 (fin r { t with dprog := none }) := by
  induction h generalizing s0 with
  | last h => exact .step (hfirst.trans (congrArg (innerAfter fin) h)) ha (hfin _ (opStep_frame (congrArg _ h)))
  | @more n p s q u r t h _ ih =>
    have hf : OpFrame .dispatcher s u := opStep_frame (congrArg _ h)
    have hs := hfirst.trans (congrArg (innerAfter fin) h)
    rw [Nat.add_comm]
    refine (PassRuns.step hs ha (by rw [← hf.dstate] at hd; exact hd)).trans ?_
    refine ih ((dispStep_agenda hs).trans ha) (by rw [hf.dstate]; exact hd) ?_ ?_ ?_
    · rw [hstep q u (opStep_running h).1 hf, innerAfter_dprog]
    · exact fun q' u' hq hu => hstep q' u' (hq.trans (opStep_running h).1) (hf.trans hu)
    · exact fun u' hu => hfin u' (hf.trans hu)

theorem innerStep_begins {op : LockOp} {p : Prog} {s u : State} (hp : s.dprog = none) (h : opStart op s = .running p u) :
    innerStep op s = opStep .dispatcher p u := by
  rw [innerStep, hp]
  simp only [h]

theorem innerStep_goes_on (op : LockOp) {p : Prog} {s : State} (hp : s.dprog = some p) :
    innerStep op s = opStep .dispatcher p s := by
  rw [innerStep, hp]

/-! ## ERRS -/

theorem dispStep_errs {s : State} (hd : s.dstate = .errs) : dispStep s = errsStep s := by
  rw [dispStep, hd]

/-- With ERR set, ERRS begins with SNAPERR, which makes ESNAP invalid first (R160, R199). -/
theorem dispStep_errs_begins {s : State} (hd : s.dstate = .errs) (hf : errSet s.par.layout s.flags = true)
    (hp : s.dprog = none) :
    dispStep s =
      innerAfter snapEnd (opStep .dispatcher .snapEflg { s with esnap := { s.esnap with valid := false } }) := by
  have hbegin : innerStep .snaperr s = opStep .dispatcher .snapEflg { s with esnap := { s.esnap with valid := false } } :=
    innerStep_begins hp rfl
  rw [dispStep_errs hd, errsStep, if_pos hf, ← hbegin]
  split
  · next h => cases hp.symm.trans h
  · rfl

/-- ERRS goes on with SNAPERR until its snapshot is good (R199). -/
theorem dispStep_errs_goes_on {q : Prog} {s : State} (hd : s.dstate = .errs) (hf : errSet s.par.layout s.flags = true)
    (hp : s.dprog = some q) (hq : q.op = some .snaperr) :
    dispStep s = innerAfter snapEnd (opStep .dispatcher q s) := by
  rw [dispStep_errs hd, errsStep, if_pos hf, innerStep_goes_on _ hp]
  split
  · next h =>
    cases hp.symm.trans h
    cases hq
  · rfl

/-- ERRS's step after a good snapshot is CLASSIFY's (R10, R199). -/
theorem dispStep_errs_classifies {s : State} (hd : s.dstate = .errs) (hf : errSet s.par.layout s.flags = true) :
    dispStep { s with dprog := some .classify } = innerAfter errEnd (opStep .dispatcher .classify s) := by
  rw [← innerAfter_dprog errEnd .classify (some .classify) s]
  exact (dispStep_errs (s := { s with dprog := some .classify }) hd).trans (if_pos hf)

/-- The state once ERRS has taken a snapshot and found it of class `c` (R160, R167, R199). -/
def State.classified (c : EClass) (s : State) : State :=
  { s.snapped with
    dstate := .recs, errok := true, eclass := c, recpend := decide (c = .busOff)
    recfails := if c = .busOff then s.recfails else 0
    evlog := s.evlog ++ [⟨.errClassified, c.code.setWidth 8, s.chipByte s.par.layout.eflg, s.chipByte s.par.layout.tec,
      s.chipByte s.par.layout.recCounter⟩] }

theorem errEnd_classified (c : EClass) (s : State) : errEnd .ok (latchUpdate c s.snapped) = s.classified c := by
  cases c <;> rfl

/-- With ERR set, ERRS takes a snapshot and classifies it while no transaction fails. -/
theorem pass_classifies {s : State} (hd : s.dstate = .errs) (hp : s.dprog = none) (hq : s.quiet)
    (hf : errSet s.par.layout s.flags = true) :
    PassRuns 4 s (s.classified (classifyErr s.par.layout (s.chipByte s.par.layout.eflg)
      (s.chipByte s.par.layout.tec) (s.chipByte s.par.layout.recCounter))) := by
  have snapshot : PassRuns 3 s { s.snapped with dprog := some .classify } := by
    refine PassRuns.of_run (fin := snapEnd)
      (snapshot_runs .dispatcher (s := { s with esnap := { s.esnap with valid := false } }) hq.2) hq.1 (by simp [hd])
      (dispStep_errs_begins hd hf hp) ?_ (fun u hu => by simp [snapEnd, hu.dstate, hd])
    exact fun q u hq hu => dispStep_errs_goes_on (s := { u with dprog := some q }) (hu.dstate.trans hd)
      (by rw [hu.par, hu.flags]; exact hf) rfl hq
  refine snapshot.trans (.step ?_ hq.1 (by simp [State.classified]))
  have hnone (c : EClass) : (latchUpdate c s.snapped).dprog = none := by cases c <;> exact hp
  rw [← errEnd_classified]
  refine (dispStep_errs_classifies (s := s.snapped) hd hf).trans ?_
  rw [opStep, classifyOp_of_valid rfl, innerAfter, ← hnone]
  rfl

/-! ## RECS -/

theorem dispStep_recs {s : State} (hd : s.dstate = .recs) : dispStep s = recsStep s := by
  rw [dispStep, hd]

/-- With the latch set, RECS begins RECOVER (R200). -/
theorem dispStep_recs_begins {s : State} (hd : s.dstate = .recs) (hr : s.recpend = true) :
    dispStep s = innerAfter recEnd (innerStep .recover s) :=
  (dispStep_recs hd).trans (if_pos (.inl hr))

/-- A recovery that has begun goes on whatever the latch is. -/
theorem dispStep_recs_goes_on {q : Prog} {s : State} (hd : s.dstate = .recs) (hp : s.dprog = some q) :
    dispStep s = innerAfter recEnd (opStep .dispatcher q s) := by
  rw [dispStep_recs hd, recsStep, if_pos (.inr (by rw [hp]; rfl)), innerStep_goes_on _ hp]

theorem pass_skips_recs {s : State} (hd : s.dstate = .recs) (hp : s.dprog = none) (ha : s.agenda = [])
    (hr : s.recpend = false) : PassRuns 1 s { s with dstate := .ovrs } :=
  .step ((dispStep_recs hd).trans (if_neg (by simp [hr, hp]))) ha nofun

theorem recEnd_dstate (r : OpResult) (s : State) : (recEnd r s).dstate = .ovrs := by
  cases r <;> rfl

/-- The recovery step of a pass with no backoff due ends as RECOVER's run does. -/
theorem pass_recovers {n : Nat} {r : OpResult} {s t : State} (hd : s.dstate = .recs) (hp : s.dprog = none)
    (ha : s.agenda = []) (hr : s.recpend = true) (hdue : s.recfails = 0 ∨ s.recnext ≤ s.now)
    (h : OpRuns .dispatcher n (.recModify s.modStart) s r t) : PassRuns n s (recEnd r t) := by
  have hlast : { t with dprog := none } = t := by rw [← hp, ← h.frame.dprog]
  rw [← hlast]
  refine .of_run h ha (by simp [hd]) ?_ ?_ (fun u _ => by simp [recEnd_dstate])
  · rw [dispStep_recs_begins hd hr, innerStep_begins (op := .recover) hp (recStart_due hdue)]
  · exact fun q u _ hu => dispStep_recs_goes_on (s := { u with dprog := some q }) (hu.dstate.trans hd) rfl

/-- Settles O44: the backoff's gate is RECOVER's beginning, and RECS only records it. -/
theorem passDefersRecovery : Obligations.PassDefersRecovery := by
  intro s hd hp hr hf hn
  have hbegin : innerStep .recover s = .done .backoffPending s := by
    rw [innerStep, hp]
    simp only [opStart, recStart_pending hf hn]
  rw [dispStep_recs_begins hd hr, hbegin]
  simp [innerAfter, recEnd, State.emit, hp]

/-! ## OVRS -/

theorem dispStep_ovrs {s : State} (hd : s.dstate = .ovrs) : dispStep s = ovrsStep s := by
  rw [dispStep, hd]

/-- OVRS begins with the first overflow bit that the snapshot has (R201). -/
theorem dispStep_ovrs_begins {b : Buf} {s : State} (hd : s.dstate = .ovrs) (hp : s.dprog = none)
    (hf : errSet s.par.layout s.flags = true) (hok : s.errok = true) (hset : ovrSet s.par.layout b s.esnap.eflg = true)
    (hfirst : b = .rx1 → ovrSet s.par.layout .rx0 s.esnap.eflg = false) :
    dispStep s = innerAfter (ovrEnd b) (opStep .dispatcher (.ovrClear b s.modStart) s) := by
  have hguard : (errSet s.par.layout s.flags && s.errok) = true := by simp [hf, hok]
  have hbegin : innerStep (.clrovr b) s = opStep .dispatcher (.ovrClear b s.modStart) s := innerStep_begins hp rfl
  rw [dispStep_ovrs hd, ovrsStep, hp, ← hbegin]
  refine (if_pos hguard).trans ?_
  cases b with
  | rx0 => exact if_pos hset
  | rx1 => exact (if_neg (by simp [hfirst rfl])).trans (if_pos hset)

theorem dispStep_ovrs_goes_on {b : Buf} {m : ModStage} {s : State} (hd : s.dstate = .ovrs)
    (hp : s.dprog = some (.ovrClear b m)) :
    dispStep s = innerAfter (ovrEnd b) (opStep .dispatcher (.ovrClear b m) s) := by
  rw [dispStep_ovrs hd, ovrsStep, hp]
  rfl

theorem ovrsEnd_dstate (s : State) : (ovrsEnd s).dstate = .wakes := by
  simp only [ovrsEnd]
  split <;> rfl

theorem ovrsSecond_dstate {s : State} (h : s.dstate ≠ .idle) : (ovrsSecond s).dstate ≠ .idle := by
  unfold ovrsSecond
  split
  · exact h
  · simp [ovrsEnd_dstate]

/-- The state once an overflow bit of EFLG has been cleared (R62, R63, R163). -/
def State.ovrCleared (b : Buf) (s : State) : State :=
  { s with
    chip := Memory.write s.chip s.par.layout.eflg (s.chipByte s.par.layout.eflg &&& ~~~ovrMask s.par.layout b)
    bus := s.bus ++ modifyBy s.par.nativeBitModify s.lock s.par.layout.eflg (ovrMask s.par.layout b) 0x00
      (s.chipByte s.par.layout.eflg) }

/-- The state once OVRS has served buffer b: its overflow bit is cleared and that recorded, if the snapshot has it
(R201). -/
def State.ovrServed (b : Buf) (s : State) : State :=
  { s with
    chip := if ovrSet s.par.layout b s.esnap.eflg then (s.ovrCleared b).chip else s.chip
    bus := s.bus ++ if ovrSet s.par.layout b s.esnap.eflg then
      modifyBy s.par.nativeBitModify s.lock s.par.layout.eflg (ovrMask s.par.layout b) 0x00
        (s.chipByte s.par.layout.eflg) else []
    evlog := s.evlog ++ if ovrSet s.par.layout b s.esnap.eflg then
      [⟨.ovrCleared, ovrMask s.par.layout b, 0, 0, 0⟩] else [] }

theorem ovrServed_of_set {b : Buf} {s : State} (h : ovrSet s.par.layout b s.esnap.eflg = true) :
    s.ovrServed b = (s.ovrCleared b).emit .ovrCleared (ovrMask s.par.layout b) 0 0 0 := by
  rw [State.ovrServed, if_pos h, if_pos h, if_pos h]
  rfl

theorem ovrServed_of_clear {b : Buf} {s : State} (h : ovrSet s.par.layout b s.esnap.eflg = false) :
    s.ovrServed b = s := by
  simp [State.ovrServed, h]

/-- OVRS's write to EFLG clears the one overflow bit and nothing else (R42, R163). -/
theorem written_eflg_ovrMask (m : ChipLayout) (b : Buf) (old : Byte) :
    written m m.eflg old (modified old (ovrMask m b) 0x00) = old &&& ~~~ovrMask m b := by
  have hwithin := within_iff.mp (ovrMask_within_ovrAll m b)
  rw [written, if_pos rfl, modified]
  ext i hi
  have hbit := hwithin i hi
  simp only [BitVec.getElem_or, BitVec.getElem_and, BitVec.getElem_not]
  cases hb : (ovrMask m b)[i] <;> cases ha : (ovrAll m)[i] <;> simp_all

theorem afterModify_ovrCleared {s : State} (hm : s.layoutInv) (b : Buf) :
    s.afterModify s.par.layout.eflg (ovrMask s.par.layout b) 0x00 = s.ovrCleared b := by
  obtain ⟨-, -, -, -, ⟨-, hinte⟩, hintf⟩ := wf_registers hm
  rw [afterModify_no_edge hintf.symm hinte.symm, written_eflg_ovrMask]
  rfl

/-- The run of an overflow clear, while no transaction fails. -/
theorem ovrClear_runs {s : State} (hm : s.layoutInv) (hx : s.xport = []) (b : Buf) :
    ∃ n, n ≤ 2 ∧ OpRuns .dispatcher n (.ovrClear b s.modStart) s .ok (s.ovrCleared b) := by
  rw [← afterModify_ovrCleared hm]
  rcases modStep_runs hx s.par.layout.eflg (ovrMask s.par.layout b) 0x00 with hdone | ⟨st, bus, hmore, hdone⟩
  · refine ⟨1, by decide, .last ?_⟩
    rw [opStep, ovrClearStep, hdone]
  · refine ⟨2, le_rfl, .more (q := .ovrClear b st) (u := { s with bus := bus }) ?_ (.last ?_)⟩
    · rw [opStep, ovrClearStep, hmore]
    · rw [opStep, ovrClearStep, hdone]

theorem ovrEnd_dstate {b : Buf} {s : State} (h : s.dstate ≠ .idle) (r : OpResult) : (ovrEnd b r s).dstate ≠ .idle := by
  cases b with
  | rx0 => exact ovrsSecond_dstate (by cases r <;> exact h)
  | rx1 => simp [ovrEnd, ovrsEnd_dstate]

/-- A clear that OVRS begins runs to its end. -/
theorem pass_clears_ovr {b : Buf} {s s0 : State} (hd : s.dstate = .ovrs) (hp : s.dprog = none) (hq : s.quiet)
    (hm : s.layoutInv) (ha : s0.agenda = [])
    (hfirst : dispStep s0 = innerAfter (ovrEnd b) (opStep .dispatcher (.ovrClear b s.modStart) s)) :
    ∃ n, n ≤ 2 ∧ PassRuns n s0 (ovrEnd b .ok (s.ovrCleared b)) := by
  obtain ⟨n, hn, h⟩ := ovrClear_runs hm hq.2 b
  have hlast : { s.ovrCleared b with dprog := none } = s.ovrCleared b := by
    rw [← hp]
    rfl
  rw [← hlast]
  refine ⟨n, hn, .of_run h ha (by simp [hd]) hfirst ?_ fun u hu => ovrEnd_dstate (by simp [hu.dstate, hd]) _⟩
  intro q u hq hu
  cases q <;> cases hq
  exact dispStep_ovrs_goes_on (s := { u with dprog := some _ }) (hu.dstate.trans hd) rfl

/-- OVRS from buffer 1 on, while no transaction fails. -/
theorem pass_ovrsSecond {s : State} (hd : s.dstate = .ovrs) (hp : s.dprog = none) (hq : s.quiet) (hm : s.layoutInv) :
    ∃ n, n ≤ 2 ∧ PassRuns n (ovrsSecond s) (ovrsEnd (s.ovrServed .rx1)) := by
  cases h1 : ovrSet s.par.layout .rx1 s.esnap.eflg with
  | true =>
    rw [ovrsSecond, if_pos h1, ovrServed_of_set h1]
    refine pass_clears_ovr (b := .rx1) hd hp hq hm hq.1 ?_
    refine (dispStep_ovrs_goes_on (s := { s with dprog := some _ }) hd rfl).trans ?_
    rw [innerAfter_dprog]
  | false =>
    rw [ovrsSecond, if_neg (by simp [h1]), ovrServed_of_clear h1]
    exact ⟨0, Nat.zero_le 2, .refl _⟩

/-- The state once OVRS has served both buffers. -/
def State.ovrsServed (s : State) : State := (s.ovrServed .rx0).ovrServed .rx1

/-- OVRS after a good snapshot, while no transaction fails: each overflow bit of the snapshot is cleared (R201). -/
theorem pass_serves_ovrs {s : State} (hd : s.dstate = .ovrs) (hp : s.dprog = none) (hq : s.quiet) (hm : s.layoutInv)
    (hf : errSet s.par.layout s.flags = true) (hok : s.errok = true) :
    ∃ n, n ≤ 4 ∧ PassRuns n s (ovrsEnd s.ovrsServed) := by
  rw [State.ovrsServed]
  cases h0 : ovrSet s.par.layout .rx0 s.esnap.eflg with
  | true =>
    obtain ⟨n, hn, hfirst⟩ := pass_clears_ovr hd hp hq hm hq.1 (dispStep_ovrs_begins hd hp hf hok h0 nofun)
    obtain ⟨k, hk, hsecond⟩ := pass_ovrsSecond (s := s.ovrServed .rx0) hd hp hq hm
    refine ⟨n + k, by omega, PassRuns.trans ?_ hsecond⟩
    rw [ovrServed_of_set h0]
    exact hfirst
  | false =>
    rw [ovrServed_of_clear h0]
    cases h1 : ovrSet s.par.layout .rx1 s.esnap.eflg with
    | true =>
      obtain ⟨n, hn, hclear⟩ := pass_clears_ovr hd hp hq hm hq.1 (dispStep_ovrs_begins hd hp hf hok h1 fun _ => h0)
      rw [ovrServed_of_set h1]
      exact ⟨n, by omega, hclear⟩
    | false =>
      rw [ovrServed_of_clear h1]
      refine ⟨1, by decide, .step ?_ hq.1 (by simp [ovrsEnd_dstate])⟩
      rw [dispStep_ovrs hd, ovrsStep, hp]
      exact (if_pos (by simp [hf, hok])).trans ((if_neg (by simp [h0])).trans (if_neg (by simp [h1])))

/-- With ERR clear, OVRS has nothing to do. -/
theorem pass_skips_ovrs {s : State} (hd : s.dstate = .ovrs) (hp : s.dprog = none) (ha : s.agenda = [])
    (hf : errSet s.par.layout s.flags = false) : PassRuns 1 s { s with dstate := .wakes } := by
  refine .step ?_ ha nofun
  rw [dispStep_ovrs hd, ovrsStep, hp]
  simp [ovrsEnd, hf, hp]

/-- OVRS ends by marking ERR handled, where the snapshot and every clear succeeded (R202). -/
theorem ovrsEnd_handles {s : State} (hf : errSet s.par.layout s.flags = true) (hok : s.errok = true) :
    ovrsEnd s = { s with dstate := .wakes, hmask := s.hmask ||| errf s.par.layout } :=
  if_pos (by simp [hf, hok])

/-! ## Failed reads and clears -/

/-- A read of the snapshot that fails ends ERRS with the read's index, and ERROK stays (R199). -/
theorem errEnd_transportFailure (k : Nat) (s : State) :
    errEnd (.transportFailure k) s =
      { s with
        dstate := .recs
        evlog := s.evlog ++ [⟨.errSnapshotFail, (OpResult.transportFailure k).byte, 0, 0, 0⟩] } := rfl

/-- A clear that fails is recorded and ERR will not be handled; buffer 1's clear follows buffer 0's if the snapshot has
it (R201, R202). -/
theorem ovrEnd_transportFailure (b : Buf) (k : Nat) {s : State} (hd : s.dstate = .ovrs) (hp : s.dprog = none) :
    ovrEnd b (.transportFailure k) s =
      { s with
        dstate := if b = .rx0 ∧ ovrSet s.par.layout .rx1 s.esnap.eflg = true then .ovrs else .wakes
        dprog := if b = .rx0 ∧ ovrSet s.par.layout .rx1 s.esnap.eflg = true then
          some (.ovrClear .rx1 (.start s.par.xferAttempts)) else none
        errok := false
        evlog := s.evlog ++ [⟨.ovrClearFail, ovrMask s.par.layout b, 0, 0, 0⟩] } := by
  have hend (u : State) (hok : u.errok = false) : ovrsEnd u = { u with dstate := .wakes } := if_neg (by simp [hok])
  cases b with
  | rx0 =>
    by_cases h1 : ovrSet s.par.layout .rx1 s.esnap.eflg = true
    · rw [if_pos ⟨rfl, h1⟩, if_pos ⟨rfl, h1⟩, ← hd]
      exact if_pos h1
    · rw [if_neg (fun h => h1 h.2), if_neg (fun h => h1 h.2), ← hp]
      exact (if_neg h1).trans (hend _ rfl)
  | rx1 =>
    rw [if_neg nofun, if_neg nofun, ← hp]
    exact hend _ rfl

end Sys2Proof.Machine

/-!
SUPPORT. A pass that finds no flag but ERR, from its beginning to its end.
-/

namespace Sys2Proof.Machine

/-! ## The default layout's addresses and error bits -/

@[simp] theorem canstat_mcp2515 : mcp2515.canstat = 0x0E := rfl
@[simp] theorem canctrl_mcp2515 : mcp2515.canctrl = 0x0F := rfl
@[simp] theorem tec_mcp2515 : mcp2515.tec = 0x1C := rfl
@[simp] theorem recCounter_mcp2515 : mcp2515.recCounter = 0x1D := rfl
@[simp] theorem canintf_mcp2515 : mcp2515.canintf = 0x2C := rfl
@[simp] theorem eflg_mcp2515 : mcp2515.eflg = 0x2D := rfl
@[simp] theorem txboSet_mcp2515 (e : Byte) : txboSet mcp2515 e = e.getLsbD 5 := rfl
@[simp] theorem ovrSet_mcp2515 (b : Buf) (e : Byte) :
    ovrSet mcp2515 b e = e.getLsbD (match b with | .rx0 => 6 | .rx1 => 7) := by
  cases b <;> rfl

/-! ## Failed reads and clears -/

/-- A transaction's failure as RESULT and the records carry it (R103, R242). -/
theorem transportFailure_byte (k : Fin 3) :
    (OpResult.transportFailure (k.val + 1)).byte = BitVec.ofNat 8 ((k.val + 1) * 16 + 2) := by
  revert k; decide

/-- A read of the snapshot that fails on all its attempts ends SNAPERR with the read's index, and leaves ESNAP. -/
theorem snapshot_read_fails {s : State} {ls : List Bool} {rest : List XDraw} (hl : ls.length = s.par.xferAttempts)
    (hx : s.xport = ls.map XDraw.fail ++ rest) :
    snapEflgStep s = .done (.transportFailure 1)
        { s with bus := s.bus ++ readsBy s.lock [s.par.layout.eflg], xport := rest } ∧
      (∀ e, snapTecStep e s = .done (.transportFailure 2)
        { s with bus := s.bus ++ readsBy s.lock [s.par.layout.tec], xport := rest }) ∧
      ∀ e c, snapRecStep e c s = .done (.transportFailure 3)
        { s with bus := s.bus ++ readsBy s.lock [s.par.layout.recCounter], xport := rest } := by
  refine ⟨?_, fun e => ?_, fun e c => ?_⟩
  · rw [snapEflgStep, State.blockRead_fails s _ hl hx]
    rfl
  · rw [snapTecStep, State.blockRead_fails s _ hl hx]
    rfl
  · rw [snapRecStep, State.blockRead_fails s _ hl hx]
    rfl

/-- The state once an overflow clear has failed on all its attempts, with a native modify (R62, R64). -/
def State.ovrClearFailed (b : Buf) (ls : List Bool) (rest : List XDraw) (s : State) : State :=
  { s with
    chip := if true ∈ ls then (s.ovrCleared b).chip else s.chip
    xport := rest
    bus := s.bus ++ [⟨s.lock, .modify s.par.layout.eflg (ovrMask s.par.layout b) 0x00⟩] }

theorem chipByte_ovrCleared (b : Buf) (s : State) (a : Nat) :
    (s.ovrCleared b).chipByte a =
      if a = s.par.layout.eflg then s.chipByte s.par.layout.eflg &&& ~~~ovrMask s.par.layout b else s.chipByte a :=
  chipByte_of_write (s := s) (t := s.ovrCleared b) rfl rfl a

theorem chipByte_ovrClearFailed (b : Buf) (ls : List Bool) (rest : List XDraw) (s : State) (a : Nat) :
    (s.ovrClearFailed b ls rest).chipByte a =
      if a = s.par.layout.eflg ∧ true ∈ ls then s.chipByte s.par.layout.eflg &&& ~~~ovrMask s.par.layout b
      else s.chipByte a := by
  by_cases h : true ∈ ls
  · rw [State.chipByte_congr (s := s.ovrCleared b) (t := s.ovrClearFailed b ls rest) (if_pos h) rfl,
      chipByte_ovrCleared]
    simp only [h, and_true]
  · rw [State.chipByte_congr (s := s) (t := s.ovrClearFailed b ls rest) (if_neg h) rfl]
    simp only [h, and_false, if_false]

theorem ovrClearStep_fails {s : State} (hm : s.layoutInv) (hn : s.par.nativeBitModify = true) {ls : List Bool}
    {rest : List XDraw} (hl : ls.length = s.par.xferAttempts) (hx : s.xport = ls.map XDraw.fail ++ rest) (b : Buf)
    (m : ModStage) :
    ovrClearStep b m s = .done (.transportFailure 1) (s.ovrClearFailed b ls rest) := by
  obtain ⟨-, -, -, -, ⟨-, hinte⟩, hintf⟩ := wf_registers hm
  rw [ovrClearStep, State.modStep_fails s _ _ _ m hn hl hx, State.ovrClearFailed]
  by_cases h : true ∈ ls
  · have hland : ls.any id = true := by simpa using h
    rw [if_pos hland, if_pos h, State.ovrCleared, ← written_eflg_ovrMask]
    exact congrArg _ (storeReg_no_edge
      (s := { s with bus := s.bus ++ [⟨s.lock, .modify s.par.layout.eflg (ovrMask s.par.layout b) 0x00⟩]
                     xport := rest }) hintf.symm hinte.symm _)
  · have hland : ¬ ls.any id = true := by simpa using h
    rw [if_neg hland, if_neg h]

/-! ## Flags of which only ERRS to OVRS have something to do -/

/-- Flags with nothing for the receive buffers, TXS and WAKES to do (R195, R198, R203, R204). -/
structure AtMostErr (m : ChipLayout) (f : Byte) : Prop where
  rx : ∀ b, rxFlagSet m b f = false
  tx : f &&& txfAll m = 0
  wake : wakeSet m f = false
  unknown : f &&& unkf m = 0

theorem atMostErr_mcp2515 {f : Byte} (hf : f = 0x00 ∨ f = 0x20) : AtMostErr mcp2515 f := by
  rcases hf with rfl | rfl <;>
    exact ⟨fun b => by cases b <;> decide, by decide, by decide, by decide⟩

/-- In the default layout, CANINTF 0x20 is ERR alone. -/
theorem errAlone_mcp2515 {s : State} (hl : s.par.layout = mcp2515) (h : s.chipByte 0x2C = 0x20) :
    AtMostErr s.par.layout (s.chipByte s.par.layout.canintf) ∧
      errSet s.par.layout (s.chipByte s.par.layout.canintf) = true ∧ errf s.par.layout ≠ 0 := by
  have hcanintf : s.chipByte mcp2515.canintf = 0x20 := h
  rw [hl, hcanintf]
  exact ⟨atMostErr_mcp2515 (.inr rfl), by decide, by decide⟩

/-- A pass once it has reached ERRS with no flag but ERR. -/
def State.atErrs (k : PassKind) (s : State) : State :=
  { s.flagged k with dstate := .errs, rxretry0 := 0, rxretry1 := 0 }

/-- A pass that finds no flag but ERR comes to ERRS. -/
theorem pass_reaches_errs {k : PassKind} {s : State} (hp : s.passReady k) (hq : s.quiet)
    (hf : AtMostErr s.par.layout (s.chipByte s.par.layout.canintf)) : PassRuns 6 s (s.atErrs k) := by
  have rx0 := pass_skips_rx (b := .rx0) (s := s.flagged k) rfl hq.1 (hf.rx .rx0)
  have rx1 := pass_skips_rx (b := .rx1) (s := { (s.flagged k).setRxretry .rx0 0 with dstate := .rx1 }) rfl hq.1
    (hf.rx .rx1)
  have txs : dispStep { s.flagged k with dstate := .txs, rxretry0 := 0, rxretry1 := 0 } = some (s.atErrs k) := by
    have hnone : (s.flagged k).flags &&& txfAll (s.flagged k).par.layout = 0 := hf.tx
    simp [dispStep, txsStep, hnone, State.handle, State.atErrs]
  exact (((pass_reads hp hq).trans rx0).trans rx1).trans (.step txs hq.1 nofun)

/-- WAKES with neither WAKE nor an unknown flag. -/
theorem pass_skips_wakes {s : State} (hd : s.dstate = .wakes) (ha : s.agenda = [])
    (hf : AtMostErr s.par.layout s.flags) : PassRuns 1 s { s with dstate := .clr } := by
  refine .step ?_ ha nofun
  rw [dispStep, hd]
  simp [wakesStep, hf.wake, hf.unknown]

/-- A pass that has handled nothing clears nothing and ends (R205, R206). -/
theorem exec_pass_clears_nothing {k : PassKind} {j : Nat} {s t : State} (hp : s.passReady k) (h : PassRuns j s t)
    (hj : j ≤ 69) (hd : t.dstate = .wakes) (hdp : t.dprog = none) (ha : t.agenda = [])
    (hf : AtMostErr t.par.layout t.flags) (hh : t.hmask = 0) :
    exec (passInstr k) s = .next
      { t with
        dstate := .idle, lock := .free, idleSince := t.now
        evlog := t.evlog ++ [⟨.passEnd, 0x00, 0, 0, 0⟩] } := by
  have hclr : dispStep { t with dstate := .clr } = some { t with dstate := .rel } := by
    simp [dispStep, clrStep, hdp, hh]
  rw [exec_pass hp ((h.trans (pass_skips_wakes hd ha hf)).trans (.step hclr ha nofun)) (by omega) rfl ha, relStep,
    State.emit, hh]

/-! ## What the service of the overflow bits leaves -/

theorem and_not_ovrMask_of_clear {m : ChipLayout} {b : Buf} {e : Byte} (h : ovrSet m b e = false) :
    e &&& ~~~ovrMask m b = e := by
  rw [ovrSet] at h
  refine BitVec.eq_of_getLsbD_eq fun i hi => ?_
  by_cases hbit : i = (ovrBit m b).val
  · rw [hbit, BitVec.getLsbD_and, h, Bool.false_and]
  · simp [ovrMask, hbit, hi]

/-- OVRS's service of a buffer clears its bit, where a bit that the snapshot lacks is still clear. -/
theorem chipByte_ovrServed {b : Buf} {s : State}
    (h : ovrSet s.par.layout b s.esnap.eflg = false → ovrSet s.par.layout b (s.chipByte s.par.layout.eflg) = false)
    (a : Nat) :
    (s.ovrServed b).chipByte a =
      if a = s.par.layout.eflg then s.chipByte s.par.layout.eflg &&& ~~~ovrMask s.par.layout b else s.chipByte a := by
  cases hb : ovrSet s.par.layout b s.esnap.eflg with
  | true =>
    rw [ovrServed_of_set hb]
    exact chipByte_ovrCleared b s a
  | false =>
    rw [ovrServed_of_clear hb, and_not_ovrMask_of_clear (h hb)]
    split
    · next ha => rw [ha]
    · rfl

/-- The transactions of OVRS, where EFLG is as the snapshot has it. -/
theorem ovrsServed_bus {s : State} (h : s.esnap.eflg = s.chipByte s.par.layout.eflg) :
    s.ovrsServed.bus = s.bus ++
      (if ovrSet s.par.layout .rx0 s.esnap.eflg then
        modifyBy s.par.nativeBitModify s.lock s.par.layout.eflg (ovrMask s.par.layout .rx0) 0x00
          (s.chipByte s.par.layout.eflg) else []) ++
      (if ovrSet s.par.layout .rx1 s.esnap.eflg then
        modifyBy s.par.nativeBitModify s.lock s.par.layout.eflg (ovrMask s.par.layout .rx1) 0x00
          (s.chipByte s.par.layout.eflg &&& ~~~ovrMask s.par.layout .rx0) else []) := by
  have hfirst := (chipByte_ovrServed (b := .rx0) (s := s) (by rw [h]; exact id) _).trans (if_pos rfl)
  rw [← hfirst]
  rfl

/-- OVRS's service of both buffers leaves EFLG without its overflow bits, where EFLG is as the snapshot has it. -/
theorem chipByte_ovrsServed {s : State} (h : s.esnap.eflg = s.chipByte s.par.layout.eflg) (a : Nat) :
    s.ovrsServed.chipByte a =
      if a = s.par.layout.eflg then
        s.chipByte s.par.layout.eflg &&& ~~~ovrMask s.par.layout .rx0 &&& ~~~ovrMask s.par.layout .rx1
      else s.chipByte a := by
  have hfirst := chipByte_ovrServed (b := .rx0) (s := s) (by rw [h]; exact id)
  refine (chipByte_ovrServed (b := .rx1) (s := s.ovrServed .rx0) ?_ a).trans ?_
  · intro h1
    have h1' : (s.chipByte s.par.layout.eflg).getLsbD (ovrBit s.par.layout .rx1).val = false := by
      rw [← h]
      exact h1
    refine (congrArg (ovrSet s.par.layout .rx1) ((hfirst _).trans (if_pos rfl))).trans ?_
    rw [ovrSet, BitVec.getLsbD_and, h1', Bool.false_and]
  · show (if a = s.par.layout.eflg then State.chipByte (s.ovrServed .rx0) s.par.layout.eflg &&& _ else _) = _
    rw [hfirst, hfirst, if_pos rfl]
    split <;> rfl

/-- A pass that stands in OVRS with nothing handled, after a good snapshot that EFLG still agrees with, clears the
overflow bits that the snapshot has, then ERR, and ends (R201, R202, R205, R206). -/
theorem exec_pass_serves_err {k : PassKind} {j : Nat} {s w : State} (hp : s.passReady k) (h : PassRuns j s w)
    (hj : j ≤ 64) (hm : w.layoutInv) (hd : w.dstate = .ovrs) (hdp : w.dprog = none) (hq : w.quiet)
    (hf : AtMostErr w.par.layout w.flags) (herr : errSet w.par.layout w.flags = true) (hok : w.errok = true)
    (hnone : w.hmask = 0) (hne : errf w.par.layout ≠ 0) (hsnap : w.esnap.eflg = w.chipByte w.par.layout.eflg) :
    ∃ t : State, exec (passInstr k) s = .next t ∧
      t = { w with
            dstate := .idle, lock := .free, idleSince := w.now, hmask := errf w.par.layout, chip := t.chip
            bus := w.bus ++
              (if ovrSet w.par.layout .rx0 w.esnap.eflg then
                modifyBy w.par.nativeBitModify w.lock w.par.layout.eflg (ovrMask w.par.layout .rx0) 0x00
                  (w.chipByte w.par.layout.eflg) else []) ++
              (if ovrSet w.par.layout .rx1 w.esnap.eflg then
                modifyBy w.par.nativeBitModify w.lock w.par.layout.eflg (ovrMask w.par.layout .rx1) 0x00
                  (w.chipByte w.par.layout.eflg &&& ~~~ovrMask w.par.layout .rx0) else []) ++
              modifyBy w.par.nativeBitModify w.lock w.par.layout.canintf (errf w.par.layout) 0x00
                (w.chipByte w.par.layout.canintf)
            evlog := w.evlog ++
              (if ovrSet w.par.layout .rx0 w.esnap.eflg then
                [⟨.ovrCleared, ovrMask w.par.layout .rx0, 0, 0, 0⟩] else []) ++
              (if ovrSet w.par.layout .rx1 w.esnap.eflg then
                [⟨.ovrCleared, ovrMask w.par.layout .rx1, 0, 0, 0⟩] else []) ++
              [⟨.flagsCleared, errf w.par.layout, 0, 0, 0⟩, ⟨.passEnd, errf w.par.layout, 0, 0, 0⟩] } ∧
      ∀ a, t.chipByte a =
        if a = w.par.layout.canintf then w.chipByte w.par.layout.canintf &&& ~~~errf w.par.layout
        else if a = w.par.layout.eflg then
          w.chipByte w.par.layout.eflg &&& ~~~ovrMask w.par.layout .rx0 &&& ~~~ovrMask w.par.layout .rx1
        else w.chipByte a := by
  have hserved := chipByte_ovrsServed hsnap
  have hflags : w.ovrsServed.chipByte w.par.layout.canintf = w.chipByte w.par.layout.canintf :=
    (hserved _).trans (if_neg (wf_registers hm).2.2.2.2.2)
  obtain ⟨n, hn, hovrs⟩ := pass_serves_ovrs hd hdp hq hm herr hok
  have hhandled : ovrsEnd w.ovrsServed = { w.ovrsServed with dstate := .wakes, hmask := errf w.par.layout } := by
    have hzero : (0 : Byte) ||| errf w.ovrsServed.par.layout = errf w.par.layout := BitVec.zero_or
    rw [ovrsEnd_handles (s := w.ovrsServed) herr hok, show w.ovrsServed.hmask = 0 from hnone, hzero]
  rw [hhandled] at hovrs
  have hwakes := pass_skips_wakes (s := { w.ovrsServed with dstate := .wakes, hmask := errf w.par.layout }) rfl hq.1 hf
  obtain ⟨i, hi, hclr⟩ := pass_clears (s := { w.ovrsServed with dstate := .clr, hmask := errf w.par.layout }) hm rfl hdp
    hq hne
  refine ⟨_, exec_pass hp (((h.trans hovrs).trans hwakes).trans hclr) (by omega) rfl hq.1, ?_, fun a => ?_⟩
  · rw [relStep, State.emit, ← ovrsServed_bus hsnap, ← hflags, List.append_assoc]
    rfl
  · refine Eq.trans (chipByte_of_write (s := w.ovrsServed) (by rfl) (by rfl) a) ?_
    show (if a = w.par.layout.canintf then w.ovrsServed.chipByte w.par.layout.canintf &&& _ else _) = _
    rw [hserved, hserved, if_neg (wf_registers hm).2.2.2.2.2]

/-! ## ERR from its snapshot on -/

/-- A pass that has found ERR alone, in RECS after its snapshot and of class `c` (R199). -/
def State.errSeen (k : PassKind) (c : EClass) (s : State) : State :=
  { s with
    evq := s.evq - 1, pkind := k, lock := .dispatcher, dstate := .recs
    flags := s.chipByte s.par.layout.canintf, hmask := 0x00, errok := true, rxretry0 := 0, rxretry1 := 0
    esnap :=
      { eflg := s.chipByte s.par.layout.eflg, tec := s.chipByte s.par.layout.tec
        recv := s.chipByte s.par.layout.recCounter, valid := true }
    eclass := c, recpend := decide (c = .busOff), recfails := if c = .busOff then s.recfails else 0
    evlog := s.evlog ++
      [⟨.passStart, k.code, 0, 0, 0⟩, ⟨.flagsRead, s.chipByte s.par.layout.canintf, 0, 0, 0⟩,
        ⟨.errClassified, c.code.setWidth 8, s.chipByte s.par.layout.eflg, s.chipByte s.par.layout.tec,
          s.chipByte s.par.layout.recCounter⟩]
    bus := s.bus ++ readsBy .dispatcher
      [s.par.layout.canintf, s.par.layout.eflg, s.par.layout.tec, s.par.layout.recCounter] }

/-- A pass that finds ERR alone takes a snapshot and classifies it. -/
theorem pass_sees_err {k : PassKind} {s : State} {c : EClass} (hp : s.passReady k) (hq : s.quiet)
    (hf : AtMostErr s.par.layout (s.chipByte s.par.layout.canintf))
    (herr : errSet s.par.layout (s.chipByte s.par.layout.canintf) = true)
    (hc : classifyErr s.par.layout (s.chipByte s.par.layout.eflg) (s.chipByte s.par.layout.tec)
      (s.chipByte s.par.layout.recCounter) = c) : PassRuns 10 s (s.errSeen k c) := by
  have hflat : (s.atErrs k).classified c = s.errSeen k c := by
    simp [State.classified, State.snapped, State.atErrs, State.flagged, State.acquired, State.errSeen, State.chipByte,
      readsBy]
  rw [← hflat, ← hc]
  exact (pass_reaches_errs hp hq hf).trans (pass_classifies (s := s.atErrs k) rfl hp.2.1 hq herr)

/-- Settles O41: a pass with ERR not in bus-off from its beginning to its end; SNAPERR ended by a failing read; and a
failing overflow clear in either form in which OVRS can have it. -/
theorem passHandlesErr : Obligations.PassHandlesErr := by
  refine ⟨?_, ?_, ?_⟩
  · intro s k e hp hq hl hflags he hoff
    subst he
    have hm : s.par.layout.Wf := hl ▸ mcp2515_wf
    obtain ⟨hf, herr, hne⟩ := errAlone_mcp2515 hl hflags
    obtain ⟨c, hc⟩ : ∃ c : EClass, c =
        if 128 ≤ (s.chipByte 0x1C).toNat ∨ 128 ≤ (s.chipByte 0x1D).toNat then .passive else .active := ⟨_, rfl⟩
    have hnot : c ≠ .busOff := by
      rw [hc]
      split <;> nofun
    have hclass : classifyErr s.par.layout (s.chipByte s.par.layout.eflg) (s.chipByte s.par.layout.tec)
        (s.chipByte s.par.layout.recCounter) = c := by
      rw [hl, hc]
      exact if_neg (Bool.eq_false_iff.mp hoff)
    have hruns := (pass_sees_err hp hq hf herr hclass).trans
      (pass_skips_recs rfl hp.2.1 hq.1 (decide_eq_false hnot))
    obtain ⟨t, hexec, ht, hbytes⟩ := exec_pass_serves_err hp hruns (by omega) hm rfl hp.2.1 hq hf herr rfl rfl hne rfl
    have heclass : t.eclass = c := congrArg State.eclass ht
    refine ⟨t, hexec, ht.trans ?_, heclass.trans hc, fun a => (hbytes a).trans ?_⟩
    · have hbyte (a : Nat) : State.chipByte { s.errSeen k c with dstate := .ovrs } a = s.chipByte a := rfl
      simp only [hbyte]
      simp [State.errSeen, heclass, hl, hp.1, hp.2.2.1, hnot, hflags]
    · show (if a = s.par.layout.canintf then s.chipByte s.par.layout.canintf &&& ~~~errf s.par.layout else
        if a = s.par.layout.eflg then
          s.chipByte s.par.layout.eflg &&& ~~~ovrMask s.par.layout .rx0 &&& ~~~ovrMask s.par.layout .rx1
        else s.chipByte a) = _
      rw [BitVec.and_assoc, hl, show s.chipByte mcp2515.canintf = 0x20 from hflags]
      rfl
  · intro s k e c ls rest hd hf hp hl hx
    rw [← transportFailure_byte]
    match k with
    | 0 =>
      rw [dispStep_errs_begins hd hf hp, opStep,
        (snapshot_read_fails (s := { s with esnap := { s.esnap with valid := false } }) hl hx).1]
      rfl
    | 1 =>
      rw [dispStep_errs_goes_on hd hf hp rfl, opStep, (snapshot_read_fails hl hx).2.1]
      rfl
    | 2 =>
      rw [dispStep_errs_goes_on hd hf hp rfl, opStep, (snapshot_read_fails hl hx).2.2]
      rfl
  · intro s b ls rest hd hf hm hn hl hx hstage
    obtain ⟨m, hstep⟩ : ∃ m, dispStep s = innerAfter (ovrEnd b) (opStep .dispatcher (.ovrClear b m) s) := by
      rcases hstage with ⟨m, hp⟩ | ⟨hp, hok, hset, hfirst⟩
      · exact ⟨m, dispStep_ovrs_goes_on hd hp⟩
      · exact ⟨s.modStart, dispStep_ovrs_begins hd hp hf hok hset hfirst⟩
    rw [opStep, ovrClearStep_fails hm hn hl hx, innerAfter] at hstep
    refine ⟨_, hstep.trans (congrArg some (ovrEnd_transportFailure b 1 hd rfl)), rfl, chipByte_ovrClearFailed b ls rest s⟩

end Sys2Proof.Machine

/-!
SUPPORT. A pass that attempts recovery: after its own classification of bus-off, or for a latch set before it.
-/

namespace Sys2Proof.Machine

/-! ## An attempt whose first poll reads Normal -/

/-- In the default layout, CANSTAT reads Normal mode when its three upper bits are 0. -/
theorem modeNormal_mcp2515 {s : State} (hl : s.par.layout = mcp2515) (h : (s.chipByte 0x0E).extractLsb' 5 3 = 0) :
    modeNormal s.par.layout (s.chipByte s.par.layout.canstat) = true := by
  rw [hl]
  exact beq_iff_eq.mpr h

/-- The mode request leaves EFLG. -/
theorem eflg_modeRequested {s : State} (hm : s.layoutInv) :
    s.modeRequested.chipByte s.par.layout.eflg = s.chipByte s.par.layout.eflg :=
  (chipByte_modeRequested s _).trans (if_neg (wf_registers hm).2.1.2.2.2.2.symm)

/-- RECOVER whose first poll reads Normal mode ends as its read of EFLG does (R164, R165). -/
theorem recover_at_first_poll {who : Issuer} {s t : State} {r : OpResult} (hm : s.layoutInv) (hx : s.xport = [])
    (hmode : modeNormal s.par.layout (s.chipByte s.par.layout.canstat) = true)
    (hend : recEflgStep 1 (s.modeRequested.haveRead [s.par.layout.canstat]) = .done r t) :
    ∃ n, n ≤ 4 ∧ OpRuns who n (.recModify s.modStart) s r t :=
  have hpoll := recPollStep_of_normal (s := s.modeRequested) hx 1 ((modeNormal_modeRequested hm).trans hmode)
  recover_begins hm hx (.more (q := .recEflg 1) hpoll (.last hend))

/-- The read of EFLG after the first poll: bus-off fails the attempt, its absence clears the latch. -/
theorem recEflgStep_after_poll {s : State} (hm : s.layoutInv) (hx : s.xport = []) :
    recEflgStep 1 (s.modeRequested.haveRead [s.par.layout.canstat]) =
      if txboSet s.par.layout (s.chipByte s.par.layout.eflg) then
        .done .recoveryFailed (s.modeRequested.haveRead [s.par.layout.canstat, s.par.layout.eflg]).recoveryFailed
      else .done .ok (s.modeRequested.haveRead [s.par.layout.canstat, s.par.layout.eflg]).recovered := by
  have hread := recEflgStep_quiet (s := s.modeRequested.haveRead [s.par.layout.canstat]) hx 1
  rw [haveRead_append] at hread
  rw [hread, ← eflg_modeRequested hm]
  rfl

/-- The state in OVRS once the recovery step of a pass has made its attempt, which bus-off has `failed` or not (R164,
R200). -/
def State.recoveryRecorded (failed : Bool) (s : State) : State :=
  { s with
    dstate := .ovrs
    recpend := if failed then s.recpend else false
    eclass := if failed then s.eclass else .unknown
    recfails := if failed then recfailsNext s.par.recfailsMax s.recfails else 0
    recnext := if failed then s.now + s.par.backoff (recfailsNext s.par.recfailsMax s.recfails).toNat else s.recnext
    evlog := s.evlog ++
      [⟨.recovery, if failed then 0x04 else 0x00,
        if failed then recfailsNext s.par.recfailsMax s.recfails else 0, 0, 0⟩]
    chip := s.modeRequested.chip
    bus := s.bus ++
      modifyBy s.par.nativeBitModify s.lock s.par.layout.canctrl (reqopMask s.par.layout)
        (reqopField s.par.layout .normal) (s.chipByte s.par.layout.canctrl) ++
      readsBy s.lock [s.par.layout.canstat, s.par.layout.eflg] }

theorem chipByte_recoveryRecorded (failed : Bool) (s : State) (a : Nat) :
    (s.recoveryRecorded failed).chipByte a =
      if a = s.par.layout.canctrl then
        (s.chipByte s.par.layout.canctrl &&& ~~~reqopMask s.par.layout) ||| reqopField s.par.layout .normal
      else s.chipByte a :=
  chipByte_modeRequested s a

theorem chipByte_recoveryRecorded_mcp2515 {s : State} (hl : s.par.layout = mcp2515) (failed : Bool) (a : Nat) :
    (s.recoveryRecorded failed).chipByte a = if a = 0x0F then s.chipByte 0x0F &&& 0x1F else s.chipByte a := by
  rw [chipByte_recoveryRecorded, hl, reqopField_normal_mcp2515]
  simp

theorem OpResult.recoveryFailed_byte : OpResult.recoveryFailed.byte = 0x04 := rfl

/-- RECS ends on an attempt that bus-off has failed. -/
theorem recEnd_recoveryFailed (s : State) :
    recEnd .recoveryFailed (s.modeRequested.haveRead [s.par.layout.canstat, s.par.layout.eflg]).recoveryFailed =
      s.recoveryRecorded true := by
  simp [recEnd, OpResult.recoveryFailed_byte, State.emit, State.recoveryFailed, State.haveRead, State.modeRequested,
    State.recoveryRecorded]

/-- RECS ends on an attempt that has succeeded. -/
theorem recEnd_recovered (s : State) :
    recEnd .ok (s.modeRequested.haveRead [s.par.layout.canstat, s.par.layout.eflg]).recovered =
      s.recoveryRecorded false := by
  simp [recEnd, OpResult.ok_byte, State.emit, State.recovered, State.haveRead, State.modeRequested,
    State.recoveryRecorded]

/-- The recovery step of a pass with no backoff due, while no transaction fails and the first poll reads Normal. -/
theorem pass_attempts_recovery {s : State} {failed : Bool} (hd : s.dstate = .recs) (hp : s.dprog = none) (hq : s.quiet)
    (hm : s.layoutInv) (hr : s.recpend = true) (hdue : s.recfails = 0 ∨ s.recnext ≤ s.now)
    (hmode : modeNormal s.par.layout (s.chipByte s.par.layout.canstat) = true)
    (hbo : txboSet s.par.layout (s.chipByte s.par.layout.eflg) = failed) :
    ∃ n, n ≤ 4 ∧ PassRuns n s (s.recoveryRecorded failed) := by
  have hread := recEflgStep_after_poll hm hq.2
  cases failed with
  | true =>
    obtain ⟨n, hn, h⟩ := recover_at_first_poll hm hq.2 hmode (hread.trans (if_pos hbo))
    rw [← recEnd_recoveryFailed]
    exact ⟨n, hn, pass_recovers hd hp hq.1 hr hdue h⟩
  | false =>
    obtain ⟨n, hn, h⟩ := recover_at_first_poll hm hq.2 hmode (hread.trans (if_neg (by simp [hbo])))
    rw [← recEnd_recovered]
    exact ⟨n, hn, pass_recovers hd hp hq.1 hr hdue h⟩

/-- A pass that has found no flag but ERR, and leaves ERRS with ERR clear. -/
def State.pastErrs (k : PassKind) (s : State) : State :=
  { s with
    evq := s.evq - 1, pkind := k, lock := .dispatcher, dstate := .recs
    flags := s.chipByte s.par.layout.canintf, hmask := 0x00, errok := false, rxretry0 := 0, rxretry1 := 0
    evlog := s.evlog ++
      [⟨.passStart, k.code, 0, 0, 0⟩, ⟨.flagsRead, s.chipByte s.par.layout.canintf, 0, 0, 0⟩]
    bus := s.bus ++ readsBy .dispatcher [s.par.layout.canintf] }

theorem pass_passes_errs {k : PassKind} {s : State} (hp : s.passReady k) (hq : s.quiet)
    (hf : AtMostErr s.par.layout (s.chipByte s.par.layout.canintf))
    (herr : errSet s.par.layout (s.chipByte s.par.layout.canintf) = false) : PassRuns 7 s (s.pastErrs k) := by
  refine (pass_reaches_errs hp hq hf).trans (.step ?_ hq.1 (by simp [State.pastErrs]))
  exact (dispStep_errs (s := s.atErrs k) rfl).trans (if_neg (by
    simp [State.atErrs, State.flagged, State.acquired, herr]))

/-- A pass that finds no flag at all, with the latch set before it and no backoff due, attempts recovery and clears
nothing (R200, R205). -/
theorem exec_pass_recovers {k : PassKind} {s : State} {failed : Bool} (hp : s.passReady k) (hq : s.quiet)
    (hm : s.layoutInv) (hf : AtMostErr s.par.layout (s.chipByte s.par.layout.canintf))
    (herr : errSet s.par.layout (s.chipByte s.par.layout.canintf) = false) (hr : s.recpend = true)
    (hdue : s.recfails = 0 ∨ s.recnext ≤ s.now)
    (hmode : modeNormal s.par.layout (s.chipByte s.par.layout.canstat) = true)
    (hbo : txboSet s.par.layout (s.chipByte s.par.layout.eflg) = failed) :
    exec (passInstr k) s = .next
      { (s.pastErrs k).recoveryRecorded failed with
        dstate := .idle, lock := .free, idleSince := s.now
        evlog := ((s.pastErrs k).recoveryRecorded failed).evlog ++ [⟨.passEnd, 0x00, 0, 0, 0⟩] } := by
  obtain ⟨n, hn, hrec⟩ := pass_attempts_recovery (s := s.pastErrs k) rfl hp.2.1 hq hm hr hdue hmode hbo
  have hovrs := pass_skips_ovrs (s := (s.pastErrs k).recoveryRecorded failed) rfl hp.2.1 hq.1 herr
  exact exec_pass_clears_nothing (t := { (s.pastErrs k).recoveryRecorded failed with dstate := .wakes }) hp
    (((pass_passes_errs hp hq hf herr).trans hrec).trans hovrs) (by omega) rfl hp.2.1 hq.1 hf rfl

/-- Settles O42: the attempt is the pass's step in RECS; after a classification of bus-off ERR is handled as ever, and
with no flag at all nothing else is done. -/
theorem passAttemptsRecovery : Obligations.PassAttemptsRecovery := by
  constructor
  · intro s k e n hp hq hl hflags he hoff hovr hdue hmode hn
    subst he
    have hm : s.par.layout.Wf := hl ▸ mcp2515_wf
    obtain ⟨hf, herr, hne⟩ := errAlone_mcp2515 hl hflags
    have hnext : n = recfailsNext s.par.recfailsMax s.recfails := hn
    have hclear0 : (s.chipByte 0x2D)[6] = false := by simpa using congrArg (·.getLsbD 0) hovr
    have hclear1 : (s.chipByte 0x2D)[7] = false := by simpa using congrArg (·.getLsbD 1) hovr
    have hbo : txboSet s.par.layout (s.chipByte s.par.layout.eflg) = true := by
      rw [hl]
      exact hoff
    have hnormal := modeNormal_mcp2515 hl hmode
    obtain ⟨i, hi, hrec⟩ := pass_attempts_recovery (s := s.errSeen k .busOff) rfl hp.2.1 hq hm rfl hdue hnormal hbo
    have hruns := (pass_sees_err hp hq hf herr (if_pos hbo)).trans hrec
    have hkept := chipByte_recoveryRecorded_mcp2515 (s := s.errSeen k .busOff) hl true
    have hbyte (a : Nat) : (s.errSeen k .busOff).chipByte a = s.chipByte a := rfl
    have hlayout : (State.recoveryRecorded true (s.errSeen k .busOff)).par.layout = mcp2515 := hl
    have hsnap : s.chipByte s.par.layout.eflg =
        State.chipByte (State.recoveryRecorded true (s.errSeen k .busOff)) s.par.layout.eflg := by
      rw [hkept, hl]
      rfl
    obtain ⟨t, hexec, ht, hbytes⟩ :=
      exec_pass_serves_err hp hruns (by omega) hm rfl hp.2.1 hq hf herr rfl rfl hne hsnap
    refine ⟨t, hexec, ht.trans ?_, fun a => (hbytes a).trans ?_⟩
    · simp only [hkept, hbyte]
      simp only [State.recoveryRecorded, hbyte]
      simp [State.errSeen, hl, hp.1, hp.2.2.1, hflags, ← hnext, hclear0, hclear1, EClass.code]
    · have hnone : ∀ b, ovrSet mcp2515 b (s.chipByte 0x2D) = false := fun b => by cases b <;> simp [hclear0, hclear1]
      rw [hlayout, hkept, hkept, hkept, hbyte, hbyte, hbyte, hbyte]
      have herrf : (0x20 : Byte) &&& ~~~errf mcp2515 = 0 := by decide
      simp only [canintf_mcp2515, eflg_mcp2515, Nat.reduceEqDiff, if_false, hflags, herrf,
        and_not_ovrMask_of_clear (hnone _)]
      by_cases ha : a = 0x2D <;> simp [ha]
  · intro s k e n hp hq hl hflags hr he hdue hmode hn
    subst he
    have hm : s.par.layout.Wf := hl ▸ mcp2515_wf
    have hcanintf : s.chipByte mcp2515.canintf = 0x00 := hflags
    have hf : AtMostErr s.par.layout (s.chipByte s.par.layout.canintf) := by
      rw [hl, hcanintf]
      exact atMostErr_mcp2515 (.inl rfl)
    have herr : errSet s.par.layout (s.chipByte s.par.layout.canintf) = false := by
      rw [hl, hcanintf]
      decide
    have hnormal := modeNormal_mcp2515 hl hmode
    obtain ⟨failed, hbo⟩ : ∃ failed, (s.chipByte 0x2D).getLsbD 5 = failed := ⟨_, rfl⟩
    refine ⟨_, exec_pass_recovers hp hq hm hf herr hr hdue hnormal (failed := failed) (by rw [hl]; exact hbo), ?_, ?_⟩
    · have hbyte (a : Nat) : (s.pastErrs k).chipByte a = s.chipByte a := rfl
      have hnext : n = recfailsNext s.par.recfailsMax s.recfails := hn
      rw [hbo]
      simp only [State.recoveryRecorded, hbyte]
      simp [State.pastErrs, hl, hp.1, hp.2.2.1, hflags, ← hnext, hr]
    · exact chipByte_recoveryRecorded_mcp2515 (s := s.pastErrs k) hl failed

end Sys2Proof.Machine

/-!
SUPPORT. The client operations that take no LOCK and read no frame: NOP, and BRESET, which waits for the dispatcher.
-/

namespace Sys2Proof.Machine

/-! ## NOP and BRESET -/

/-- Settles O10: NOP's word is the table's, and at an idle port NOP is its one write of RESULT. -/
theorem nopSetsResult : Obligations.NopSetsResult :=
  ⟨decode_encode .nop, rfl, fun _ hp => congrArg Host.Outcome.next (portNow_idle .nop _ hp)⟩

/-- A BRESET that finds the port idle waits in it until the dispatcher stands in IDLE and LOCK is FREE (R210). -/
theorem exec_breset_idle {s : State} (hp : s.port = none) :
    exec .breset s = .next (runPort s.par.stepBound { s with port := some .resetWait }) :=
  congrArg Host.Outcome.next (portRun_idle .breset .resetWait hp)

theorem portStep_resetWait (s : State) :
    portStep { s with port := some .resetWait } =
      if s.dstate = .idle ∧ s.lock = .free then some (blockReset { s with port := some .resetWait }) else none := rfl

/-- Settles O34: BRESET's guard is met, and its one step is `blockReset`, which ends it. -/
theorem bresetResetsBlock : Obligations.BresetResetsBlock := by
  intro s ⟨hp, hl⟩ hd
  have hstep := (portStep_resetWait s).trans (if_pos ⟨hd, hl⟩)
  rw [exec_breset_idle hp, stepBound_succ, runPort_ended hstep rfl]
  simp [blockReset, State.reset, hl, OpResult.ok_byte]

/-- Settles O35: BRESET's guard is not met, so the port has no step. -/
theorem bresetHeld : Obligations.BresetHeld := by
  intro s hp hwait
  have hstep := (portStep_resetWait s).trans (if_neg fun ⟨hd, hl⟩ => hwait.elim (· hd) (· hl))
  rw [exec_breset_idle hp, runPort_none hstep]

end Sys2Proof.Machine

/-!
SUPPORT. The states of an undisturbed pass at which the earlier proofs have nothing to do: TXS and WAKES with flags to
handle, a receive buffer whose frame RXQ or the decoder refuses, and the end of a pass from its clear on, whether
something was handled or not.
-/

namespace Sys2Proof.Machine

/-! ## TXS and WAKES -/

/-- What TXS does: the transmit flags that are set are handled and recorded (R198). -/
theorem txsStep_eq (s : State) :
    txsStep s =
      { s with
        dstate := .errs, hmask := s.hmask ||| (s.flags &&& txfAll s.par.layout)
        evlog := s.evlog ++ if s.flags &&& txfAll s.par.layout = 0 then [] else
          [⟨.txComplete, s.flags &&& txfAll s.par.layout, 0, 0, 0⟩] } := by
  by_cases h : s.flags &&& txfAll s.par.layout = 0
  · simp only [txsStep, h, ne_eq, not_true_eq_false, if_false, if_true, List.append_nil]
    rfl
  · simp only [txsStep, h, ne_eq, not_false_eq_true, if_false, if_true]
    rfl

theorem pass_serves_tx {s : State} (hd : s.dstate = .txs) (ha : s.agenda = []) : PassRuns 1 s (txsStep s) :=
  .step (by rw [dispStep, hd]) ha (by simp [txsStep_eq])

/-- What WAKES does: WAKE is handled and recorded, an unknown flag is recorded alone (R203, R204). -/
theorem wakesStep_eq (s : State) :
    wakesStep s =
      { s with
        dstate := .clr, hmask := s.hmask ||| if wakeSet s.par.layout s.flags then wakef s.par.layout else 0
        evlog := s.evlog ++ (if wakeSet s.par.layout s.flags then [⟨.wake, 0, 0, 0, 0⟩] else []) ++
          if s.flags &&& unkf s.par.layout = 0 then [] else
            [⟨.unknownFlags, s.flags &&& unkf s.par.layout, 0, 0, 0⟩] } := by
  have hzero : s.hmask ||| 0 = s.hmask := BitVec.or_zero
  rw [wakesStep]
  by_cases h : s.flags &&& unkf s.par.layout = 0 <;> cases hw : wakeSet s.par.layout s.flags <;>
    simp only [if_true, Bool.false_eq_true, if_false, State.handle, State.emit, h, ne_eq, not_true_eq_false,
      not_false_eq_true, List.append_nil, hzero]

theorem pass_serves_wake {s : State} (hd : s.dstate = .wakes) (ha : s.agenda = []) : PassRuns 1 s (wakesStep s) :=
  .step (by rw [dispStep, hd]) ha (by simp [wakesStep_eq])

/-! ## States with nothing to do -/

/-- With neither receive flag set, both buffers are passed over. -/
theorem pass_skips_both_rx {s : State} (hd : s.dstate = .rx0) (ha : s.agenda = [])
    (hf : ∀ b, rxFlagSet s.par.layout b s.flags = false) :
    PassRuns 2 s { s with dstate := .txs, rxretry0 := 0, rxretry1 := 0 } :=
  (pass_skips_rx (b := .rx0) hd ha (hf .rx0)).trans
    (pass_skips_rx (b := .rx1) (s := { s with dstate := .rx1, rxretry0 := 0 }) rfl ha (hf .rx1))

theorem pass_skips_errs {s : State} (hd : s.dstate = .errs) (ha : s.agenda = [])
    (hf : errSet s.par.layout s.flags = false) : PassRuns 1 s { s with dstate := .recs } :=
  .step ((dispStep_errs hd).trans (if_neg (by simp [hf]))) ha nofun

/-- With ERR clear and no recovery pending, a pass goes from ERRS to WAKES and does nothing. -/
theorem pass_skips_to_wakes {s : State} (hd : s.dstate = .errs) (hp : s.dprog = none) (ha : s.agenda = [])
    (hr : s.recpend = false) (hf : errSet s.par.layout s.flags = false) : PassRuns 3 s { s with dstate := .wakes } :=
  ((pass_skips_errs hd ha hf).trans (pass_skips_recs (s := { s with dstate := .recs }) rfl hp ha hr)).trans
    (pass_skips_ovrs (s := { s with dstate := .ovrs }) rfl hp ha hf)

/-! ## From the clear to the end -/

/-- A pass that has handled nothing issues no clear (R205). -/
theorem pass_clears_none {s : State} (hd : s.dstate = .clr) (hp : s.dprog = none) (ha : s.agenda = [])
    (hh : s.hmask = 0) : PassRuns 1 s { s with dstate := .rel } := by
  refine .step ?_ ha nofun
  rw [dispStep, hd]
  simp [clrStep, hp, hh]

/-- An undisturbed pass that stands in CLR clears what it has handled and ends (R205, R206). -/
theorem exec_pass_from_clr {k : PassKind} {j : Nat} {s w : State} (hp : s.passReady k) (h : PassRuns j s w)
    (hj : j ≤ 69) (hm : w.layoutInv) (hd : w.dstate = .clr) (hdp : w.dprog = none) (hq : w.quiet) :
    ∃ t : State, exec (passInstr k) s = .next t ∧
      t = { w with
            dstate := .idle, lock := .free, idleSince := w.now, chip := t.chip
            bus := w.bus ++ if w.hmask = 0 then [] else
              modifyBy w.par.nativeBitModify w.lock w.par.layout.canintf w.hmask 0x00 (w.chipByte w.par.layout.canintf)
            evlog := w.evlog ++ (if w.hmask = 0 then [] else [⟨.flagsCleared, w.hmask, 0, 0, 0⟩]) ++
              [⟨.passEnd, w.hmask, 0, 0, 0⟩] } ∧
      ∀ a, t.chipByte a =
        if a = w.par.layout.canintf then w.chipByte w.par.layout.canintf &&& ~~~w.hmask else w.chipByte a := by
  by_cases hh : w.hmask = 0
  · have hrun := h.trans (pass_clears_none hd hdp hq.1 hh)
    refine ⟨_, exec_pass hp hrun (by omega) rfl hq.1, ?_, fun a => ?_⟩
    · simp [relStep, State.emit, hh]
    · have hkeep (x : Byte) : x &&& ~~~(0 : Byte) = x := BitVec.and_allOnes
      show w.chipByte a = _
      rw [hh, hkeep]
      split
      · next ha => rw [ha]
      · rfl
  · obtain ⟨n, hn, hclr⟩ := pass_clears hm hd hdp hq hh
    refine ⟨_, exec_pass hp (h.trans hclr) (by omega) rfl hq.1, ?_, chipByte_of_write rfl rfl⟩
    rw [if_neg hh, if_neg hh, relStep, State.emit]

/-! ## A pass that finds no receive flag and no ERR -/

/-- A pass that has found neither a receive flag nor ERR, at its clear (R198, R203, R204). -/
def State.txWakeServed (k : PassKind) (f : Byte) (s : State) : State :=
  { s with
    evq := s.evq - 1, pkind := k, lock := .dispatcher, dstate := .clr, flags := f
    hmask := (0x00 ||| (f &&& txfAll s.par.layout)) ||| (if wakeSet s.par.layout f then wakef s.par.layout else 0)
    errok := false, rxretry0 := 0, rxretry1 := 0
    evlog := s.evlog ++ [⟨.passStart, k.code, 0, 0, 0⟩, ⟨.flagsRead, f, 0, 0, 0⟩] ++
      (if f &&& txfAll s.par.layout = 0 then [] else [⟨.txComplete, f &&& txfAll s.par.layout, 0, 0, 0⟩]) ++
      (if wakeSet s.par.layout f then [⟨.wake, 0, 0, 0, 0⟩] else []) ++
      (if f &&& unkf s.par.layout = 0 then [] else [⟨.unknownFlags, f &&& unkf s.par.layout, 0, 0, 0⟩])
    bus := s.bus ++ [⟨.dispatcher, .read s.par.layout.canintf⟩] }

/-- Without receive flags, ERR and a pending recovery, TXS and WAKES alone have something to do. -/
theorem pass_serves_tx_and_wake {k : PassKind} {s : State} {f : Byte} (hp : s.passReady k) (hq : s.quiet)
    (hr : s.recpend = false) (hf : s.chipByte s.par.layout.canintf = f) (hrx : ∀ b, rxFlagSet s.par.layout b f = false)
    (herr : errSet s.par.layout f = false) : PassRuns 10 s (s.txWakeServed k f) := by
  subst hf
  have htx := ((pass_reads hp hq).trans (pass_skips_both_rx rfl hq.1 hrx)).trans (pass_serves_tx rfl hq.1)
  rw [txsStep_eq] at htx
  have hwake := (htx.trans (pass_skips_to_wakes rfl hp.2.1 hq.1 hr herr)).trans (pass_serves_wake rfl hq.1)
  rw [wakesStep_eq] at hwake
  exact hwake

@[simp] theorem wakeSet_mcp2515 (f : Byte) : wakeSet mcp2515 f = f.getLsbD 6 := rfl

/-- In the default layout the receive flags and ERR are the bits of 0x23. -/
theorem rxFlagSet_mcp2515_of_clear {f : Byte} (h : f &&& 0x23 = 0) (b : Buf) : rxFlagSet mcp2515 b f = false := by
  cases b <;> revert f <;> decide

theorem errSet_mcp2515_of_clear {f : Byte} (h : f &&& 0x23 = 0) : errSet mcp2515 f = false := by
  revert f; decide

/-- The flags that TXS and WAKES handle are the bits of 0x5C. -/
theorem handled_mcp2515 (f : Byte) :
    (0x00 ||| (f &&& 0x1C)) ||| (if f.getLsbD 6 then 0x40 else 0) = f &&& 0x5C := by
  revert f; decide

/-- MERR is the flag that no pass knows. -/
theorem unknownFlags_record (f : Byte) :
    (if f &&& 0x80 = 0 then [] else [(⟨.unknownFlags, f &&& 0x80, 0, 0, 0⟩ : Record)]) =
      if f.getLsbD 7 then [⟨.unknownFlags, 0x80, 0, 0, 0⟩] else [] := by
  revert f; decide

theorem and_not_handled (f : Byte) : f &&& ~~~(f &&& 0x5C) = f &&& 0xA3 := by
  revert f; decide

/-- Settles O36: TXS and WAKES handle what they find, the other states have nothing to do, and the clear is of what was
handled. -/
theorem passHandlesTxAndWake : Obligations.PassHandlesTxAndWake := by
  intro s k f hp hq hl hr hf hnone
  have hm : s.par.layout.Wf := hl ▸ mcp2515_wf
  have hflags : s.chipByte s.par.layout.canintf = f := by rw [hl, hf]; rfl
  have hrun := pass_serves_tx_and_wake hp hq hr hflags (hl ▸ rxFlagSet_mcp2515_of_clear hnone)
    (hl ▸ errSet_mcp2515_of_clear hnone)
  obtain ⟨t, hexec, ht, hbytes⟩ := exec_pass_from_clr hp hrun (by decide) hm rfl hp.2.1 hq
  have hbyte (a : Nat) : (s.txWakeServed k f).chipByte a = s.chipByte a := rfl
  have haddress : (s.txWakeServed k f).par.layout.canintf = 0x2C := congrArg ChipLayout.canintf hl
  have hhandled : (s.txWakeServed k f).hmask = f &&& 0x5C := by
    rw [State.txWakeServed, hl]
    exact handled_mcp2515 f
  rw [haddress, hhandled, hbyte, ← hf] at ht
  rw [haddress, hhandled, hbyte, ← hf, and_not_handled] at hbytes
  refine ⟨t, hexec, ht.trans ?_, hbytes⟩
  simp only [State.txWakeServed, hl, canintf_mcp2515, txfAll_mcp2515, unkf_mcp2515, wakeSet_mcp2515,
    unknownFlags_record]
  rw [hp.1, hp.2.2.1]

end Sys2Proof.Machine

/-!
SUPPORT. Undisturbed passes that leave a frame in the chip: RXQ has no room for it, or its length nibble is refused and
the pass retries it later.
-/

namespace Sys2Proof.Machine

/-! ## Backpressure -/

/-- What a pass writes, beside its own progress, of a frame of buffer b, of data length n, that RXQ has no room for
(R197). -/
def State.backpressured (b : Buf) (n : Nat) (s : State) : State :=
  { s with
    dimg := rxImageAfter s.par.rtrSource s.dimg (s.rxImage b) n
    dfout := decodeImage s.par.layout s.par.rtrSource (s.rxImage b) n
    evlog := s.evlog ++ [⟨.rxBackpressure, bufIndex b, 0, 0, 0⟩]
    bus := s.bus ++ readsBy s.lock (rxAddresses s.par.layout s.par.rtrSource b n) }

theorem rxEnd_backpressures {b : Buf} {n : Nat} {s : State} (hx : s.xport = []) (hfull : s.par.rxqCap ≤ s.rxq.length) :
    rxEnd b .ok
        ((s.rxSoFar .dispatcher (rxImageAfter s.par.rtrSource (s.image .dispatcher) (s.rxImage b) n)
          (rxAddresses s.par.layout s.par.rtrSource b n)).setFrame .dispatcher
          (decodeImage s.par.layout s.par.rtrSource (s.rxImage b) n)) =
      { s.backpressured b n with dstate := afterRx b } := by
  simp only [rxEnd, rxDeliver]
  refine (if_neg (Nat.not_lt.mpr hfull)).trans ?_
  rw [State.backpressured, State.rxSoFar, ← hx]
  rfl

/-- A flagged buffer with a length of 0 to 8 is read and decoded, and its frame stays in the chip while RXQ is full. -/
theorem pass_leaves_frame {b : Buf} {n : Fin 9} {s : State} (hd : s.dstate = rxState b) (hp : s.dprog = none)
    (hq : s.quiet) (hf : rxFlagSet s.par.layout b s.flags = true)
    (hn : n.val = dlcNibble s.par.layout (s.rxImage b).dlc) (hfull : s.par.rxqCap ≤ s.rxq.length) :
    ∃ j, j ≤ 14 ∧ PassRuns j s { s.backpressured b n with dstate := afterRx b } := by
  obtain ⟨ha, hx⟩ := hq
  obtain ⟨j, hj, h⟩ := rxread_runs .dispatcher b n s hx hn
  have hread := pass_reads_rx hd hp ha hf h
  rw [rxEnd_backpressures hx hfull] at hread
  exact ⟨j, hj, hread⟩

/-- Where one receive flag alone is set, only the other buffer's retry count is reset. -/
theorem pass_backpressures {b : Buf} {n : Fin 9} {s : State} (hd : s.dstate = .rx0) (hp : s.dprog = none) (hq : s.quiet)
    (hf : ∀ c, rxFlagSet s.par.layout c s.flags = decide (c = b))
    (hn : n.val = dlcNibble s.par.layout (s.rxImage b).dlc) (hfull : s.par.rxqCap ≤ s.rxq.length) :
    ∃ j, j ≤ 15 ∧ PassRuns j s
      { s.backpressured b n with
        dstate := .txs, rxretry0 := if b = .rx0 then s.rxretry0 else 0
        rxretry1 := if b = .rx1 then s.rxretry1 else 0 } := by
  cases b with
  | rx0 =>
    obtain ⟨j, hj, h⟩ := pass_leaves_frame (b := .rx0) hd hp hq (hf .rx0) hn hfull
    exact ⟨j + 1, by omega, h.trans (pass_skips_rx (b := .rx1) rfl hq.1 (hf .rx1))⟩
  | rx1 =>
    have hskip := pass_skips_rx (b := .rx0) hd hq.1 (hf .rx0)
    obtain ⟨j, hj, h⟩ := pass_leaves_frame (b := .rx1) (s := { s.setRxretry .rx0 0 with dstate := .rx1 }) rfl hp hq
      (hf .rx1) hn hfull
    exact ⟨1 + j, by omega, hskip.trans h⟩

/-- In the default layout, CANINTF 0x01 or 0x02 is the one receive flag alone. -/
theorem rxAlone_mcp2515 {b : Buf} {s : State} (hl : s.par.layout = mcp2515)
    (h : s.chipByte 0x2C = match b with | .rx0 => 0x01 | .rx1 => 0x02) :
    (∀ c, rxFlagSet s.par.layout c (s.chipByte s.par.layout.canintf) = decide (c = b)) ∧
      OnlyRx s.par.layout (s.chipByte s.par.layout.canintf) := by
  have hcanintf : s.chipByte mcp2515.canintf = rxFlag mcp2515 b := by
    cases b <;> exact h
  rw [hl, hcanintf]
  exact ⟨rxFlagSet_rxFlag_mcp2515 b, onlyRx_rxFlag_mcp2515 b⟩

/-- Settles O39: the pass reads the frame, finds RXQ full, does nothing from TXS to WAKES, has nothing to clear and
ends. -/
theorem passBackpressure : Obligations.PassBackpressure := by
  intro s k b n hp hq hl hrec hflags hnib hn hfull
  obtain ⟨hset, honly⟩ := rxAlone_mcp2515 hl hflags
  have hnibble : n = dlcNibble s.par.layout (s.rxImage b).dlc := hl ▸ hnib
  obtain ⟨j, hj, hleft⟩ := pass_backpressures (n := ⟨n, by omega⟩) (s := s.flagged k) rfl hp.2.1 hq hset hnibble hfull
  have hclr := (((pass_reads hp hq).trans hleft).trans (pass_skips_to_clr rfl hp.2.1 hq.1 hrec honly)).trans
    (pass_clears_none rfl hp.2.1 hq.1 rfl)
  rw [exec_pass hp hclr (by omega) rfl hq.1]
  obtain ⟨hidle, -, hlock, -, -⟩ := hp
  have hc : s.par.layout.canintf = 0x2C := congrArg ChipLayout.canintf hl
  simp [relStep, State.emit, State.backpressured, State.flagged, State.acquired, State.rxImage, State.chipByte, readsBy,
    hidle, hlock, hc]

/-! ## A refused length -/

/-- What a pass writes of buffer b when RXREAD refuses its length nibble below the retry limit (R134, R196). -/
def State.rxRetried (b : Buf) (s : State) : State :=
  { s with
    dstate := afterRx b
    rxretry0 := if b = .rx0 then s.rxretry0 + 1 else s.rxretry0
    rxretry1 := if b = .rx1 then s.rxretry1 + 1 else s.rxretry1
    dimg := rxImageAfter .dlcByte s.dimg (s.rxImage b) 0
    evlog := s.evlog ++ [⟨.rxDecodeFail, bufIndex b, 0x11, countByte (s.rxretry b + 1), 0⟩]
    bus := s.bus ++ readsBy s.lock (rxAddresses s.par.layout .dlcByte b 0) }

/-- A flagged buffer whose length nibble is refused is left for the next pass, below the retry limit (R196). -/
theorem pass_retries_rx {b : Buf} {s : State} (hd : s.dstate = rxState b) (hp : s.dprog = none) (hq : s.quiet)
    (hf : rxFlagSet s.par.layout b s.flags = true) (hn : 8 < dlcNibble s.par.layout (s.rxImage b).dlc)
    (hlimit : s.rxretry b < s.par.rxRetryLimit) : PassRuns 5 s (s.rxRetried b) := by
  obtain ⟨ha, hx⟩ := hq
  have hread := pass_reads_rx hd hp ha hf (rxread_refuses .dispatcher b s hx hn)
  have hend : rxEnd b .invalidLength (s.rxSoFar .dispatcher
      (rxImageAfter .dlcByte (s.image .dispatcher) (s.rxImage b) 0) (rxAddresses s.par.layout .dlcByte b 0)) = s.rxRetried b := by
    cases b <;> refine (if_pos hlimit).trans ?_ <;> rw [State.rxRetried, State.rxSoFar, ← hx] <;> rfl
  rwa [hend] at hread

/-! ## ERR beside it -/

theorem ovrsServed_of_clear {s : State} (h : ∀ b, ovrSet s.par.layout b s.esnap.eflg = false) : s.ovrsServed = s := by
  rw [State.ovrsServed, ovrServed_of_clear (b := .rx0) (h .rx0), ovrServed_of_clear (h .rx1)]

/-- The state once a pass has found ERR of class `c`, with no recovery and no overflow to serve, and has handled it
(R199 to R202). -/
def State.errHandled (c : EClass) (s : State) : State :=
  { s with
    dstate := .wakes, hmask := s.hmask ||| errf s.par.layout, errok := true
    esnap :=
      { eflg := s.chipByte s.par.layout.eflg, tec := s.chipByte s.par.layout.tec
        recv := s.chipByte s.par.layout.recCounter, valid := true }
    eclass := c, recpend := decide (c = .busOff), recfails := if c = .busOff then s.recfails else 0
    evlog := s.evlog ++ [⟨.errClassified, c.code.setWidth 8, s.chipByte s.par.layout.eflg, s.chipByte s.par.layout.tec,
      s.chipByte s.par.layout.recCounter⟩]
    bus := s.bus ++ readsBy s.lock [s.par.layout.eflg, s.par.layout.tec, s.par.layout.recCounter] }

/-- ERR out of bus-off, with no recovery and no overflow to serve, is classified and handled (R199 to R202). -/
theorem pass_handles_err {s : State} (hd : s.dstate = .errs) (hp : s.dprog = none) (hq : s.quiet) (hm : s.layoutInv)
    (hf : errSet s.par.layout s.flags = true) (hbo : txboSet s.par.layout (s.chipByte s.par.layout.eflg) = false)
    (hovr : ∀ b, ovrSet s.par.layout b (s.chipByte s.par.layout.eflg) = false) :
    ∃ (c : EClass) (n : Nat), n ≤ 9 ∧ PassRuns n s (s.errHandled c) := by
  obtain ⟨c, hc⟩ : ∃ c, classifyErr s.par.layout (s.chipByte s.par.layout.eflg) (s.chipByte s.par.layout.tec)
    (s.chipByte s.par.layout.recCounter) = c := ⟨_, rfl⟩
  have hnot : c ≠ .busOff := by
    rw [← hc, classifyErr, if_neg (by simp [hbo])]
    split <;> nofun
  have hclass := pass_classifies hd hp hq hf
  rw [hc] at hclass
  have hrecs := hclass.trans (pass_skips_recs (s := s.classified c) rfl hp hq.1 (decide_eq_false hnot))
  obtain ⟨n, hn, hovrs⟩ := pass_serves_ovrs (s := { s.classified c with dstate := .ovrs }) rfl hp hq hm hf rfl
  rw [ovrsServed_of_clear (s := { s.classified c with dstate := .ovrs }) hovr,
    ovrsEnd_handles (s := { s.classified c with dstate := .ovrs }) hf rfl] at hovrs
  exact ⟨c, 4 + 1 + n, by omega, hrecs.trans hovrs⟩

/-- TXS with no transmit flag set. -/
theorem pass_skips_txs {s : State} (hd : s.dstate = .txs) (ha : s.agenda = [])
    (hf : s.flags &&& txfAll s.par.layout = 0) : PassRuns 1 s { s with dstate := .errs } := by
  have hzero : s.hmask ||| 0 = s.hmask := BitVec.or_zero
  have htx := pass_serves_tx hd ha
  rwa [txsStep_eq, hf, if_pos rfl, hzero, List.append_nil] at htx

/-- A pass at ERRS that has left buffer 0's frame for the next pass and found neither RX1 nor a transmit flag. -/
def State.rx0Retried (k : PassKind) (s : State) : State :=
  { s with
    evq := s.evq - 1, pkind := k, lock := .dispatcher, dstate := .errs, flags := s.chipByte s.par.layout.canintf
    hmask := 0x00, errok := false, rxretry0 := s.rxretry0 + 1, rxretry1 := 0
    dimg := rxImageAfter .dlcByte s.dimg (s.rxImage .rx0) 0
    evlog := s.evlog ++
      [⟨.passStart, k.code, 0, 0, 0⟩, ⟨.flagsRead, s.chipByte s.par.layout.canintf, 0, 0, 0⟩] ++
      [⟨.rxDecodeFail, bufIndex .rx0, 0x11, countByte (s.rxretry0 + 1), 0⟩]
    bus := s.bus ++ [⟨.dispatcher, .read s.par.layout.canintf⟩] ++
      readsBy .dispatcher (rxAddresses s.par.layout .dlcByte .rx0 0) }

theorem pass_retries_rx0 {k : PassKind} {s : State} {f : Byte} (hp : s.passReady k) (hq : s.quiet)
    (hf : s.chipByte s.par.layout.canintf = f) (hrx0 : rxFlagSet s.par.layout .rx0 f = true)
    (hrx1 : rxFlagSet s.par.layout .rx1 f = false) (htx : f &&& txfAll s.par.layout = 0)
    (hn : 8 < dlcNibble s.par.layout (s.rxImage .rx0).dlc) (hlimit : s.rxretry0 < s.par.rxRetryLimit) :
    PassRuns 10 s (s.rx0Retried k) := by
  subst hf
  have hretried := pass_retries_rx (b := .rx0) (s := s.flagged k) rfl hp.2.1 hq hrx0 hn hlimit
  have hskip := pass_skips_rx (b := .rx1) (s := (s.flagged k).rxRetried .rx0) rfl hq.1 hrx1
  exact (((pass_reads hp hq).trans hretried).trans hskip).trans (pass_skips_txs rfl hq.1 htx)

/-- A pass at WAKES with neither WAKE nor an unknown flag clears what it has handled and ends (R203 to R206). -/
theorem exec_pass_from_wakes {k : PassKind} {j : Nat} {s w : State} (hp : s.passReady k) (h : PassRuns j s w)
    (hj : j ≤ 68) (hm : w.layoutInv) (hd : w.dstate = .wakes) (hdp : w.dprog = none) (hq : w.quiet)
    (hwake : wakeSet w.par.layout w.flags = false) (hunknown : w.flags &&& unkf w.par.layout = 0) :
    ∃ t : State, exec (passInstr k) s = .next t ∧ t.dstate = .idle ∧ t.lock = .free ∧ t.flags = w.flags ∧
      t.hmask = w.hmask ∧ t.rxretry0 = w.rxretry0 ∧ ∀ a, t.chipByte a =
        if a = w.par.layout.canintf then w.chipByte w.par.layout.canintf &&& ~~~w.hmask else w.chipByte a := by
  have hstep : dispStep w = some { w with dstate := .clr } := by
    rw [dispStep, hd]
    simp [wakesStep, hwake, hunknown]
  obtain ⟨t, hexec, ht, hbytes⟩ :=
    exec_pass_from_clr (w := { w with dstate := .clr }) hp (h.trans (.step hstep hq.1 nofun)) (by omega) hm rfl hdp hq
  exact ⟨t, hexec, by rw [ht], by rw [ht], by rw [ht], by rw [ht], by rw [ht], hbytes⟩

/-- In the default layout, EFLG with its three upper bits 0 shows neither bus-off nor an overflow (R98). -/
theorem eflg_mcp2515_of_clear {e : Byte} (h : e.extractLsb' 5 3 = 0) :
    txboSet mcp2515 e = false ∧ ∀ b, ovrSet mcp2515 b e = false := by
  have bit (i : Nat) (hi : i < 3) : e.getLsbD (5 + i) = false := by
    simpa [hi] using congrArg (·.getLsbD i) h
  exact ⟨bit 0 (by decide), fun b => by cases b; exacts [bit 1 (by decide), bit 2 (by decide)]⟩

/-- Settles O43: the pass leaves RX0's frame for the next pass, handles ERR, and clears what it has handled. -/
theorem flagClearDiscipline : Obligations.FlagClearDiscipline := by
  intro s hp hq hl hlimit hflags hretry hnib heflg
  have hm : s.par.layout.Wf := hl ▸ mcp2515_wf
  have hcanintf : s.chipByte s.par.layout.canintf = 0x21 := by rw [hl]; exact hflags
  obtain ⟨hbo, hovr⟩ := eflg_mcp2515_of_clear heflg
  have hrun := pass_retries_rx0 hp hq hcanintf (by rw [hl]; decide) (by rw [hl]; decide) (by rw [hl]; decide)
    (by rw [hl]; exact hnib) (by rw [hretry, hlimit]; decide)
  have hflag : errSet s.par.layout (s.chipByte s.par.layout.canintf) = true := by
    rw [hcanintf, hl]
    decide
  obtain ⟨c, n, hn, herr⟩ := pass_handles_err (s := s.rx0Retried .event) rfl hp.2.1 hq hm hflag (hl ▸ hbo) (hl ▸ hovr)
  obtain ⟨t, hexec, hidle, hlock, hseen, hmask, hcount, hbytes⟩ := exec_pass_from_wakes hp (hrun.trans herr) (by omega)
    hm
    rfl hp.2.1 hq (show wakeSet s.par.layout (s.chipByte s.par.layout.canintf) = false by rw [hcanintf, hl]; decide)
    (show s.chipByte s.par.layout.canintf &&& unkf s.par.layout = 0 by rw [hcanintf, hl]; decide)
  have hmask' : t.hmask = 0x20 := by
    refine hmask.trans ?_
    show (0x00 ||| errf s.par.layout) = 0x20
    rw [hl]
    decide
  refine ⟨t, hexec, hidle, hlock, hseen.trans hcanintf, hmask', hcount.trans (congrArg (· + 1) hretry),
    fun a => (hbytes a).trans ?_⟩
  show (if a = s.par.layout.canintf then
    s.chipByte s.par.layout.canintf &&& ~~~(0x00 ||| errf s.par.layout) else s.chipByte a) = _
  rw [hcanintf, hl]
  rfl

end Sys2Proof.Machine

/-!
SUPPORT. Every operation has a bound on the steps it has left, whatever the chip holds and the transport does, while
polls follow each other with no delay (R165, R215); and it issues at most one transaction in each.
-/

namespace Sys2Proof.Machine

/-! ## Steps that an operation has left -/

/-- The most steps that a modify takes from stage `st` on: one if it is native, else two for each attempt (R62, R63,
R65). -/
def ModStage.left (native : Bool) : ModStage → Nat
  | .start n => if native then 1 else 2 * n + 1
  | .write n _ => if native then 1 else 2 * n + 2

/-- The most steps that an operation takes from its progress on (R134, R160 to R165, R205). -/
def Prog.left (m : Params) : Prog → Nat
  | .rxHeader _ j => 14 - j.val
  | .rxCtrl _ _ => 9
  | .rxData _ _ i => 8 - i.val
  | .snapEflg => 3
  | .snapTec _ => 2
  | .snapRec _ _ => 1
  | .classify => 1
  | .ovrClear _ st => st.left m.nativeBitModify
  | .recModify st => st.left m.nativeBitModify + m.modePollLimit + 1
  | .recPoll p => m.modePollLimit - p + 2
  | .recWait p _ => m.modePollLimit - p + 1
  | .recEflg _ => 1
  | .flagClear st => st.left m.nativeBitModify

theorem ModStage.left_pos (native : Bool) (st : ModStage) : 0 < st.left native := by
  cases st <;> cases native <;> simp [ModStage.left]

theorem Prog.left_pos (m : Params) (p : Prog) : 0 < p.left m := by
  cases p with
  | ovrClear _ st => exact st.left_pos _
  | flagClear st => exact st.left_pos _
  | _ => simp only [Prog.left]; omega

/-- A wait between two polls is over, and the poll that follows is within the limit. Nothing else waits (R165). -/
def Prog.Timely (s : State) : Prog → Prop
  | .recWait p c => p < s.par.modePollLimit ∧ c + s.par.pollDelay ≤ s.now
  | _ => True

/-- An operation's step has ended it or leaves it fewer than `n` steps. -/
def OpOut.Within (m : Params) (n : Nat) : OpOut → Prop
  | .running q t => q.Timely t ∧ q.left m < n
  | .done _ _ => True
  | .waiting => False

/-- A step of a modify ends it or leaves it fewer steps. -/
theorem modStep_left (s : State) (a : Nat) (m v : Byte) (st : ModStage) :
    (∃ ok t, s.modStep a m v st = .done ok t) ∨
      ∃ st' t, s.modStep a m v st = .more st' t ∧ st'.left s.par.nativeBitModify < st.left s.par.nativeBitModify := by
  unfold State.modStep
  cases s.par.nativeBitModify with
  | true => exact .inl ⟨_, _, rfl⟩
  | false =>
    match st with
    | .start 0 => exact .inl ⟨_, _, rfl⟩
    | .start (n + 1) =>
      rcases s.xferRead 1 a with ⟨_ | byte, t⟩
      · by_cases hn : n = 0
        · exact .inl ⟨_, _, if_pos hn⟩
        · exact .inr ⟨_, _, if_neg hn, show 2 * n + 1 < 2 * (n + 1) + 1 by omega⟩
      · exact .inr ⟨_, _, rfl, show 2 * n + 2 < 2 * (n + 1) + 1 by omega⟩
    | .write n byte =>
      simp only [Bool.false_eq_true, if_false]
      rcases s.xferWrite 1 a (modified byte m v) with ⟨_ | _, t⟩
      · by_cases hn : n = 0
        · exact .inl ⟨_, _, if_pos hn⟩
        · exact .inr ⟨_, _, if_neg hn, show 2 * n + 1 < 2 * n + 2 by omega⟩
      · exact .inl ⟨_, _, rfl⟩

theorem rxNext_within {who : Issuer} {b : Buf} {n : Fin 9} {m : Params} {i k : Nat} {s : State} (h : 8 - i < k) :
    (rxNext who b n i s).Within m k := by
  unfold rxNext
  split
  · split
    · exact ⟨trivial, h⟩
    · trivial
  · trivial

theorem recPollStep_within {p k : Nat} {s : State} (hd : s.par.pollDelay = 0) (hk : s.par.modePollLimit - p + 1 < k) :
    (recPollStep p s).Within s.par k := by
  unfold recPollStep
  rcases hr : s.blockRead s.par.layout.canstat with ⟨_ | v, u⟩ <;> dsimp only
  · trivial
  · have hf := OpFrame.blockRead .dispatcher hr
    split
    · exact ⟨trivial, show 1 < k by omega⟩
    · split
      · next hp =>
        exact ⟨⟨by rw [hf.par]; exact hp, by rw [hf.par, hd]; rfl⟩, hk⟩
      · trivial

/-- A step of any operation ends it or leaves it fewer steps. -/
theorem opStep_within (who : Issuer) {p : Prog} {s : State} (hd : s.par.pollDelay = 0) (hp : p.Timely s) :
    (opStep who p s).Within s.par (p.left s.par) := by
  cases p with
  | rxHeader b j =>
    simp only [opStep, rxHeaderStep]
    rcases hr : s.blockRead (headerAddr s.par.layout b j) with ⟨_ | v, u⟩ <;> dsimp only
    · trivial
    · split
      · exact ⟨trivial, show 14 - (j.val + 1) < 14 - j.val by omega⟩
      · unfold rxHeaderDone
        dsimp only
        split
        · split
          · exact ⟨trivial, show 9 < 14 - j.val by omega⟩
          · exact rxNext_within (show 8 - 0 < 14 - j.val by omega)
        · trivial
  | rxCtrl b n =>
    simp only [opStep, rxCtrlStep]
    split
    · trivial
    · exact rxNext_within (show 8 - 0 < 9 by decide)
  | rxData b n i =>
    simp only [opStep, rxDataStep]
    split
    · trivial
    · exact rxNext_within (show 8 - (i.val + 1) < 8 - i.val by omega)
  | snapEflg =>
    simp only [opStep, snapEflgStep]
    split
    · trivial
    · exact ⟨trivial, Nat.lt_succ_self _⟩
  | snapTec e =>
    simp only [opStep, snapTecStep]
    split
    · trivial
    · exact ⟨trivial, Nat.lt_succ_self _⟩
  | snapRec e c =>
    simp only [opStep, snapRecStep]
    split <;> trivial
  | classify =>
    simp only [opStep, classifyOp]
    split <;> trivial
  | ovrClear b st =>
    simp only [opStep, ovrClearStep]
    rcases modStep_left s s.par.layout.eflg (ovrMask s.par.layout b) 0x00 st
      with ⟨ok, t, h⟩ | ⟨st', t, h, hlt⟩ <;> rw [h]
    · cases ok <;> trivial
    · exact ⟨trivial, hlt⟩
  | recModify st =>
    simp only [opStep, recModifyStep]
    rcases modStep_left s s.par.layout.canctrl (reqopMask s.par.layout) (reqopField s.par.layout .normal) st
      with ⟨ok, t, h⟩ | ⟨st', t, h, hlt⟩ <;> rw [h]
    · cases ok
      · trivial
      · refine ⟨trivial, ?_⟩
        have hpos := st.left_pos s.par.nativeBitModify
        simp only [Prog.left, Params.modePollLimit]
        omega
    · refine ⟨trivial, ?_⟩
      simp only [Prog.left]
      omega
  | recPoll p => exact recPollStep_within hd (show s.par.modePollLimit - p + 1 < s.par.modePollLimit - p + 2 by omega)
  | recWait p c =>
    obtain ⟨hlt, hover⟩ := hp
    rw [opStep, recWaitStep_over hover]
    exact recPollStep_within hd (show s.par.modePollLimit - (p + 1) + 1 < s.par.modePollLimit - p + 1 by omega)
  | recEflg p =>
    simp only [opStep, recEflgStep]
    split
    · trivial
    · split <;> trivial
  | flagClear st =>
    simp only [opStep, flagClearStep]
    rcases modStep_left s s.par.layout.canintf s.hmask 0x00 st with ⟨ok, t, h⟩ | ⟨st', t, h, hlt⟩ <;> rw [h]
    · cases ok <;> trivial
    · exact ⟨trivial, hlt⟩

/-- Whatever the transport does, an operation ends within the steps it has left. -/
theorem op_ends (who : Issuer) {p : Prog} {s : State} (hd : s.par.pollDelay = 0) (hp : p.Timely s) :
    ∃ n r t, n ≤ p.left s.par ∧ OpRuns who n p s r t := by
  obtain ⟨k, hk⟩ : ∃ k, p.left s.par ≤ k := ⟨_, le_rfl⟩
  induction k generalizing p s with
  | zero => exact absurd hk (Nat.not_le.mpr (p.left_pos _))
  | succ k ih =>
    have hstep := opStep_within who hd hp
    rcases ho : opStep who p s with ⟨q, u⟩ | ⟨r, u⟩ | _ <;> rw [ho] at hstep
    · obtain ⟨hq, hlt⟩ := hstep
      have hf : OpFrame who s u := opStep_frame (congrArg _ ho)
      obtain ⟨n, r, t, hn, h⟩ := ih (by rw [hf.par]; exact hd) hq (by rw [hf.par]; omega)
      rw [hf.par] at hn
      exact ⟨n + 1, r, t, by omega, .more ho h⟩
    · exact ⟨1, r, u, p.left_pos _, .last ho⟩
    · exact hstep.elim

theorem State.IssuesOne.tail {s t : State} (h : s.IssuesOne t) : ∃ tail, t.bus = s.bus ++ tail ∧ tail.length ≤ 1 := by
  rcases h with h | ⟨op, h, -⟩
  · exact ⟨[], by simp [h]⟩
  · exact ⟨_, h, le_rfl⟩

/-- An operation issues at most one transaction in each step. -/
theorem OpRuns.bus {who : Issuer} {n : Nat} {p : Prog} {s t : State} {r : OpResult} (h : OpRuns who n p s r t) :
    ∃ tail, t.bus = s.bus ++ tail ∧ tail.length ≤ n := by
  induction h with
  | last h => exact (opStep_issuesOne (congrArg _ h)).tail
  | @more n p s q u r t h _ ih =>
    obtain ⟨first, hfirst, hone⟩ := (opStep_issuesOne (t := u) (congrArg _ h)).tail
    obtain ⟨rest, hrest, hn⟩ := ih
    exact ⟨first ++ rest, by rw [hrest, hfirst, List.append_assoc], by rw [List.length_append]; omega⟩

end Sys2Proof.Machine

/-!
SUPPORT. A pass ends, whatever the chip holds and the transport does, while no other agent moves and polls follow each
other with no delay (R206, R207, R215): what a pass keeps on its way is said once, and each state of it comes to the
next one within a bound on steps and transactions.
-/

namespace Sys2Proof.Machine

/-! ## What a pass keeps on its way -/

/-- HMASK holds only flags that FLAGS holds and a pass knows (R213). -/
def State.handlesSeen (s : State) : Prop := s.hmask &&& ~~~(s.flags &&& knownf s.par.layout) = 0

/-- What a pass keeps from `s` to `t`, between READF and REL, and that it issues at most `c` transactions. -/
structure State.PassedTo (c : Nat) (s t : State) : Prop where
  evq : t.evq = s.evq
  pkind : t.pkind = s.pkind
  now : t.now = s.now
  par : t.par = s.par
  agenda : t.agenda = s.agenda
  dprog : t.dprog = s.dprog
  client : s.sameClient t
  mask : s.handlesSeen → t.handlesSeen
  evlog : s.evlog <+: t.evlog
  bus : ∃ tail, t.bus = s.bus ++ tail ∧ tail.length ≤ c

section PassedTo

variable {c : Nat} {s t : State}

theorem State.PassedTo.refl (s : State) : s.PassedTo 0 s :=
  ⟨rfl, rfl, rfl, rfl, rfl, rfl, ⟨rfl, rfl, rfl, rfl, rfl, rfl⟩, id, List.prefix_rfl, [], by simp⟩

theorem State.PassedTo.mono {d : Nat} (h : s.PassedTo c t) (hd : c ≤ d) : s.PassedTo d t :=
  have ⟨tail, hb, hle⟩ := h.bus
  { h with bus := ⟨tail, hb, hle.trans hd⟩ }

theorem State.PassedTo.trans {d : Nat} {u : State} (h : s.PassedTo c t) (k : t.PassedTo d u) :
    s.PassedTo (c + d) u := by
  obtain ⟨first, hfirst, hc⟩ := h.bus
  obtain ⟨rest, hrest, hd⟩ := k.bus
  obtain ⟨hfin, hfout, himg, helen, hresult, hopreq⟩ := h.client
  obtain ⟨kfin, kfout, kimg, kelen, kresult, kopreq⟩ := k.client
  refine ⟨k.evq.trans h.evq, k.pkind.trans h.pkind, k.now.trans h.now, k.par.trans h.par, k.agenda.trans h.agenda,
    k.dprog.trans h.dprog, ⟨kfin.trans hfin, kfout.trans hfout, kimg.trans himg, kelen.trans helen,
      kresult.trans hresult, kopreq.trans hopreq⟩, k.mask ∘ h.mask, h.evlog.trans k.evlog, first ++ rest, ?_, ?_⟩
  · rw [hrest, hfirst, List.append_assoc]
  · rw [List.length_append]
    omega

/-- What an operation inside a pass keeps. -/
theorem State.PassedTo.of_frame (hf : OpFrame .dispatcher s t) (hb : ∃ tail, t.bus = s.bus ++ tail ∧ tail.length ≤ c) :
    s.PassedTo c t :=
  ⟨hf.evq, hf.pkind, hf.now, hf.par, hf.agenda, hf.dprog,
    ⟨hf.fin, hf.other.2, hf.other.1, hf.elen, hf.result, hf.opreq⟩,
    fun h => by rw [State.handlesSeen, hf.hmask, hf.flags, hf.par]; exact h, hf.evlog ▸ List.prefix_rfl, hb⟩

theorem OpRuns.passedTo {n : Nat} {p : Prog} {r : OpResult} (h : OpRuns .dispatcher n p s r t) (hn : n ≤ c) :
    s.PassedTo c t :=
  have ⟨tail, hb, hle⟩ := h.bus
  .of_frame h.frame ⟨tail, hb, hle.trans hn⟩

theorem State.PassedTo.emit (h : s.PassedTo c t) (k : RecordKind) (x y z w : Byte) : s.PassedTo c (t.emit k x y z w) :=
  { h with evlog := h.evlog.trans (List.prefix_append _ _) }

theorem State.PassedTo.enter (h : s.PassedTo c t) (d : DState) : s.PassedTo c { t with dstate := d } := { h with }

theorem State.PassedTo.setErrok (h : s.PassedTo c t) (ok : Bool) : s.PassedTo c { t with errok := ok } := { h with }

theorem State.PassedTo.deliver (h : s.PassedTo c t) (f : Frame) : s.PassedTo c { t with rxq := t.rxq ++ [f] } :=
  { h with }

theorem State.PassedTo.setRxretry (h : s.PassedTo c t) (b : Buf) (n : Nat) : s.PassedTo c (t.setRxretry b n) := by
  cases b <;> exact { h with }

theorem State.PassedTo.handle (h : s.PassedTo c t) {m : Byte} (hm : m &&& ~~~(t.flags &&& knownf t.par.layout) = 0) :
    s.PassedTo c (t.handle m) where
  __ := h
  mask hs := within_iff.mpr fun i hi hx => by
    have hx : t.hmask[i] = true ∨ m[i] = true := by simpa [State.handle] using hx
    exact hx.elim (within_iff.mp (h.mask hs) i hi) (within_iff.mp hm i hi)

/-- The end of RXREAD marks no flag handled but its buffer's (R195 to R197). -/
theorem State.PassedTo.rxEnd (h : s.PassedTo c t) {b : Buf} (hf : rxFlagSet t.par.layout b t.flags = true)
    (r : OpResult) : s.PassedTo c (rxEnd b r t) := by
  have hseen : rxFlag t.par.layout b &&& ~~~(t.flags &&& knownf t.par.layout) = 0 :=
    bitMask_within hf (by cases b <;> simp [knownf, rxFlag, rxBit])
  have he := h.enter (afterRx b)
  have fail : s.PassedTo c (rxFailed b r { t with dstate := afterRx b }) := by
    unfold rxFailed
    split
    · exact (he.setRxretry b _).emit ..
    · exact ((he.handle hseen).setRxretry b _).emit ..
  cases r with
  | ok =>
    simp only [Machine.rxEnd, rxDeliver]
    split
    · exact (((he.deliver _).handle hseen).setRxretry b _).emit ..
    · exact he.emit ..
  | _ => exact fail

/-- TXS marks transmit flags alone (R198). -/
theorem State.PassedTo.txsStep (h : s.PassedTo c t) : s.PassedTo c (txsStep t) := by
  have hseen : (t.flags &&& txfAll t.par.layout) &&& ~~~(t.flags &&& knownf t.par.layout) = 0 :=
    within_iff.mpr fun i hi hx => by
      rw [BitVec.getElem_and, Bool.and_eq_true] at hx
      simp [knownf, hx.1, hx.2]
  have he := (h.handle hseen).enter .errs
  simp only [Machine.txsStep]
  split
  · exact he.emit ..
  · exact he

theorem State.PassedTo.errEnd (h : s.PassedTo c t) (r : OpResult) : s.PassedTo c (errEnd r t) := by
  cases r with
  | ok => exact ((h.enter .recs).emit ..).setErrok true
  | _ => exact (h.enter .recs).emit ..

theorem State.PassedTo.recEnd (h : s.PassedTo c t) (r : OpResult) : s.PassedTo c (recEnd r t) := by
  cases r <;> exact (h.enter .ovrs).emit ..

/-- OVRS marks no flag but ERR (R202). -/
theorem State.PassedTo.ovrsEnd (h : s.PassedTo c t) : s.PassedTo c (ovrsEnd t) := by
  simp only [Machine.ovrsEnd]
  split
  · next hf =>
    obtain ⟨hf, -⟩ := Bool.and_eq_true_iff.mp hf
    exact (h.enter .wakes).handle (bitMask_within hf (by simp [knownf, errf]))
  · exact h.enter .wakes

/-- WAKES marks no flag but WAKE (R203, R204). -/
theorem State.PassedTo.wakesStep (h : s.PassedTo c t) : s.PassedTo c (wakesStep t) := by
  have he := h.enter .clr
  unfold Machine.wakesStep
  extract_lets t' u
  have hu : s.PassedTo c u := by
    unfold u
    split
    · next hf => exact (he.handle (bitMask_within hf (by simp [t', knownf, wakef]))).emit ..
    · exact he
  split
  · exact hu.emit ..
  · exact hu

theorem State.PassedTo.clrEnd (h : s.PassedTo c t) (r : OpResult) : s.PassedTo c (clrEnd r t) := by
  cases r <;> exact (h.enter .rel).emit ..

end PassedTo

/-! ## Each state of a pass comes to the next -/

/-- The dispatcher begins state `d` of a pass, while no other agent moves and polls follow each other with no delay. -/
structure State.Begins (d : DState) (s : State) : Prop where
  dstate : s.dstate = d
  dprog : s.dprog = none
  agenda : s.agenda = []
  delay : s.par.pollDelay = 0

theorem State.Begins.on {d e : DState} {c : Nat} {s t : State} (h : s.Begins d) (hp : s.PassedTo c t)
    (ht : t.dstate = e) : t.Begins e :=
  ⟨ht, hp.dprog.trans h.dprog, hp.agenda.trans h.agenda, by rw [hp.par]; exact h.delay⟩

/-- A pass that stands in `s` comes within `n` steps and `c` transactions to where it begins state `d`. -/
def State.Reaches (d : DState) (n c : Nat) (s : State) : Prop :=
  ∃ k t, k ≤ n ∧ PassRuns k s t ∧ t.Begins d ∧ s.PassedTo c t

theorem State.Reaches.then {d e : DState} {n n' c c' : Nat} {s : State} (h : s.Reaches d n c)
    (g : ∀ t : State, t.par = s.par → t.Begins d → t.Reaches e n' c') : s.Reaches e (n + n') (c + c') := by
  obtain ⟨k, t, hk, hrun, ht, hp⟩ := h
  obtain ⟨k', u, hk', hrun', hu, hp'⟩ := g t hp.par ht
  exact ⟨k + k', u, by omega, hrun.trans hrun', hu, hp.trans hp'⟩

/-- A run to where the dispatcher begins state `e`. -/
theorem State.Begins.reaches {d e : DState} {k n c c' : Nat} {s t : State} (h : s.Begins d) (hrun : PassRuns k s t)
    (hk : k ≤ n) (ht : t.dstate = e) (hp : s.PassedTo c' t) (hc : c' ≤ c) : s.Reaches e n c :=
  ⟨k, t, hk, hrun, h.on hp ht, hp.mono hc⟩

/-- The end of an operation finds the dispatcher with no progress of its own. -/
theorem State.Begins.dprog_none {d : DState} {c : Nat} {s t : State} (h : s.Begins d) (hp : s.PassedTo c t) :
    { t with dprog := none } = t := by
  rw [← h.dprog, ← hp.dprog]

/-! ### RX0 to ERRS -/

/-- RXREAD takes at most 14 steps, and a buffer with its flag clear is passed over (R195). -/
theorem reaches_afterRx {b : Buf} {s : State} (h : s.Begins (rxState b)) : s.Reaches (afterRx b) 14 14 := by
  cases hf : rxFlagSet s.par.layout b s.flags with
  | true =>
    obtain ⟨n, r, t, hn, hrun⟩ := op_ends .dispatcher (p := .rxHeader b 0) h.delay trivial
    have hend : rxFlagSet t.par.layout b t.flags = true := by
      rw [hrun.frame.par, hrun.frame.flags]
      exact hf
    exact h.reaches (pass_reads_rx h.dstate h.dprog h.agenda hf hrun) hn (rxEnd_dstate b r t)
      ((hrun.passedTo hn).rxEnd hend r) le_rfl
  | false =>
    exact h.reaches (pass_skips_rx h.dstate h.agenda hf) (by decide) rfl
      (((State.PassedTo.refl s).setRxretry b 0).enter _) (by decide)

theorem reaches_errs {s : State} (h : s.Begins .txs) : s.Reaches .errs 1 0 :=
  h.reaches (pass_serves_tx h.dstate h.agenda) le_rfl (by rw [txsStep_eq]) (State.PassedTo.refl s).txsStep le_rfl

theorem errEnd_dstate (r : OpResult) (s : State) : (errEnd r s).dstate = .recs := by
  cases r <;> rfl

/-- A failed snapshot ends ERRS at once (R199). -/
theorem snapEnd_of_failed {r : OpResult} (hr : r ≠ .ok) (s : State) : snapEnd r s = errEnd r s := by
  cases r with
  | ok => exact absurd rfl hr
  | _ => rfl

theorem classifyOp_done (s : State) : ∃ r t, classifyOp s = .done r t := by
  unfold classifyOp
  split <;> exact ⟨_, _, rfl⟩

/-- SNAPERR takes at most three steps, and CLASSIFY one, which issues no transaction (R160, R161, R199). -/
theorem reaches_recs {s : State} (h : s.Begins .errs) : s.Reaches .recs 4 3 := by
  cases hf : errSet s.par.layout s.flags with
  | false =>
    exact h.reaches (pass_skips_errs h.dstate h.agenda hf) (by decide) rfl ((State.PassedTo.refl s).enter _) (by decide)
  | true =>
    obtain ⟨n, r, t, hn, hrun⟩ := op_ends .dispatcher (p := .snapEflg)
      (s := { s with esnap := { s.esnap with valid := false } }) h.delay trivial
    have hd : t.dstate = .errs := hrun.frame.dstate.trans h.dstate
    have hp : s.PassedTo 3 t := { hrun.passedTo hn with }
    have hsnap : PassRuns n s (snapEnd r { t with dprog := none }) := by
      refine .of_run hrun h.agenda (by simp [h.dstate]) (dispStep_errs_begins h.dstate hf h.dprog) ?_ ?_
      · exact fun q u hq hu => dispStep_errs_goes_on (s := { u with dprog := some q }) (hu.dstate.trans h.dstate)
          (by rw [hu.par, hu.flags]; exact hf) rfl hq
      · intro u hu
        by_cases hr : r = .ok
        · subst hr
          simp [snapEnd, hu.dstate, h.dstate]
        · simp [snapEnd_of_failed hr, errEnd_dstate]
    by_cases hr : r = .ok
    · subst hr
      obtain ⟨r', u, hu⟩ := classifyOp_done t
      have hpu : t.PassedTo 0 u :=
        .of_frame (OpFrame.classifyOp (congrArg _ hu)) ⟨[], by simp [classifyOp_bus (congrArg _ hu)]⟩
      have hclassify : PassRuns 1 (snapEnd .ok { t with dprog := none }) (errEnd r' u) := by
        have herr : errSet t.par.layout t.flags = true := by
          rw [hrun.frame.par, hrun.frame.flags]
          exact hf
        refine .step ?_ (hp.agenda.trans h.agenda) (by simp [errEnd_dstate])
        refine (dispStep_errs_classifies (s := t) hd herr).trans ?_
        rw [opStep, hu, innerAfter, h.dprog_none (hp.trans hpu)]
      exact h.reaches (hsnap.trans hclassify) (Nat.add_le_add_right hn 1) (errEnd_dstate r' u)
        ((hp.trans hpu).errEnd r') le_rfl
    · rw [snapEnd_of_failed hr, h.dprog_none hp] at hsnap
      exact h.reaches hsnap (Nat.le_succ_of_le hn) (errEnd_dstate r t) (hp.errEnd r) le_rfl

/-! ### RECS to CLR -/

/-- The most steps of a modify, from its beginning on. -/
def modSteps (m : Params) : Nat := (ModStage.start m.xferAttempts).left m.nativeBitModify

theorem modSteps_pos (m : Params) : 0 < modSteps m := ModStage.left_pos _ _

theorem modSteps_le (m : Params) : modSteps m ≤ 2 * m.xferAttempts + 1 := by
  unfold modSteps
  cases m.nativeBitModify with
  | true => exact Nat.succ_le_succ (Nat.zero_le _)
  | false => exact le_rfl

theorem modSteps_native {m : Params} (h : m.nativeBitModify = true) : modSteps m = 1 := if_pos h

/-- RECOVER takes at most its modify, MODE_POLL_LIMIT polls and the read of EFLG (R165, R200). -/
theorem reaches_ovrs {s : State} (h : s.Begins .recs) :
    s.Reaches .ovrs (modSteps s.par + s.par.modePollLimit + 1) (modSteps s.par + s.par.modePollLimit + 1) := by
  by_cases hr : s.recpend = true
  · by_cases hdue : s.recfails = 0 ∨ s.recnext ≤ s.now
    · obtain ⟨n, r, t, hn, hrun⟩ := op_ends .dispatcher (p := .recModify s.modStart) h.delay trivial
      exact h.reaches (pass_recovers h.dstate h.dprog h.agenda hr hdue hrun) hn (recEnd_dstate r t)
        ((hrun.passedTo hn).recEnd r) le_rfl
    · obtain ⟨hf, hnow⟩ := not_or.mp hdue
      have hstep := passDefersRecovery s h.dstate h.dprog hr hf (Nat.not_le.mp hnow)
      exact h.reaches (.step hstep h.agenda nofun) (by omega) rfl
        ((State.PassedTo.refl s).recEnd .backoffPending) (by omega)
  · exact h.reaches (pass_skips_recs h.dstate h.dprog h.agenda (Bool.eq_false_of_not_eq_true hr)) (by omega) rfl
      ((State.PassedTo.refl s).enter _) (by omega)

/-- What OVRS records of one clear, which leaves ERR unhandled if it failed (R201). -/
def State.ovrRecorded (b : Buf) (r : OpResult) (s : State) : State :=
  match r with
  | .ok => s.emit .ovrCleared (ovrMask s.par.layout b) 0 0 0
  | _ => { s.emit .ovrClearFail (ovrMask s.par.layout b) 0 0 0 with errok := false }

theorem ovrEnd_rx0 (r : OpResult) (s : State) : ovrEnd .rx0 r s = ovrsSecond (s.ovrRecorded .rx0 r) := by
  cases r <;> rfl

theorem ovrEnd_rx1 (r : OpResult) (s : State) : ovrEnd .rx1 r s = ovrsEnd (s.ovrRecorded .rx1 r) := by
  cases r <;> rfl

theorem State.PassedTo.ovrRecorded {c : Nat} {s t : State} (h : s.PassedTo c t) (b : Buf) (r : OpResult) :
    s.PassedTo c (t.ovrRecorded b r) := by
  cases r with
  | ok => exact h.emit ..
  | _ => exact (h.emit ..).setErrok false

/-- A clear of an overflow bit that OVRS begins ends within the steps of a modify. -/
theorem ovr_clear_ends {b : Buf} {s s0 : State} (h : s.Begins .ovrs) (ha : s0.agenda = [])
    (hfirst : dispStep s0 = innerAfter (ovrEnd b) (opStep .dispatcher (.ovrClear b s.modStart) s)) :
    ∃ n r t, n ≤ modSteps s.par ∧ PassRuns n s0 (ovrEnd b r t) ∧ (t.ovrRecorded b r).Begins .ovrs ∧
      s.PassedTo (modSteps s.par) (t.ovrRecorded b r) := by
  obtain ⟨n, r, t, hn, hrun⟩ := op_ends .dispatcher (p := .ovrClear b s.modStart) h.delay trivial
  have hp := hrun.passedTo hn
  refine ⟨n, r, t, hn, ?_, h.on (hp.ovrRecorded b r) ?_, hp.ovrRecorded b r⟩
  · rw [← h.dprog_none hp]
    refine .of_run hrun ha (by simp [h.dstate]) hfirst ?_ fun u hu => ovrEnd_dstate (by simp [hu.dstate, h.dstate]) _
    intro q u hq hu
    cases q <;> cases hq
    exact dispStep_ovrs_goes_on (s := { u with dprog := some _ }) (hu.dstate.trans h.dstate) rfl
  · have hd : t.dstate = .ovrs := hrun.frame.dstate.trans h.dstate
    cases r <;> exact hd

/-- OVRS from buffer 1 on. -/
theorem ovrsSecond_reaches {s : State} (h : s.Begins .ovrs) :
    ∃ k t, k ≤ modSteps s.par ∧ PassRuns k (ovrsSecond s) t ∧ t.Begins .wakes ∧ s.PassedTo (modSteps s.par) t := by
  cases h1 : ovrSet s.par.layout .rx1 s.esnap.eflg with
  | true =>
    obtain ⟨n, r, t, hn, hrun, ht, hp⟩ := ovr_clear_ends (s0 := { s with dprog := some (.ovrClear .rx1 s.modStart) }) h
      h.agenda ((dispStep_ovrs_goes_on (s := { s with dprog := some _ }) h.dstate rfl).trans (innerAfter_dprog ..))
    rw [ovrsSecond, if_pos h1]
    rw [ovrEnd_rx1] at hrun
    exact ⟨n, _, hn, hrun, h.on hp.ovrsEnd (ovrsEnd_dstate _), hp.ovrsEnd⟩
  | false =>
    rw [ovrsSecond, if_neg (by simp [h1])]
    have hp := (State.PassedTo.refl s).ovrsEnd
    exact ⟨0, _, Nat.zero_le _, .refl _, h.on hp (ovrsEnd_dstate s), hp.mono (Nat.zero_le _)⟩

/-- OVRS takes at most two modifies (R201). -/
theorem reaches_wakes {s : State} (h : s.Begins .ovrs) :
    s.Reaches .wakes (modSteps s.par + modSteps s.par) (modSteps s.par + modSteps s.par) := by
  have hpos := modSteps_pos s.par
  by_cases hf : errSet s.par.layout s.flags = true ∧ s.errok = true
  · obtain ⟨hf, hok⟩ := hf
    cases h0 : ovrSet s.par.layout .rx0 s.esnap.eflg with
    | true =>
      obtain ⟨n, r, t, hn, hrun, ht, hp⟩ :=
        ovr_clear_ends h h.agenda (dispStep_ovrs_begins h.dstate h.dprog hf hok h0 nofun)
      obtain ⟨k, u, hk, hrun', hu, hp'⟩ := ovrsSecond_reaches ht
      rw [ovrEnd_rx0] at hrun
      rw [hp.par] at hk hp'
      exact ⟨n + k, u, by omega, hrun.trans hrun', hu, hp.trans hp'⟩
    | false =>
      cases h1 : ovrSet s.par.layout .rx1 s.esnap.eflg with
      | true =>
        obtain ⟨n, r, t, hn, hrun, ht, hp⟩ :=
          ovr_clear_ends h h.agenda (dispStep_ovrs_begins h.dstate h.dprog hf hok h1 fun _ => h0)
        rw [ovrEnd_rx1] at hrun
        exact h.reaches hrun (by omega) (ovrsEnd_dstate _) hp.ovrsEnd (by omega)
      | false =>
        refine h.reaches (.step ?_ h.agenda (by simp [ovrsEnd_dstate])) (by omega) (ovrsEnd_dstate s)
          (State.PassedTo.refl s).ovrsEnd (by omega)
        rw [dispStep_ovrs h.dstate, ovrsStep, h.dprog]
        exact (if_pos (by simp [hf, hok])).trans ((if_neg (by simp [h0])).trans (if_neg (by simp [h1])))
  · refine h.reaches (.step ?_ h.agenda (by simp [ovrsEnd_dstate])) (by omega) (ovrsEnd_dstate s)
      (State.PassedTo.refl s).ovrsEnd (by omega)
    rw [dispStep_ovrs h.dstate, ovrsStep, h.dprog]
    exact if_neg (by rwa [Bool.and_eq_true])

theorem reaches_clr {s : State} (h : s.Begins .wakes) : s.Reaches .clr 1 0 :=
  h.reaches (pass_serves_wake h.dstate h.agenda) le_rfl (by rw [wakesStep_eq]) (State.PassedTo.refl s).wakesStep le_rfl

/-- CLR takes at most one modify (R205). -/
theorem reaches_rel {s : State} (h : s.Begins .clr) : s.Reaches .rel (modSteps s.par) (modSteps s.par) := by
  by_cases hh : s.hmask = 0
  · exact h.reaches (pass_clears_none h.dstate h.dprog h.agenda hh) (modSteps_pos s.par) rfl
      ((State.PassedTo.refl s).enter _) (Nat.zero_le _)
  · obtain ⟨n, r, t, hn, hrun⟩ := op_ends .dispatcher (p := .flagClear s.modStart) h.delay trivial
    have hend (u : State) : (clrEnd r u).dstate = .rel := by cases r <;> rfl
    refine h.reaches (.of_op (fin := clrEnd) h.dprog h.agenda (by simp [h.dstate]) hrun ?_ ?_ ?_) hn (hend t)
      ((hrun.passedTo hn).clrEnd r) le_rfl
    · rw [dispStep, h.dstate]
      show clrStep s = _
      rw [clrStep, h.dprog]
      exact if_pos hh
    · intro q u hu
      rw [dispStep, hu.dstate, h.dstate]
      rfl
    · exact fun u => ⟨by simp [hend], by cases r <;> rfl⟩

/-! ## The whole pass -/

/-- From RX0 to REL: both RXREADs, TXS, the snapshot and its CLASSIFY, RECOVER, two overflow clears, WAKES, CLR. -/
theorem rx0_reaches_rel {s : State} (h : s.Begins .rx0) :
    s.Reaches .rel (34 + 4 * modSteps s.par + s.par.modePollLimit + 1)
      (31 + 4 * modSteps s.par + s.par.modePollLimit + 1) := by
  have hrx := (reaches_afterRx (b := .rx0) h).then fun _ _ ht => reaches_afterRx (b := .rx1) ht
  have herr := (hrx.then fun _ _ ht => reaches_errs ht).then fun _ _ ht => reaches_recs ht
  have hrec := herr.then fun _ hp ht => hp ▸ reaches_ovrs ht
  have hovr := hrec.then fun _ hp ht => hp ▸ reaches_wakes ht
  have hclr := (hovr.then fun _ _ ht => reaches_clr ht).then fun _ hp ht => hp ▸ reaches_rel ht
  convert hclr using 1 <;> omega

/-- READF takes one step and one read, whose failure ends the pass (R194). Nothing has been handled before it. -/
theorem readf_reaches {s : State} (h : s.Begins .readf) (hh : s.hmask = 0) :
    s.Reaches .rel 1 1 ∨ s.Reaches .rx0 1 1 := by
  have hstep : dispStep s = some (readfStep s) := by rw [dispStep, h.dstate]
  unfold readfStep at hstep
  rcases hr : s.blockRead s.par.layout.canintf with ⟨r, u⟩
  have hf := OpFrame.blockRead .dispatcher hr
  have hp : s.PassedTo 1 u := .of_frame hf ⟨_, by rw [(State.blockRead_spec hr).2], le_rfl⟩
  rw [hr] at hstep
  cases r with
  | none => exact .inl (h.reaches (.step hstep h.agenda nofun) le_rfl rfl ((hp.enter .rel).emit ..) le_rfl)
  | some f =>
    have hzero : u.hmask = 0 := hf.hmask.trans hh
    have hread : s.PassedTo 1 { u with flags := f } := { hp with mask := fun _ => by simp [State.handlesSeen, hzero] }
    exact .inr (h.reaches (.step hstep h.agenda nofun) le_rfl rfl ((hread.enter .rx0).emit ..) le_rfl)

/-- A pass of either kind has, at its turn, the steps of the bound. -/
theorem exec_passInstr {k : PassKind} {s : State} (hp : s.passReady k) :
    exec (passInstr k) s = .next (runPass s.par.stepBound s) := by
  obtain ⟨hidle, -, -, hevent, htimeout⟩ := hp
  cases k with
  | event => exact congrArg _ (if_pos ⟨hidle, hevent rfl⟩)
  | timeout =>
    obtain ⟨hevq, hdue⟩ := htimeout rfl
    exact congrArg _ (if_pos ⟨hidle, hevq, decide_eq_true hdue⟩)

/-- A pass that reaches REL within its turn ends there (R206). -/
theorem exec_pass_in_turn {k : PassKind} {n : Nat} {s t : State} (hp : s.passReady k) (h : PassRuns n s t)
    (hn : n < s.par.stepBound) (hd : t.dstate = .rel) (ha : t.agenda = []) :
    exec (passInstr k) s = .next (relStep t) := by
  have hrel : dispStep t = some (relStep t) := by rw [dispStep, hd]
  rw [exec_passInstr hp, show s.par.stepBound = n + (s.par.stepBound - n - 1 + 1) by omega, h, runPass_succ hrel ha]
  rfl

/-- A pass that owns LOCK reaches REL. -/
theorem acquired_reaches_rel {k : PassKind} {s : State} (hp : s.passReady k) (ha : s.agenda = [])
    (hd : s.par.pollDelay = 0) : (s.acquired k).Reaches .rel (35 + 4 * modSteps s.par + s.par.modePollLimit + 1)
      (32 + 4 * modSteps s.par + s.par.modePollLimit + 1) := by
  have hbegin : (s.acquired k).Begins .readf := ⟨rfl, hp.2.1, ha, hd⟩
  rcases readf_reaches hbegin rfl with hrel | hrx
  · obtain ⟨n, t, hn, hrun, ht, hpass⟩ := hrel
    exact hbegin.reaches hrun (by omega) ht.dstate hpass (by omega)
  · have hall := hrx.then fun _ hp ht => hp ▸ rx0_reaches_rel ht
    convert hall using 1
    all_goals
      show _ = 1 + (_ + 4 * modSteps s.par + s.par.modePollLimit + 1)
      omega

/-- Settles O46: the pass owns LOCK after two steps, reaches REL within a number of steps that its turn holds, and REL
ends it. -/
theorem passEnds : Obligations.PassEnds := by
  intro s k hp ha hd
  obtain ⟨n, u, hn, hrun, hu, hpass⟩ := acquired_reaches_rel hp ha hd
  have hsteps := modSteps_le s.par
  have hexec := exec_pass_in_turn hp ((pass_acquires hp ha).trans hrun) (by rw [Params.stepBound]; omega) hu.dstate
    hu.agenda
  obtain ⟨mid, hmid⟩ := hpass.evlog
  obtain ⟨tail, hbus, hlen⟩ := hpass.bus
  refine ⟨relStep u, mid, tail, hexec, rfl, hu.dprog, rfl, hpass.evq, hpass.pkind, hpass.now, hpass.now, ?_, ?_,
    hpass.client, hpass.par, hbus, fun hnative => ?_⟩
  · have hmask := hpass.mask (by simp [State.handlesSeen, State.acquired])
    rw [State.handlesSeen, hpass.par] at hmask
    exact hmask
  · show u.evlog ++ _ = _
    rw [← hmid]
    rfl
  · rw [modSteps_native hnative] at hlen
    omega

end Sys2Proof.Machine

/-!
SUPPORT. A receive buffer and its flag under the chip's acts: what a load leaves where, and that no act changes a buffer
whose flag is set or clears that flag (R264, R265).
-/

namespace Sys2Proof.Machine

/-! ## Several bytes written -/

theorem Memory.read_writeAll_other (m : Memory) {cells : List Host.Cell} {a : Nat} (h : ∀ c ∈ cells, c.1 ≠ a) :
    (Memory.writeAll m cells).read a = m.read a := by
  induction cells generalizing m with
  | nil => rfl
  | cons c r ih =>
    obtain ⟨hc, hr⟩ := List.forall_mem_cons.mp h
    exact (ih _ hr).trans (Memory.read_write_other m hc c.2)

/-- Where no two cells share an address, each cell reads back. -/
theorem Memory.read_writeAll_mem (m : Memory) {cells : List Host.Cell} (hd : cells.Pairwise fun x y => x.1 ≠ y.1)
    {c : Host.Cell} (hc : c ∈ cells) : (Memory.writeAll m cells).read c.1 = some c.2 := by
  induction cells generalizing m with
  | nil => cases hc
  | cons d r ih =>
    obtain ⟨hdr, hr⟩ := List.pairwise_cons.mp hd
    rcases List.mem_cons.mp hc with rfl | hc
    · exact (Memory.read_writeAll_other _ fun x hx => (hdr x hx).symm).trans (Memory.read_write_same m c.1 c.2)
    · exact ih _ hr hc

/-! ## A receive buffer as an image -/

/-- An image is its 14 bytes (R92). -/
theorem Image.eq_of_byte {i k : Image} (h : ∀ j, i.byte j = k.byte j) : i = k := by
  have hdata : i.data = k.data := by
    ext1 j hj
    simpa [Image.byte, hj] using h ⟨j + 6, by omega⟩
  cases i
  cases k
  congr
  exacts [h 0, h 1, h 2, h 3, h 4, h 5]

/-- Byte `j` of what a receive buffer holds is its register `j` (R46). -/
theorem State.rxImage_byte (b : Buf) (s : State) (j : Fin 14) :
    (s.rxImage b).byte j = s.chipByte (s.par.layout.rxbBase b + j.val) := by
  fin_cases j <;> rfl

theorem rxFlagSet_or (m : ChipLayout) (b : Buf) (f g : Byte) :
    rxFlagSet m b (f ||| g) = (rxFlagSet m b f || rxFlagSet m b g) := BitVec.getLsbD_or

/-- Flags set in CANINTF set a buffer's flag if it is among them, and clear none. -/
theorem rxFull_setFlags (b : Buf) (s : State) (f : Byte) :
    (s.setBits s.par.layout.canintf f).rxFull b = (s.rxFull b || rxFlagSet s.par.layout b f) :=
  (congrArg (rxFlagSet s.par.layout b) (State.chipByte_putByte_same ..)).trans (rxFlagSet_or ..)

/-! ## Registers apart from a receive buffer -/

/-- The address is of no register of receive buffer b (R46). -/
def ApartFromRx (m : ChipLayout) (b : Buf) (a : Nat) : Prop := ∀ j < 14, a ≠ m.rxbBase b + j

theorem wf_register_apart {m : ChipLayout} (h : m.Wf) (b : Buf) {a : Nat} (ha : a ∈ m.registers) :
    ApartFromRx m b a := fun _ hj => (wf_rxBuffer h b hj ha).symm

theorem wf_canintf_apart {m : ChipLayout} (h : m.Wf) (b : Buf) : ApartFromRx m b m.canintf :=
  wf_register_apart h b (by simp [ChipLayout.registers])

/-- The buffers of a well-formed layout lie apart from each other. -/
theorem wf_buffers_apart {m : ChipLayout} (h : m.Wf) (b : Buf) :
    (∀ b', b' ≠ b → ∀ j < 14, ApartFromRx m b (m.rxbBase b' + j)) ∧ ∀ n, ApartFromRx m b (m.txbBase n) := by
  have hp := h.2.2.2.1
  simp only [ChipLayout.buffers, List.pairwise_cons, List.mem_cons, List.not_mem_nil, or_false, forall_eq_or_imp,
    forall_eq] at hp
  constructor
  · intro b' hb j hj k hk
    cases b <;> cases b' <;> simp only [ChipLayout.rxbBase, ne_eq, not_true_eq_false] at hb ⊢ <;> omega
  · intro n k hk
    cases b <;> fin_cases n <;> simp only [ChipLayout.rxbBase, ChipLayout.txbBase] <;> omega

/-- A transmit buffer's control register is not CANINTF. -/
theorem wf_txbBase_ne_canintf {m : ChipLayout} (h : m.Wf) (n : Fin 3) : m.txbBase n ≠ m.canintf := by
  have hb : m.txbBase n ∈ m.buffers := by fin_cases n <;> simp [ChipLayout.buffers, ChipLayout.txbBase]
  rcases (h.2.2.1 _ hb).2 m.canintf (by simp [ChipLayout.registers]) with h | h <;> omega

/-- The two receive flags of a well-formed layout are different bits. -/
theorem wf_rxBit_inj {m : ChipLayout} (h : m.Wf) {b b' : Buf} (hb : b' ≠ b) : rxBit m b' ≠ rxBit m b := by
  have hne := h.2.2.2.2.1
  simp only [List.nodup_cons, List.mem_cons, not_or] at hne
  obtain ⟨⟨h01, -⟩, -⟩ := hne
  cases b <;> cases b'
  exacts [absurd rfl hb, Ne.symm h01, h01, absurd rfl hb]

/-- A flag's mask sets that buffer's flag alone. -/
theorem rxFlagSet_rxFlag {m : ChipLayout} (h : m.Wf) (b b' : Buf) :
    rxFlagSet m b' (rxFlag m b) = decide (b' = b) := by
  rw [rxFlagSet, rxFlag, bitMask_getLsbD]
  by_cases hb : b' = b
  · simp [hb]
  · simpa [hb, Fin.ext_iff] using wf_rxBit_inj h hb

/-! ## What keeps a receive buffer and its flag -/

/-- Receive buffer b holds in `t` what it holds in `s`, and its flag is still set if it was. -/
structure State.KeepsRx (b : Buf) (s t : State) : Prop where
  par : t.par = s.par
  bytes : ∀ j < 14, t.chipByte (s.par.layout.rxbBase b + j) = s.chipByte (s.par.layout.rxbBase b + j)
  full : s.rxFull b = true → t.rxFull b = true

theorem State.KeepsRx.refl (b : Buf) (s : State) : s.KeepsRx b s := ⟨rfl, fun _ _ => rfl, id⟩

section KeepsRx

variable {b : Buf} {s t : State}

theorem State.KeepsRx.rxImage (h : s.KeepsRx b t) : t.rxImage b = s.rxImage b :=
  Image.eq_of_byte fun j => by rw [State.rxImage_byte, State.rxImage_byte, h.par, h.bytes j j.isLt]

/-- A byte written apart from the buffer and CANINTF. -/
theorem State.KeepsRx.put (h : s.KeepsRx b t) {a : Nat} (ha : ApartFromRx s.par.layout b a)
    (hf : a ≠ s.par.layout.canintf) (v : Byte) : s.KeepsRx b (t.putByte a v) where
  par := h.par
  bytes j hj := (State.chipByte_putByte_other t (ha j hj) v).trans (h.bytes j hj)
  full hs := by
    rw [State.rxFull, State.putByte_par, State.chipByte_putByte_other t (h.par ▸ hf)]
    exact h.full hs

/-- Flags set in CANINTF. -/
theorem State.KeepsRx.setFlags (h : s.KeepsRx b t) (hw : s.layoutInv) (f : Byte) :
    s.KeepsRx b (t.setBits s.par.layout.canintf f) where
  par := h.par
  bytes j hj := (State.chipByte_putByte_other t (wf_canintf_apart hw b j hj) _).trans (h.bytes j hj)
  full hs := by
    rw [← h.par, rxFull_setFlags, h.full hs, Bool.true_or]

end KeepsRx

/-! ## The load of a receive buffer -/

/-- The state in which receive buffer b has been written and its flag not yet set. -/
def State.rxWritten (b : Buf) (img : Image) (s : State) : State :=
  s.setChip (Memory.writeAll s.chip (imageCells s.par.layout b img))

/-- The state after the load of receive buffer b: written, and then flagged (R265). -/
def State.rxLoaded (b : Buf) (img : Image) (s : State) : State :=
  (s.rxWritten b img).setBits s.par.layout.canintf (rxFlag s.par.layout b)

theorem chipStep_loadRx {b : Buf} {s : State} (hf : s.rxFull b = false) (img : Image) :
    chipStep (.loadRx b img) s = .ok (s.rxLoaded b img) := if_neg (by simp [hf])

theorem chipStep_pokeRx {b : Buf} {s : State} (hf : s.rxFull b = false) (j : Fin 14) (v : Byte) :
    chipStep (.pokeRx b j v) s = .ok (s.putByte (s.par.layout.rxbBase b + j.val) v) := if_neg (by simp [hf])

/-- A flagged buffer refuses a load (R251, R265). -/
theorem chipStep_loadRx_full {b : Buf} {s : State} (hf : s.rxFull b = true) (img : Image) :
    chipStep (.loadRx b img) s = .error .chipContract := if_pos hf

/-- A flagged buffer refuses the write of a byte (R251, R265). -/
theorem chipStep_pokeRx_full {b : Buf} {s : State} (hf : s.rxFull b = true) (j : Fin 14) (v : Byte) :
    chipStep (.pokeRx b j v) s = .error .chipContract := if_pos hf

theorem chipByte_rxWritten_self (b : Buf) (img : Image) (s : State) (j : Fin 14) :
    (s.rxWritten b img).chipByte (s.par.layout.rxbBase b + j.val) = img.byte j := by
  have hd : (imageCells s.par.layout b img).Pairwise fun x y => x.1 ≠ y.1 := by
    refine List.pairwise_map.mpr ((List.nodup_finRange 14).imp fun hne he => hne ?_)
    exact Fin.ext (Nat.add_left_cancel he)
  have hread := Memory.read_writeAll_mem s.chip hd (List.mem_map_of_mem (List.mem_finRange j))
  rw [State.rxWritten, State.chipByte_setChip, hread]
  rfl

theorem chipByte_rxWritten_apart {b : Buf} {s : State} {a : Nat} (ha : ApartFromRx s.par.layout b a) (img : Image) :
    (s.rxWritten b img).chipByte a = s.chipByte a := by
  rw [State.rxWritten, State.chipByte_setChip, Memory.read_writeAll_other, State.chipByte]
  intro c hc
  obtain ⟨j, -, rfl⟩ := List.mem_map.mp hc
  exact (ha j j.isLt).symm

/-- A load writes its image into the buffer. -/
theorem rxImage_rxLoaded {b : Buf} {s : State} (hw : s.layoutInv) (img : Image) :
    (s.rxLoaded b img).rxImage b = img := by
  refine Image.eq_of_byte fun j => (State.rxImage_byte ..).trans ?_
  exact (State.chipByte_putByte_other _ (wf_canintf_apart hw b j j.isLt) _).trans (chipByte_rxWritten_self b img s j)

theorem rxFull_rxWritten {b : Buf} {s : State} (hw : s.layoutInv) (img : Image) (b' : Buf) :
    (s.rxWritten b img).rxFull b' = s.rxFull b' :=
  congrArg (rxFlagSet s.par.layout b') (chipByte_rxWritten_apart (wf_canintf_apart hw b) img)

/-- A load sets the buffer's flag and no other. -/
theorem rxFull_rxLoaded {b : Buf} {s : State} (hw : s.layoutInv) (img : Image) (b' : Buf) :
    (s.rxLoaded b img).rxFull b' = (s.rxFull b' || decide (b' = b)) := by
  rw [← rxFull_rxWritten hw img, ← rxFlagSet_rxFlag hw]
  exact rxFull_setFlags ..

/-- A load keeps the other buffer. -/
theorem State.KeepsRx.rxLoaded {b b' : Buf} {s : State} (hw : s.layoutInv) (hb : b' ≠ b) (img : Image) :
    s.KeepsRx b' (s.rxLoaded b img) := by
  obtain ⟨hrx, -⟩ := wf_buffers_apart hw b
  have hwritten : s.KeepsRx b' (s.rxWritten b img) :=
    { par := rfl
      bytes := fun j hj => chipByte_rxWritten_apart (hrx b' hb j hj) img
      full := (rxFull_rxWritten hw img b').trans }
  exact hwritten.setFlags hw _

/-! ## No act of the chip changes a flagged buffer -/

/-- An act of the chip writes CANINTF by setting bits, a flagged buffer never, and otherwise registers apart from both
(R264, R265). -/
theorem chipStep_keepsRx {a : ChipAct} {b : Buf} {s t : State} (hw : s.layoutInv) (hb : s.rxFull b = true)
    (h : chipStep a s = .ok t) : s.KeepsRx b t := by
  obtain ⟨⟨-, -, -, -, hstat, -⟩, -, ⟨-, -, htec, -⟩, ⟨-, hrec, -⟩, -, hflag⟩ := wf_registers hw
  obtain ⟨hrx, htx⟩ := wf_buffers_apart hw b
  have reg {u : State} (hu : s.KeepsRx b u) {x : Nat} (hx : x ∈ s.par.layout.registers)
      (hne : x ≠ s.par.layout.canintf) (v : Byte) : s.KeepsRx b (u.putByte x v) :=
    hu.put (wf_register_apart hw b hx) hne v
  have other {b' : Buf} (hf : s.rxFull b' = false) : b ≠ b' := by
    rintro rfl
    exact absurd hb (by simp [hf])
  have hs := State.KeepsRx.refl b s
  cases a with
  | setFlags m =>
    cases h
    exact hs.setFlags hw m
  | loadRx b' img =>
    cases hf : s.rxFull b' with
    | true => cases (chipStep_loadRx_full hf img).symm.trans h
    | false =>
      cases (chipStep_loadRx hf img).symm.trans h
      exact .rxLoaded hw (other hf) img
  | pokeRx b' j v =>
    cases hf : s.rxFull b' with
    | true => cases (chipStep_pokeRx_full hf j v).symm.trans h
    | false =>
      cases (chipStep_pokeRx hf j v).symm.trans h
      exact hs.put (hrx b' (other hf).symm j j.isLt) (wf_canintf_apart hw b' j j.isLt).symm v
  | overflow b' =>
    simp only [chipStep] at h
    split at h <;> cases h
    exact reg hs (by simp [ChipLayout.registers]) hflag.symm _
  | counters x y z =>
    cases h
    have ht := reg hs (by simp [ChipLayout.registers]) htec x
    have hr := reg ht (by simp [ChipLayout.registers]) hrec y
    exact reg hr (by simp [ChipLayout.registers]) hflag.symm _
  | enterMode =>
    cases h
    exact reg hs (by simp [ChipLayout.registers]) hstat _
  | clearBusOff =>
    cases h
    exact reg hs (by simp [ChipLayout.registers]) hflag.symm _
  | txDone n =>
    cases h
    exact (hs.put (htx n) (wf_txbBase_ne_canintf hw n) _).setFlags hw _

/-- A step that is an act of the environment and answers a next state is that act. -/
theorem envStep_of_step {s t : State} {e : EnvAct} {l : List Act} (ha : s.agenda = .env e :: l)
    (h : step s = .next t) : envStep e { s with agenda := l } = .ok t := by
  cases he : envStep e { s with agenda := l } with
  | error f => cases (step_env_fault ha he).symm.trans h
  | ok u => rw [Host.Outcome.next.inj ((step_env ha he).symm.trans h)]

/-- Settles O59: a flagged buffer refuses its writes and is kept by every other act; a load of an empty one writes it,
flags it and keeps the other. -/
theorem flaggedBufferStable : Obligations.FlaggedBufferStable := by
  intro s l b img j v
  refine ⟨fun hf => ?_, fun hw hf a t ha ht => ?_, fun hw hf ha => ?_⟩
  · exact ⟨fun ha => step_env_fault ha (chipStep_loadRx_full (s := { s with agenda := l }) hf img),
      fun ha => step_env_fault ha (chipStep_pokeRx_full (s := { s with agenda := l }) hf j v)⟩
  · have hk := chipStep_keepsRx (s := { s with agenda := l }) hw hf (envStep_of_step ha ht)
    exact ⟨hk.rxImage, hk.full hf⟩
  · have hfull := rxFull_rxLoaded (b := b) (s := { s with agenda := l }) hw img
    have hload := chipStep_loadRx (s := { s with agenda := l }) hf img
    refine ⟨_, step_env ha hload, by simp [hfull], rxImage_rxLoaded hw img, fun b' hb => ?_⟩
    refine ⟨(State.KeepsRx.rxLoaded hw hb img).rxImage, (hfull b').trans ?_⟩
    rw [decide_eq_false hb, Bool.or_false]
    rfl

end Sys2Proof.Machine

/-!
SUPPORT. The turns of the ISR and of the dispatcher: a waiting edge becomes a token, and the dispatcher starts a pass or
takes the pass's next block step, which follows an edge of the table or stays with its operation.
-/

namespace Sys2Proof.Machine

/-! ## The ISR's turn -/

theorem isrStep_of_edge {s : State} (h : 0 < s.edges) :
    isrStep s =
      { s with edges := s.edges - 1, evq := if s.evq < s.par.evqCap then s.evq + 1 else s.evq } :=
  if_neg h.ne'

/-- Settles O56: the act of the ISR is its one step, whose guard is the waiting edge. -/
theorem isrPushesToken : Obligations.IsrPushesToken := fun s l ha he =>
  step_env ha (congrArg Except.ok (isrStep_of_edge (s := { s with agenda := l }) he))

/-! ## The dispatcher's turn -/

theorem step_dispatcher {s : State} {l : List Act} (ha : s.agenda = .dispatcher :: l) :
    step s = dispatcherTurn { s with agenda := l } := by
  rw [step, ha]

/-- In IDLE without a token, DISPATCH.TO is a wait until the timeout is due (R192). -/
theorem exec_dispatchTo_waits {s : State} (h : ¬ s.idleSince + s.par.wakeTimeout ≤ s.now) :
    exec .dispatchTo s = .next s :=
  congrArg _ (if_neg fun ⟨_, _, hdue⟩ => h (of_decide_eq_true hdue))

/-- From IDLE the turn is R192's choice of a pass. -/
theorem dispatcherTurn_idle {s : State} (hd : s.dstate = .idle) :
    dispatcherTurn s =
      if 0 < s.evq then exec .dispatch s
      else if s.idleSince + s.par.wakeTimeout ≤ s.now then exec .dispatchTo s
      else .next s := by
  rw [dispatcherTurn, if_pos hd]
  split
  · rfl
  · split
    · rfl
    · next hdue => exact exec_dispatchTo_waits hdue

theorem dispatcherTurn_pass {s : State} (hd : s.dstate ≠ .idle) :
    dispatcherTurn s = .next (runPass s.par.stepBound s) := if_neg hd

theorem runPass_none {n : Nat} {s : State} (h : dispStep s = none) : runPass n s = s := by
  cases n with
  | zero => rfl
  | succ n => rw [runPass, h]

theorem runPass_ended {n : Nat} {s t : State} (h : dispStep s = some t) (hd : t.dstate = .idle) :
    runPass (n + 1) s = t := by
  rw [runPass, h]
  exact if_pos hd

theorem runPass_goes_on {n : Nat} {s t : State} (h : dispStep s = some t) (hd : t.dstate ≠ .idle) :
    runPass (n + 1) s =
      match settle .dispatcher s.agenda t with
      | (true, v) => runPass n v
      | (false, v) => v := by
  rw [runPass, h, ← dispStep_agenda h]
  exact if_neg hd

/-- Settles O6: in IDLE the turn is R192's choice; elsewhere it runs the pass on by its next block step. -/
theorem dispatcherStepRunsPass : Obligations.DispatcherStepRunsPass := by
  rintro s _ l ha rfl
  rw [step_dispatcher ha]
  refine ⟨fun hd => dispatcherTurn_idle (s := { s with agenda := l }) hd, fun hd => ?_⟩
  rw [dispatcherTurn_pass (s := { s with agenda := l }) hd]
  refine ⟨fun hn => congrArg _ (runPass_none hn), fun t ht => ?_⟩
  rw [stepBound_succ]
  exact ⟨fun he => congrArg _ (runPass_ended ht he), fun hne => congrArg _ (runPass_goes_on ht hne)⟩

/-! ## The edges of a pass -/

/-- A step of the dispatcher from `s` to `t` follows an edge of R190, or stays while an operation is in progress. -/
def State.Moves (s t : State) : Prop :=
  edge s.dstate t.dstate = true ∨ t.dstate = s.dstate ∧ s.dstate.mayStay = true ∧ t.dprog ≠ none

theorem State.Moves.stay {s t : State} {p : Prog} (hd : t.dstate = s.dstate) (hs : s.dstate.mayStay = true)
    (hp : t.dprog = some p) : s.Moves t :=
  .inr ⟨hd, hs, by simp [hp]⟩

/-- After an inner step a state stays while its operation runs, and moves as `fin` does when the operation ends. -/
theorem innerAfter_moves {fin : OpResult → State → State} {o : OpOut} {s t : State} (hs : s.dstate.mayStay = true)
    (ho : ∀ u, o.state = some u → OpFrame .dispatcher s u)
    (hf : ∀ r (u : State), u.dstate = s.dstate → s.Moves (fin r u)) (h : innerAfter fin o = some t) : s.Moves t := by
  obtain ⟨p, u, rfl, rfl⟩ | ⟨r, u, rfl, rfl⟩ := innerAfter_cases h
  · exact .stay (ho u rfl).dstate hs rfl
  · exact hf r _ (ho u rfl).dstate

/-- SNAPERR's end stays in ERRS for CLASSIFY or leaves it. -/
theorem snapEnd_moves {s u : State} (hd : s.dstate = .errs) (hu : u.dstate = s.dstate) (r : OpResult) :
    s.Moves (snapEnd r u) := by
  by_cases hr : r = .ok
  · subst hr
    exact .stay hu (by rw [hd]; rfl) rfl
  · refine .inl ?_
    rw [snapEnd_of_failed hr, errEnd_dstate, hd]
    rfl

theorem ovrsEnd_moves {s u : State} (hd : s.dstate = .ovrs) : s.Moves (ovrsEnd u) := by
  refine .inl ?_
  rw [ovrsEnd_dstate, hd]
  rfl

/-- An overflow clear's end stays in OVRS for buffer 1's or leaves it. -/
theorem ovrEnd_moves {s u : State} (hd : s.dstate = .ovrs) (hu : u.dstate = s.dstate) (b : Buf) (r : OpResult) :
    s.Moves (ovrEnd b r u) := by
  cases b with
  | rx0 =>
    rw [ovrEnd_rx0, ovrsSecond]
    split
    · exact .stay (by cases r <;> exact hu) (by rw [hd]; rfl) rfl
    · exact ovrsEnd_moves hd
  | rx1 =>
    rw [ovrEnd_rx1]
    exact ovrsEnd_moves hd

theorem rxStep_moves {b : Buf} {s t : State} (hd : s.dstate = rxState b) (h : rxStep b s = some t) : s.Moves t := by
  have leaves : edge s.dstate (afterRx b) = true := by rw [hd]; cases b <;> rfl
  unfold rxStep at h
  split at h
  · refine innerAfter_moves (by rw [hd]; cases b <;> rfl) (fun _ hu => innerStep_frame hu) (fun r u _ => .inl ?_) h
    rwa [rxEnd_dstate]
  · cases h; exact .inl leaves

theorem errsStep_moves {s t : State} (hd : s.dstate = .errs) (h : errsStep s = some t) : s.Moves t := by
  have hs : s.dstate.mayStay = true := by rw [hd]; rfl
  unfold errsStep at h
  split at h
  · split at h
    · refine innerAfter_moves hs (fun _ hu => opStep_frame hu) (fun r u _ => .inl ?_) h
      rw [errEnd_dstate, hd]
      rfl
    · exact innerAfter_moves hs (fun _ hu => innerStep_frame hu) (fun r _ hu => snapEnd_moves hd hu r) h
  · cases h; exact .inl (by rw [hd]; rfl)

theorem recsStep_moves {s t : State} (hd : s.dstate = .recs) (h : recsStep s = some t) : s.Moves t := by
  unfold recsStep at h
  split at h
  · refine innerAfter_moves (by rw [hd]; rfl) (fun _ hu => innerStep_frame hu) (fun r u _ => .inl ?_) h
    rw [recEnd_dstate, hd]
    rfl
  · cases h; exact .inl (by rw [hd]; rfl)

theorem ovrsStep_moves {s t : State} (hd : s.dstate = .ovrs) (h : ovrsStep s = some t) : s.Moves t := by
  have hs : s.dstate.mayStay = true := by rw [hd]; rfl
  have inner {b : Buf} (h : innerAfter (ovrEnd b) (innerStep (.clrovr b) s) = some t) : s.Moves t :=
    innerAfter_moves hs (fun _ hu => innerStep_frame hu) (fun r _ hu => ovrEnd_moves hd hu b r) h
  unfold ovrsStep at h
  split at h
  · exact innerAfter_moves hs (fun _ hu => opStep_frame hu) (fun r _ hu => ovrEnd_moves hd hu _ r) h
  · split at h
    · split at h
      · exact inner h
      · split at h
        · exact inner h
        · cases h; exact ovrsEnd_moves hd
    · cases h; exact ovrsEnd_moves hd

theorem clrEnd_dstate (r : OpResult) (s : State) : (clrEnd r s).dstate = .rel := by
  cases r <;> rfl

/-- CLR's clear is that of a progress or its own beginning, and ends in REL. -/
theorem clrStep_moves {s t : State} (hd : s.dstate = .clr) (h : clrStep s = some t) : s.Moves t := by
  have clear {p : Prog} (h : innerAfter clrEnd (opStep .dispatcher p s) = some t) : s.Moves t := by
    refine innerAfter_moves (by rw [hd]; rfl) (fun _ hu => opStep_frame hu) (fun r u _ => .inl ?_) h
    rw [clrEnd_dstate, hd]
    rfl
  unfold clrStep at h
  split at h
  · exact clear h
  · split at h
    · exact clear (p := .flagClear s.modStart) h
    · cases h; exact .inl (by rw [hd]; rfl)

theorem readfStep_moves {s : State} (hd : s.dstate = .readf) : s.Moves (readfStep s) := by
  refine .inl ?_
  rw [hd, readfStep]
  split <;> rfl

/-- Settles O50: each state follows its edge, or stays with its operation in progress. -/
theorem dispatcherEdges : Obligations.DispatcherEdges := by
  intro s t h
  show s.Moves t
  unfold dispStep at h
  cases hd : s.dstate <;> simp only [hd] at h
  case idle =>
    unfold idleStep at h
    split at h
    · cases h; exact .inl (by rw [hd]; rfl)
    · split at h <;> cases h
      exact .inl (by rw [hd]; rfl)
  case acq =>
    unfold acqStep at h
    split at h <;> cases h
    exact .inl (by rw [hd]; rfl)
  case readf => cases h; exact readfStep_moves hd
  case rx0 => exact rxStep_moves (b := .rx0) hd h
  case rx1 => exact rxStep_moves (b := .rx1) hd h
  case txs => cases h; exact .inl (by rw [hd, txsStep_eq]; rfl)
  case errs => exact errsStep_moves hd h
  case recs => exact recsStep_moves hd h
  case ovrs => exact ovrsStep_moves hd h
  case wakes => cases h; exact .inl (by rw [hd, wakesStep_eq]; rfl)
  case clr => exact clrStep_moves hd h
  case rel => cases h; exact .inl (by rw [hd]; rfl)

end Sys2Proof.Machine

/-!
SUPPORT. Transactions whose draws are listed: one that succeeds at its first attempt, and a native modify that fails on
all its attempts. From them: what a client's CLROVR, RECOVER and SNAPERR do when a transaction fails, and a pass whose
flag read or final clear fails.
-/

namespace Sys2Proof.Machine

/-! ## A transaction that succeeds -/

/-- The next attempt of a transaction succeeds and leaves the draws `ds`; an attempt beyond the draws succeeds (R64). -/
def State.NextOk (ds : List XDraw) (s : State) : Prop := s.xport = .ok :: ds ∨ s.xport = [] ∧ ds = []

theorem tryXfer_of_nextOk {s : State} {ds : List XDraw} (h : s.NextOk ds) (n : Nat) :
    tryXfer (n + 1) s.xport = { ok := true, landed := true, rest := ds } := by
  obtain hx | ⟨hx, rfl⟩ := h <;> rw [hx] <;> rfl

theorem blockRead_of_nextOk {s : State} {ds : List XDraw} (h : s.NextOk ds) (a : Nat) :
    s.blockRead a = (some (s.chipByte a), { s.haveRead [a] with xport := ds }) := by
  rw [State.blockRead, State.xferRead, Params.xferAttempts, tryXfer_of_nextOk h]
  rfl

theorem modStep_of_nextOk {s : State} {ds : List XDraw} (h : s.NextOk ds) (hn : s.par.nativeBitModify = true) (a : Nat)
    (m v : Byte) (st : ModStage) :
    s.modStep a m v st = .done true (State.afterModify a m v { s with xport := ds }) := by
  simp only [State.modStep, hn, if_true, State.xferModify, Params.xferAttempts, tryXfer_of_nextOk h, State.afterModify,
    modifyBy]
  rfl

/-! ## A native modify that fails -/

/-- The state once a native modify of register `a` has failed on all its attempts, where one that lands writes `w`
(R62, R64). -/
def State.modifyFailed (a : Nat) (m v w : Byte) (ls : List Bool) (rest : List XDraw) (s : State) : State :=
  { s with
    chip := if true ∈ ls then Memory.write s.chip a w else s.chip
    xport := rest
    bus := s.bus ++ [⟨s.lock, .modify a m v⟩] }

theorem chipByte_modifyFailed (a : Nat) (m v w : Byte) (ls : List Bool) (rest : List XDraw) (s : State) (b : Nat) :
    (s.modifyFailed a m v w ls rest).chipByte b = if b = a ∧ true ∈ ls then w else s.chipByte b := by
  by_cases h : true ∈ ls
  · rw [chipByte_of_write (s := s) (t := s.modifyFailed a m v w ls rest) (if_pos h) rfl]
    simp only [h, and_true]
  · rw [State.chipByte_congr (s := s) (t := s.modifyFailed a m v w ls rest) (if_neg h) rfl]
    simp only [h, and_false, if_false]

theorem modStep_fails_writes {s : State} {a : Nat} {m v w : Byte} {ls : List Bool} {rest : List XDraw}
    (hn : s.par.nativeBitModify = true) (hl : ls.length = s.par.xferAttempts) (hx : s.xport = ls.map XDraw.fail ++ rest)
    (hw : ∀ bus, State.storeReg { s with bus := bus, xport := rest } a (modified (s.chipByte a) m v) =
      { s with bus := bus, xport := rest, chip := Memory.write s.chip a w })
    (st : ModStage) :
    s.modStep a m v st = .done false (s.modifyFailed a m v w ls rest) := by
  rw [State.modStep_fails s a m v st hn hl hx, State.modifyFailed]
  by_cases h : true ∈ ls
  · have hland : ls.any id = true := by simpa using h
    rw [if_pos hland, if_pos h]
    exact congrArg _ (hw _)
  · have hland : ¬ ls.any id = true := by simpa using h
    rw [if_neg hland, if_neg h]

/-! ## CLROVR by a client -/

/-- Whoever issues it, an operation other than RXREAD takes the same steps. -/
theorem opStep_who {p : Prog} (hp : ∀ b, p.op ≠ some (.rxread b)) (who who' : Issuer) (s : State) :
    opStep who p s = opStep who' p s := by
  cases p with
  | rxHeader b _ => exact absurd rfl (hp b)
  | rxCtrl b _ => exact absurd rfl (hp b)
  | rxData b _ _ => exact absurd rfl (hp b)
  | _ => rfl

theorem OpRuns.who {who : Issuer} {n : Nat} {p : Prog} {s t : State} {r : OpResult} (h : OpRuns who n p s r t)
    (hp : ∀ b, p.op ≠ some (.rxread b)) (who' : Issuer) : OpRuns who' n p s r t := by
  induction h with
  | last h => exact .last ((opStep_who hp who' _ _).trans h)
  | more h _ ih =>
    have hq := (opStep_running h).1
    exact .more ((opStep_who hp who' _ _).trans h) (ih fun b => hq ▸ hp b)

/-- A CLROVR by a client ends as its run from the modify does. -/
theorem exec_clrovr_runs {b : Buf} {n : Nat} {r : OpResult} {s t : State} (hp : s.portReady) (ha : s.agenda = [])
    (hn : n ≤ 71) (h : OpRuns .client n (.ovrClear b s.modStart) { s with lock := .client s.client } r t) :
    exec (.clrovr b) s = .next (t.raise r) :=
  exec_lockOp_runs (op := .clrovr b) (u := { s with lock := .client s.client }) hp ha hn (fun _ => rfl) h

/-- Settles O26: the run of an undisturbed overflow clear. -/
theorem clrovrClearsOneBit : Obligations.ClrovrClearsOneBit := by
  intro s b hp hq hm
  obtain ⟨n, hn, h⟩ := ovrClear_runs (s := { s with lock := .client s.client }) hm hq.2 b
  refine ⟨_, exec_clrovr_runs hp hq.1 (by omega) (h.who (by simp [Prog.op]) .client), ?_, chipByte_ovrCleared b s⟩
  simp [State.raise, State.ovrCleared, State.chipByte, OpResult.ok_byte, hp.1, hp.2]

theorem OpResult.transportFailure_one_byte : (OpResult.transportFailure 1).byte = 0x12 := rfl

/-- Settles O27: the clear's one modify fails. -/
theorem clrovrTransportFailure : Obligations.ClrovrTransportFailure := by
  intro s b ls rest hp ha hm hn hl hx
  have h := ovrClearStep_fails (s := { s with lock := .client s.client }) hm hn hl hx b s.modStart
  refine ⟨_, exec_clrovr_runs hp ha (by decide) (.last h), ?_, chipByte_ovrClearFailed b ls rest s⟩
  simp [State.raise, State.ovrClearFailed, OpResult.transportFailure_one_byte, hp.1, hp.2]

/-! ## RECOVER by a client -/

/-- A RECOVER by a client whose first poll reads Normal ends as its read of EFLG does. -/
theorem exec_recover_at_first_poll {s t : State} {r : OpResult} (hp : s.portReady) (hq : s.quiet) (hm : s.layoutInv)
    (hdue : s.recfails = 0 ∨ s.recnext ≤ s.now)
    (hmode : modeNormal s.par.layout (s.chipByte s.par.layout.canstat) = true)
    (hend : recEflgStep 1 ((State.modeRequested { s with lock := .client s.client }).haveRead [s.par.layout.canstat]) =
      .done r t) :
    exec .recover s = .next (t.raise r) := by
  obtain ⟨n, hn, h⟩ :=
    recover_at_first_poll (who := .client) (s := { s with lock := .client s.client }) hm hq.2 hmode hend
  obtain ⟨k, hk⟩ := stepBound_eq s.par
  exact exec_recover_runs hp hq.1 hdue (by omega) h

/-- Settles O29: the run of an attempt whose first poll reads Normal, ended by its read of EFLG. -/
theorem recoverAtFirstPoll : Obligations.RecoverAtFirstPoll := by
  intro s hp hq hm hdue hmode
  have hread := recEflgStep_after_poll (s := { s with lock := .client s.client }) hm hq.2
  have hexec {r : OpResult} {t : State} := exec_recover_at_first_poll (r := r) (t := t) hp hq hm hdue
    (beq_iff_eq.mpr hmode)
  by_cases hbo : (s.chipByte s.par.layout.eflg).getLsbD s.par.layout.txboBit.val = true
  · refine ⟨_, hexec (hread.trans (if_pos hbo)), ?_, rfl, chipByte_modeRequested s⟩
    rw [if_neg (by simp [hbo])]
    simp [State.raise, recoveryFailed_eq, State.haveRead, State.modeRequested, OpResult.recoveryFailed_byte, hp.1, hp.2]
  · refine ⟨_, hexec (hread.trans (if_neg hbo)), ?_, rfl, chipByte_modeRequested s⟩
    rw [if_pos (Bool.eq_false_iff.mpr hbo)]
    simp [State.raise, State.recovered, State.haveRead, State.modeRequested, OpResult.ok_byte, hp.1, hp.2]

/-- The mode request writes one byte and makes no edge of INT (R48, R165). -/
theorem storeReg_modeRequest {s : State} (hm : s.layoutInv) :
    s.storeReg s.par.layout.canctrl (modified (s.chipByte s.par.layout.canctrl) (reqopMask s.par.layout)
        (reqopField s.par.layout .normal)) =
      { s with
        chip := Memory.write s.chip s.par.layout.canctrl
          ((s.chipByte s.par.layout.canctrl &&& ~~~reqopMask s.par.layout) ||| reqopField s.par.layout .normal) } := by
  obtain ⟨⟨hstat, -⟩, ⟨htec, hrec, hinte, hintf, heflg⟩, -⟩ := wf_registers hm
  rw [storeReg_no_edge hintf hinte, written_plain heflg htec hrec hstat.symm, modified, reqopField_within]

/-- The state once a native mode request has failed on all its attempts. -/
def State.modeRequestFailed (ls : List Bool) (rest : List XDraw) (s : State) : State :=
  s.modifyFailed s.par.layout.canctrl (reqopMask s.par.layout) (reqopField s.par.layout .normal)
    ((s.chipByte s.par.layout.canctrl &&& ~~~reqopMask s.par.layout) ||| reqopField s.par.layout .normal) ls rest

theorem chipByte_modeRequestFailed (ls : List Bool) (rest : List XDraw) (s : State) (a : Nat) :
    (s.modeRequestFailed ls rest).chipByte a =
      if a = s.par.layout.canctrl ∧ true ∈ ls then
        (s.chipByte s.par.layout.canctrl &&& ~~~reqopMask s.par.layout) ||| reqopField s.par.layout .normal
      else s.chipByte a :=
  chipByte_modifyFailed s.par.layout.canctrl (reqopMask s.par.layout) (reqopField s.par.layout .normal) _ ls rest s a

theorem recModifyStep_fails {s : State} (hm : s.layoutInv) (hn : s.par.nativeBitModify = true) {ls : List Bool}
    {rest : List XDraw} (hl : ls.length = s.par.xferAttempts) (hx : s.xport = ls.map XDraw.fail ++ rest)
    (m : ModStage) :
    recModifyStep m s = .done (.transportFailure 1) (s.modeRequestFailed ls rest).recoveryFailed := by
  have hfail := modStep_fails_writes (a := s.par.layout.canctrl) (m := reqopMask s.par.layout)
    (v := reqopField s.par.layout .normal)
    (w := (s.chipByte s.par.layout.canctrl &&& ~~~reqopMask s.par.layout) ||| reqopField s.par.layout .normal) hn hl hx
    (fun bus => storeReg_modeRequest (s := { s with bus := bus, xport := rest }) hm) m
  rw [recModifyStep, hfail]
  rfl

theorem recModifyStep_of_nextOk {s : State} (hm : s.layoutInv) (hn : s.par.nativeBitModify = true) {ds : List XDraw}
    (hx : s.NextOk ds) (m : ModStage) :
    recModifyStep m s = .running (.recPoll 1) { s.modeRequested with xport := ds } := by
  rw [recModifyStep, modStep_of_nextOk hx hn]
  exact congrArg _ (afterModify_modeRequested (s := { s with xport := ds }) hm)

theorem recPollStep_of_nextOk {s : State} {ds : List XDraw} (hx : s.NextOk ds) (p : Nat)
    (hm : modeNormal s.par.layout (s.chipByte s.par.layout.canstat) = true) :
    recPollStep p s = .running (.recEflg p) { s.haveRead [s.par.layout.canstat] with xport := ds } := by
  rw [recPollStep, blockRead_of_nextOk hx]
  exact if_pos hm

/-- A poll that fails on all its attempts fails the attempt at recovery (R165). -/
theorem recPollStep_fails {s : State} {ls : List Bool} {rest : List XDraw} (hl : ls.length = s.par.xferAttempts)
    (hx : s.xport = ls.map XDraw.fail ++ rest) (p : Nat) :
    recPollStep p s = .done (.transportFailure (p + 1))
      (State.recoveryFailed { s.haveRead [s.par.layout.canstat] with xport := rest }) := by
  rw [recPollStep, State.blockRead_fails s _ hl hx]
  rfl

/-- So does the read of EFLG (R164). -/
theorem recEflgStep_fails {s : State} {ls : List Bool} {rest : List XDraw} (hl : ls.length = s.par.xferAttempts)
    (hx : s.xport = ls.map XDraw.fail ++ rest) (p : Nat) :
    recEflgStep p s = .done (.transportFailure (p + 2))
      (State.recoveryFailed { s.haveRead [s.par.layout.eflg] with xport := rest }) := by
  rw [recEflgStep, State.blockRead_fails s _ hl hx]
  rfl

/-- The state once the attempt at recovery has failed with its transaction number k+1, the first poll reading Normal. -/
def State.recoverFailedAt (k : Fin 3) (ls : List Bool) (rest : List XDraw) (s : State) : State :=
  match k with
  | 0 => (s.modeRequestFailed ls rest).recoveryFailed
  | 1 => State.recoveryFailed { s.modeRequested.haveRead [s.par.layout.canstat] with xport := rest }
  | 2 =>
    State.recoveryFailed
      { (s.modeRequested.haveRead [s.par.layout.canstat]).haveRead [s.par.layout.eflg] with xport := rest }

theorem chipByte_recoverFailedAt (k : Fin 3) (ls : List Bool) (rest : List XDraw) (s : State) (a : Nat) :
    (s.recoverFailedAt k ls rest).chipByte a =
      if a = s.par.layout.canctrl ∧ (0 < k.val ∨ true ∈ ls) then
        (s.chipByte s.par.layout.canctrl &&& ~~~reqopMask s.par.layout) ||| reqopField s.par.layout .normal
      else s.chipByte a := by
  match k with
  | 0 => exact (chipByte_modeRequestFailed ls rest s a).trans (by simp)
  | 1 | 2 => exact (chipByte_modeRequested s a).trans (by simp)

/-- RECOVER whose transaction number k+1 fails, those before it having succeeded and the first poll reading Normal. -/
theorem recover_fails_at (who : Issuer) {s : State} (k : Fin 3) {ls : List Bool} {rest : List XDraw} (hm : s.layoutInv)
    (hn : s.par.nativeBitModify = true) (hl : ls.length = s.par.xferAttempts)
    (hx : s.xport = List.replicate k.val XDraw.ok ++ ls.map XDraw.fail ++ rest)
    (hmode : modeNormal s.par.layout (s.chipByte s.par.layout.canstat) = true) :
    OpRuns who (k.val + 1) (.recModify s.modStart) s (.transportFailure (k.val + 1)) (s.recoverFailedAt k ls rest) := by
  have request (ds : List XDraw) (h : s.xport = .ok :: ds) := recModifyStep_of_nextOk hm hn (.inl h) s.modStart
  match k with
  | 0 => exact .last (recModifyStep_fails hm hn hl hx _)
  | 1 =>
    exact .more (request _ hx) (.last
      (recPollStep_fails (s := { s.modeRequested with xport := ls.map XDraw.fail ++ rest }) hl rfl 1))
  | 2 =>
    have hpoll := recPollStep_of_nextOk
      (s := { s.modeRequested with xport := .ok :: (ls.map XDraw.fail ++ rest) }) (.inl rfl) 1
      ((modeNormal_modeRequested hm).trans hmode)
    have hread := recEflgStep_fails
      (s := { s.modeRequested.haveRead [s.par.layout.canstat] with xport := ls.map XDraw.fail ++ rest }) hl rfl 1
    exact .more (request _ hx) (.more (q := .recEflg 1) hpoll (.last hread))

/-- Settles O31: the run that ends with the failing transaction. -/
theorem recoverTransportFailure : Obligations.RecoverTransportFailure := by
  intro s k ls rest hp ha hm hn hl hx hdue hmode
  have h := recover_fails_at .client (s := { s with lock := .client s.client }) k hm hn hl hx (beq_iff_eq.mpr hmode)
  obtain ⟨j, hj⟩ := stepBound_eq s.par
  refine ⟨_, exec_recover_runs hp ha hdue (by omega) h, ?_,
    chipByte_recoverFailedAt k ls rest { s with lock := .client s.client }⟩
  rw [State.raise, transportFailure_byte]
  match k with
  | 0 =>
    simp [State.recoverFailedAt, State.modeRequestFailed, State.modifyFailed, recoveryFailed_eq, readsBy, hp.1, hp.2]
  | 1 | 2 =>
    simp [State.recoverFailedAt, State.modeRequested, State.haveRead, modifyBy, recoveryFailed_eq, readsBy, hn, hp.1,
      hp.2]

/-! ## SNAPERR by a client -/

theorem snapEflgStep_of_nextOk {s : State} {ds : List XDraw} (hx : s.NextOk ds) :
    snapEflgStep s = .running (.snapTec (s.chipByte s.par.layout.eflg))
      { s.haveRead [s.par.layout.eflg] with xport := ds } := by
  rw [snapEflgStep, blockRead_of_nextOk hx]

theorem snapTecStep_of_nextOk {s : State} {ds : List XDraw} (hx : s.NextOk ds) (e : Byte) :
    snapTecStep e s = .running (.snapRec e (s.chipByte s.par.layout.tec))
      { s.haveRead [s.par.layout.tec] with xport := ds } := by
  rw [snapTecStep, blockRead_of_nextOk hx]

/-- SNAPERR whose read number k+1 fails, those before it having succeeded: it leaves ESNAP, whatever it held. -/
theorem snapshot_fails_at (who : Issuer) {s : State} (k : Fin 3) {ls : List Bool} {rest : List XDraw}
    (hl : ls.length = s.par.xferAttempts)
    (hx : s.xport = List.replicate k.val XDraw.ok ++ ls.map XDraw.fail ++ rest) :
    OpRuns who (k.val + 1) .snapEflg s (.transportFailure (k.val + 1))
      { s.haveRead ([s.par.layout.eflg, s.par.layout.tec, s.par.layout.recCounter].take (k.val + 1)) with
        xport := rest } := by
  match k with
  | 0 => exact .last (snapshot_read_fails hl hx).1
  | 1 =>
    have hlast := (snapshot_read_fails
      (s := { s.haveRead [s.par.layout.eflg] with xport := ls.map XDraw.fail ++ rest }) hl rfl).2.1
    refine .more (snapEflgStep_of_nextOk (.inl hx)) (.last ((hlast _).trans ?_))
    simp [State.haveRead, readsBy]
  | 2 =>
    have htec := snapTecStep_of_nextOk
      (s := { s.haveRead [s.par.layout.eflg] with xport := .ok :: (ls.map XDraw.fail ++ rest) }) (.inl rfl)
    have hlast := (snapshot_read_fails
      (s := { (s.haveRead [s.par.layout.eflg]).haveRead [s.par.layout.tec] with xport := ls.map XDraw.fail ++ rest })
      hl rfl).2.2
    refine .more (snapEflgStep_of_nextOk (.inl hx)) (.more (q := .snapRec _ _) (htec _) (.last ((hlast _ _).trans ?_)))
    simp [State.haveRead, readsBy]

/-- Settles O23: the run that ends with the failing read. -/
theorem snaperrTransportFailure : Obligations.SnaperrTransportFailure := by
  intro s k ls rest hp ha hl hx
  have h := snapshot_fails_at .client
    (s := { s with lock := .client s.client, esnap := { s.esnap with valid := false } }) k hl hx
  refine (exec_lockOp_runs (op := .snaperr) hp ha (by omega) (fun _ => rfl) h).trans ?_
  rw [State.raise, transportFailure_byte]
  simp [State.haveRead, hp.1, hp.2]

/-! ## A pass whose flag read fails -/

/-- READF whose read fails on all its attempts goes to REL (R194). -/
theorem readfStep_fails {s : State} {ls : List Bool} {rest : List XDraw} (hl : ls.length = s.par.xferAttempts)
    (hx : s.xport = ls.map XDraw.fail ++ rest) :
    readfStep s =
      { s.haveRead [s.par.layout.canintf] with
        dstate := .rel, xport := rest, evlog := s.evlog ++ [⟨.flagsReadFail, 0, 0, 0, 0⟩] } := by
  rw [readfStep, State.blockRead_fails s _ hl hx]
  rfl

/-- Settles O37: the pass acquires LOCK, fails its read and is in REL. -/
theorem passFlagReadFailure : Obligations.PassFlagReadFailure := by
  intro s k ls rest hp ha hl hx
  have hfail := readfStep_fails (s := s.acquired k) hl hx
  have hread : PassRuns 1 (s.acquired k) (readfStep (s.acquired k)) :=
    .step rfl ha (by rw [hfail]; nofun)
  rw [hfail] at hread
  rw [exec_pass hp ((pass_acquires hp ha).trans hread) (by decide) rfl ha]
  obtain ⟨hidle, -, hlock, -, -⟩ := hp
  simp [relStep, State.emit, State.acquired, State.haveRead, readsBy, hidle, hlock]

/-! ## A final clear that fails -/

theorem flagClearStep_fails {s : State} (hm : s.layoutInv) (hn : s.par.nativeBitModify = true) {ls : List Bool}
    {rest : List XDraw} (hl : ls.length = s.par.xferAttempts) (hx : s.xport = ls.map XDraw.fail ++ rest)
    (m : ModStage) :
    flagClearStep m s = .done (.transportFailure 1)
      (s.modifyFailed s.par.layout.canintf s.hmask 0x00 (s.chipByte s.par.layout.canintf &&& ~~~s.hmask) ls rest) := by
  have hfail := modStep_fails_writes (a := s.par.layout.canintf) (m := s.hmask) (v := 0x00)
    (w := s.chipByte s.par.layout.canintf &&& ~~~s.hmask) hn hl hx
    (fun bus => storeReg_canintf_clear (s := { s with bus := bus, xport := rest }) hm s.hmask) m
  rw [flagClearStep, hfail]

theorem dispStep_clr {s : State} (hd : s.dstate = .clr) : dispStep s = clrStep s := by
  rw [dispStep, hd]

/-- Settles O45: the clear is one modify, and its failure is CLR's to record. -/
theorem finalClearFails : Obligations.FinalClearFails := by
  intro s ls rest hd hp hm hn hh hl hx
  have hstep : dispStep s = innerAfter clrEnd (flagClearStep s.modStart s) := by
    rw [dispStep_clr hd, clrStep, hp]
    exact if_pos hh
  rw [hstep, flagClearStep_fails hm hn hl hx]
  refine ⟨_, rfl, ?_, chipByte_modifyFailed s.par.layout.canintf s.hmask 0x00 _ ls rest s⟩
  simp [clrEnd, State.emit, State.modifyFailed, hp]

/-- A write of CANINTF is stored whole (R62). -/
theorem written_canintf {m : ChipLayout} (hm : m.Wf) (old v : Byte) : written m m.canintf old v = v := by
  obtain ⟨⟨-, -, -, -, hstat, -⟩, -, ⟨-, -, htec, -⟩, ⟨-, hrec, -⟩, -, heflg⟩ := wf_registers hm
  exact written_plain heflg htec.symm hrec.symm hstat.symm old v

/-- Settles O55: the write half stores what the read half read, whatever CANINTF holds by then. -/
theorem nonNativeClearLosesFlag : Obligations.NonNativeClearLosesFlag := by
  intro s n read hm hn hx hd hp
  have hcleared : modified read s.hmask 0x00 = read &&& ~~~s.hmask := by simp [modified]
  have hstep : dispStep s = innerAfter clrEnd (flagClearStep (.write n read) s) := by
    rw [dispStep_clr hd, clrStep, hp]
    rfl
  rw [hstep, flagClearStep, State.modStep_write_quiet _ _ _ _ n read hn hx]
  refine ⟨_, rfl, rfl, ?_⟩
  exact (State.chipByte_storeReg _ _ _ _).trans ((if_pos rfl).trans ((written_canintf hm _ _).trans hcleared))

end Sys2Proof.Machine

/-!
SUPPORT. Which chip register a block step can change: the one whose modify its operation has in progress. From it: with
a native modify only CLR changes CANINTF.
-/

namespace Sys2Proof.Machine

/-! ## Steps that write no chip register -/

theorem storeImage_chip (who : Issuer) (j : Fin 14) (v : Byte) (s : State) : (s.storeImage who j v).chip = s.chip := by
  cases who <;> rfl

theorem blockRead_chip {s t : State} {a : Nat} {r : Option Byte} (h : s.blockRead a = (r, t)) : t.chip = s.chip := by
  rw [(State.blockRead_spec h).2]

/-- A byte read into the image register. -/
theorem blockRead_store_chip {s t : State} {a : Nat} {r : Option Byte} (h : s.blockRead a = (r, t)) (who : Issuer)
    (j : Fin 14) (v : Byte) : (t.storeImage who j v).chip = s.chip :=
  (storeImage_chip who j v t).trans (blockRead_chip h)

theorem rxNext_chip {who : Issuer} {b : Buf} {n : Fin 9} {i : Nat} {s t : State}
    (h : (rxNext who b n i s).state = some t) : t.chip = s.chip := by
  have finish (h : (rxFinish who n s).state = some t) : t.chip = s.chip := by
    cases h; cases who <;> rfl
  unfold rxNext at h
  split at h
  · split at h
    · cases h; rfl
    · exact finish h
  · exact finish h

theorem rxHeaderDone_chip {who : Issuer} {b : Buf} {s t : State} (h : (rxHeaderDone who b s).state = some t) :
    t.chip = s.chip := by
  unfold rxHeaderDone at h
  dsimp only at h
  split at h
  · split at h
    · cases h; rfl
    · exact rxNext_chip h
  · cases h; rfl

theorem classifyOp_chip {s t : State} (h : (classifyOp s).state = some t) : t.chip = s.chip := by
  unfold classifyOp at h
  split at h <;> cases h
  · cases classifyErr s.par.layout s.esnap.eflg s.esnap.tec s.esnap.recv <;> rfl
  · rfl

theorem recFail_chip {r : OpResult} {s t : State} (h : (recFail r s).state = some t) : t.chip = s.chip := by
  cases h; rfl

theorem recPollStep_chip {p : Nat} {s t : State} (h : (recPollStep p s).state = some t) : t.chip = s.chip := by
  unfold recPollStep at h
  rcases hr : s.blockRead s.par.layout.canstat with ⟨_ | v, u⟩ <;> rw [hr] at h <;> dsimp only at h
  all_goals have hu := blockRead_chip hr
  · exact (recFail_chip h).trans hu
  · split at h
    · cases h; exact hu
    · split at h
      · cases h; exact hu
      · exact (recFail_chip h).trans hu

theorem opStart_chip {op : LockOp} {s t : State} (h : (opStart op s).state = some t) : t.chip = s.chip := by
  cases op with
  | classify => exact classifyOp_chip h
  | recover =>
    simp only [opStart, recStart] at h
    split at h <;> cases h <;> rfl
  | _ => cases h; rfl

/-! ## The register a modify in progress is of -/

/-- The register that the modify of a progress is of; the other transactions of the block are reads (R61, R69). -/
def Prog.register (m : ChipLayout) : Prog → Option Nat
  | .ovrClear _ _ => some m.eflg
  | .recModify _ => some m.canctrl
  | .flagClear _ => some m.canintf
  | _ => none

theorem opStep_chip_of_reads {who : Issuer} {p : Prog} {s t : State} (hp : p.register s.par.layout = none)
    (h : (opStep who p s).state = some t) : t.chip = s.chip := by
  cases p with
  | rxHeader b j =>
    simp only [opStep, rxHeaderStep] at h
    rcases hr : s.blockRead (headerAddr s.par.layout b j) with ⟨_ | v, u⟩ <;> rw [hr] at h <;> dsimp only at h
    · cases h; exact blockRead_chip hr
    · split at h
      · cases h; exact blockRead_store_chip hr ..
      · exact (rxHeaderDone_chip h).trans (blockRead_store_chip hr ..)
  | rxCtrl b n =>
    simp only [opStep, rxCtrlStep] at h
    rcases hr : s.blockRead (s.par.layout.rxbBase b) with ⟨_ | v, u⟩ <;> rw [hr] at h <;> dsimp only at h
    · cases h; exact blockRead_chip hr
    · exact (rxNext_chip h).trans (blockRead_store_chip hr ..)
  | rxData b n i =>
    simp only [opStep, rxDataStep] at h
    rcases hr : s.blockRead (dataAddr s.par.layout b i) with ⟨_ | v, u⟩ <;> rw [hr] at h <;> dsimp only at h
    · cases h; exact blockRead_chip hr
    · exact (rxNext_chip h).trans (blockRead_store_chip hr ..)
  | snapEflg =>
    simp only [opStep, snapEflgStep] at h
    rcases hr : s.blockRead s.par.layout.eflg with ⟨_ | v, u⟩ <;> rw [hr] at h <;> cases h <;> exact blockRead_chip hr
  | snapTec e =>
    simp only [opStep, snapTecStep] at h
    rcases hr : s.blockRead s.par.layout.tec with ⟨_ | v, u⟩ <;> rw [hr] at h <;> cases h <;> exact blockRead_chip hr
  | snapRec e c =>
    simp only [opStep, snapRecStep] at h
    rcases hr : s.blockRead s.par.layout.recCounter with ⟨_ | v, u⟩ <;> rw [hr] at h <;>
      have hu := blockRead_chip hr <;> cases h <;> exact hu
  | classify => exact classifyOp_chip h
  | recPoll p => exact recPollStep_chip h
  | recWait p c =>
    simp only [opStep, recWaitStep] at h
    split at h
    · exact recPollStep_chip h
    · cases h
  | recEflg p =>
    simp only [opStep, recEflgStep] at h
    rcases hr : s.blockRead s.par.layout.eflg with ⟨_ | v, u⟩ <;> rw [hr] at h <;> dsimp only at h
    all_goals have hu := blockRead_chip hr
    · exact (recFail_chip h).trans hu
    · split at h
      · exact (recFail_chip h).trans hu
      · cases h; exact hu
  | ovrClear => cases hp
  | recModify => cases hp
  | flagClear => cases hp

theorem modStep_chipByte_other {s t : State} {a b : Nat} {m v : Byte} {st : ModStage} (hb : a ≠ b)
    (h : (∃ st', s.modStep a m v st = .more st' t) ∨ ∃ ok, s.modStep a m v st = .done ok t) :
    t.chipByte b = s.chipByte b := by
  obtain ⟨bus, x, rfl | ⟨w, rfl⟩⟩ := modStep_putByte h
  · rfl
  · exact State.chipByte_putByte_other _ hb w

/-- A step of an operation leaves every chip register but the one its modify is of. -/
theorem opStep_chipByte {who : Issuer} {p : Prog} {s t : State} {a : Nat} (ha : p.register s.par.layout ≠ some a)
    (h : (opStep who p s).state = some t) : t.chipByte a = s.chipByte a := by
  have reads (hp : p.register s.par.layout = none) : t.chipByte a = s.chipByte a :=
    State.chipByte_congr (opStep_chip_of_reads hp h) (opStep_frame h).epoch a
  cases p with
  | ovrClear b m =>
    have ha : s.par.layout.eflg ≠ a := fun hr => ha (congrArg some hr)
    simp only [opStep, ovrClearStep] at h
    rcases hr : s.modStep s.par.layout.eflg (ovrMask s.par.layout b) 0x00 m with ⟨m', u⟩ | ⟨_ | _, u⟩ <;>
      rw [hr] at h <;> cases h
    · exact modStep_chipByte_other ha (.inl ⟨_, hr⟩)
    all_goals exact modStep_chipByte_other ha (.inr ⟨_, hr⟩)
  | recModify m =>
    have ha : s.par.layout.canctrl ≠ a := fun hr => ha (congrArg some hr)
    simp only [opStep, recModifyStep] at h
    rcases hr : s.modStep s.par.layout.canctrl (reqopMask s.par.layout) (reqopField s.par.layout .normal) m
      with ⟨m', u⟩ | ⟨ok, u⟩ <;> rw [hr] at h
    · cases h; exact modStep_chipByte_other ha (.inl ⟨_, hr⟩)
    · have hu := modStep_chipByte_other ha (.inr ⟨_, hr⟩)
      cases ok <;> cases h <;> exact hu
  | flagClear m =>
    have ha : s.par.layout.canintf ≠ a := fun hr => ha (congrArg some hr)
    simp only [opStep, flagClearStep] at h
    rcases hr : s.modStep s.par.layout.canintf s.hmask 0x00 m with ⟨m', u⟩ | ⟨_ | _, u⟩ <;> rw [hr] at h <;> cases h
    · exact modStep_chipByte_other ha (.inl ⟨_, hr⟩)
    all_goals exact modStep_chipByte_other ha (.inr ⟨_, hr⟩)
  | _ => exact reads rfl

/-! ## CANINTF -/

/-- From `s` to `t` CANINTF is as before. -/
def State.KeepsFlags (s t : State) : Prop := t.chipByte s.par.layout.canintf = s.chipByte s.par.layout.canintf

theorem State.KeepsFlags.of_chip {s t : State} (hc : t.chip = s.chip) (he : t.epoch = s.epoch) : s.KeepsFlags t :=
  State.chipByte_congr hc he _

/-- Only a pass's final clear modifies CANINTF; every operation that has a client's request leaves it (R205). -/
theorem opStep_keepsFlags {who : Issuer} {p : Prog} {s t : State} (hm : s.layoutInv) (hp : p.op ≠ none)
    (h : (opStep who p s).state = some t) : s.KeepsFlags t := by
  obtain ⟨-, ⟨-, -, -, hctrl, -⟩, -, -, -, heflg⟩ := wf_registers hm
  refine opStep_chipByte ?_ h
  cases p with
  | ovrClear => simpa [Prog.register] using heflg.symm
  | recModify => simpa [Prog.register] using hctrl
  | flagClear => exact absurd rfl hp
  | _ => exact nofun

theorem opStart_keepsFlags {op : LockOp} {s t : State} (h : (opStart op s).state = some t) : s.KeepsFlags t :=
  .of_chip (opStart_chip h) (opStart_frame (who := .client) h).epoch

theorem innerStep_keepsFlags {op : LockOp} {s t : State} (hm : s.layoutInv)
    (hp : ∀ p, s.dprog = some p → p.op ≠ none) (h : (innerStep op s).state = some t) : s.KeepsFlags t := by
  unfold innerStep at h
  split at h
  · next p hd => exact opStep_keepsFlags hm (hp p hd) h
  · rcases ho : opStart op s with ⟨p, u⟩ | ⟨r, u⟩ | _ <;> rw [ho] at h <;> dsimp only at h
    · have hu : (opStart op s).state = some u := by rw [ho]; rfl
      have hpar : u.par = s.par := (opStart_frame (who := .dispatcher) hu).par
      have hop : p.op ≠ none := by rw [(opStart_running ho).1]; simp
      have ht : t.chipByte u.par.layout.canintf = u.chipByte u.par.layout.canintf :=
        opStep_keepsFlags (s := u) (by rw [State.layoutInv, hpar]; exact hm) hop h
      rw [hpar] at ht
      exact ht.trans (opStart_keepsFlags hu)
    · exact opStart_keepsFlags (op := op) (by rw [ho]; exact h)
    · cases h

theorem State.OwnWrites.keepsFlags {s t : State} (h : s.OwnWrites t) : s.KeepsFlags t := by
  obtain ⟨_, _, _, _, _, _, _, _, _, _, _, _, _, rfl⟩ := h
  rfl

theorem innerAfter_keepsFlags {fin : OpResult → State → State} {o : OpOut} {s t : State}
    (hf : ∀ r (u : State), u.OwnWrites (fin r u)) (ho : ∀ u, o.state = some u → s.KeepsFlags u)
    (h : innerAfter fin o = some t) : s.KeepsFlags t := by
  obtain ⟨u, hu, _, _, _, _, _, _, _, _, _, _, _, _, _, rfl⟩ := innerAfter_ownWrites hf h
  exact ho u hu

theorem portAfter_keepsFlags {o : OpOut} {s t : State} (ho : ∀ u, o.state = some u → s.KeepsFlags u)
    (h : portAfter o = some t) : s.KeepsFlags t := by
  obtain ⟨_, u, rfl, rfl⟩ | ⟨_, u, rfl, rfl⟩ := portAfter_cases h <;> exact ho u rfl

/-- A step of the port leaves CANINTF: the port never runs a pass's final clear. -/
theorem portStep_keepsFlags {s t : State} (hm : s.layoutInv) (hprog : s.progInv) (h : portStep s = some t) :
    s.KeepsFlags t := by
  obtain ⟨op, -, -, ha⟩ | ⟨-, -, -, rfl⟩ | ⟨p, hp, ha⟩ := portStep_cases h
  · exact portAfter_keepsFlags (fun _ hu => opStart_keepsFlags (s := { s with lock := .client s.client }) hu) ha
  · rfl
  · exact portAfter_keepsFlags
      (fun _ hu => opStep_keepsFlags hm ((State.progInv_iff.mp hprog).2 p hp).1 hu) ha

/-- Outside CLR the dispatcher has no final clear in progress. -/
theorem op_of_progInv {s : State} (h : s.progInv) (hd : s.dstate ≠ .clr) {p : Prog} (hp : s.dprog = some p) :
    p.op ≠ none := by
  intro hnone
  have hrun := (progFits_iff.mp (h.1 p hp).1).2
  rw [hnone] at hrun
  cases hs : s.dstate <;> rw [hs] at hrun hd
  case clr => exact hd rfl
  all_goals cases hrun

/-- Outside CLR a step of the dispatcher leaves CANINTF. -/
theorem dispStep_keepsFlags {s t : State} (hm : s.layoutInv) (hprog : s.progInv) (hclr : s.dstate ≠ .clr)
    (h : dispStep s = some t) : s.KeepsFlags t := by
  have hop := fun p => op_of_progInv (p := p) hprog hclr
  have inner {fin : OpResult → State → State} {op : LockOp} (hf : ∀ r (u : State), u.OwnWrites (fin r u))
      (h : innerAfter fin (innerStep op s) = some t) : s.KeepsFlags t :=
    innerAfter_keepsFlags hf (fun _ hu => innerStep_keepsFlags hm hop hu) h
  have going {fin : OpResult → State → State} {p : Prog} (hp : p.op ≠ none)
      (hf : ∀ r (u : State), u.OwnWrites (fin r u)) (h : innerAfter fin (opStep .dispatcher p s) = some t) :
      s.KeepsFlags t :=
    innerAfter_keepsFlags hf (fun _ hu => opStep_keepsFlags hm hp hu) h
  have rx {b : Buf} (h : rxStep b s = some t) : s.KeepsFlags t := by
    unfold rxStep at h
    split at h
    · exact inner (rxEnd_ownWrites b) h
    · cases h; cases b <;> rfl
  unfold dispStep at h
  cases hd : s.dstate <;> simp only [hd] at h
  case idle =>
    unfold idleStep at h
    split at h
    · cases h; rfl
    · split at h <;> cases h
      rfl
  case acq =>
    unfold acqStep at h
    split at h <;> cases h
    rfl
  case readf =>
    cases h
    unfold readfStep
    rcases hr : s.blockRead s.par.layout.canintf with ⟨_ | v, u⟩
    all_goals
      have hu : s.KeepsFlags u := .of_chip (blockRead_chip hr) (OpFrame.blockRead .dispatcher hr).epoch
      exact hu
  case rx0 => exact rx h
  case rx1 => exact rx h
  case txs => cases h; exact (txsStep_ownWrites s).keepsFlags
  case errs =>
    unfold errsStep at h
    split at h
    · split at h
      · exact going (p := .classify) nofun errEnd_ownWrites h
      · exact inner snapEnd_ownWrites h
    · cases h; rfl
  case recs =>
    unfold recsStep at h
    split at h
    · exact inner recEnd_ownWrites h
    · cases h; rfl
  case ovrs =>
    unfold ovrsStep at h
    split at h
    · next p hp => exact going (hop p hp) (ovrEnd_ownWrites _) h
    · split at h
      · split at h
        · exact inner (ovrEnd_ownWrites _) h
        · split at h
          · exact inner (ovrEnd_ownWrites _) h
          · cases h; exact (ovrsEnd_ownWrites s).keepsFlags
      · cases h; exact (ovrsEnd_ownWrites s).keepsFlags
  case wakes => cases h; exact (wakesStep_ownWrites s).keepsFlags
  case clr => exact absurd hd hclr
  case rel => cases h; rfl

/-- From `s` to `t` CANINTF is as before or has lost what HMASK holds. -/
def State.ClearsHandled (s t : State) : Prop :=
  t.chipByte s.par.layout.canintf = s.chipByte s.par.layout.canintf ∨
    t.chipByte s.par.layout.canintf = s.chipByte s.par.layout.canintf &&& ~~~s.hmask

/-- A native clear of the handled flags lands whole or not at all (R62, R205). -/
theorem flagClear_clearsHandled {m : ModStage} {s t : State} (hm : s.layoutInv) (hn : s.par.nativeBitModify = true)
    (h : (opStep .dispatcher (.flagClear m) s).state = some t) : s.ClearsHandled t := by
  have landed {u : State} (hu : (∃ st', s.modStep s.par.layout.canintf s.hmask 0x00 m = .more st' u) ∨
      ∃ ok, s.modStep s.par.layout.canintf s.hmask 0x00 m = .done ok u) : s.ClearsHandled u := by
    obtain ⟨bus, x, hnative, -⟩ := State.modStep_spec hu
    obtain ⟨-, rfl | rfl⟩ := hnative hn
    · exact .inl rfl
    · have hcleared : modified (s.chipByte s.par.layout.canintf) s.hmask 0x00 =
          s.chipByte s.par.layout.canintf &&& ~~~s.hmask := by simp [modified]
      exact .inr ((State.chipByte_modifyReg _ _ _ _ _).trans
        ((if_pos rfl).trans ((written_canintf hm _ _).trans hcleared)))
  simp only [opStep, flagClearStep] at h
  rcases hr : s.modStep s.par.layout.canintf s.hmask 0x00 m with ⟨m', u⟩ | ⟨_ | _, u⟩ <;> rw [hr] at h <;> cases h
  · exact landed (.inl ⟨_, hr⟩)
  all_goals exact landed (.inr ⟨_, hr⟩)

/-- CLR runs the final clear, of a progress or from its beginning, or has nothing to clear (R205). -/
theorem clrStep_clearsHandled {s t : State} (hm : s.layoutInv) (hn : s.par.nativeBitModify = true) (hprog : s.progInv)
    (hd : s.dstate = .clr) (h : clrStep s = some t) : s.ClearsHandled t := by
  have clear {m : ModStage} (h : innerAfter clrEnd (opStep .dispatcher (.flagClear m) s) = some t) :
      s.ClearsHandled t := by
    obtain ⟨u, hu, _, _, _, _, _, _, _, _, _, _, _, _, _, rfl⟩ := innerAfter_ownWrites clrEnd_ownWrites h
    have hcleared := flagClear_clearsHandled hm hn hu
    exact hcleared
  unfold clrStep at h
  split at h
  · next p hp =>
    have hfit := (hprog.1 p hp).1
    rw [hd] at hfit
    cases p with
    | flagClear m => exact clear h
    | _ => cases hfit
  · split at h
    · exact clear (m := s.modStart) h
    · cases h; exact .inl rfl

/-- Settles O53: outside CLR a step has no modify of CANINTF, and CLR's clears HMASK or does not land. -/
theorem flagsClearedOnlyAtClr : Obligations.FlagsClearedOnlyAtClr := by
  intro s t hn hprog hm
  refine ⟨fun h => ?_, portStep_keepsFlags hm hprog⟩
  by_cases hclr : s.dstate = .clr
  · have hstep : clrStep s = some t := by rwa [dispStep, hclr] at h
    exact (clrStep_clearsHandled hm hn hprog hclr hstep).imp_right (And.intro hclr)
  · exact .inl (dispStep_keepsFlags hm hprog hclr h)

end Sys2Proof.Machine

/-!
SUPPORT. RXREAD one of whose reads fails on all its attempts, for a client and inside a pass: which read comes at which
place, and what the reads before the failing one leave.
-/

namespace Sys2Proof.Machine

/-! ## The reads of RXREAD by their place -/

/-- How many reads RXREAD issues of a frame of data length `n` (R135). -/
def rxReads (src : RtrSource) (n : Nat) : Nat := 5 + (if src = .rxctrl then 1 else 0) + n

/-- The offset in the buffer of RXREAD's read at place `i`, from 0 (R134). -/
def rxOffset (src : RtrSource) (i : Nat) : Nat :=
  if i < 5 then i + 1 else
    match src with
    | .dlcByte => i + 1
    | .rxctrl => if i = 5 then 0 else i

/-- The address of RXREAD's read at place `i`. -/
def rxAddress (m : ChipLayout) (src : RtrSource) (b : Buf) (i : Nat) : Nat := m.rxbBase b + rxOffset src i

/-- The place of the read of data byte `c` (R134). -/
def rxDataPlace (src : RtrSource) (c : Nat) : Nat := 5 + (if src = .rxctrl then 1 else 0) + c

theorem rxDataIndex_eq (src : RtrSource) (c : Nat) : rxDataIndex src c = rxDataPlace src c + 1 := by
  cases src <;> simp only [rxDataIndex, rxDataPlace, reduceCtorEq, if_true, if_false] <;> omega

theorem rxOffset_header (src : RtrSource) {i : Nat} (h : i < 5) : rxOffset src i = i + 1 := if_pos h

theorem rxOffset_data (src : RtrSource) (c : Nat) : rxOffset src (rxDataPlace src c) = c + 6 := by
  cases src <;> simp only [rxOffset, rxDataPlace, reduceCtorEq, if_true, if_false] <;> split_ifs <;> omega

theorem rxOffset_lt {src : RtrSource} {n i : Nat} (hn : n ≤ 8) (hi : i < rxReads src n) : rxOffset src i < 14 := by
  unfold rxReads at hi
  cases src <;> simp only [rxOffset, reduceCtorEq, if_true, if_false] at hi ⊢ <;> split_ifs <;> omega

theorem rxAddresses_eq (m : ChipLayout) (src : RtrSource) (b : Buf) (n : Nat) :
    rxAddresses m src b n = (List.range (rxReads src n)).map (rxAddress m src b) := by
  have hdata : ((List.range n).map fun c => rxAddress m src b (rxDataPlace src c)) =
      (List.range n).map fun c => m.rxbBase b + 6 + c :=
    List.map_congr_left fun c _ => by rw [rxAddress, rxOffset_data]; omega
  rw [rxAddresses, rxReads, List.range_add, List.map_append, List.map_map, ← hdata]
  cases src <;> rfl

theorem rxAddresses_length (m : ChipLayout) (src : RtrSource) (b : Buf) (n : Nat) :
    (rxAddresses m src b n).length = rxReads src n := by
  rw [rxAddresses_eq, List.length_map, List.length_range]

theorem rxAddresses_take {m : ChipLayout} {src : RtrSource} {b : Buf} {n k : Nat} (hk : k ≤ rxReads src n) :
    (rxAddresses m src b n).take k = (List.range k).map (rxAddress m src b) := by
  rw [rxAddresses_eq, ← List.map_take, List.take_range, Nat.min_eq_left hk]

/-- RXREAD's read at place `i` comes next at progress `p`; after the header `n` is the data length. -/
inductive RxAt (src : RtrSource) (b : Buf) (n : Fin 9) : Nat → Prog → Prop
  | header (j : Fin 5) : RxAt src b n j (.rxHeader b j)
  | ctrl : src = .rxctrl → RxAt src b n 5 (.rxCtrl b n)
  | data (c : Fin 8) : c.val < n.val → RxAt src b n (rxDataPlace src c) (.rxData b n c)

/-! ## One read -/

/-- RXREAD's read at place `i` fails on all its attempts: its index is one more than its place (R242). -/
theorem rxread_step_fails (who : Issuer) {b : Buf} {n : Fin 9} {i : Nat} {p : Prog} {s : State} {ls : List Bool}
    {rest : List XDraw} (hp : RxAt s.par.rtrSource b n i p) (hl : ls.length = s.par.xferAttempts)
    (hx : s.xport = ls.map XDraw.fail ++ rest) :
    opStep who p s = .done (.transportFailure (i + 1))
      { s.haveRead [rxAddress s.par.layout s.par.rtrSource b i] with xport := rest } := by
  have hread (a : Nat) : s.blockRead a = (none, { s.haveRead [a] with xport := rest }) := State.blockRead_fails s a hl hx
  cases hp with
  | header j =>
    rw [opStep, rxHeaderStep, hread, rxAddress, rxOffset_header _ j.isLt]
    rfl
  | ctrl hs =>
    rw [opStep, rxCtrlStep, hread, hs]
    rfl
  | data c hc =>
    have ha : dataAddr s.par.layout b c = rxAddress s.par.layout s.par.rtrSource b (rxDataPlace s.par.rtrSource c) := by
      rw [dataAddr, rxAddress, rxOffset_data]
      omega
    rw [opStep, rxDataStep, hread, ← ha, ← rxDataIndex_eq]

/-- The state once RXREAD has read register `a` with success into byte `j` of the image register. -/
def State.rxTaken (who : Issuer) (j : Fin 14) (a : Nat) (ds : List XDraw) (s : State) : State :=
  State.storeImage who j (s.chipByte a) { s.haveRead [a] with xport := ds }

theorem rxTaken_par (who : Issuer) (j : Fin 14) (a : Nat) (ds : List XDraw) (s : State) :
    (s.rxTaken who j a ds).par = s.par := State.storeImage_par ..

theorem rxTaken_xport (who : Issuer) (j : Fin 14) (a : Nat) (ds : List XDraw) (s : State) :
    (s.rxTaken who j a ds).xport = ds := State.storeImage_xport ..

theorem rxTaken_chipByte (who : Issuer) (j : Fin 14) (a : Nat) (ds : List XDraw) (s : State) (c : Nat) :
    (s.rxTaken who j a ds).chipByte c = s.chipByte c := State.chipByte_storeImage ..

theorem rxTaken_image (who : Issuer) (j : Fin 14) (a : Nat) (ds : List XDraw) (s : State) :
    (s.rxTaken who j a ds).image who = (s.image who).setByte j (s.chipByte a) := by
  cases who <;> rfl

/-- With data bytes to read, RXREAD goes on to the first or next of them. -/
theorem rxNext_goes_on {who : Issuer} {b : Buf} {n : Fin 9} {i : Nat} {s : State} (hi : i < n.val) :
    rxNext who b n i s = .running (.rxData b n ⟨i, by omega⟩) s :=
  (dif_pos (by omega)).trans (if_pos hi)

/-- With data bytes to read, RXREAD goes on to the first of them, which comes at place `i`. -/
theorem RxAt.first {src : RtrSource} {b : Buf} {n : Fin 9} {i : Nat} (hi : i = rxDataPlace src 0) (hn : 0 < n.val) :
    RxAt src b n i (.rxData b n 0) := hi ▸ .data 0 hn

/-- After a header whose length nibble is `n`, CTRL or the data comes next, if there is more to read (R134). -/
theorem rxHeaderDone_goes_on {who : Issuer} {b : Buf} {n : Fin 9} {s : State}
    (hn : n.val = dlcNibble s.par.layout (s.image who).dlc) (hmore : 5 < rxReads s.par.rtrSource n) :
    ∃ q, RxAt s.par.rtrSource b n 5 q ∧ rxHeaderDone who b s = .running q s := by
  have hlt : dlcNibble s.par.layout (s.image who).dlc < 9 := hn ▸ n.isLt
  obtain rfl : n = ⟨_, hlt⟩ := Fin.ext hn
  rw [rxHeaderDone, dif_pos hlt]
  cases hs : s.par.rtrSource with
  | rxctrl => exact ⟨_, .ctrl rfl, rfl⟩
  | dlcByte =>
    rw [hs] at hmore
    have hfirst : 0 < dlcNibble s.par.layout (s.image who).dlc := Nat.lt_of_add_lt_add_left (n := 5) hmore
    exact ⟨_, .first rfl hfirst, rxNext_goes_on hfirst⟩

/-- RXREAD's read at place `i` succeeds and is not the last: the read at the next place comes next, where after the
header `n` is the length nibble read. -/
theorem rxread_step_succeeds (who : Issuer) {b : Buf} {n : Fin 9} {i : Nat} {p : Prog} {s : State} {ds : List XDraw}
    (hp : RxAt s.par.rtrSource b n i p) (hi : i + 1 < rxReads s.par.rtrSource n) (hx : s.NextOk ds)
    (hn : i = 4 → n.val = dlcNibble s.par.layout (s.chipByte (s.par.layout.rxbBase b + 5)))
    (hj : rxOffset s.par.rtrSource i < 14) :
    ∃ q, RxAt s.par.rtrSource b n (i + 1) q ∧ opStep who p s = .running q
      (s.rxTaken who ⟨rxOffset s.par.rtrSource i, hj⟩ (rxAddress s.par.layout s.par.rtrSource b i) ds) := by
  cases hp with
  | header j =>
    have hread : opStep who (.rxHeader b j) s =
        if h : j.val + 1 < 5 then .running (.rxHeader b ⟨j.val + 1, h⟩)
          (s.rxTaken who ⟨rxOffset s.par.rtrSource j, hj⟩ (rxAddress s.par.layout s.par.rtrSource b j) ds)
        else rxHeaderDone who b
          (s.rxTaken who ⟨rxOffset s.par.rtrSource j, hj⟩ (rxAddress s.par.layout s.par.rtrSource b j) ds) := by
      simp only [opStep, rxHeaderStep, blockRead_of_nextOk hx, State.rxTaken, rxAddress, rxOffset_header _ j.isLt,
        headerAddr]
    by_cases h : j.val + 1 < 5
    · exact ⟨_, .header ⟨j.val + 1, h⟩, hread.trans (dif_pos h)⟩
    · obtain rfl : j = 4 := Fin.ext (by omega)
      obtain ⟨q, hq, hdone⟩ := rxHeaderDone_goes_on (who := who) (b := b) (n := n)
        (s := s.rxTaken who ⟨rxOffset s.par.rtrSource 4, hj⟩ (rxAddress s.par.layout s.par.rtrSource b 4) ds)
        (by rw [rxTaken_par, rxTaken_image]; exact hn rfl) (by rw [rxTaken_par]; exact hi)
      rw [rxTaken_par] at hq
      exact ⟨q, hq, hread.trans ((dif_neg h).trans hdone)⟩
  | ctrl hs =>
    have hread : opStep who (.rxCtrl b n) s = rxNext who b n 0
        (s.rxTaken who ⟨rxOffset s.par.rtrSource 5, hj⟩ (rxAddress s.par.layout s.par.rtrSource b 5) ds) := by
      simp only [opStep, rxCtrlStep, blockRead_of_nextOk hx, State.rxTaken, rxAddress, hs]
      rfl
    rw [hs] at hi
    have hfirst : 0 < n.val := Nat.lt_of_add_lt_add_left (n := 6) hi
    exact ⟨_, .first (by rw [hs]; rfl) hfirst, hread.trans (rxNext_goes_on hfirst)⟩
  | data c hc =>
    have hread : opStep who (.rxData b n c) s = rxNext who b n (c.val + 1)
        (s.rxTaken who ⟨rxOffset s.par.rtrSource (rxDataPlace s.par.rtrSource c), hj⟩
          (rxAddress s.par.layout s.par.rtrSource b (rxDataPlace s.par.rtrSource c)) ds) := by
      have ha : dataAddr s.par.layout b c = s.par.layout.rxbBase b + (c.val + 6) := by
        rw [dataAddr]
        omega
      simp only [opStep, rxDataStep, blockRead_of_nextOk hx, State.rxTaken, rxAddress, rxOffset_data, ha]
    have hnext : c.val + 1 < n.val := Nat.lt_of_add_lt_add_left hi
    exact ⟨_, .data ⟨c.val + 1, by omega⟩ hnext, hread.trans (rxNext_goes_on hnext)⟩

/-! ## From the first read to the failing one -/

/-- The state of an RXREAD that has left `img` in the image register, issued the reads `as`, and used up the draws but
`rest`. -/
def State.rxLeft (who : Issuer) (img : Image) (as : List Nat) (rest : List XDraw) (s : State) : State :=
  State.setImage who img { s.haveRead as with xport := rest }

theorem rxLeft_of_rxTaken (who : Issuer) (img : Image) (j : Fin 14) (a : Nat) (ds : List XDraw) (as : List Nat)
    (rest : List XDraw) (s : State) : (s.rxTaken who j a ds).rxLeft who img as rest = s.rxLeft who img (a :: as) rest := by
  cases who <;> simp [State.rxLeft, State.rxTaken, State.storeImage, State.setImage, State.haveRead, readsBy]

/-- RXREAD whose read at place `i + m` fails, from the read at place `i` on: those between succeed and fill the bytes of
the image register that they are of. -/
theorem rxread_fails_from (who : Issuer) {b : Buf} {n : Fin 9} {par : Params} {ls : List Bool} {rest : List XDraw}
    (hl : ls.length = par.xferAttempts) {m : Nat} :
    ∀ {i : Nat} {p : Prog} {s : State}, s.par = par → RxAt par.rtrSource b n i p → i + m < rxReads par.rtrSource n →
      (4 < i + m → n.val = dlcNibble par.layout (s.chipByte (par.layout.rxbBase b + 5))) →
      s.xport = List.replicate m XDraw.ok ++ (ls.map XDraw.fail ++ rest) →
      ∃ img, OpRuns who (m + 1) p s (.transportFailure (i + m + 1))
          (s.rxLeft who img ((List.range' i (m + 1)).map (rxAddress par.layout par.rtrSource b)) rest) ∧
        ∀ j : Fin 14, img.byte j =
          if par.layout.rxbBase b + j.val ∈ (List.range' i m).map (rxAddress par.layout par.rtrSource b) then
            s.chipByte (par.layout.rxbBase b + j.val)
          else (s.image who).byte j := by
  induction m with
  | zero =>
    rintro i p s rfl hp - - hx
    refine ⟨s.image who, .last ((rxread_step_fails who hp hl hx).trans ?_), fun j => by simp⟩
    cases who <;> rfl
  | succ m ih =>
    rintro i p s rfl hp hi hn hx
    have hj : rxOffset s.par.rtrSource i < 14 := rxOffset_lt (Nat.lt_succ_iff.mp n.isLt) (by omega)
    obtain ⟨q, hq, hstep⟩ := rxread_step_succeeds who hp (by omega) (.inl hx) (fun h => hn (by omega)) hj
    obtain ⟨img, hruns, hbytes⟩ := ih (rxTaken_par ..) hq (by omega)
      (fun h => by rw [rxTaken_chipByte]; exact hn (by omega)) (rxTaken_xport ..)
    rw [rxLeft_of_rxTaken] at hruns
    refine ⟨img, ?_, fun j => ?_⟩
    · rw [List.range'_succ, List.map_cons, show i + (m + 1) + 1 = i + 1 + m + 1 by omega]
      exact .more hstep hruns
    · rw [hbytes, rxTaken_chipByte, rxTaken_image, Image.byte_setByte, List.range'_succ, List.map_cons]
      have hread : j = ⟨rxOffset s.par.rtrSource i, hj⟩ ↔
          s.par.layout.rxbBase b + j.val = rxAddress s.par.layout s.par.rtrSource b i := by
        rw [rxAddress, Nat.add_right_inj, Fin.ext_iff]
      by_cases h : s.par.layout.rxbBase b + j.val = rxAddress s.par.layout s.par.rtrSource b i
      · rw [if_pos (hread.mpr h), ← h, ite_self, if_pos List.mem_cons_self]
      · rw [if_neg (mt hread.mp h)]
        simp only [List.mem_cons, h, false_or]

/-- RXREAD whose read at place `k` fails, those before it having succeeded; the places after the header exist only if
the length nibble is 0 to 8 (R134, R135, R242). -/
theorem rxread_fails_at (who : Issuer) {b : Buf} {n k : Nat} {s : State} {ls : List Bool} {rest : List XDraw}
    (hl : ls.length = s.par.xferAttempts) (hnib : n = dlcNibble s.par.layout (s.rxImage b).dlc)
    (hk : k < (rxAddresses s.par.layout s.par.rtrSource b n).length) (hn : 5 ≤ k → n ≤ 8)
    (hx : s.xport = List.replicate k XDraw.ok ++ ls.map XDraw.fail ++ rest) :
    ∃ img, OpRuns who (k + 1) (.rxHeader b 0) s (.transportFailure (k + 1))
        (s.rxLeft who img ((rxAddresses s.par.layout s.par.rtrSource b n).take (k + 1)) rest) ∧
      ∀ j : Fin 14, img.byte j =
        if s.par.layout.rxbBase b + j.val ∈ (rxAddresses s.par.layout s.par.rtrSource b n).take k then
          s.chipByte (s.par.layout.rxbBase b + j.val)
        else (s.image who).byte j := by
  rw [rxAddresses_length] at hk
  have hplace : 0 + k < rxReads s.par.rtrSource (min n 8) := by
    unfold rxReads at hk ⊢
    omega
  obtain ⟨img, hruns, hbytes⟩ := rxread_fails_from who hl (n := ⟨min n 8, by omega⟩) rfl (.header (b := b) 0) hplace
    (fun h => (Nat.min_eq_left (hn (by omega))).trans hnib) (hx.trans (List.append_assoc ..))
  rw [rxAddresses_take (Nat.le_of_lt hk), rxAddresses_take hk, List.range_eq_range', List.range_eq_range']
  rw [show (0 : Fin 5).val + k + 1 = k + 1 by simp] at hruns
  exact ⟨img, hruns, hbytes⟩

theorem transportFailure_byte_of_lt {k : Nat} (hk : k < 15) :
    (OpResult.transportFailure (k + 1)).byte = BitVec.ofNat 8 ((k + 1) * 16 + 2) := by
  have every : ∀ k : Fin 15, (OpResult.transportFailure (k.val + 1)).byte = BitVec.ofNat 8 ((k.val + 1) * 16 + 2) := by
    decide
  exact every ⟨k, hk⟩

/-- The failing read's index fits RESULT: RXREAD issues at most 14 reads (R103, R135). -/
theorem rx_place_lt {m : ChipLayout} {src : RtrSource} {b : Buf} {n k : Nat}
    (hk : k < (rxAddresses m src b n).length) (hn : 5 ≤ k → n ≤ 8) : k < 14 := by
  rw [rxAddresses_length, rxReads] at hk
  split at hk <;> omega

/-- Settles O20: the run that ends with the failing read. -/
theorem rxreadTransportFailure : Obligations.RxreadTransportFailure := by
  intro s b n k ls rest hp ha hl hnib hk hn hx
  obtain ⟨img, hruns, hbytes⟩ := rxread_fails_at .client (s := { s with lock := .client s.client }) hl hnib hk hn hx
  have hlt := rx_place_lt hk hn
  refine ⟨_, exec_lockOp_runs (op := .rxread b) hp ha (by omega) (fun _ => rfl) hruns, ?_, hbytes⟩
  rw [State.raise, transportFailure_byte_of_lt (by omega)]
  simp [State.rxLeft, State.haveRead, hp.1, hp.2]

end Sys2Proof.Machine

/-!
SUPPORT. A pass with one receive flag alone whose RXREAD fails, by its length nibble or by a read: below the retry limit
it leaves the frame for the next pass, at the limit it drops it.
-/

namespace Sys2Proof.Machine

/-! ## RXREAD fails -/

/-- RXREAD of buffer b fails with code byte `c`: its length nibble is above 8, or one of its reads fails on all its
attempts and no draws follow (R134, R135). -/
def State.RxCause (b : Buf) (c : Byte) (s : State) : Prop :=
  (s.xport = [] ∧ 8 < dlcNibble s.par.layout (s.rxImage b).dlc ∧ c = 0x11) ∨
    ∃ (j : Nat) (ls : List Bool),
      j < (rxAddresses s.par.layout s.par.rtrSource b (dlcNibble s.par.layout (s.rxImage b).dlc)).length ∧
      (5 ≤ j → dlcNibble s.par.layout (s.rxImage b).dlc ≤ 8) ∧ ls.length = s.par.xferAttempts ∧
      s.xport = List.replicate j XDraw.ok ++ ls.map XDraw.fail ∧ c = BitVec.ofNat 8 ((j + 1) * 16 + 2)

/-- Its run inside a pass. -/
theorem rxread_fails {b : Buf} {c : Byte} {s : State} (h : s.RxCause b c) :
    ∃ (m : Nat) (r : OpResult) (img : Image) (as : List Nat), m ≤ 14 ∧ r ≠ .ok ∧ r.byte = c ∧
      OpRuns .dispatcher m (.rxHeader b 0) s r (s.rxLeft .dispatcher img as []) := by
  rcases h with ⟨hx, hn, rfl⟩ | ⟨j, ls, hj, hn, hl, hx, rfl⟩
  · exact ⟨5, .invalidLength, rxImageAfter .dlcByte s.dimg (s.rxImage b) 0, rxAddresses s.par.layout .dlcByte b 0,
      by decide, by decide, OpResult.invalidLength_byte, rxread_refuses .dispatcher b s hx hn⟩
  · obtain ⟨img, hruns, -⟩ := rxread_fails_at .dispatcher (rest := []) hl rfl hj hn (by rw [hx, List.append_nil])
    have hlt := rx_place_lt hj hn
    exact ⟨j + 1, _, img, _, hlt, by simp, transportFailure_byte_of_lt (by omega), hruns⟩

/-! ## What the pass does with it -/

/-- The record of a failed RXREAD of code byte `c`: a retry with the new count below the limit, a drop at it (R196). -/
def State.rxFailRecord (b : Buf) (c : Byte) (s : State) : Record :=
  if s.rxretry b < s.par.rxRetryLimit then ⟨.rxDecodeFail, bufIndex b, c, countByte (s.rxretry b + 1), 0⟩
  else ⟨.rxDropped, bufIndex b, c, 0, 0⟩

/-- The retry count that a failed RXREAD leaves (R196). -/
def State.rxCountAfter (b : Buf) (s : State) : Nat :=
  if s.rxretry b < s.par.rxRetryLimit then s.rxretry b + 1 else 0

/-- HMASK once RXREAD has failed: a dropped frame's flag is handled (R196). -/
def State.rxMaskAfter (b : Buf) (s : State) : Byte :=
  if s.rxretry b < s.par.rxRetryLimit then s.hmask else s.hmask ||| rxFlag s.par.layout b

theorem rxEnd_of_failed {b : Buf} {r : OpResult} (hr : r ≠ .ok) (s : State) :
    rxEnd b r s =
      State.setRxretry b (s.rxCountAfter b)
        { s with
          dstate := afterRx b, hmask := s.rxMaskAfter b, evlog := s.evlog ++ [s.rxFailRecord b r.byte] } := by
  have hfail : rxEnd b r s = rxFailed b r { s with dstate := afterRx b } := by
    cases r with
    | ok => exact absurd rfl hr
    | _ => rfl
  have hretry : State.rxretry b { s with dstate := afterRx b } = s.rxretry b := by cases b <;> rfl
  rw [hfail, rxFailed, hretry, State.rxCountAfter, State.rxMaskAfter, State.rxFailRecord]
  split <;> cases b <;> rfl

/-- The state in TXS once RXREAD of buffer b has failed with code byte `c` and the other buffer had no flag. -/
def State.rxRefused (b : Buf) (c : Byte) (s : State) : State :=
  { s with
    dstate := .txs, hmask := s.rxMaskAfter b, evlog := s.evlog ++ [s.rxFailRecord b c]
    rxretry0 := if b = .rx0 then s.rxCountAfter b else 0
    rxretry1 := if b = .rx1 then s.rxCountAfter b else 0 }

/-- Where one receive flag alone is set, its RXREAD fails and the other buffer is passed over. -/
theorem pass_fails_rx {b : Buf} {c : Byte} {s : State} (hd : s.dstate = .rx0) (hp : s.dprog = none) (ha : s.agenda = [])
    (hf : ∀ b', rxFlagSet s.par.layout b' s.flags = decide (b' = b)) (hcause : s.RxCause b c) :
    ∃ (m : Nat) (img : Image) (bus : List BusEntry), m ≤ 15 ∧
      PassRuns m s { s.rxRefused b c with dimg := img, bus := bus, xport := [] } := by
  cases b with
  | rx0 =>
    obtain ⟨m, r, img, as, hm, hr, rfl, hruns⟩ := rxread_fails hcause
    have hread := pass_reads_rx (b := .rx0) hd hp ha (hf .rx0) hruns
    rw [rxEnd_of_failed hr] at hread
    exact ⟨m + 1, img, _, by omega, hread.trans (pass_skips_rx (b := .rx1) rfl ha (hf .rx1))⟩
  | rx1 =>
    have hskip := pass_skips_rx (b := .rx0) hd ha (hf .rx0)
    obtain ⟨m, r, img, as, hm, hr, rfl, hruns⟩ :=
      rxread_fails (b := .rx1) (c := c) (s := { s.setRxretry .rx0 0 with dstate := .rx1 }) hcause
    have hread := pass_reads_rx (s := { s.setRxretry .rx0 0 with dstate := .rx1 }) rfl hp ha (hf .rx1) hruns
    rw [rxEnd_of_failed hr] at hread
    exact ⟨1 + m, img, _, by omega, hskip.trans hread⟩

/-! ## The pass -/

/-- A pass reads the flags where its next transaction succeeds. -/
theorem pass_reads_of_nextOk {k : PassKind} {s : State} {ds : List XDraw} (hp : s.passReady k) (ha : s.agenda = [])
    (hx : s.NextOk ds) : PassRuns 3 s { s.flagged k with xport := ds } := by
  refine (pass_acquires hp ha).trans (PassRuns.step ?_ ha (by simp [State.flagged]))
  show some (readfStep _) = _
  rw [readfStep, blockRead_of_nextOk (s := s.acquired k) hx]
  simp [State.acquired, State.flagged, State.emit, State.chipByte, State.haveRead, readsBy]

/-- What a pass that has started with HMASK empty handles of a failed RXREAD (R196). -/
def State.rxHandled (b : Buf) (s : State) : Byte :=
  if s.rxretry b < s.par.rxRetryLimit then 0x00 else rxFlag s.par.layout b

theorem rxMaskAfter_flagged (k : PassKind) (b : Buf) (ds : List XDraw) (s : State) :
    State.rxMaskAfter b { s.flagged k with xport := ds } = s.rxHandled b := by
  have hzero : 0x00 ||| rxFlag s.par.layout b = rxFlag s.par.layout b := BitVec.zero_or
  rw [State.rxHandled, ← hzero]
  cases b <;> rfl

theorem rxCountAfter_flagged (k : PassKind) (b : Buf) (ds : List XDraw) (s : State) :
    State.rxCountAfter b { s.flagged k with xport := ds } = s.rxCountAfter b := by cases b <;> rfl

theorem rxFailRecord_flagged (k : PassKind) (b : Buf) (c : Byte) (ds : List XDraw) (s : State) :
    State.rxFailRecord b c { s.flagged k with xport := ds } = s.rxFailRecord b c := by cases b <;> rfl

/-- A pass that finds one receive flag alone and no recovery pending, and whose RXREAD fails, retries the frame later or
drops it, clears what it has handled and ends. -/
theorem exec_pass_fails_rx {k : PassKind} {b : Buf} {c : Byte} {s : State} {ds : List XDraw} (hp : s.passReady k)
    (ha : s.agenda = []) (hx : s.NextOk ds) (hm : s.layoutInv) (hrec : s.recpend = false)
    (hset : ∀ b', rxFlagSet s.par.layout b' (s.chipByte s.par.layout.canintf) = decide (b' = b))
    (honly : OnlyRx s.par.layout (s.chipByte s.par.layout.canintf))
    (hcause : State.RxCause b c { s with xport := ds }) :
    ∃ t : State, exec (passInstr k) s = .next t ∧ t.dstate = .idle ∧ t.lock = .free ∧ t.rxq = s.rxq ∧
      t.dfout = s.dfout ∧ s.sameClient t ∧ t.hmask = s.rxHandled b ∧ t.rxretry b = s.rxCountAfter b ∧
      (∀ a, t.chipByte a =
        if a = s.par.layout.canintf then s.chipByte s.par.layout.canintf &&& ~~~s.rxHandled b else s.chipByte a) ∧
      t.evlog = s.evlog ++
        [⟨.passStart, k.code, 0, 0, 0⟩, ⟨.flagsRead, s.chipByte s.par.layout.canintf, 0, 0, 0⟩, s.rxFailRecord b c] ++
        (if s.rxHandled b = 0 then [] else [⟨.flagsCleared, s.rxHandled b, 0, 0, 0⟩]) ++
        [⟨.passEnd, s.rxHandled b, 0, 0, 0⟩] := by
  obtain ⟨m, img, bus, hm15, hfail⟩ :=
    pass_fails_rx (s := { s.flagged k with xport := ds }) rfl hp.2.1 ha hset hcause
  have hclr := ((pass_reads_of_nextOk hp ha hx).trans hfail).trans (pass_skips_to_clr rfl hp.2.1 ha hrec honly)
  obtain ⟨t, hexec, ht, hbytes⟩ := exec_pass_from_clr hp hclr (by omega) hm rfl hp.2.1 ⟨ha, rfl⟩
  simp only [State.rxRefused, rxMaskAfter_flagged, rxCountAfter_flagged, rxFailRecord_flagged] at ht hbytes
  have hcount : t.rxretry b = s.rxCountAfter b := by
    rw [ht]
    cases b <;> rfl
  have hlog := congrArg State.evlog ht
  refine ⟨t, hexec, congrArg State.dstate ht, congrArg State.lock ht,
    (congrArg State.rxq ht).trans rfl, (congrArg State.dfout ht).trans rfl, ?_, congrArg State.hmask ht, hcount,
    hbytes, hlog.trans ?_⟩
  · rw [ht]
    simp [State.sameClient, State.flagged, State.acquired]
  · simp [State.flagged, State.acquired]

/-- In the default layout, CANINTF 0x01 or 0x02 is the flag of its buffer. -/
theorem canintf_rxFlag_mcp2515 {b : Buf} {s : State} (hl : s.par.layout = mcp2515)
    (h : s.chipByte 0x2C = match b with | .rx0 => 0x01 | .rx1 => 0x02) :
    rxFlag s.par.layout b = s.chipByte 0x2C ∧ s.chipByte 0x2C ≠ 0 := by
  rw [h, hl, rxFlag_mcp2515]
  cases b <;> simp

/-- A retry count's byte is exact up to 255. -/
theorem countByte_succ (n : Nat) :
    countByte (n + 1) = if n < 255 then BitVec.ofNat 8 (n + 1) else Config.wideCount (n + 1) :=
  if_congr Nat.succ_lt_succ_iff rfl rfl

/-- Settles O40: the pass fails its RXREAD; below the limit it has nothing to clear, at the limit it clears the flag. -/
theorem passRetriesThenDrops : Obligations.PassRetriesThenDrops := by
  intro s k b n c hp ha hl hrec hflags hnib hcause
  obtain ⟨hset, honly⟩ := rxAlone_mcp2515 hl hflags
  obtain ⟨hflag, hne⟩ := canintf_rxFlag_mcp2515 hl hflags
  have hm : s.layoutInv := by rw [State.layoutInv, hl]; exact mcp2515_wf
  have hnibble : n = dlcNibble s.par.layout (s.rxImage b).dlc := hl ▸ hnib
  have hc : s.par.layout.canintf = 0x2C := congrArg ChipLayout.canintf hl
  obtain ⟨ds, hx, hcause⟩ : ∃ ds, s.NextOk ds ∧ State.RxCause b c { s with xport := ds } := by
    subst hnibble
    rcases hcause with ⟨hx, hn, rfl⟩ | ⟨j, ls, hj, hn, hlen, hx, rfl⟩
    · exact ⟨[], .inr ⟨hx, rfl⟩, .inl ⟨rfl, hn, rfl⟩⟩
    · exact ⟨_, .inl hx, .inr ⟨j, ls, hj, hn, hlen, rfl, rfl⟩⟩
  obtain ⟨t, hexec, hidle, hlock, hrxq, hdfout, hclient, hmask, hcount, hbytes, hlog⟩ :=
    exec_pass_fails_rx hp ha hx hm hrec hset honly hcause
  rw [hc] at hbytes hlog
  refine ⟨t, hexec, hidle, hlock, hrxq, hdfout, hclient, fun hlimit => ?_, fun hlimit => ?_⟩
  · have hnone : s.rxHandled b = 0x00 := if_pos hlimit
    have hkeep (x : Byte) : x &&& ~~~(0x00 : Byte) = x := BitVec.and_allOnes
    rw [State.rxFailRecord, if_pos hlimit, countByte_succ, hnone, if_pos rfl] at hlog
    refine ⟨hmask.trans hnone, hcount.trans (if_pos hlimit), fun a => (hbytes a).trans ?_, by simpa using hlog⟩
    rw [hnone, hkeep]
    split
    · next h => rw [h]
    · rfl
  · have hdropped : s.rxHandled b = s.chipByte 0x2C := (if_neg (Nat.not_lt.mpr hlimit)).trans hflag
    rw [State.rxFailRecord, if_neg (Nat.not_lt.mpr hlimit), hdropped, if_neg hne] at hlog
    refine ⟨hmask.trans hdropped, hcount.trans (if_neg (Nat.not_lt.mpr hlimit)), fun a => (hbytes a).trans ?_,
      by simpa using hlog⟩
    rw [hdropped, BitVec.and_not_self]

end Sys2Proof.Machine
